-- ==== Sys2Proof/Word.lean ====
section
/-! DEFINITION. The word types of the KS4, sparse tables as plain data, and the plain data that an
event of the opcode table carries in from outside the package. -/

namespace Sys2Proof

/-- The smallest addressable unit (R5). -/
abbrev Byte := BitVec 8

/-- One bit per lane, or per byte of a half line, as the rule at hand says. -/
abbrev Half := BitVec 16

/-- A v register of a lane thread (R86). -/
abbrev Word := BitVec 32

/-- An s register of a front thread, an address, or an even/odd pair of v registers (R36, R332). -/
abbrev Quad := BitVec 64

/-- A finite table: pairs of a key and a value, keys strictly rising. -/
abbrev Tab (α : Type) := List (Nat × α)

/-- The unit whose next word the machine runs: an issue warp in an active slot of a quadrant (R90), or
a front thread in a front context of a core (R335). -/
inductive Agent where
  | lane (core quad slot : Nat)
  | front (core fcx : Nat)
  deriving DecidableEq, Repr

/-- What the error check of a read of HBM finds (R222, R286, R453): a physical event, so an input. -/
inductive EccOutcome where
  | clean
  | corrected
  | uncorrectable
  deriving DecidableEq, Repr

/-- What another device asks of a line of this device over a Sidin port (R400, R401). -/
inductive SidinOp where
  | read (len : Nat)
  | write (bytes : List Byte)
  | atomic (op type : BitVec 4) (operand compare : Quad)
  deriving DecidableEq, Repr

/-- A request that arrives from device `dev` over a Sidin port; or, for a line whose home is on another device, what that
home does that this device's copies follow (R400, R401). -/
structure SidinReq where
  dev : Nat
  pa  : Nat
  op  : SidinOp
  deriving DecidableEq, Repr

/-- How the host answers a device request for a host line (R462). -/
inductive HostAnswer where
  | data (bytes : List Byte)
  | poisoned
  | accepted
  | lost
  deriving DecidableEq, Repr

/-- Another member's command of a collective, as it stands at the join (R403, R405): its device, its
sub-operation and fields, its leaves, whether it faults after the join, whether a COL command that the member issued
earlier with the same SETMAP is still incomplete on it, and its place among the commands that the member has issued (R411). -/
structure PeerCmd where
  dev    : Nat
  sub    : Nat
  colid  : BitVec 32
  count  : Nat
  op     : Nat
  type   : Nat
  root   : Nat
  leaves : List (List Quad)
  faults : Bool
  earlier : Bool := false
  seq    : Nat := 0
  deriving DecidableEq, Repr

end Sys2Proof
end

