-- ==== Sys2Proof/Config.lean ====
section
/-! DEFINITION. What an implementation of the KS4 fixes and the manual leaves open: free values. Each is a
constant without a body, so no proof can see its value, and a claim about the model holds for every value. -/

namespace Sys2Proof.Config

/-- DESIGN CHOICE (log 8). R159: the result that approximate operation `op` proposes for operand `a`; it is taken
where it lies within the bound of R159. `op` counts FRCP, FRSQ, FEX2, FLG2, FSIN, FCOS, DRCP, DRSQ from 0. -/
opaque approx (op : Nat) (a : Quad) : Quad

/-- DESIGN CHOICE (log 9). R217: which of `ways` lines of a full L1 set is replaced, at the n-th such choice.
"Pseudo-LRU" does not name it. -/
opaque victim (n ways : Nat) : Nat

/-- DESIGN CHOICE (log 9). R437: which of `cap` entries of a full TLB is replaced at time `now`. -/
opaque tlbVictim (now cap : Nat) : Nat

/-- DESIGN CHOICE (log 69). R437: which of the walk units of its stack reads a page table. -/
opaque walkUnit (table : Nat) : Nat

/-- DESIGN CHOICE (log 9). R281: which of the 128 sets of its L2 slice a line takes. -/
opaque l2Set (line : Nat) : Nat

/-- DESIGN CHOICE (log 4). R268: whether an atomic at another place comes between the read and the write of an atomic at time
`now`, where there is one. -/
opaque splitAtomic (now : Nat) : Bool

/-- DESIGN CHOICE (log 4). R270: the 32-bit words of a write-back that merge when its home serves it at time `now`; the others
merge later, if this leaves some of both kinds. -/
opaque splitMerge (now : Nat) : Word

/-- DESIGN CHOICE (log 5). R269: whether the two 64-bit halves of a b128 access issued at time `now` are performed apart. -/
opaque splitWide (now : Nat) : Bool

/-- DESIGN CHOICE (log 10). R285, R453, R454: the HBM row that holds a line. The manual gives no row mapping. -/
opaque rowOf (line : Nat) : Nat

/-- DESIGN CHOICE (log 10). R285: the bank of a row. -/
opaque bankOf (row : Nat) : Nat

/-- DESIGN CHOICE (log 10). R453: the refresh class in ms that the boot test bins a row into: 32, 64 or 128. -/
opaque rowClass (row : Nat) : Nat

/-- DESIGN CHOICE (log 11). R460: the measurement of boot stage n (0 the ROM). -/
opaque measurement (n : Nat) : BitVec 512

/-- DESIGN CHOICE (log 11). R460: the fuse revision. -/
opaque fuseRevision : Word

/-- DESIGN CHOICE (log 11). R460: the Ed448 signature over the SHAKE256 digest of the signed report bytes. -/
opaque signature (report : BitVec 2560) : BitVec 912

/-- DESIGN CHOICE (log 11). R460: byte n of the identity certificate. -/
opaque certificate (n : Nat) : Byte

/-- DESIGN CHOICE (log 12). R371, R413: which bytes of a faulted command's destination hold their new values:
byte `i` of command `id`. -/
opaque wroteBefore (id i : Nat) : Bool

/-- DESIGN CHOICE (log 49). R274: a command moves its bytes in an order of its own. Whether in cycle `now` command `id` reads
its source byte, or makes its elementary write, of number `i`; and whether it has read all and writes. -/
opaque engineMoves (now id i : Nat) : Bool
opaque engineWrites (now id : Nat) : Bool

/-- DESIGN CHOICE (log 15). R425: what the host finds in the byte of the save pool at physical address `pa` at time
`now`. The rule gives neither the place of a save area in the pool nor the fields of its sections. -/
opaque poolByte (now pa : Nat) : Byte

/-- DESIGN CHOICE (log 69). R437: whether at time `now` a walk cache still holds the entry of a page table that it read
at `pa` before. The manual names neither its replacement nor how long it keeps an entry. -/
opaque walkHit (now pa : Nat) : Bool

/-- DESIGN CHOICE (log 45). R459: whether by cycle `now` the energy of island `n` in the window that is open exceeds its budget. -/
opaque overBudget (now n : Nat) : Bool

/-- DESIGN CHOICE (log 3). R222, R368, R439: the manual gives no time for messages, engine commands of the TCE and COL
paths, HBM, walks, skein and procedural services, and the host's commands. Whether the k-th of those that may happen in
cycle `now` is held back to a later cycle: messages have even numbers, events odd ones. -/
opaque heldBack (now k : Nat) : Bool

/-- DESIGN CHOICE (log 3). R31: every store reaches its observers in finite time, which the manual does not bound. In one cycle
of every so many nothing is held back. -/
opaque holdLimit : Nat

end Sys2Proof.Config
end

