-- ==== Sys2Proof/Syntax.lean ====
section
/-! DEFINITION. The syntax of the KS4: one constructor for each row of spec/opcode_table.json. The
first 243 are the words of R41 to R59, their fields in the order of the table; the other 92 are the
events of the package, whose arguments name the unit, the message or the input concerned. -/

namespace Sys2Proof

/-- The rows of the opcode table. -/
inductive Instr where
  /-- R124. Adds two integer sources modulo 2^W. -/
  | iadd (b : BitVec 8) (a : BitVec 8) (n : BitVec 1) (d : BitVec 6)
  /-- R124. Subtracts b from a modulo 2^W. -/
  | isub (b : BitVec 8) (a : BitVec 8) (n : BitVec 1) (d : BitVec 6)
  /-- R124. Subtracts a from b modulo 2^W. -/
  | irsub (b : BitVec 8) (a : BitVec 8) (n : BitVec 1) (d : BitVec 6)
  /-- R124. Adds a, b and bit 0 of the third source modulo 2^W. -/
  | iaddc (b : BitVec 8) (a : BitVec 8) (n : BitVec 1) (d : BitVec 6)
  /-- R126. Low word of the product of a and b. -/
  | imul (b : BitVec 8) (a : BitVec 8) (n : BitVec 1) (d : BitVec 6)
  /-- R126. High word of the signed product. -/
  | imulh (b : BitVec 8) (a : BitVec 8) (n : BitVec 1) (d : BitVec 6)
  /-- R126. High word of the unsigned product. -/
  | nmulh (b : BitVec 8) (a : BitVec 8) (n : BitVec 1) (d : BitVec 6)
  /-- R126. Multiplies a by b and adds the third source modulo 2^W. -/
  | imad (b : BitVec 8) (a : BitVec 8) (n : BitVec 1) (d : BitVec 6)
  /-- R130. Signed minimum of a and b. -/
  | imin (b : BitVec 8) (a : BitVec 8) (n : BitVec 1) (d : BitVec 6)
  /-- R130. Signed maximum of a and b. -/
  | imax (b : BitVec 8) (a : BitVec 8) (n : BitVec 1) (d : BitVec 6)
  /-- R130. Unsigned minimum of a and b. -/
  | nmin (b : BitVec 8) (a : BitVec 8) (n : BitVec 1) (d : BitVec 6)
  /-- R130. Unsigned maximum of a and b. -/
  | nmax (b : BitVec 8) (a : BitVec 8) (n : BitVec 1) (d : BitVec 6)
  /-- R131. Bitwise AND of a and b. -/
  | and32 (b : BitVec 8) (a : BitVec 8) (n : BitVec 1) (d : BitVec 6)
  /-- R131. Bitwise OR of a and b. -/
  | or32 (b : BitVec 8) (a : BitVec 8) (n : BitVec 1) (d : BitVec 6)
  /-- R131. Bitwise exclusive OR of a and b. -/
  | xor32 (b : BitVec 8) (a : BitVec 8) (n : BitVec 1) (d : BitVec 6)
  /-- R131. a AND NOT b. -/
  | andn (b : BitVec 8) (a : BitVec 8) (n : BitVec 1) (d : BitVec 6)
  /-- R133. Logical left shift with saturated count. -/
  | shl (b : BitVec 8) (a : BitVec 8) (n : BitVec 1) (d : BitVec 6)
  /-- R133. Logical right shift with saturated count. -/
  | shr (b : BitVec 8) (a : BitVec 8) (n : BitVec 1) (d : BitVec 6)
  /-- R133. Arithmetic right shift with saturated count. -/
  | sar (b : BitVec 8) (a : BitVec 8) (n : BitVec 1) (d : BitVec 6)
  /-- R133. Rotates a left by b modulo W. -/
  | rotl (b : BitVec 8) (a : BitVec 8) (n : BitVec 1) (d : BitVec 6)
  /-- R135. Extracts a sign-extended bit field. -/
  | bfx (b : BitVec 8) (a : BitVec 8) (n : BitVec 1) (d : BitVec 6)
  /-- R135. Extracts a zero-extended bit field. -/
  | bfxn (b : BitVec 8) (a : BitVec 8) (n : BitVec 1) (d : BitVec 6)
  /-- R135. Inserts the low bits of a into the third source. -/
  | bfi (b : BitVec 8) (a : BitVec 8) (n : BitVec 1) (d : BitVec 6)
  /-- R136. Builds bytes of d from selector nibbles. -/
  | prmt (b : BitVec 8) (a : BitVec 8) (n : BitVec 1) (d : BitVec 6)
  /-- R137. Counts the one bits of a. -/
  | popc (a : BitVec 8) (n : BitVec 1) (d : BitVec 6)
  /-- R137. Counts the leading zero bits of a. -/
  | clz (a : BitVec 8) (n : BitVec 1) (d : BitVec 6)
  /-- R137. Reverses the bits of a. -/
  | brev (a : BitVec 8) (n : BitVec 1) (d : BitVec 6)
  /-- R137. Integer absolute value of a. -/
  | iabs (a : BitVec 8) (n : BitVec 1) (d : BitVec 6)
  /-- R139. Signed 32-bit compare writing a predicate. -/
  | isetpI32 (b : BitVec 8) (a : BitVec 8) (c : BitVec 3) (p : BitVec 3)
  /-- R139. Unsigned 32-bit compare writing a predicate. -/
  | isetpN32 (b : BitVec 8) (a : BitVec 8) (c : BitVec 3) (p : BitVec 3)
  /-- R139. Signed 64-bit compare writing a predicate. -/
  | isetpI64 (b : BitVec 8) (a : BitVec 8) (c : BitVec 3) (p : BitVec 3)
  /-- R139. Unsigned 64-bit compare writing a predicate. -/
  | isetpN64 (b : BitVec 8) (a : BitVec 8) (c : BitVec 3) (p : BitVec 3)
  /-- R138. Copies a source into d. -/
  | mov (a : BitVec 8) (n : BitVec 1) (d : BitVec 6)
  /-- R138. Selects a or b by the EXT.C third source. -/
  | sel (b : BitVec 8) (a : BitVec 8) (n : BitVec 1) (d : BitVec 6)
  /-- R138. Places the low half of a in the high half of d. -/
  | movh (a : BitVec 8) (n : BitVec 1) (d : BitVec 6)
  /-- R140. Combines two predicates through a 4-bit truth table. -/
  | plop (t : BitVec 4) (j : BitVec 1) (y : BitVec 3) (i : BitVec 1) (x : BitVec 3) (p : BitVec 3)
  /-- R124. 64-bit add on register pairs. -/
  | iaddW (b : BitVec 8) (a : BitVec 8) (n : BitVec 1) (d : BitVec 6)
  /-- R124. 64-bit subtract on register pairs. -/
  | isubW (b : BitVec 8) (a : BitVec 8) (n : BitVec 1) (d : BitVec 6)
  /-- R126. 64-bit low product on register pairs. -/
  | imulW (b : BitVec 8) (a : BitVec 8) (n : BitVec 1) (d : BitVec 6)
  /-- R126. 64-bit multiply-add on register pairs. -/
  | imadW (b : BitVec 8) (a : BitVec 8) (n : BitVec 1) (d : BitVec 6)
  /-- R133. 64-bit left shift of a pair. -/
  | shlW (b : BitVec 8) (a : BitVec 8) (n : BitVec 1) (d : BitVec 6)
  /-- R133. 64-bit logical right shift of a pair. -/
  | shrW (b : BitVec 8) (a : BitVec 8) (n : BitVec 1) (d : BitVec 6)
  /-- R133. 64-bit arithmetic right shift of a pair. -/
  | sarW (b : BitVec 8) (a : BitVec 8) (n : BitVec 1) (d : BitVec 6)
  /-- R126. Full 64-bit signed product of two 32-bit sources. -/
  | imulx (b : BitVec 8) (a : BitVec 8) (n : BitVec 1) (d : BitVec 6)
  /-- R127. Signed truncating division. -/
  | idiv (b : BitVec 8) (a : BitVec 8) (n : BitVec 1) (d : BitVec 6)
  /-- R127. Unsigned division. -/
  | ndiv (b : BitVec 8) (a : BitVec 8) (n : BitVec 1) (d : BitVec 6)
  /-- R127. Signed remainder. -/
  | irem (b : BitVec 8) (a : BitVec 8) (n : BitVec 1) (d : BitVec 6)
  /-- R127. Unsigned remainder. -/
  | nrem (b : BitVec 8) (a : BitVec 8) (n : BitVec 1) (d : BitVec 6)
  /-- R125. Signed saturating add. -/
  | iadds (b : BitVec 8) (a : BitVec 8) (n : BitVec 1) (d : BitVec 6)
  /-- R125. Signed saturating subtract. -/
  | isubs (b : BitVec 8) (a : BitVec 8) (n : BitVec 1) (d : BitVec 6)
  /-- R125. Unsigned saturating add. -/
  | nadds (b : BitVec 8) (a : BitVec 8) (n : BitVec 1) (d : BitVec 6)
  /-- R125. Unsigned saturating subtract. -/
  | nsubs (b : BitVec 8) (a : BitVec 8) (n : BitVec 1) (d : BitVec 6)
  /-- R132. Bitwise function of three inputs from an 8-bit truth table. -/
  | logt (b : BitVec 8) (a : BitVec 8) (n : BitVec 1) (d : BitVec 6)
  /-- R131. Merges bits of a and b under mask c. -/
  | bmrg (b : BitVec 8) (a : BitVec 8) (n : BitVec 1) (d : BitVec 6)
  /-- R134. Funnel shift left of a double-width concatenation. -/
  | fshl (b : BitVec 8) (a : BitVec 8) (n : BitVec 1) (d : BitVec 6)
  /-- R134. Funnel shift right of a double-width concatenation. -/
  | fshr (b : BitVec 8) (a : BitVec 8) (n : BitVec 1) (d : BitVec 6)
  /-- R156. FP32 addition rounded once. -/
  | fadd (b : BitVec 8) (a : BitVec 8) (n : BitVec 1) (d : BitVec 6)
  /-- R156. FP32 subtraction rounded once. -/
  | fsub (b : BitVec 8) (a : BitVec 8) (n : BitVec 1) (d : BitVec 6)
  /-- R156. FP32 multiplication rounded once. -/
  | fmul (b : BitVec 8) (a : BitVec 8) (n : BitVec 1) (d : BitVec 6)
  /-- R156. FP32 fused multiply-add. -/
  | ffma (b : BitVec 8) (a : BitVec 8) (n : BitVec 1) (d : BitVec 6)
  /-- R157. FP32 IEEE minimum. -/
  | fmin (b : BitVec 8) (a : BitVec 8) (n : BitVec 1) (d : BitVec 6)
  /-- R157. FP32 IEEE maximum. -/
  | fmax (b : BitVec 8) (a : BitVec 8) (n : BitVec 1) (d : BitVec 6)
  /-- R157. FP32 minimumNumber. -/
  | fminn (b : BitVec 8) (a : BitVec 8) (n : BitVec 1) (d : BitVec 6)
  /-- R157. FP32 maximumNumber. -/
  | fmaxn (b : BitVec 8) (a : BitVec 8) (n : BitVec 1) (d : BitVec 6)
  /-- R158. Quiet FP32 compare writing a predicate. -/
  | fsetp (b : BitVec 8) (a : BitVec 8) (c : BitVec 3) (p : BitVec 3)
  /-- R158. Signalling FP32 compare writing a predicate. -/
  | fsetpSig (b : BitVec 8) (a : BitVec 8) (c : BitVec 3) (p : BitVec 3)
  /-- R156. FP32 division rounded once. -/
  | fdiv (b : BitVec 8) (a : BitVec 8) (n : BitVec 1) (d : BitVec 6)
  /-- R156. FP32 square root rounded once. -/
  | fsqrt (a : BitVec 8) (n : BitVec 1) (d : BitVec 6)
  /-- R159. Approximate FP32 reciprocal. -/
  | frcp (a : BitVec 8) (n : BitVec 1) (d : BitVec 6)
  /-- R159. Approximate FP32 reciprocal square root. -/
  | frsq (a : BitVec 8) (n : BitVec 1) (d : BitVec 6)
  /-- R159. Approximate base-2 exponential. -/
  | fex2 (a : BitVec 8) (n : BitVec 1) (d : BitVec 6)
  /-- R159. Approximate base-2 logarithm. -/
  | flg2 (a : BitVec 8) (n : BitVec 1) (d : BitVec 6)
  /-- R159. Approximate sine. -/
  | fsin (a : BitVec 8) (n : BitVec 1) (d : BitVec 6)
  /-- R159. Approximate cosine. -/
  | fcos (a : BitVec 8) (n : BitVec 1) (d : BitVec 6)
  /-- R161. Clears the FP32 sign bit. -/
  | fabs (a : BitVec 8) (n : BitVec 1) (d : BitVec 6)
  /-- R161. Inverts the FP32 sign bit. -/
  | fneg (a : BitVec 8) (n : BitVec 1) (d : BitVec 6)
  /-- R161. Copies the sign of b onto a. -/
  | fcpys (b : BitVec 8) (a : BitVec 8) (n : BitVec 1) (d : BitVec 6)
  /-- R162. One-hot class of an FP32 value. -/
  | fclass (a : BitVec 8) (n : BitVec 1) (d : BitVec 6)
  /-- R163. Rounds FP32 to an integral value. -/
  | frnd (a : BitVec 8) (n : BitVec 1) (d : BitVec 6)
  /-- R164. Multiplies FP32 by 2^n. -/
  | fscale (b : BitVec 8) (a : BitVec 8) (n : BitVec 1) (d : BitVec 6)
  /-- R165. Unbiased exponent of an FP32 value. -/
  | fexpo (a : BitVec 8) (n : BitVec 1) (d : BitVec 6)
  /-- R156. Packed FP16 addition. -/
  | hadd2 (b : BitVec 8) (a : BitVec 8) (n : BitVec 1) (d : BitVec 6)
  /-- R156. Packed FP16 multiplication. -/
  | hmul2 (b : BitVec 8) (a : BitVec 8) (n : BitVec 1) (d : BitVec 6)
  /-- R156. Packed FP16 fused multiply-add. -/
  | hfma2 (b : BitVec 8) (a : BitVec 8) (n : BitVec 1) (d : BitVec 6)
  /-- R157. Packed FP16 maximum. -/
  | hmax2 (b : BitVec 8) (a : BitVec 8) (n : BitVec 1) (d : BitVec 6)
  /-- R156. Packed BF16 addition. -/
  | badd2 (b : BitVec 8) (a : BitVec 8) (n : BitVec 1) (d : BitVec 6)
  /-- R156. Packed BF16 multiplication. -/
  | bmul2 (b : BitVec 8) (a : BitVec 8) (n : BitVec 1) (d : BitVec 6)
  /-- R156. Packed BF16 fused multiply-add. -/
  | bfma2 (b : BitVec 8) (a : BitVec 8) (n : BitVec 1) (d : BitVec 6)
  /-- R157. Packed BF16 maximum. -/
  | bmax2 (b : BitVec 8) (a : BitVec 8) (n : BitVec 1) (d : BitVec 6)
  /-- R156. FP64 addition. -/
  | dadd (b : BitVec 8) (a : BitVec 8) (n : BitVec 1) (d : BitVec 6)
  /-- R156. FP64 subtraction. -/
  | dsub (b : BitVec 8) (a : BitVec 8) (n : BitVec 1) (d : BitVec 6)
  /-- R156. FP64 multiplication. -/
  | dmul (b : BitVec 8) (a : BitVec 8) (n : BitVec 1) (d : BitVec 6)
  /-- R156. FP64 fused multiply-add. -/
  | dfma (b : BitVec 8) (a : BitVec 8) (n : BitVec 1) (d : BitVec 6)
  /-- R157. FP64 IEEE minimum. -/
  | dmin (b : BitVec 8) (a : BitVec 8) (n : BitVec 1) (d : BitVec 6)
  /-- R157. FP64 IEEE maximum. -/
  | dmax (b : BitVec 8) (a : BitVec 8) (n : BitVec 1) (d : BitVec 6)
  /-- R157. FP64 minimumNumber. -/
  | dminn (b : BitVec 8) (a : BitVec 8) (n : BitVec 1) (d : BitVec 6)
  /-- R157. FP64 maximumNumber. -/
  | dmaxn (b : BitVec 8) (a : BitVec 8) (n : BitVec 1) (d : BitVec 6)
  /-- R158. FP64 compare, quiet or signalling by bit 13, writing a predicate. -/
  | dsetp (b : BitVec 8) (a : BitVec 8) (s : BitVec 1) (c : BitVec 3) (p : BitVec 3)
  /-- R162. One-hot class of an FP64 value. -/
  | dclass (a : BitVec 8) (n : BitVec 1) (d : BitVec 6)
  /-- R161. Clears the FP64 sign bit. -/
  | dabs (a : BitVec 8) (n : BitVec 1) (d : BitVec 6)
  /-- R161. Inverts the FP64 sign bit. -/
  | dneg (a : BitVec 8) (n : BitVec 1) (d : BitVec 6)
  /-- R156. FP64 division. -/
  | ddiv (b : BitVec 8) (a : BitVec 8) (n : BitVec 1) (d : BitVec 6)
  /-- R156. FP64 square root. -/
  | dsqrt (a : BitVec 8) (n : BitVec 1) (d : BitVec 6)
  /-- R159. Approximate FP64 reciprocal. -/
  | drcp (a : BitVec 8) (n : BitVec 1) (d : BitVec 6)
  /-- R159. Approximate FP64 reciprocal square root. -/
  | drsq (a : BitVec 8) (n : BitVec 1) (d : BitVec 6)
  /-- R163. Rounds FP64 to an integral value. -/
  | drnd (a : BitVec 8) (n : BitVec 1) (d : BitVec 6)
  /-- R164. Multiplies FP64 by 2^n. -/
  | dscale (b : BitVec 8) (a : BitVec 8) (n : BitVec 1) (d : BitVec 6)
  /-- R166. Signed 32-bit integer to FP32. -/
  | cvtF32I32 (a : BitVec 8) (n : BitVec 1) (d : BitVec 6)
  /-- R166. Unsigned 32-bit integer to FP32. -/
  | cvtF32N32 (a : BitVec 8) (n : BitVec 1) (d : BitVec 6)
  /-- R168. FP32 to saturated signed 32-bit integer. -/
  | cvtI32F32 (a : BitVec 8) (n : BitVec 1) (d : BitVec 6)
  /-- R168. FP32 to saturated unsigned 32-bit integer. -/
  | cvtN32F32 (a : BitVec 8) (n : BitVec 1) (d : BitVec 6)
  /-- R169. Exact FP32 to FP64 widening. -/
  | cvtF64F32 (a : BitVec 8) (n : BitVec 1) (d : BitVec 6)
  /-- R166. FP64 to FP32 rounding. -/
  | cvtF32F64 (a : BitVec 8) (n : BitVec 1) (d : BitVec 6)
  /-- R166. Signed 64-bit integer to FP64. -/
  | cvtF64I64 (a : BitVec 8) (n : BitVec 1) (d : BitVec 6)
  /-- R168. FP64 to saturated signed 64-bit integer. -/
  | cvtI64F64 (a : BitVec 8) (n : BitVec 1) (d : BitVec 6)
  /-- R166. FP32 to FP16 rounding. -/
  | cvtF16F32 (a : BitVec 8) (n : BitVec 1) (d : BitVec 6)
  /-- R169. Exact FP16 to FP32. -/
  | cvtF32F16 (a : BitVec 8) (n : BitVec 1) (d : BitVec 6)
  /-- R166. FP32 to BF16 rounding. -/
  | cvtBf16F32 (a : BitVec 8) (n : BitVec 1) (d : BitVec 6)
  /-- R169. Exact BF16 to FP32. -/
  | cvtF32Bf16 (a : BitVec 8) (n : BitVec 1) (d : BitVec 6)
  /-- R170. FP32 to FP8 in the format FCTL selects. -/
  | cvtF8F32 (a : BitVec 8) (n : BitVec 1) (d : BitVec 6)
  /-- R170. Exact FP8 to FP32. -/
  | cvtF32F8 (a : BitVec 8) (n : BitVec 1) (d : BitVec 6)
  /-- R171. FP32 to E2M1 rounding. -/
  | cvtE2m1F32 (a : BitVec 8) (n : BitVec 1) (d : BitVec 6)
  /-- R171. E2M1 code to FP32. -/
  | cvtF32E2m1 (a : BitVec 8) (n : BitVec 1) (d : BitVec 6)
  /-- R194. Gathers a predicate across the home warp into a mask. -/
  | ballot (i : BitVec 1) (p : BitVec 3) (d : BitVec 6)
  /-- R195. Predicate true if any participant votes true. -/
  | voteAny (i : BitVec 1) (p : BitVec 3) (q : BitVec 3)
  /-- R195. Predicate true if every participant votes true. -/
  | voteAll (i : BitVec 1) (p : BitVec 3) (q : BitVec 3)
  /-- R195. Predicate true if all votes agree. -/
  | voteEq (i : BitVec 1) (p : BitVec 3) (q : BitVec 3)
  /-- R196. Reads a value from an absolute home lane. -/
  | lxchAt (b : BitVec 8) (a : BitVec 8) (d : BitVec 6)
  /-- R196. Reads a value from a lower home lane. -/
  | lxchBack (b : BitVec 8) (a : BitVec 8) (d : BitVec 6)
  /-- R196. Reads a value from a higher home lane. -/
  | lxchFwd (b : BitVec 8) (a : BitVec 8) (d : BitVec 6)
  /-- R196. Reads a value from the XOR-partner home lane. -/
  | lxchXor (b : BitVec 8) (a : BitVec 8) (d : BitVec 6)
  /-- R197. Sum across the home warp. -/
  | reduxAdd (a : BitVec 8) (d : BitVec 6)
  /-- R197. Signed minimum across the home warp. -/
  | reduxMin (a : BitVec 8) (d : BitVec 6)
  /-- R197. Signed maximum across the home warp. -/
  | reduxMax (a : BitVec 8) (d : BitVec 6)
  /-- R198. Mask of participants holding an equal value. -/
  | matchAny (a : BitVec 8) (d : BitVec 6)
  /-- R229. Loads from global memory, plain or acquire. -/
  | ld (o : BitVec 4) (z : BitVec 3) (s : BitVec 3) (r : BitVec 2) (a : BitVec 6) (d : BitVec 6)
  /-- R229. Stores to global memory, plain or release. -/
  | st (o : BitVec 4) (z : BitVec 3) (s : BitVec 3) (r : BitVec 2) (a : BitVec 6) (d : BitVec 6)
  /-- R232. Prefetches a line into the L1 or its home L2 slice. -/
  | pref (o : BitVec 4) (s : BitVec 3) (a : BitVec 6) (l : BitVec 2)
  /-- R231. Global atomic read-modify-write returning the old value. -/
  | atom (t : BitVec 3) (o : BitVec 4) (s : BitVec 3) (r : BitVec 2) (a : BitVec 6) (d : BitVec 6)
  /-- R231. Global atomic reduction with no return. -/
  | red (t : BitVec 3) (o : BitVec 4) (s : BitVec 3) (r : BitVec 2) (a : BitVec 6) (d : BitVec 6)
  /-- R233. Orders the thread's accesses at a scope. -/
  | fence (s : BitVec 3) (r : BitVec 2)
  /-- R234. Waits until earlier commands on a completion path are complete. -/
  | drain (p : BitVec 2)
  /-- R235. Writes back dirty COH 01 bytes of a range. -/
  | wbr (s : BitVec 3) (a : BitVec 6) (d : BitVec 6)
  /-- R235. Writes back and invalidates COH 01 lines of a range. -/
  | invr (s : BitVec 3) (a : BitVec 6) (d : BitVec 6)
  /-- R238. Loads from a scratchpad tile. -/
  | lds (z : BitVec 2) (h : BitVec 6) (a : BitVec 8) (d : BitVec 6)
  /-- R238. Stores to a scratchpad tile. -/
  | sts (z : BitVec 2) (h : BitVec 6) (a : BitVec 8) (d : BitVec 6)
  /-- R239. Atomic on a scratchpad word at the banks. -/
  | atoms (z : BitVec 2) (h : BitVec 6) (a : BitVec 8) (d : BitVec 6)
  /-- R240. Returns size, shape or status of a tile handle. -/
  | tinfo (h : BitVec 6) (a : BitVec 8) (d : BitVec 6)
  /-- R241. Loads when the words are full. -/
  | ldf (z : BitVec 2) (h : BitVec 6) (a : BitVec 8) (d : BitVec 6)
  /-- R241. Loads when full and marks the words empty. -/
  | lde (z : BitVec 2) (h : BitVec 6) (a : BitVec 8) (d : BitVec 6)
  /-- R241. Stores when empty and marks the words full. -/
  | stf (z : BitVec 2) (h : BitVec 6) (a : BitVec 8) (d : BitVec 6)
  /-- R241. Stores and marks the words full without waiting. -/
  | stx (z : BitVec 2) (h : BitVec 6) (a : BitVec 8) (d : BitVec 6)
  /-- R244. Allocates a scratchpad or accumulator tile for a handle. -/
  | talloc (h : BitVec 6) (a : BitVec 8) (d : BitVec 6)
  /-- R244. Frees the tile of a handle. -/
  | tfree (h : BitVec 6)
  /-- R243. Sets the full/empty state of a run of words. -/
  | feset (h : BitVec 6) (a : BitVec 8) (d : BitVec 6)
  /-- R244. Exports or withdraws a tile in an export slot. -/
  | texport (h : BitVec 6) (a : BitVec 8)
  /-- R173. Per-thread conditional branch that may split the warp. -/
  | br (d : BitVec 15) (n : BitVec 1) (p : BitVec 3)
  /-- R174. Uniform branch taken if any member's predicate holds. -/
  | bruAny (d : BitVec 15) (n : BitVec 1) (p : BitVec 3)
  /-- R174. Uniform branch taken if every member's predicate holds. -/
  | bruAll (d : BitVec 15) (n : BitVec 1) (p : BitVec 3)
  /-- R174. Uniform branch taken if no member's predicate holds. -/
  | bruNone (d : BitVec 15) (n : BitVec 1) (p : BitVec 3)
  /-- R174. Branch on a predicate expected uniform, splitting as BR if not. -/
  | bruUni (d : BitVec 15) (n : BitVec 1) (p : BitVec 3)
  /-- R177. Long unconditional jump. -/
  | jmp (d : BitVec 24)
  /-- R177. Pushes the return address and jumps. -/
  | call (d : BitVec 24)
  /-- R179. Calls through the dispatch table. -/
  | dcall (a : BitVec 8)
  /-- R179. Jumps through the dispatch table. -/
  | djmp (a : BitVec 8)
  /-- R177. Pops the return address and returns. -/
  | ret
  /-- R180. Every member exits. -/
  | exit
  /-- R182. Adds members to a knot's expected set. -/
  | ktie (k : BitVec 4)
  /-- R183. Arrives at a knot and waits for its release. -/
  | join (k : BitVec 4)
  /-- R185. Releases a knot's arrivals and clears it. -/
  | kreset (k : BitVec 4)
  /-- R188. Arrives at a barrier and waits for the phase flip. -/
  | barSync (c : BitVec 8) (p : BitVec 5) (i : BitVec 4)
  /-- R188. Arrives at a barrier without waiting. -/
  | barArrive (c : BitVec 8) (p : BitVec 5) (i : BitVec 4)
  /-- R189. Waits for a barrier phase after an arrival or as observer. -/
  | barWait (p : BitVec 5) (i : BitVec 4)
  /-- R378. Moves an accumulator token to the threads after in-flight commands. -/
  | mxacq (d : BitVec 6)
  /-- R378. Returns an accumulator token to the engine. -/
  | mxrel (d : BitVec 6)
  /-- R379. Queues a command zeroing an accumulator tile. -/
  | mxzero (d : BitVec 6)
  /-- R380. Sets an accumulator tile's valid-count. -/
  | mxvc (a : BitVec 8) (d : BitVec 6)
  /-- R383. Grouped int8 matrix multiply into FP32. -/
  | mmaC8 (b : BitVec 8) (a : BitVec 8) (d : BitVec 6)
  /-- R383. Exact int8 matrix multiply into int32. -/
  | mmaX8 (b : BitVec 8) (a : BitVec 8) (d : BitVec 6)
  /-- R383. BF16 matrix multiply into FP32. -/
  | mmaC16 (b : BitVec 8) (a : BitVec 8) (d : BitVec 6)
  /-- R383. FP16 matrix multiply into FP32. -/
  | mmaC16h (b : BitVec 8) (a : BitVec 8) (d : BitVec 6)
  /-- R389. Reads one accumulator element per participant. -/
  | mxld (b : BitVec 8) (a : BitVec 6) (d : BitVec 6)
  /-- R389. Writes one accumulator element per participant. -/
  | mxst (b : BitVec 8) (a : BitVec 6) (d : BitVec 6)
  /-- R391. Queues a scaled add of an int32 tile into an FP64 tile. -/
  | mxrecomb (b : BitVec 8) (a : BitVec 6) (d : BitVec 6)
  /-- R390. Queues a per-row scaling of an accumulator tile. -/
  | mxscale (a : BitVec 8) (d : BitVec 6)
  /-- R302. Takes an amount from a skein or is refused. -/
  | sktake (b : BitVec 8) (a : BitVec 8) (d : BitVec 6)
  /-- R304. Adds an amount to a skein. -/
  | skgive (b : BitVec 8) (a : BitVec 8)
  /-- R305. Reads a skein's exact value and status. -/
  | skreadx (a : BitVec 8) (d : BitVec 6)
  /-- R306. Initialises or frees a skein. -/
  | skinit (b : BitVec 8) (a : BitVec 8)
  /-- R309. Defines or removes a procedural range from a descriptor. -/
  | prdef (a : BitVec 8) (d : BitVec 6)
  /-- R315. Ends a dyer's fill of its block. -/
  | prdone (a : BitVec 8)
  /-- R317. Evicts the procedural blocks overlapping a range. -/
  | previct (b : BitVec 8) (a : BitVec 8)
  /-- R318. Reports the fill state of a procedural block. -/
  | prq (a : BitVec 8) (d : BitVec 6)
  /-- R199. Raises the USER trap with a code. -/
  | trap (a : BitVec 8)
  /-- R199. Raises the BKPT trap. -/
  | bkpt
  /-- R201. Returns from a trap handler. -/
  | rett
  /-- R203. Makes members wait at least n cycles. -/
  | sleep (a : BitVec 8)
  /-- R204. Reads a CSR. -/
  | csrr (c : BitVec 8) (d : BitVec 6)
  /-- R204. Writes a CSR. -/
  | csrw (c : BitVec 8) (a : BitVec 8)
  /-- R204. Reads the sticky flags. -/
  | flgr (d : BitVec 6)
  /-- R204. Clears selected sticky flags. -/
  | flgc (a : BitVec 8)
  /-- R339. Pushes a 32-bit entry into the block's decision queue. -/
  | dqpush (a : BitVec 8)
  /-- R341. Submits a launch record to the Block Dispatcher. -/
  | launch (a : BitVec 8)
  /-- R342. Retires the front thread to DONE. -/
  | fexit
  /-- R344. Waits on a barrier, DQ-room or live-thread event. -/
  | fwaitev (a : BitVec 8) (d : BitVec 6)
  /-- R358. Copies a storage window into a canonical scratchpad tile. -/
  | tceLoad (b : BitVec 6) (a : BitVec 6)
  /-- R358. Writes a canonical tile window to a storage format. -/
  | tceStore (b : BitVec 6) (a : BitVec 6)
  /-- R364. Loads one window into several cluster cores' tiles. -/
  | tceMcast (b : BitVec 6) (a : BitVec 6)
  /-- R362. Cuts FP64 values into int8 slices and exponents. -/
  | tceSlice (b : BitVec 6) (a : BitVec 6)
  /-- R363. Loads indexed rows into a tile. -/
  | tceGather (b : BitVec 6) (a : BitVec 6)
  /-- R363. Stores tile rows to indexed global rows. -/
  | tceScatter (b : BitVec 6) (a : BitVec 6)
  /-- R365. Fills a tile window with a constant. -/
  | tceFill (b : BitVec 6) (a : BitVec 6)
  /-- R406. Reduces contributions of a device set to the root. -/
  | colReduce (b : BitVec 6) (a : BitVec 6)
  /-- R406. Reduces contributions to every member. -/
  | colAllred (b : BitVec 6) (a : BitVec 6)
  /-- R406. Broadcasts the root's leaf to every member. -/
  | colBcast (b : BitVec 6) (a : BitVec 6)
  /-- R406. Gathers every member's leaves to every member. -/
  | colAgather (b : BitVec 6) (a : BitVec 6)
  /-- R406. Reduces and scatters slices to the members. -/
  | colRscat (b : BitVec 6) (a : BitVec 6)
  /-- R411. Collective barrier across the device set. -/
  | colCbar (a : BitVec 6)
  /-- R346. Returns the block's work-split iteration range. -/
  | wrange (d : BitVec 6)
  /-- R348. Asks the Dispatcher to withdraw a block into a mailbox. -/
  | fetchw (a : BitVec 6)
  /-- R347. Counts an arrival on a work-split tile and returns the count. -/
  | fixup (a : BitVec 6) (d : BitVec 6)
  /-- R349. ORs bits into the launch's return word. -/
  | scret (a : BitVec 6)
  /-- R350. Reads the power state of the block's island. -/
  | powq (d : BitVec 6)
  /-- R56. Prefix supplying a 24-bit immediate to the next instruction. -/
  | extI (i : BitVec 24)
  /-- R57. Prefix supplying scope, sign, saturation, rounding and a third source. -/
  | extC (s : BitVec 3) (n : BitVec 4) (t : BitVec 1) (r : BitVec 3) (c : BitVec 8)
  /-- R55. Prefix making the group conditional on a predicate. -/
  | guard (i : BitVec 1) (p : BitVec 3)
  /-- R53. 16-bit word with no effect. -/
  | nop16 (s : BitVec 5) (d : BitVec 5)
  /-- R52. 16-bit form of MOV. -/
  | mov16 (s : BitVec 5) (d : BitVec 5)
  /-- R52. 16-bit form of IADD with d as first source. -/
  | iadd16 (s : BitVec 5) (d : BitVec 5)
  /-- R52. 16-bit form of ISUB. -/
  | isub16 (s : BitVec 5) (d : BitVec 5)
  /-- R52. 16-bit form of IMUL. -/
  | imul16 (s : BitVec 5) (d : BitVec 5)
  /-- R52. 16-bit form of AND. -/
  | and16 (s : BitVec 5) (d : BitVec 5)
  /-- R52. 16-bit form of OR. -/
  | or16 (s : BitVec 5) (d : BitVec 5)
  /-- R52. 16-bit form of XOR. -/
  | xor16 (s : BitVec 5) (d : BitVec 5)
  /-- R52. 16-bit form of SHL. -/
  | shl16 (s : BitVec 5) (d : BitVec 5)
  /-- R52. 16-bit form of SHR. -/
  | shr16 (s : BitVec 5) (d : BitVec 5)
  /-- R52. 16-bit form of SAR. -/
  | sar16 (s : BitVec 5) (d : BitVec 5)
  /-- R52. 16-bit form of IMIN. -/
  | imin16 (s : BitVec 5) (d : BitVec 5)
  /-- R52. 16-bit form of IMAX. -/
  | imax16 (s : BitVec 5) (d : BitVec 5)
  /-- R52. 16-bit form of FADD. -/
  | fadd16 (s : BitVec 5) (d : BitVec 5)
  /-- R52. 16-bit form of FSUB. -/
  | fsub16 (s : BitVec 5) (d : BitVec 5)
  /-- R52. 16-bit form of FMUL. -/
  | fmul16 (s : BitVec 5) (d : BitVec 5)
  /-- R52. 16-bit form of FMAX. -/
  | fmax16 (s : BitVec 5) (d : BitVec 5)
  /-- R99. At the start of a cycle each free slot is filled from the pool. -/
  | warpFormation (core quad : Nat)
  /-- R101. A thread's age reaches 64 and the Splicer serves it first. -/
  | agedThread (core quad : Nat)
  /-- R222. Load, atomic or pop data returns and clears pending bits. -/
  | loadDataReturn (n : Nat)
  /-- R221. A rejected member becomes READY 8 cycles later to retry. -/
  | rejectionRetry (blk tlin : Nat)
  /-- R221. The aged queue's head takes a freed aged entry. -/
  | agedEntryGrant (core : Nat)
  /-- R258. A home's ownership grant reaches the writer's L1. -/
  | ownershipGrant (n : Nat)
  /-- R258. A proxy invalidation acknowledgement reaches the writer. -/
  | invalidationAck (n : Nat)
  /-- R233. A waiting fence is accepted once its conditions hold. -/
  | fenceAccept (ag : Agent)
  /-- R234. A waiting DRAIN ends when its path's commands complete. -/
  | drainAccept (ag : Agent)
  /-- R254. A COH 01 line is evicted 2^20 cycles after its fill. -/
  | coh01RetentionEviction (core line : Nat)
  /-- R203. A sleeping thread becomes READY after its count. -/
  | sleepExpiry (blk : Nat) (who : Option Nat)
  /-- R184. A knot releases its arrivals when a release condition holds. -/
  | knotRelease (blk k : Nat)
  /-- R183. KNOTTMO cycles pass since a knot's first arrival. -/
  | knotTimeout (blk k : Nat)
  /-- R188. A barrier phase flips once count and paths are satisfied. -/
  | barrierComplete (blk b : Nat)
  /-- R192. A barrier phase reaches BARLIM and its waiters take BARTMO. -/
  | barrierTimeout (blk b : Nat)
  /-- R343. A block retires once its threads, commands and writes are done. -/
  | blockRetire (blk : Nat)
  /-- R283. A home serves a request for a shared copy of a line. -/
  | readSharedRequest (n : Nat)
  /-- R283. A home serves a request for ownership of a line. -/
  | ownershipRequest (n : Nat)
  /-- R284. Dirty bytes written back merge byte-exactly at the home. -/
  | homeWriteback (n : Nat)
  /-- R289. A home slice performs an atomic on a line. -/
  | homeAtomic (n : Nat)
  /-- R288. The cluster atomic unit performs a cluster-scope atomic. -/
  | clusterAtomic (n : Nat)
  /-- R285. A slice issues a queued request to HBM. -/
  | hbmRequestIssue (slice : Nat)
  /-- R285. Data for a slice's HBM request returns. -/
  | hbmDataReturn (n : Nat) (err : EccOutcome)
  /-- R400. A request from another device arrives over a Sidin port. -/
  | sidinRequest (r : SidinReq)
  /-- R291. A released stage's writes are performed and the block becomes head. -/
  | newHead (launch : Nat)
  /-- R297. The Belay limit expires and the head block's threads take BELAYTMO. -/
  | belayLimitExpiry (launch : Nat)
  /-- R302. A skein home decides a queued refill request. -/
  | skeinRefillRequest (ctx k : Nat)
  /-- R303. A holder's hank returns to the skein home. -/
  | hankReturn (n : Nat)
  /-- R302. A grant or refusal reaches the requesting L1. -/
  | skeinGrant (n : Nat)
  /-- R311. First access to a procedural block reaches its home. -/
  | prRequest (n : Nat)
  /-- R313. A waiting dyer takes a freed dyer slot. -/
  | dyerSlotGrant (die depth : Nat)
  /-- R309. Every slice holds the new range definition and PRDEF completes. -/
  | prdefPropagated (n : Nat)
  /-- R312. A block becomes FILLED and its waiters are woken. -/
  | fillComplete (ctx : Nat) (va : BitVec 64)
  /-- R344. A stalled FWAITEV's condition becomes true. -/
  | fwaitevComplete (blk : Nat)
  /-- R339. A stalled DQPUSH completes when an entry frees. -/
  | dqRoom (blk : Nat)
  /-- R348. The Dispatcher withdraws a block and writes the mailbox. -/
  | fetchwDelivery (n : Nat)
  /-- R366. A waiting engine command takes its Lashing entry and is accepted. -/
  | commandAcceptance (core n : Nat)
  /-- R368. A TCE command completes and releases its Lashing entries. -/
  | tceComplete (core id : Nat)
  /-- R386. The Matrix Engine starts the next accepted command. -/
  | mxCommandStart (core : Nat)
  /-- R386. An MX command completes, lowering INFL and releasing its entry. -/
  | mxCommandComplete (core : Nat)
  /-- R394. All blocks blocked in AC allocation: the newest is swapped out. -/
  | acDeadlockSwapout (core : Nat)
  /-- R405. Every member's command is accepted and the collective joins. -/
  | colJoin (core id : Nat) (peers : List PeerCmd)
  /-- R409. A collective command completes on this device. -/
  | colComplete (core id : Nat)
  /-- R411. Every member has issued CBAR and earlier commands completed. -/
  | cbarComplete (core id : Nat)
  /-- R417. The host writes one 64-byte half of a Launch Port slot. -/
  | launchPortWrite (off len : Nat) (data : BitVec 512)
  /-- R416. Staging lines arrive or 10 µs pass before first placement. -/
  | stagingTimeout (launch : Nat)
  /-- R421. The Dispatcher chooses and places a block in a free slot. -/
  | blockPlacement
  /-- R423. At the end of a quantum blocks are ranked and swapped. -/
  | quantumEnd
  /-- R424. A block's state is saved once its commands and writes finish. -/
  | swapOut (blk : Nat)
  /-- R439. A page walk returns a leaf or a fault. -/
  | walkResult (n : Nat)
  /-- R441. Host FRESP RETRY replays every joined access. -/
  | faultRetry (seq : BitVec 32)
  /-- R441. Host FRESP FAIL makes every joined access unrecoverable. -/
  | faultFail (seq : BitVec 32)
  /-- R441. FTMO passes without an answer and the record fails. -/
  | faultTimeout (seq : BitVec 32)
  /-- R463. The host advances the fault-queue head. -/
  | fqheadWrite (v : BitVec 32)
  /-- R463. The host sets the fault-queue size, ignored if invalid. -/
  | fqsizeWrite (v : BitVec 32)
  /-- R438. TLBINV with ALL = 0 removes translations of a page range. -/
  | tlbInvalidateRange (v : BitVec 64)
  /-- R438. TLBINV with ALL = 1 removes a context's and walk-cache entries. -/
  | tlbInvalidateAll (v : BitVec 64)
  /-- R438. An invalidation finishes and BUSY returns to 0. -/
  | tlbInvalidateDone
  /-- R447. CTXCMD op 1 creates a context from a descriptor. -/
  | ctxCreate (v : BitVec 64)
  /-- R447. CTXCMD op 2 destroys a context. -/
  | ctxDestroy (v : BitVec 64)
  /-- R447. A context command finishes and FQSTAT.BUSY clears. -/
  | ctxCommandDone
  /-- R450. A host CXL.mem access is served at the home slice. -/
  | cxlMemAccess (pa : Nat) (wr : Option (List Byte)) (len : Nat)
  /-- R451. A host snoop of a COH 11 line is answered. -/
  | hostSnoop (line : Nat) (inval : Bool)
  /-- R462. The host answers a device request for a host line. -/
  | hostLineResponse (n : Nat) (r : HostAnswer)
  /-- R452. RESET register write starts a planned reset after flushing host lines. -/
  | plannedReset (v : BitVec 32)
  /-- R452. A CXL reset from the host starts a planned reset. -/
  | cxlReset
  /-- R452. The link goes down, an unplanned fatal reset. -/
  | linkDown
  /-- R452. The firmware watchdog forces an unplanned fatal reset. -/
  | watchdogReset
  /-- R459. Junction temperature of 105 °C halts the package. -/
  | thermalTrip
  /-- R452. Host clears the record of poisoned host lines. -/
  | clrpoison (v : BitVec 32)
  /-- R453. A row's refresh interval expires and it is refreshed. -/
  | rowRefresh (row : Nat)
  /-- R453. The patrol scrub reads a line. -/
  | patrolScrub (line : Nat) (err : EccOutcome)
  /-- R454. A row's activation count reaches RHT and its neighbours are refreshed. -/
  | activationThreshold (row : Nat)
  /-- R454. Host writes RHT, ignored outside 256 to 65,535. -/
  | rhtWrite (v : BitVec 32)
  /-- R454. Reading CELOG returns and clears its counts. -/
  | celogRead
  /-- R459. Host commands an island's state, budget and duty. -/
  | islcmdWrite (n : Nat) (v : BitVec 64)
  /-- R459. Reading ISLSTAT returns status and clears REJ. -/
  | islstatRead (n : Nat)
  /-- R459. A commanded voltage and frequency state takes effect. -/
  | vfsChangeComplete (n : Nat)
  /-- R459. A core island gates after its blocks leave and its L1 is written back. -/
  | islandGate (n : Nat)
  /-- R459. A 1 ms energy window ends and over-budget state is judged. -/
  | energyWindow (n : Nat) (mj : BitVec 32)
  /-- R459. An island's temperature band changes, raising vector 3 at band 7. -/
  | temperatureBandChange (n : Nat) (band : BitVec 3)
  /-- R460. The boot ROM verifies firmware stages and records measurements. -/
  | firmwareVerify (ok : Bool)
  /-- R455. Die 0's stacks are trained and SVCL becomes 1. -/
  | die0Trained
  /-- R457. All dies trained: memory moves to full layout and SVCL becomes 2. -/
  | hbmLayoutMove
  /-- R458. Host sets the domain, ignored at SVCL 2. -/
  | domcfgWrite (v : BitVec 64)
  /-- R460. ATTCMD write starts a signed attestation report. -/
  | attestationRequest (v : BitVec 32)
  /-- R460. The report is signed and ATTSTAT.DONE is set. -/
  | attestationDone
  /-- R461. Host write to a management register with no behaviour of its own. -/
  | registerWrite (off : Nat) (v : BitVec 64)
  /-- R289. A home's acknowledgement of a store, reduction or write-back reaches its issuer. -/
  | writeAcknowledgement (n : Nat)
  /-- R306. An SKGIVE, SKINIT or SKREADX request reaches the skein's home and is applied there. -/
  | skeinHomeOperation (n : Nat)
  /-- R455. The device is powered from cold and starts at SVCL 0 with reset values. -/
  | powerOnReset
  /-- R449. The host link trains to its width and speed and becomes available. -/
  | linkUp (width : Nat) (gts : Nat)
  deriving DecidableEq, Repr

end Sys2Proof
end

