-- ==== Sys2Proof/Decode.lean ====
section
/-! DEFINITION. Decoding a word (R33, R41 to R59, the opcode map R66) and the encoder beside it. A word that
is no row of the table is refused by name: it is an illegal encoding (R70). A row's own field values that R70
calls ILLEGAL (a reserved size, scope, op and so on) are judged by WellFormed. -/

namespace Sys2Proof

/-- Bits [hi:lo] of a word. -/
def bits (hi lo : Nat) (w : Nat) : BitVec (hi - lo + 1) := BitVec.ofNat _ (w >>> lo)

/-- A field placed at bit `lo`. -/
def place {n : Nat} (v : BitVec n) (lo : Nat) : Nat := v.toNat <<< lo

/-- The answer of the decoder. -/
inductive Decoded where
  | instr (i : Instr)
  /-- No row of the table: ILLEGAL (R70). -/
  | illegal (w : Nat)
  deriving DecidableEq, Repr

/-- The word length that bit 0 of the first halfword gives (R33), in bytes. -/
def wordBytes (first : Nat) : Nat := if first % 2 = 0 then 2 else 4

/-- Words of major 0x00 (R66). -/
def decodeMajor00 (w : Nat) : Decoded :=
  if w &&& 0xC000007F = 0x00000001 then .instr (.iadd (bits 29 22 w) (bits 21 14 w) (bits 13 13 w) (bits 12 7 w)) else
  if w &&& 0xC000007F = 0x40000001 then .instr (.isub (bits 29 22 w) (bits 21 14 w) (bits 13 13 w) (bits 12 7 w)) else
  if w &&& 0xC000007F = 0x80000001 then .instr (.irsub (bits 29 22 w) (bits 21 14 w) (bits 13 13 w) (bits 12 7 w)) else
  if w &&& 0xC000007F = 0xC0000001 then .instr (.iaddc (bits 29 22 w) (bits 21 14 w) (bits 13 13 w) (bits 12 7 w)) else
  .illegal w

/-- Words of major 0x01 (R66). -/
def decodeMajor01 (w : Nat) : Decoded :=
  if w &&& 0xC000007F = 0x00000003 then .instr (.imul (bits 29 22 w) (bits 21 14 w) (bits 13 13 w) (bits 12 7 w)) else
  if w &&& 0xC000007F = 0x40000003 then .instr (.imulh (bits 29 22 w) (bits 21 14 w) (bits 13 13 w) (bits 12 7 w)) else
  if w &&& 0xC000007F = 0x80000003 then .instr (.nmulh (bits 29 22 w) (bits 21 14 w) (bits 13 13 w) (bits 12 7 w)) else
  if w &&& 0xC000007F = 0xC0000003 then .instr (.imad (bits 29 22 w) (bits 21 14 w) (bits 13 13 w) (bits 12 7 w)) else
  .illegal w

/-- Words of major 0x02 (R66). -/
def decodeMajor02 (w : Nat) : Decoded :=
  if w &&& 0xC000007F = 0x00000005 then .instr (.imin (bits 29 22 w) (bits 21 14 w) (bits 13 13 w) (bits 12 7 w)) else
  if w &&& 0xC000007F = 0x40000005 then .instr (.imax (bits 29 22 w) (bits 21 14 w) (bits 13 13 w) (bits 12 7 w)) else
  if w &&& 0xC000007F = 0x80000005 then .instr (.nmin (bits 29 22 w) (bits 21 14 w) (bits 13 13 w) (bits 12 7 w)) else
  if w &&& 0xC000007F = 0xC0000005 then .instr (.nmax (bits 29 22 w) (bits 21 14 w) (bits 13 13 w) (bits 12 7 w)) else
  .illegal w

/-- Words of major 0x03 (R66). -/
def decodeMajor03 (w : Nat) : Decoded :=
  if w &&& 0xC000007F = 0x00000007 then .instr (.and32 (bits 29 22 w) (bits 21 14 w) (bits 13 13 w) (bits 12 7 w)) else
  if w &&& 0xC000007F = 0x40000007 then .instr (.or32 (bits 29 22 w) (bits 21 14 w) (bits 13 13 w) (bits 12 7 w)) else
  if w &&& 0xC000007F = 0x80000007 then .instr (.xor32 (bits 29 22 w) (bits 21 14 w) (bits 13 13 w) (bits 12 7 w)) else
  if w &&& 0xC000007F = 0xC0000007 then .instr (.andn (bits 29 22 w) (bits 21 14 w) (bits 13 13 w) (bits 12 7 w)) else
  .illegal w

/-- Words of major 0x04 (R66). -/
def decodeMajor04 (w : Nat) : Decoded :=
  if w &&& 0xC000007F = 0x00000009 then .instr (.shl (bits 29 22 w) (bits 21 14 w) (bits 13 13 w) (bits 12 7 w)) else
  if w &&& 0xC000007F = 0x40000009 then .instr (.shr (bits 29 22 w) (bits 21 14 w) (bits 13 13 w) (bits 12 7 w)) else
  if w &&& 0xC000007F = 0x80000009 then .instr (.sar (bits 29 22 w) (bits 21 14 w) (bits 13 13 w) (bits 12 7 w)) else
  if w &&& 0xC000007F = 0xC0000009 then .instr (.rotl (bits 29 22 w) (bits 21 14 w) (bits 13 13 w) (bits 12 7 w)) else
  .illegal w

/-- Words of major 0x05 (R66). -/
def decodeMajor05 (w : Nat) : Decoded :=
  if w &&& 0xC000007F = 0x0000000B then .instr (.bfx (bits 29 22 w) (bits 21 14 w) (bits 13 13 w) (bits 12 7 w)) else
  if w &&& 0xC000007F = 0x4000000B then .instr (.bfxn (bits 29 22 w) (bits 21 14 w) (bits 13 13 w) (bits 12 7 w)) else
  if w &&& 0xC000007F = 0x8000000B then .instr (.bfi (bits 29 22 w) (bits 21 14 w) (bits 13 13 w) (bits 12 7 w)) else
  if w &&& 0xC000007F = 0xC000000B then .instr (.prmt (bits 29 22 w) (bits 21 14 w) (bits 13 13 w) (bits 12 7 w)) else
  .illegal w

/-- Words of major 0x06 (R66). -/
def decodeMajor06 (w : Nat) : Decoded :=
  if w &&& 0xFFC0007F = 0x0000000D then .instr (.popc (bits 21 14 w) (bits 13 13 w) (bits 12 7 w)) else
  if w &&& 0xFFC0007F = 0x4000000D then .instr (.clz (bits 21 14 w) (bits 13 13 w) (bits 12 7 w)) else
  if w &&& 0xFFC0007F = 0x8000000D then .instr (.brev (bits 21 14 w) (bits 13 13 w) (bits 12 7 w)) else
  if w &&& 0xFFC0007F = 0xC000000D then .instr (.iabs (bits 21 14 w) (bits 13 13 w) (bits 12 7 w)) else
  .illegal w

/-- Words of major 0x07 (R66). -/
def decodeMajor07 (w : Nat) : Decoded :=
  if w &&& 0xC000207F = 0x0000000F then .instr (.isetpI32 (bits 29 22 w) (bits 21 14 w) (bits 12 10 w) (bits 9 7 w)) else
  if w &&& 0xC000207F = 0x4000000F then .instr (.isetpN32 (bits 29 22 w) (bits 21 14 w) (bits 12 10 w) (bits 9 7 w)) else
  if w &&& 0xC000207F = 0x8000000F then .instr (.isetpI64 (bits 29 22 w) (bits 21 14 w) (bits 12 10 w) (bits 9 7 w)) else
  if w &&& 0xC000207F = 0xC000000F then .instr (.isetpN64 (bits 29 22 w) (bits 21 14 w) (bits 12 10 w) (bits 9 7 w)) else
  .illegal w

/-- Words of major 0x08 (R66). -/
def decodeMajor08 (w : Nat) : Decoded :=
  if w &&& 0xFFC0007F = 0x00000011 then .instr (.mov (bits 21 14 w) (bits 13 13 w) (bits 12 7 w)) else
  if w &&& 0xC000007F = 0x40000011 then .instr (.sel (bits 29 22 w) (bits 21 14 w) (bits 13 13 w) (bits 12 7 w)) else
  if w &&& 0xFFC0007F = 0x80000011 then .instr (.movh (bits 21 14 w) (bits 13 13 w) (bits 12 7 w)) else
  if w &&& 0xC03C3C7F = 0xC0000011 then .instr (.plop (bits 29 26 w) (bits 25 25 w) (bits 24 22 w) (bits 17 17 w) (bits 16 14 w) (bits 9 7 w)) else
  .illegal w

/-- Words of major 0x09 (R66). -/
def decodeMajor09 (w : Nat) : Decoded :=
  if w &&& 0xC000007F = 0x00000013 then .instr (.iaddW (bits 29 22 w) (bits 21 14 w) (bits 13 13 w) (bits 12 7 w)) else
  if w &&& 0xC000007F = 0x40000013 then .instr (.isubW (bits 29 22 w) (bits 21 14 w) (bits 13 13 w) (bits 12 7 w)) else
  if w &&& 0xC000007F = 0x80000013 then .instr (.imulW (bits 29 22 w) (bits 21 14 w) (bits 13 13 w) (bits 12 7 w)) else
  if w &&& 0xC000007F = 0xC0000013 then .instr (.imadW (bits 29 22 w) (bits 21 14 w) (bits 13 13 w) (bits 12 7 w)) else
  .illegal w

/-- Words of major 0x0A (R66). -/
def decodeMajor0A (w : Nat) : Decoded :=
  if w &&& 0xC000007F = 0x00000015 then .instr (.shlW (bits 29 22 w) (bits 21 14 w) (bits 13 13 w) (bits 12 7 w)) else
  if w &&& 0xC000007F = 0x40000015 then .instr (.shrW (bits 29 22 w) (bits 21 14 w) (bits 13 13 w) (bits 12 7 w)) else
  if w &&& 0xC000007F = 0x80000015 then .instr (.sarW (bits 29 22 w) (bits 21 14 w) (bits 13 13 w) (bits 12 7 w)) else
  if w &&& 0xC000007F = 0xC0000015 then .instr (.imulx (bits 29 22 w) (bits 21 14 w) (bits 13 13 w) (bits 12 7 w)) else
  .illegal w

/-- Words of major 0x0B (R66). -/
def decodeMajor0B (w : Nat) : Decoded :=
  if w &&& 0xC000007F = 0x00000017 then .instr (.idiv (bits 29 22 w) (bits 21 14 w) (bits 13 13 w) (bits 12 7 w)) else
  if w &&& 0xC000007F = 0x40000017 then .instr (.ndiv (bits 29 22 w) (bits 21 14 w) (bits 13 13 w) (bits 12 7 w)) else
  if w &&& 0xC000007F = 0x80000017 then .instr (.irem (bits 29 22 w) (bits 21 14 w) (bits 13 13 w) (bits 12 7 w)) else
  if w &&& 0xC000007F = 0xC0000017 then .instr (.nrem (bits 29 22 w) (bits 21 14 w) (bits 13 13 w) (bits 12 7 w)) else
  .illegal w

/-- Words of major 0x0C (R66). -/
def decodeMajor0C (w : Nat) : Decoded :=
  if w &&& 0xC000007F = 0x00000019 then .instr (.iadds (bits 29 22 w) (bits 21 14 w) (bits 13 13 w) (bits 12 7 w)) else
  if w &&& 0xC000007F = 0x40000019 then .instr (.isubs (bits 29 22 w) (bits 21 14 w) (bits 13 13 w) (bits 12 7 w)) else
  if w &&& 0xC000007F = 0x80000019 then .instr (.nadds (bits 29 22 w) (bits 21 14 w) (bits 13 13 w) (bits 12 7 w)) else
  if w &&& 0xC000007F = 0xC0000019 then .instr (.nsubs (bits 29 22 w) (bits 21 14 w) (bits 13 13 w) (bits 12 7 w)) else
  .illegal w

/-- Words of major 0x0D (R66). -/
def decodeMajor0D (w : Nat) : Decoded :=
  if w &&& 0xC000007F = 0x0000001B then .instr (.logt (bits 29 22 w) (bits 21 14 w) (bits 13 13 w) (bits 12 7 w)) else
  if w &&& 0xC000007F = 0x4000001B then .instr (.bmrg (bits 29 22 w) (bits 21 14 w) (bits 13 13 w) (bits 12 7 w)) else
  if w &&& 0xC000007F = 0x8000001B then .instr (.fshl (bits 29 22 w) (bits 21 14 w) (bits 13 13 w) (bits 12 7 w)) else
  if w &&& 0xC000007F = 0xC000001B then .instr (.fshr (bits 29 22 w) (bits 21 14 w) (bits 13 13 w) (bits 12 7 w)) else
  .illegal w

/-- Words of major 0x0E (R66). -/
def decodeMajor0E (w : Nat) : Decoded :=
  if w &&& 0xC000007F = 0x0000001D then .instr (.fadd (bits 29 22 w) (bits 21 14 w) (bits 13 13 w) (bits 12 7 w)) else
  if w &&& 0xC000007F = 0x4000001D then .instr (.fsub (bits 29 22 w) (bits 21 14 w) (bits 13 13 w) (bits 12 7 w)) else
  if w &&& 0xC000007F = 0x8000001D then .instr (.fmul (bits 29 22 w) (bits 21 14 w) (bits 13 13 w) (bits 12 7 w)) else
  if w &&& 0xC000007F = 0xC000001D then .instr (.ffma (bits 29 22 w) (bits 21 14 w) (bits 13 13 w) (bits 12 7 w)) else
  .illegal w

/-- Words of major 0x0F (R66). -/
def decodeMajor0F (w : Nat) : Decoded :=
  if w &&& 0xC000007F = 0x0000001F then .instr (.fmin (bits 29 22 w) (bits 21 14 w) (bits 13 13 w) (bits 12 7 w)) else
  if w &&& 0xC000007F = 0x4000001F then .instr (.fmax (bits 29 22 w) (bits 21 14 w) (bits 13 13 w) (bits 12 7 w)) else
  if w &&& 0xC000007F = 0x8000001F then .instr (.fminn (bits 29 22 w) (bits 21 14 w) (bits 13 13 w) (bits 12 7 w)) else
  if w &&& 0xC000007F = 0xC000001F then .instr (.fmaxn (bits 29 22 w) (bits 21 14 w) (bits 13 13 w) (bits 12 7 w)) else
  .illegal w

/-- Words of major 0x10 (R66). -/
def decodeMajor10 (w : Nat) : Decoded :=
  if w &&& 0xC000207F = 0x00000021 then .instr (.fsetp (bits 29 22 w) (bits 21 14 w) (bits 12 10 w) (bits 9 7 w)) else
  if w &&& 0xC000207F = 0x40000021 then .instr (.fsetpSig (bits 29 22 w) (bits 21 14 w) (bits 12 10 w) (bits 9 7 w)) else
  .illegal w

/-- Words of major 0x11 (R66). -/
def decodeMajor11 (w : Nat) : Decoded :=
  if w &&& 0xC000007F = 0x00000023 then .instr (.fdiv (bits 29 22 w) (bits 21 14 w) (bits 13 13 w) (bits 12 7 w)) else
  if w &&& 0xFFC0007F = 0x40000023 then .instr (.fsqrt (bits 21 14 w) (bits 13 13 w) (bits 12 7 w)) else
  if w &&& 0xFFC0007F = 0x80000023 then .instr (.frcp (bits 21 14 w) (bits 13 13 w) (bits 12 7 w)) else
  if w &&& 0xFFC0007F = 0xC0000023 then .instr (.frsq (bits 21 14 w) (bits 13 13 w) (bits 12 7 w)) else
  .illegal w

/-- Words of major 0x12 (R66). -/
def decodeMajor12 (w : Nat) : Decoded :=
  if w &&& 0xFFC0007F = 0x00000025 then .instr (.fex2 (bits 21 14 w) (bits 13 13 w) (bits 12 7 w)) else
  if w &&& 0xFFC0007F = 0x40000025 then .instr (.flg2 (bits 21 14 w) (bits 13 13 w) (bits 12 7 w)) else
  if w &&& 0xFFC0007F = 0x80000025 then .instr (.fsin (bits 21 14 w) (bits 13 13 w) (bits 12 7 w)) else
  if w &&& 0xFFC0007F = 0xC0000025 then .instr (.fcos (bits 21 14 w) (bits 13 13 w) (bits 12 7 w)) else
  .illegal w

/-- Words of major 0x13 (R66). -/
def decodeMajor13 (w : Nat) : Decoded :=
  if w &&& 0xFFC0007F = 0x00000027 then .instr (.fabs (bits 21 14 w) (bits 13 13 w) (bits 12 7 w)) else
  if w &&& 0xFFC0007F = 0x40000027 then .instr (.fneg (bits 21 14 w) (bits 13 13 w) (bits 12 7 w)) else
  if w &&& 0xC000007F = 0x80000027 then .instr (.fcpys (bits 29 22 w) (bits 21 14 w) (bits 13 13 w) (bits 12 7 w)) else
  if w &&& 0xFFC0007F = 0xC0000027 then .instr (.fclass (bits 21 14 w) (bits 13 13 w) (bits 12 7 w)) else
  .illegal w

/-- Words of major 0x14 (R66). -/
def decodeMajor14 (w : Nat) : Decoded :=
  if w &&& 0xFFC0007F = 0x00000029 then .instr (.frnd (bits 21 14 w) (bits 13 13 w) (bits 12 7 w)) else
  if w &&& 0xC000007F = 0x40000029 then .instr (.fscale (bits 29 22 w) (bits 21 14 w) (bits 13 13 w) (bits 12 7 w)) else
  if w &&& 0xFFC0007F = 0x80000029 then .instr (.fexpo (bits 21 14 w) (bits 13 13 w) (bits 12 7 w)) else
  .illegal w

/-- Words of major 0x15 (R66). -/
def decodeMajor15 (w : Nat) : Decoded :=
  if w &&& 0xC000007F = 0x0000002B then .instr (.hadd2 (bits 29 22 w) (bits 21 14 w) (bits 13 13 w) (bits 12 7 w)) else
  if w &&& 0xC000007F = 0x4000002B then .instr (.hmul2 (bits 29 22 w) (bits 21 14 w) (bits 13 13 w) (bits 12 7 w)) else
  if w &&& 0xC000007F = 0x8000002B then .instr (.hfma2 (bits 29 22 w) (bits 21 14 w) (bits 13 13 w) (bits 12 7 w)) else
  if w &&& 0xC000007F = 0xC000002B then .instr (.hmax2 (bits 29 22 w) (bits 21 14 w) (bits 13 13 w) (bits 12 7 w)) else
  .illegal w

/-- Words of major 0x16 (R66). -/
def decodeMajor16 (w : Nat) : Decoded :=
  if w &&& 0xC000007F = 0x0000002D then .instr (.badd2 (bits 29 22 w) (bits 21 14 w) (bits 13 13 w) (bits 12 7 w)) else
  if w &&& 0xC000007F = 0x4000002D then .instr (.bmul2 (bits 29 22 w) (bits 21 14 w) (bits 13 13 w) (bits 12 7 w)) else
  if w &&& 0xC000007F = 0x8000002D then .instr (.bfma2 (bits 29 22 w) (bits 21 14 w) (bits 13 13 w) (bits 12 7 w)) else
  if w &&& 0xC000007F = 0xC000002D then .instr (.bmax2 (bits 29 22 w) (bits 21 14 w) (bits 13 13 w) (bits 12 7 w)) else
  .illegal w

/-- Words of major 0x17 (R66). -/
def decodeMajor17 (w : Nat) : Decoded :=
  if w &&& 0xC000007F = 0x0000002F then .instr (.dadd (bits 29 22 w) (bits 21 14 w) (bits 13 13 w) (bits 12 7 w)) else
  if w &&& 0xC000007F = 0x4000002F then .instr (.dsub (bits 29 22 w) (bits 21 14 w) (bits 13 13 w) (bits 12 7 w)) else
  if w &&& 0xC000007F = 0x8000002F then .instr (.dmul (bits 29 22 w) (bits 21 14 w) (bits 13 13 w) (bits 12 7 w)) else
  if w &&& 0xC000007F = 0xC000002F then .instr (.dfma (bits 29 22 w) (bits 21 14 w) (bits 13 13 w) (bits 12 7 w)) else
  .illegal w

/-- Words of major 0x18 (R66). -/
def decodeMajor18 (w : Nat) : Decoded :=
  if w &&& 0xC000007F = 0x00000031 then .instr (.dmin (bits 29 22 w) (bits 21 14 w) (bits 13 13 w) (bits 12 7 w)) else
  if w &&& 0xC000007F = 0x40000031 then .instr (.dmax (bits 29 22 w) (bits 21 14 w) (bits 13 13 w) (bits 12 7 w)) else
  if w &&& 0xC000007F = 0x80000031 then .instr (.dminn (bits 29 22 w) (bits 21 14 w) (bits 13 13 w) (bits 12 7 w)) else
  if w &&& 0xC000007F = 0xC0000031 then .instr (.dmaxn (bits 29 22 w) (bits 21 14 w) (bits 13 13 w) (bits 12 7 w)) else
  .illegal w

/-- Words of major 0x19 (R66). -/
def decodeMajor19 (w : Nat) : Decoded :=
  if w &&& 0xC000007F = 0x00000033 then .instr (.dsetp (bits 29 22 w) (bits 21 14 w) (bits 13 13 w) (bits 12 10 w) (bits 9 7 w)) else
  if w &&& 0xFFC0007F = 0x40000033 then .instr (.dclass (bits 21 14 w) (bits 13 13 w) (bits 12 7 w)) else
  if w &&& 0xFFC0007F = 0x80000033 then .instr (.dabs (bits 21 14 w) (bits 13 13 w) (bits 12 7 w)) else
  if w &&& 0xFFC0007F = 0xC0000033 then .instr (.dneg (bits 21 14 w) (bits 13 13 w) (bits 12 7 w)) else
  .illegal w

/-- Words of major 0x1A (R66). -/
def decodeMajor1A (w : Nat) : Decoded :=
  if w &&& 0xC000007F = 0x00000035 then .instr (.ddiv (bits 29 22 w) (bits 21 14 w) (bits 13 13 w) (bits 12 7 w)) else
  if w &&& 0xFFC0007F = 0x40000035 then .instr (.dsqrt (bits 21 14 w) (bits 13 13 w) (bits 12 7 w)) else
  if w &&& 0xFFC0007F = 0x80000035 then .instr (.drcp (bits 21 14 w) (bits 13 13 w) (bits 12 7 w)) else
  if w &&& 0xFFC0007F = 0xC0000035 then .instr (.drsq (bits 21 14 w) (bits 13 13 w) (bits 12 7 w)) else
  .illegal w

/-- Words of major 0x1B (R66). -/
def decodeMajor1B (w : Nat) : Decoded :=
  if w &&& 0xFFC0007F = 0x00000037 then .instr (.drnd (bits 21 14 w) (bits 13 13 w) (bits 12 7 w)) else
  if w &&& 0xC000007F = 0x40000037 then .instr (.dscale (bits 29 22 w) (bits 21 14 w) (bits 13 13 w) (bits 12 7 w)) else
  .illegal w

/-- Words of major 0x1C (R66). -/
def decodeMajor1C (w : Nat) : Decoded :=
  if w &&& 0xFFC0007F = 0x00000039 then .instr (.cvtF32I32 (bits 21 14 w) (bits 13 13 w) (bits 12 7 w)) else
  if w &&& 0xFFC0007F = 0x40000039 then .instr (.cvtF32N32 (bits 21 14 w) (bits 13 13 w) (bits 12 7 w)) else
  if w &&& 0xFFC0007F = 0x80000039 then .instr (.cvtI32F32 (bits 21 14 w) (bits 13 13 w) (bits 12 7 w)) else
  if w &&& 0xFFC0007F = 0xC0000039 then .instr (.cvtN32F32 (bits 21 14 w) (bits 13 13 w) (bits 12 7 w)) else
  .illegal w

/-- Words of major 0x1D (R66). -/
def decodeMajor1D (w : Nat) : Decoded :=
  if w &&& 0xFFC0007F = 0x0000003B then .instr (.cvtF64F32 (bits 21 14 w) (bits 13 13 w) (bits 12 7 w)) else
  if w &&& 0xFFC0007F = 0x4000003B then .instr (.cvtF32F64 (bits 21 14 w) (bits 13 13 w) (bits 12 7 w)) else
  if w &&& 0xFFC0007F = 0x8000003B then .instr (.cvtF64I64 (bits 21 14 w) (bits 13 13 w) (bits 12 7 w)) else
  if w &&& 0xFFC0007F = 0xC000003B then .instr (.cvtI64F64 (bits 21 14 w) (bits 13 13 w) (bits 12 7 w)) else
  .illegal w

/-- Words of major 0x1E (R66). -/
def decodeMajor1E (w : Nat) : Decoded :=
  if w &&& 0xFFC0007F = 0x0000003D then .instr (.cvtF16F32 (bits 21 14 w) (bits 13 13 w) (bits 12 7 w)) else
  if w &&& 0xFFC0007F = 0x4000003D then .instr (.cvtF32F16 (bits 21 14 w) (bits 13 13 w) (bits 12 7 w)) else
  if w &&& 0xFFC0007F = 0x8000003D then .instr (.cvtBf16F32 (bits 21 14 w) (bits 13 13 w) (bits 12 7 w)) else
  if w &&& 0xFFC0007F = 0xC000003D then .instr (.cvtF32Bf16 (bits 21 14 w) (bits 13 13 w) (bits 12 7 w)) else
  .illegal w

/-- Words of major 0x1F (R66). -/
def decodeMajor1F (w : Nat) : Decoded :=
  if w &&& 0xFFC0007F = 0x0000003F then .instr (.cvtF8F32 (bits 21 14 w) (bits 13 13 w) (bits 12 7 w)) else
  if w &&& 0xFFC0007F = 0x4000003F then .instr (.cvtF32F8 (bits 21 14 w) (bits 13 13 w) (bits 12 7 w)) else
  if w &&& 0xFFC0007F = 0x8000003F then .instr (.cvtE2m1F32 (bits 21 14 w) (bits 13 13 w) (bits 12 7 w)) else
  if w &&& 0xFFC0007F = 0xC000003F then .instr (.cvtF32E2m1 (bits 21 14 w) (bits 13 13 w) (bits 12 7 w)) else
  .illegal w

/-- Words of major 0x20 (R66). -/
def decodeMajor20 (w : Nat) : Decoded :=
  if w &&& 0xFFFC207F = 0x00000041 then .instr (.ballot (bits 17 17 w) (bits 16 14 w) (bits 12 7 w)) else
  if w &&& 0xFFFC3C7F = 0x40000041 then .instr (.voteAny (bits 17 17 w) (bits 16 14 w) (bits 9 7 w)) else
  if w &&& 0xFFFC3C7F = 0x80000041 then .instr (.voteAll (bits 17 17 w) (bits 16 14 w) (bits 9 7 w)) else
  if w &&& 0xFFFC3C7F = 0xC0000041 then .instr (.voteEq (bits 17 17 w) (bits 16 14 w) (bits 9 7 w)) else
  .illegal w

/-- Words of major 0x21 (R66). -/
def decodeMajor21 (w : Nat) : Decoded :=
  if w &&& 0xC000207F = 0x00000043 then .instr (.lxchAt (bits 29 22 w) (bits 21 14 w) (bits 12 7 w)) else
  if w &&& 0xC000207F = 0x40000043 then .instr (.lxchBack (bits 29 22 w) (bits 21 14 w) (bits 12 7 w)) else
  if w &&& 0xC000207F = 0x80000043 then .instr (.lxchFwd (bits 29 22 w) (bits 21 14 w) (bits 12 7 w)) else
  if w &&& 0xC000207F = 0xC0000043 then .instr (.lxchXor (bits 29 22 w) (bits 21 14 w) (bits 12 7 w)) else
  .illegal w

/-- Words of major 0x22 (R66). -/
def decodeMajor22 (w : Nat) : Decoded :=
  if w &&& 0xFFC0207F = 0x00000045 then .instr (.reduxAdd (bits 21 14 w) (bits 12 7 w)) else
  if w &&& 0xFFC0207F = 0x40000045 then .instr (.reduxMin (bits 21 14 w) (bits 12 7 w)) else
  if w &&& 0xFFC0207F = 0x80000045 then .instr (.reduxMax (bits 21 14 w) (bits 12 7 w)) else
  if w &&& 0xFFC0207F = 0xC0000045 then .instr (.matchAny (bits 21 14 w) (bits 12 7 w)) else
  .illegal w

/-- Words of major 0x24 (R66). -/
def decodeMajor24 (w : Nat) : Decoded :=
  if w &&& 0x0000207F = 0x00000049 then .instr (.ld (bits 31 28 w) (bits 27 25 w) (bits 24 22 w) (bits 21 20 w) (bits 19 14 w) (bits 12 7 w)) else
  .illegal w

/-- Words of major 0x25 (R66). -/
def decodeMajor25 (w : Nat) : Decoded :=
  if w &&& 0x0000207F = 0x0000004B then .instr (.st (bits 31 28 w) (bits 27 25 w) (bits 24 22 w) (bits 21 20 w) (bits 19 14 w) (bits 12 7 w)) else
  .illegal w

/-- Words of major 0x26 (R66). -/
def decodeMajor26 (w : Nat) : Decoded :=
  if w &&& 0x0E303E7F = 0x0000004D then .instr (.pref (bits 31 28 w) (bits 24 22 w) (bits 19 14 w) (bits 8 7 w)) else
  .illegal w

/-- Words of major 0x27 (R66). -/
def decodeMajor27 (w : Nat) : Decoded :=
  if w &&& 0x0000207F = 0x0000004F then .instr (.atom (bits 31 29 w) (bits 28 25 w) (bits 24 22 w) (bits 21 20 w) (bits 19 14 w) (bits 12 7 w)) else
  if w &&& 0x0000207F = 0x0000204F then .instr (.red (bits 31 29 w) (bits 28 25 w) (bits 24 22 w) (bits 21 20 w) (bits 19 14 w) (bits 12 7 w)) else
  .illegal w

/-- Words of major 0x28 (R66). -/
def decodeMajor28 (w : Nat) : Decoded :=
  if w &&& 0xFE0FFFFF = 0x00000051 then .instr (.fence (bits 24 22 w) (bits 21 20 w)) else
  if w &&& 0xFFFFFE7F = 0x02000051 then .instr (.drain (bits 8 7 w)) else
  if w &&& 0xFE30207F = 0x04000051 then .instr (.wbr (bits 24 22 w) (bits 19 14 w) (bits 12 7 w)) else
  if w &&& 0xFE30207F = 0x06000051 then .instr (.invr (bits 24 22 w) (bits 19 14 w) (bits 12 7 w)) else
  .illegal w

/-- Words of major 0x29 (R66). -/
def decodeMajor29 (w : Nat) : Decoded :=
  if w &&& 0xC000207F = 0x00000053 then .instr (.lds (bits 29 28 w) (bits 27 22 w) (bits 21 14 w) (bits 12 7 w)) else
  if w &&& 0xC000207F = 0x40000053 then .instr (.sts (bits 29 28 w) (bits 27 22 w) (bits 21 14 w) (bits 12 7 w)) else
  if w &&& 0xC000207F = 0x80000053 then .instr (.atoms (bits 29 28 w) (bits 27 22 w) (bits 21 14 w) (bits 12 7 w)) else
  if w &&& 0xF000207F = 0xC0000053 then .instr (.tinfo (bits 27 22 w) (bits 21 14 w) (bits 12 7 w)) else
  .illegal w

/-- Words of major 0x2A (R66). -/
def decodeMajor2A (w : Nat) : Decoded :=
  if w &&& 0xC000207F = 0x00000055 then .instr (.ldf (bits 29 28 w) (bits 27 22 w) (bits 21 14 w) (bits 12 7 w)) else
  if w &&& 0xC000207F = 0x40000055 then .instr (.lde (bits 29 28 w) (bits 27 22 w) (bits 21 14 w) (bits 12 7 w)) else
  if w &&& 0xC000207F = 0x80000055 then .instr (.stf (bits 29 28 w) (bits 27 22 w) (bits 21 14 w) (bits 12 7 w)) else
  if w &&& 0xC000207F = 0xC0000055 then .instr (.stx (bits 29 28 w) (bits 27 22 w) (bits 21 14 w) (bits 12 7 w)) else
  .illegal w

/-- Words of major 0x2B (R66). -/
def decodeMajor2B (w : Nat) : Decoded :=
  if w &&& 0xF000207F = 0x00000057 then .instr (.talloc (bits 27 22 w) (bits 21 14 w) (bits 12 7 w)) else
  if w &&& 0xF03FFFFF = 0x40000057 then .instr (.tfree (bits 27 22 w)) else
  if w &&& 0xF000207F = 0x80000057 then .instr (.feset (bits 27 22 w) (bits 21 14 w) (bits 12 7 w)) else
  if w &&& 0xF0003FFF = 0xC0000057 then .instr (.texport (bits 27 22 w) (bits 21 14 w)) else
  .illegal w

/-- Words of major 0x2C (R66). -/
def decodeMajor2C (w : Nat) : Decoded :=
  if w &&& 0x00001FFF = 0x00000059 then .instr (.br (bits 31 17 w) (bits 16 16 w) (bits 15 13 w)) else
  .illegal w

/-- Words of major 0x2D (R66). -/
def decodeMajor2D (w : Nat) : Decoded :=
  if w &&& 0x00001FFF = 0x0000005B then .instr (.bruAny (bits 31 17 w) (bits 16 16 w) (bits 15 13 w)) else
  if w &&& 0x00001FFF = 0x000000DB then .instr (.bruAll (bits 31 17 w) (bits 16 16 w) (bits 15 13 w)) else
  if w &&& 0x00001FFF = 0x0000015B then .instr (.bruNone (bits 31 17 w) (bits 16 16 w) (bits 15 13 w)) else
  if w &&& 0x00001FFF = 0x000001DB then .instr (.bruUni (bits 31 17 w) (bits 16 16 w) (bits 15 13 w)) else
  .illegal w

/-- Words of major 0x2E (R66). -/
def decodeMajor2E (w : Nat) : Decoded :=
  if w &&& 0x000000FF = 0x0000005D then .instr (.jmp (bits 31 8 w)) else
  if w &&& 0x000000FF = 0x000000DD then .instr (.call (bits 31 8 w)) else
  .illegal w

/-- Words of major 0x2F (R66). -/
def decodeMajor2F (w : Nat) : Decoded :=
  if w &&& 0xFFC03FFF = 0x0000005F then .instr (.dcall (bits 21 14 w)) else
  if w &&& 0xFFC03FFF = 0x4000005F then .instr (.djmp (bits 21 14 w)) else
  if w &&& 0xFFFFFFFF = 0x8000005F then .instr (.ret) else
  if w &&& 0xFFFFFFFF = 0xC000005F then .instr (.exit) else
  .illegal w

/-- Words of major 0x30 (R66). -/
def decodeMajor30 (w : Nat) : Decoded :=
  if w &&& 0xFFFFE1FF = 0x00000061 then .instr (.ktie (bits 12 9 w)) else
  if w &&& 0xFFFFE1FF = 0x000000E1 then .instr (.join (bits 12 9 w)) else
  if w &&& 0xFFFFE1FF = 0x00000161 then .instr (.kreset (bits 12 9 w)) else
  .illegal w

/-- Words of major 0x31 (R66). -/
def decodeMajor31 (w : Nat) : Decoded :=
  if w &&& 0xFC0001FF = 0x00000063 then .instr (.barSync (bits 25 18 w) (bits 17 13 w) (bits 12 9 w)) else
  if w &&& 0xFC0001FF = 0x000000E3 then .instr (.barArrive (bits 25 18 w) (bits 17 13 w) (bits 12 9 w)) else
  if w &&& 0xFFFC01FF = 0x00000163 then .instr (.barWait (bits 17 13 w) (bits 12 9 w)) else
  .illegal w

/-- Words of major 0x32 (R66). -/
def decodeMajor32 (w : Nat) : Decoded :=
  if w &&& 0xFFFFE07F = 0x00000065 then .instr (.mxacq (bits 12 7 w)) else
  if w &&& 0xFFFFE07F = 0x40000065 then .instr (.mxrel (bits 12 7 w)) else
  if w &&& 0xFFFFE07F = 0x80000065 then .instr (.mxzero (bits 12 7 w)) else
  if w &&& 0xFFC0207F = 0xC0000065 then .instr (.mxvc (bits 21 14 w) (bits 12 7 w)) else
  .illegal w

/-- Words of major 0x33 (R66). -/
def decodeMajor33 (w : Nat) : Decoded :=
  if w &&& 0xC000207F = 0x00000067 then .instr (.mmaC8 (bits 29 22 w) (bits 21 14 w) (bits 12 7 w)) else
  if w &&& 0xC000207F = 0x40000067 then .instr (.mmaX8 (bits 29 22 w) (bits 21 14 w) (bits 12 7 w)) else
  if w &&& 0xC000207F = 0x80000067 then .instr (.mmaC16 (bits 29 22 w) (bits 21 14 w) (bits 12 7 w)) else
  if w &&& 0xC000207F = 0xC0000067 then .instr (.mmaC16h (bits 29 22 w) (bits 21 14 w) (bits 12 7 w)) else
  .illegal w

/-- Words of major 0x34 (R66). -/
def decodeMajor34 (w : Nat) : Decoded :=
  if w &&& 0xC030207F = 0x00000069 then .instr (.mxld (bits 29 22 w) (bits 19 14 w) (bits 12 7 w)) else
  if w &&& 0xC030207F = 0x40000069 then .instr (.mxst (bits 29 22 w) (bits 19 14 w) (bits 12 7 w)) else
  if w &&& 0xC030207F = 0x80000069 then .instr (.mxrecomb (bits 29 22 w) (bits 19 14 w) (bits 12 7 w)) else
  if w &&& 0xFFC0207F = 0xC0000069 then .instr (.mxscale (bits 21 14 w) (bits 12 7 w)) else
  .illegal w

/-- Words of major 0x35 (R66). -/
def decodeMajor35 (w : Nat) : Decoded :=
  if w &&& 0xC000207F = 0x0000006B then .instr (.sktake (bits 29 22 w) (bits 21 14 w) (bits 12 7 w)) else
  if w &&& 0xC0003FFF = 0x4000006B then .instr (.skgive (bits 29 22 w) (bits 21 14 w)) else
  if w &&& 0xFFC0207F = 0x8000006B then .instr (.skreadx (bits 21 14 w) (bits 12 7 w)) else
  if w &&& 0xC0003FFF = 0xC000006B then .instr (.skinit (bits 29 22 w) (bits 21 14 w)) else
  .illegal w

/-- Words of major 0x36 (R66). -/
def decodeMajor36 (w : Nat) : Decoded :=
  if w &&& 0xFFC0207F = 0x0000006D then .instr (.prdef (bits 21 14 w) (bits 12 7 w)) else
  if w &&& 0xFFC03FFF = 0x4000006D then .instr (.prdone (bits 21 14 w)) else
  if w &&& 0xC0003FFF = 0x8000006D then .instr (.previct (bits 29 22 w) (bits 21 14 w)) else
  if w &&& 0xFFC0207F = 0xC000006D then .instr (.prq (bits 21 14 w) (bits 12 7 w)) else
  .illegal w

/-- Words of major 0x38 (R66). -/
def decodeMajor38 (w : Nat) : Decoded :=
  if w &&& 0xFFC03FFF = 0x00000071 then .instr (.trap (bits 21 14 w)) else
  if w &&& 0xFFFFFFFF = 0x40000071 then .instr (.bkpt) else
  if w &&& 0xFFFFFFFF = 0x80000071 then .instr (.rett) else
  if w &&& 0xFFC03FFF = 0xC0000071 then .instr (.sleep (bits 21 14 w)) else
  .illegal w

/-- Words of major 0x39 (R66). -/
def decodeMajor39 (w : Nat) : Decoded :=
  if w &&& 0xC03FE07F = 0x00000073 then .instr (.csrr (bits 29 22 w) (bits 12 7 w)) else
  if w &&& 0xC0003FFF = 0x40000073 then .instr (.csrw (bits 29 22 w) (bits 21 14 w)) else
  if w &&& 0xFFFFE07F = 0x80000073 then .instr (.flgr (bits 12 7 w)) else
  if w &&& 0xFFC03FFF = 0xC0000073 then .instr (.flgc (bits 21 14 w)) else
  .illegal w

/-- Words of major 0x3A (R66). -/
def decodeMajor3A (w : Nat) : Decoded :=
  if w &&& 0xFFC03FFF = 0x00000075 then .instr (.dqpush (bits 21 14 w)) else
  if w &&& 0xFFC03FFF = 0x40000075 then .instr (.launch (bits 21 14 w)) else
  if w &&& 0xFFFFFFFF = 0x80000075 then .instr (.fexit) else
  if w &&& 0xFFC0207F = 0xC0000075 then .instr (.fwaitev (bits 21 14 w) (bits 12 7 w)) else
  .illegal w

/-- Words of major 0x3B (R66). -/
def decodeMajor3B (w : Nat) : Decoded :=
  if w &&& 0xFE001FFF = 0x00000077 then .instr (.tceLoad (bits 24 19 w) (bits 18 13 w)) else
  if w &&& 0xFE001FFF = 0x02000077 then .instr (.tceStore (bits 24 19 w) (bits 18 13 w)) else
  if w &&& 0xFE001FFF = 0x04000077 then .instr (.tceMcast (bits 24 19 w) (bits 18 13 w)) else
  if w &&& 0xFE001FFF = 0x06000077 then .instr (.tceSlice (bits 24 19 w) (bits 18 13 w)) else
  if w &&& 0xFE001FFF = 0x08000077 then .instr (.tceGather (bits 24 19 w) (bits 18 13 w)) else
  if w &&& 0xFE001FFF = 0x0A000077 then .instr (.tceScatter (bits 24 19 w) (bits 18 13 w)) else
  if w &&& 0xFE001FFF = 0x0C000077 then .instr (.tceFill (bits 24 19 w) (bits 18 13 w)) else
  .illegal w

/-- Words of major 0x3C (R66). -/
def decodeMajor3C (w : Nat) : Decoded :=
  if w &&& 0xFE001FFF = 0x00000079 then .instr (.colReduce (bits 24 19 w) (bits 18 13 w)) else
  if w &&& 0xFE001FFF = 0x02000079 then .instr (.colAllred (bits 24 19 w) (bits 18 13 w)) else
  if w &&& 0xFE001FFF = 0x04000079 then .instr (.colBcast (bits 24 19 w) (bits 18 13 w)) else
  if w &&& 0xFE001FFF = 0x06000079 then .instr (.colAgather (bits 24 19 w) (bits 18 13 w)) else
  if w &&& 0xFE001FFF = 0x08000079 then .instr (.colRscat (bits 24 19 w) (bits 18 13 w)) else
  if w &&& 0xFFF81FFF = 0x0A000079 then .instr (.colCbar (bits 18 13 w)) else
  .illegal w

/-- Words of major 0x3D (R66). -/
def decodeMajor3D (w : Nat) : Decoded :=
  if w &&& 0xFFFFE07F = 0x0000007B then .instr (.wrange (bits 12 7 w)) else
  if w &&& 0xFFF81FFF = 0x0200007B then .instr (.fetchw (bits 18 13 w)) else
  if w &&& 0xFFF8007F = 0x0400007B then .instr (.fixup (bits 18 13 w) (bits 12 7 w)) else
  if w &&& 0xFFF81FFF = 0x0600007B then .instr (.scret (bits 18 13 w)) else
  if w &&& 0xFFFFE07F = 0x0800007B then .instr (.powq (bits 12 7 w)) else
  .illegal w

/-- Words of major 0x3F (R66). -/
def decodeMajor3F (w : Nat) : Decoded :=
  if w &&& 0x000000FF = 0x0000007F then .instr (.extI (bits 31 8 w)) else
  if w &&& 0xF80000FF = 0x000000FF then .instr (.extC (bits 26 24 w) (bits 23 20 w) (bits 19 19 w) (bits 18 16 w) (bits 15 8 w)) else
  .illegal w

/-- A 16-bit word (R51, R52). -/
def decode16 (w : Nat) : Decoded :=
  if w &&& 0xFC3F = 0x003C then .instr (.guard (bits 9 9 w) (bits 8 6 w)) else
  if w &&& 0x003F = 0x003E then .instr (.nop16 (bits 15 11 w) (bits 10 6 w)) else
  if w &&& 0x003F = 0x0000 then .instr (.mov16 (bits 15 11 w) (bits 10 6 w)) else
  if w &&& 0x003F = 0x0002 then .instr (.iadd16 (bits 15 11 w) (bits 10 6 w)) else
  if w &&& 0x003F = 0x0004 then .instr (.isub16 (bits 15 11 w) (bits 10 6 w)) else
  if w &&& 0x003F = 0x0006 then .instr (.imul16 (bits 15 11 w) (bits 10 6 w)) else
  if w &&& 0x003F = 0x0008 then .instr (.and16 (bits 15 11 w) (bits 10 6 w)) else
  if w &&& 0x003F = 0x000A then .instr (.or16 (bits 15 11 w) (bits 10 6 w)) else
  if w &&& 0x003F = 0x000C then .instr (.xor16 (bits 15 11 w) (bits 10 6 w)) else
  if w &&& 0x003F = 0x000E then .instr (.shl16 (bits 15 11 w) (bits 10 6 w)) else
  if w &&& 0x003F = 0x0010 then .instr (.shr16 (bits 15 11 w) (bits 10 6 w)) else
  if w &&& 0x003F = 0x0012 then .instr (.sar16 (bits 15 11 w) (bits 10 6 w)) else
  if w &&& 0x003F = 0x0014 then .instr (.imin16 (bits 15 11 w) (bits 10 6 w)) else
  if w &&& 0x003F = 0x0016 then .instr (.imax16 (bits 15 11 w) (bits 10 6 w)) else
  if w &&& 0x003F = 0x0018 then .instr (.fadd16 (bits 15 11 w) (bits 10 6 w)) else
  if w &&& 0x003F = 0x001A then .instr (.fsub16 (bits 15 11 w) (bits 10 6 w)) else
  if w &&& 0x003F = 0x001C then .instr (.fmul16 (bits 15 11 w) (bits 10 6 w)) else
  if w &&& 0x003F = 0x001E then .instr (.fmax16 (bits 15 11 w) (bits 10 6 w)) else
  .illegal w

/-- A 32-bit word, by its major opcode in bits [6:1]. -/
def decode32 (w : Nat) : Decoded :=
  match w / 2 % 64 with
  | 0x00 => decodeMajor00 w
  | 0x01 => decodeMajor01 w
  | 0x02 => decodeMajor02 w
  | 0x03 => decodeMajor03 w
  | 0x04 => decodeMajor04 w
  | 0x05 => decodeMajor05 w
  | 0x06 => decodeMajor06 w
  | 0x07 => decodeMajor07 w
  | 0x08 => decodeMajor08 w
  | 0x09 => decodeMajor09 w
  | 0x0A => decodeMajor0A w
  | 0x0B => decodeMajor0B w
  | 0x0C => decodeMajor0C w
  | 0x0D => decodeMajor0D w
  | 0x0E => decodeMajor0E w
  | 0x0F => decodeMajor0F w
  | 0x10 => decodeMajor10 w
  | 0x11 => decodeMajor11 w
  | 0x12 => decodeMajor12 w
  | 0x13 => decodeMajor13 w
  | 0x14 => decodeMajor14 w
  | 0x15 => decodeMajor15 w
  | 0x16 => decodeMajor16 w
  | 0x17 => decodeMajor17 w
  | 0x18 => decodeMajor18 w
  | 0x19 => decodeMajor19 w
  | 0x1A => decodeMajor1A w
  | 0x1B => decodeMajor1B w
  | 0x1C => decodeMajor1C w
  | 0x1D => decodeMajor1D w
  | 0x1E => decodeMajor1E w
  | 0x1F => decodeMajor1F w
  | 0x20 => decodeMajor20 w
  | 0x21 => decodeMajor21 w
  | 0x22 => decodeMajor22 w
  | 0x24 => decodeMajor24 w
  | 0x25 => decodeMajor25 w
  | 0x26 => decodeMajor26 w
  | 0x27 => decodeMajor27 w
  | 0x28 => decodeMajor28 w
  | 0x29 => decodeMajor29 w
  | 0x2A => decodeMajor2A w
  | 0x2B => decodeMajor2B w
  | 0x2C => decodeMajor2C w
  | 0x2D => decodeMajor2D w
  | 0x2E => decodeMajor2E w
  | 0x2F => decodeMajor2F w
  | 0x30 => decodeMajor30 w
  | 0x31 => decodeMajor31 w
  | 0x32 => decodeMajor32 w
  | 0x33 => decodeMajor33 w
  | 0x34 => decodeMajor34 w
  | 0x35 => decodeMajor35 w
  | 0x36 => decodeMajor36 w
  | 0x38 => decodeMajor38 w
  | 0x39 => decodeMajor39 w
  | 0x3A => decodeMajor3A w
  | 0x3B => decodeMajor3B w
  | 0x3C => decodeMajor3C w
  | 0x3D => decodeMajor3D w
  | 0x3F => decodeMajor3F w
  | _ => .illegal w

/-- Decoding a word of `wordBytes` bytes, bit 0 the least significant bit of its first halfword. -/
def decodeWord (w : Nat) : Decoded :=
  if w % 2 = 0 then decode16 (w % 2 ^ 16) else decode32 (w % 2 ^ 32)

/-- Bytes in memory order, as a number (R5). -/
def leValue : List Byte → Nat
  | [] => 0
  | b :: bs => b.toNat + 256 * leValue bs

/-- The low `n` bytes of a number in memory order (R5). -/
def leBytes : Nat → Nat → List Byte
  | 0, _ => []
  | n + 1, v => BitVec.ofNat 8 v :: leBytes n (v / 256)

/-- Decoding the first word of some bytes: the answer and the bytes after it, or none where they end
inside the word. -/
def decodeBytes (bs : List Byte) : Option (Decoded × List Byte) :=
  match bs with
  | b0 :: b1 :: rest =>
    if b0.toNat % 2 = 0 then some (decodeWord (leValue [b0, b1]), rest)
    else match rest with
      | b2 :: b3 :: rest' => some (decodeWord (leValue [b0, b1, b2, b3]), rest')
      | _ => none
  | _ => none

/-- The word of an instruction, written from the table's fixed bits and fields; none for an event. -/
def encode : Instr → Option Nat
  | .iadd b a n d => some (0x00000001 ||| place b 22 ||| place a 14 ||| place n 13 ||| place d 7)
  | .isub b a n d => some (0x40000001 ||| place b 22 ||| place a 14 ||| place n 13 ||| place d 7)
  | .irsub b a n d => some (0x80000001 ||| place b 22 ||| place a 14 ||| place n 13 ||| place d 7)
  | .iaddc b a n d => some (0xC0000001 ||| place b 22 ||| place a 14 ||| place n 13 ||| place d 7)
  | .imul b a n d => some (0x00000003 ||| place b 22 ||| place a 14 ||| place n 13 ||| place d 7)
  | .imulh b a n d => some (0x40000003 ||| place b 22 ||| place a 14 ||| place n 13 ||| place d 7)
  | .nmulh b a n d => some (0x80000003 ||| place b 22 ||| place a 14 ||| place n 13 ||| place d 7)
  | .imad b a n d => some (0xC0000003 ||| place b 22 ||| place a 14 ||| place n 13 ||| place d 7)
  | .imin b a n d => some (0x00000005 ||| place b 22 ||| place a 14 ||| place n 13 ||| place d 7)
  | .imax b a n d => some (0x40000005 ||| place b 22 ||| place a 14 ||| place n 13 ||| place d 7)
  | .nmin b a n d => some (0x80000005 ||| place b 22 ||| place a 14 ||| place n 13 ||| place d 7)
  | .nmax b a n d => some (0xC0000005 ||| place b 22 ||| place a 14 ||| place n 13 ||| place d 7)
  | .and32 b a n d => some (0x00000007 ||| place b 22 ||| place a 14 ||| place n 13 ||| place d 7)
  | .or32 b a n d => some (0x40000007 ||| place b 22 ||| place a 14 ||| place n 13 ||| place d 7)
  | .xor32 b a n d => some (0x80000007 ||| place b 22 ||| place a 14 ||| place n 13 ||| place d 7)
  | .andn b a n d => some (0xC0000007 ||| place b 22 ||| place a 14 ||| place n 13 ||| place d 7)
  | .shl b a n d => some (0x00000009 ||| place b 22 ||| place a 14 ||| place n 13 ||| place d 7)
  | .shr b a n d => some (0x40000009 ||| place b 22 ||| place a 14 ||| place n 13 ||| place d 7)
  | .sar b a n d => some (0x80000009 ||| place b 22 ||| place a 14 ||| place n 13 ||| place d 7)
  | .rotl b a n d => some (0xC0000009 ||| place b 22 ||| place a 14 ||| place n 13 ||| place d 7)
  | .bfx b a n d => some (0x0000000B ||| place b 22 ||| place a 14 ||| place n 13 ||| place d 7)
  | .bfxn b a n d => some (0x4000000B ||| place b 22 ||| place a 14 ||| place n 13 ||| place d 7)
  | .bfi b a n d => some (0x8000000B ||| place b 22 ||| place a 14 ||| place n 13 ||| place d 7)
  | .prmt b a n d => some (0xC000000B ||| place b 22 ||| place a 14 ||| place n 13 ||| place d 7)
  | .popc a n d => some (0x0000000D ||| place a 14 ||| place n 13 ||| place d 7)
  | .clz a n d => some (0x4000000D ||| place a 14 ||| place n 13 ||| place d 7)
  | .brev a n d => some (0x8000000D ||| place a 14 ||| place n 13 ||| place d 7)
  | .iabs a n d => some (0xC000000D ||| place a 14 ||| place n 13 ||| place d 7)
  | .isetpI32 b a c p => some (0x0000000F ||| place b 22 ||| place a 14 ||| place c 10 ||| place p 7)
  | .isetpN32 b a c p => some (0x4000000F ||| place b 22 ||| place a 14 ||| place c 10 ||| place p 7)
  | .isetpI64 b a c p => some (0x8000000F ||| place b 22 ||| place a 14 ||| place c 10 ||| place p 7)
  | .isetpN64 b a c p => some (0xC000000F ||| place b 22 ||| place a 14 ||| place c 10 ||| place p 7)
  | .mov a n d => some (0x00000011 ||| place a 14 ||| place n 13 ||| place d 7)
  | .sel b a n d => some (0x40000011 ||| place b 22 ||| place a 14 ||| place n 13 ||| place d 7)
  | .movh a n d => some (0x80000011 ||| place a 14 ||| place n 13 ||| place d 7)
  | .plop t j y i x p => some (0xC0000011 ||| place t 26 ||| place j 25 ||| place y 22 ||| place i 17 ||| place x 14 ||| place p 7)
  | .iaddW b a n d => some (0x00000013 ||| place b 22 ||| place a 14 ||| place n 13 ||| place d 7)
  | .isubW b a n d => some (0x40000013 ||| place b 22 ||| place a 14 ||| place n 13 ||| place d 7)
  | .imulW b a n d => some (0x80000013 ||| place b 22 ||| place a 14 ||| place n 13 ||| place d 7)
  | .imadW b a n d => some (0xC0000013 ||| place b 22 ||| place a 14 ||| place n 13 ||| place d 7)
  | .shlW b a n d => some (0x00000015 ||| place b 22 ||| place a 14 ||| place n 13 ||| place d 7)
  | .shrW b a n d => some (0x40000015 ||| place b 22 ||| place a 14 ||| place n 13 ||| place d 7)
  | .sarW b a n d => some (0x80000015 ||| place b 22 ||| place a 14 ||| place n 13 ||| place d 7)
  | .imulx b a n d => some (0xC0000015 ||| place b 22 ||| place a 14 ||| place n 13 ||| place d 7)
  | .idiv b a n d => some (0x00000017 ||| place b 22 ||| place a 14 ||| place n 13 ||| place d 7)
  | .ndiv b a n d => some (0x40000017 ||| place b 22 ||| place a 14 ||| place n 13 ||| place d 7)
  | .irem b a n d => some (0x80000017 ||| place b 22 ||| place a 14 ||| place n 13 ||| place d 7)
  | .nrem b a n d => some (0xC0000017 ||| place b 22 ||| place a 14 ||| place n 13 ||| place d 7)
  | .iadds b a n d => some (0x00000019 ||| place b 22 ||| place a 14 ||| place n 13 ||| place d 7)
  | .isubs b a n d => some (0x40000019 ||| place b 22 ||| place a 14 ||| place n 13 ||| place d 7)
  | .nadds b a n d => some (0x80000019 ||| place b 22 ||| place a 14 ||| place n 13 ||| place d 7)
  | .nsubs b a n d => some (0xC0000019 ||| place b 22 ||| place a 14 ||| place n 13 ||| place d 7)
  | .logt b a n d => some (0x0000001B ||| place b 22 ||| place a 14 ||| place n 13 ||| place d 7)
  | .bmrg b a n d => some (0x4000001B ||| place b 22 ||| place a 14 ||| place n 13 ||| place d 7)
  | .fshl b a n d => some (0x8000001B ||| place b 22 ||| place a 14 ||| place n 13 ||| place d 7)
  | .fshr b a n d => some (0xC000001B ||| place b 22 ||| place a 14 ||| place n 13 ||| place d 7)
  | .fadd b a n d => some (0x0000001D ||| place b 22 ||| place a 14 ||| place n 13 ||| place d 7)
  | .fsub b a n d => some (0x4000001D ||| place b 22 ||| place a 14 ||| place n 13 ||| place d 7)
  | .fmul b a n d => some (0x8000001D ||| place b 22 ||| place a 14 ||| place n 13 ||| place d 7)
  | .ffma b a n d => some (0xC000001D ||| place b 22 ||| place a 14 ||| place n 13 ||| place d 7)
  | .fmin b a n d => some (0x0000001F ||| place b 22 ||| place a 14 ||| place n 13 ||| place d 7)
  | .fmax b a n d => some (0x4000001F ||| place b 22 ||| place a 14 ||| place n 13 ||| place d 7)
  | .fminn b a n d => some (0x8000001F ||| place b 22 ||| place a 14 ||| place n 13 ||| place d 7)
  | .fmaxn b a n d => some (0xC000001F ||| place b 22 ||| place a 14 ||| place n 13 ||| place d 7)
  | .fsetp b a c p => some (0x00000021 ||| place b 22 ||| place a 14 ||| place c 10 ||| place p 7)
  | .fsetpSig b a c p => some (0x40000021 ||| place b 22 ||| place a 14 ||| place c 10 ||| place p 7)
  | .fdiv b a n d => some (0x00000023 ||| place b 22 ||| place a 14 ||| place n 13 ||| place d 7)
  | .fsqrt a n d => some (0x40000023 ||| place a 14 ||| place n 13 ||| place d 7)
  | .frcp a n d => some (0x80000023 ||| place a 14 ||| place n 13 ||| place d 7)
  | .frsq a n d => some (0xC0000023 ||| place a 14 ||| place n 13 ||| place d 7)
  | .fex2 a n d => some (0x00000025 ||| place a 14 ||| place n 13 ||| place d 7)
  | .flg2 a n d => some (0x40000025 ||| place a 14 ||| place n 13 ||| place d 7)
  | .fsin a n d => some (0x80000025 ||| place a 14 ||| place n 13 ||| place d 7)
  | .fcos a n d => some (0xC0000025 ||| place a 14 ||| place n 13 ||| place d 7)
  | .fabs a n d => some (0x00000027 ||| place a 14 ||| place n 13 ||| place d 7)
  | .fneg a n d => some (0x40000027 ||| place a 14 ||| place n 13 ||| place d 7)
  | .fcpys b a n d => some (0x80000027 ||| place b 22 ||| place a 14 ||| place n 13 ||| place d 7)
  | .fclass a n d => some (0xC0000027 ||| place a 14 ||| place n 13 ||| place d 7)
  | .frnd a n d => some (0x00000029 ||| place a 14 ||| place n 13 ||| place d 7)
  | .fscale b a n d => some (0x40000029 ||| place b 22 ||| place a 14 ||| place n 13 ||| place d 7)
  | .fexpo a n d => some (0x80000029 ||| place a 14 ||| place n 13 ||| place d 7)
  | .hadd2 b a n d => some (0x0000002B ||| place b 22 ||| place a 14 ||| place n 13 ||| place d 7)
  | .hmul2 b a n d => some (0x4000002B ||| place b 22 ||| place a 14 ||| place n 13 ||| place d 7)
  | .hfma2 b a n d => some (0x8000002B ||| place b 22 ||| place a 14 ||| place n 13 ||| place d 7)
  | .hmax2 b a n d => some (0xC000002B ||| place b 22 ||| place a 14 ||| place n 13 ||| place d 7)
  | .badd2 b a n d => some (0x0000002D ||| place b 22 ||| place a 14 ||| place n 13 ||| place d 7)
  | .bmul2 b a n d => some (0x4000002D ||| place b 22 ||| place a 14 ||| place n 13 ||| place d 7)
  | .bfma2 b a n d => some (0x8000002D ||| place b 22 ||| place a 14 ||| place n 13 ||| place d 7)
  | .bmax2 b a n d => some (0xC000002D ||| place b 22 ||| place a 14 ||| place n 13 ||| place d 7)
  | .dadd b a n d => some (0x0000002F ||| place b 22 ||| place a 14 ||| place n 13 ||| place d 7)
  | .dsub b a n d => some (0x4000002F ||| place b 22 ||| place a 14 ||| place n 13 ||| place d 7)
  | .dmul b a n d => some (0x8000002F ||| place b 22 ||| place a 14 ||| place n 13 ||| place d 7)
  | .dfma b a n d => some (0xC000002F ||| place b 22 ||| place a 14 ||| place n 13 ||| place d 7)
  | .dmin b a n d => some (0x00000031 ||| place b 22 ||| place a 14 ||| place n 13 ||| place d 7)
  | .dmax b a n d => some (0x40000031 ||| place b 22 ||| place a 14 ||| place n 13 ||| place d 7)
  | .dminn b a n d => some (0x80000031 ||| place b 22 ||| place a 14 ||| place n 13 ||| place d 7)
  | .dmaxn b a n d => some (0xC0000031 ||| place b 22 ||| place a 14 ||| place n 13 ||| place d 7)
  | .dsetp b a s c p => some (0x00000033 ||| place b 22 ||| place a 14 ||| place s 13 ||| place c 10 ||| place p 7)
  | .dclass a n d => some (0x40000033 ||| place a 14 ||| place n 13 ||| place d 7)
  | .dabs a n d => some (0x80000033 ||| place a 14 ||| place n 13 ||| place d 7)
  | .dneg a n d => some (0xC0000033 ||| place a 14 ||| place n 13 ||| place d 7)
  | .ddiv b a n d => some (0x00000035 ||| place b 22 ||| place a 14 ||| place n 13 ||| place d 7)
  | .dsqrt a n d => some (0x40000035 ||| place a 14 ||| place n 13 ||| place d 7)
  | .drcp a n d => some (0x80000035 ||| place a 14 ||| place n 13 ||| place d 7)
  | .drsq a n d => some (0xC0000035 ||| place a 14 ||| place n 13 ||| place d 7)
  | .drnd a n d => some (0x00000037 ||| place a 14 ||| place n 13 ||| place d 7)
  | .dscale b a n d => some (0x40000037 ||| place b 22 ||| place a 14 ||| place n 13 ||| place d 7)
  | .cvtF32I32 a n d => some (0x00000039 ||| place a 14 ||| place n 13 ||| place d 7)
  | .cvtF32N32 a n d => some (0x40000039 ||| place a 14 ||| place n 13 ||| place d 7)
  | .cvtI32F32 a n d => some (0x80000039 ||| place a 14 ||| place n 13 ||| place d 7)
  | .cvtN32F32 a n d => some (0xC0000039 ||| place a 14 ||| place n 13 ||| place d 7)
  | .cvtF64F32 a n d => some (0x0000003B ||| place a 14 ||| place n 13 ||| place d 7)
  | .cvtF32F64 a n d => some (0x4000003B ||| place a 14 ||| place n 13 ||| place d 7)
  | .cvtF64I64 a n d => some (0x8000003B ||| place a 14 ||| place n 13 ||| place d 7)
  | .cvtI64F64 a n d => some (0xC000003B ||| place a 14 ||| place n 13 ||| place d 7)
  | .cvtF16F32 a n d => some (0x0000003D ||| place a 14 ||| place n 13 ||| place d 7)
  | .cvtF32F16 a n d => some (0x4000003D ||| place a 14 ||| place n 13 ||| place d 7)
  | .cvtBf16F32 a n d => some (0x8000003D ||| place a 14 ||| place n 13 ||| place d 7)
  | .cvtF32Bf16 a n d => some (0xC000003D ||| place a 14 ||| place n 13 ||| place d 7)
  | .cvtF8F32 a n d => some (0x0000003F ||| place a 14 ||| place n 13 ||| place d 7)
  | .cvtF32F8 a n d => some (0x4000003F ||| place a 14 ||| place n 13 ||| place d 7)
  | .cvtE2m1F32 a n d => some (0x8000003F ||| place a 14 ||| place n 13 ||| place d 7)
  | .cvtF32E2m1 a n d => some (0xC000003F ||| place a 14 ||| place n 13 ||| place d 7)
  | .ballot i p d => some (0x00000041 ||| place i 17 ||| place p 14 ||| place d 7)
  | .voteAny i p q => some (0x40000041 ||| place i 17 ||| place p 14 ||| place q 7)
  | .voteAll i p q => some (0x80000041 ||| place i 17 ||| place p 14 ||| place q 7)
  | .voteEq i p q => some (0xC0000041 ||| place i 17 ||| place p 14 ||| place q 7)
  | .lxchAt b a d => some (0x00000043 ||| place b 22 ||| place a 14 ||| place d 7)
  | .lxchBack b a d => some (0x40000043 ||| place b 22 ||| place a 14 ||| place d 7)
  | .lxchFwd b a d => some (0x80000043 ||| place b 22 ||| place a 14 ||| place d 7)
  | .lxchXor b a d => some (0xC0000043 ||| place b 22 ||| place a 14 ||| place d 7)
  | .reduxAdd a d => some (0x00000045 ||| place a 14 ||| place d 7)
  | .reduxMin a d => some (0x40000045 ||| place a 14 ||| place d 7)
  | .reduxMax a d => some (0x80000045 ||| place a 14 ||| place d 7)
  | .matchAny a d => some (0xC0000045 ||| place a 14 ||| place d 7)
  | .ld o z s r a d => some (0x00000049 ||| place o 28 ||| place z 25 ||| place s 22 ||| place r 20 ||| place a 14 ||| place d 7)
  | .st o z s r a d => some (0x0000004B ||| place o 28 ||| place z 25 ||| place s 22 ||| place r 20 ||| place a 14 ||| place d 7)
  | .pref o s a l => some (0x0000004D ||| place o 28 ||| place s 22 ||| place a 14 ||| place l 7)
  | .atom t o s r a d => some (0x0000004F ||| place t 29 ||| place o 25 ||| place s 22 ||| place r 20 ||| place a 14 ||| place d 7)
  | .red t o s r a d => some (0x0000204F ||| place t 29 ||| place o 25 ||| place s 22 ||| place r 20 ||| place a 14 ||| place d 7)
  | .fence s r => some (0x00000051 ||| place s 22 ||| place r 20)
  | .drain p => some (0x02000051 ||| place p 7)
  | .wbr s a d => some (0x04000051 ||| place s 22 ||| place a 14 ||| place d 7)
  | .invr s a d => some (0x06000051 ||| place s 22 ||| place a 14 ||| place d 7)
  | .lds z h a d => some (0x00000053 ||| place z 28 ||| place h 22 ||| place a 14 ||| place d 7)
  | .sts z h a d => some (0x40000053 ||| place z 28 ||| place h 22 ||| place a 14 ||| place d 7)
  | .atoms z h a d => some (0x80000053 ||| place z 28 ||| place h 22 ||| place a 14 ||| place d 7)
  | .tinfo h a d => some (0xC0000053 ||| place h 22 ||| place a 14 ||| place d 7)
  | .ldf z h a d => some (0x00000055 ||| place z 28 ||| place h 22 ||| place a 14 ||| place d 7)
  | .lde z h a d => some (0x40000055 ||| place z 28 ||| place h 22 ||| place a 14 ||| place d 7)
  | .stf z h a d => some (0x80000055 ||| place z 28 ||| place h 22 ||| place a 14 ||| place d 7)
  | .stx z h a d => some (0xC0000055 ||| place z 28 ||| place h 22 ||| place a 14 ||| place d 7)
  | .talloc h a d => some (0x00000057 ||| place h 22 ||| place a 14 ||| place d 7)
  | .tfree h => some (0x40000057 ||| place h 22)
  | .feset h a d => some (0x80000057 ||| place h 22 ||| place a 14 ||| place d 7)
  | .texport h a => some (0xC0000057 ||| place h 22 ||| place a 14)
  | .br d n p => some (0x00000059 ||| place d 17 ||| place n 16 ||| place p 13)
  | .bruAny d n p => some (0x0000005B ||| place d 17 ||| place n 16 ||| place p 13)
  | .bruAll d n p => some (0x000000DB ||| place d 17 ||| place n 16 ||| place p 13)
  | .bruNone d n p => some (0x0000015B ||| place d 17 ||| place n 16 ||| place p 13)
  | .bruUni d n p => some (0x000001DB ||| place d 17 ||| place n 16 ||| place p 13)
  | .jmp d => some (0x0000005D ||| place d 8)
  | .call d => some (0x000000DD ||| place d 8)
  | .dcall a => some (0x0000005F ||| place a 14)
  | .djmp a => some (0x4000005F ||| place a 14)
  | .ret => some (0x8000005F)
  | .exit => some (0xC000005F)
  | .ktie k => some (0x00000061 ||| place k 9)
  | .join k => some (0x000000E1 ||| place k 9)
  | .kreset k => some (0x00000161 ||| place k 9)
  | .barSync c p i => some (0x00000063 ||| place c 18 ||| place p 13 ||| place i 9)
  | .barArrive c p i => some (0x000000E3 ||| place c 18 ||| place p 13 ||| place i 9)
  | .barWait p i => some (0x00000163 ||| place p 13 ||| place i 9)
  | .mxacq d => some (0x00000065 ||| place d 7)
  | .mxrel d => some (0x40000065 ||| place d 7)
  | .mxzero d => some (0x80000065 ||| place d 7)
  | .mxvc a d => some (0xC0000065 ||| place a 14 ||| place d 7)
  | .mmaC8 b a d => some (0x00000067 ||| place b 22 ||| place a 14 ||| place d 7)
  | .mmaX8 b a d => some (0x40000067 ||| place b 22 ||| place a 14 ||| place d 7)
  | .mmaC16 b a d => some (0x80000067 ||| place b 22 ||| place a 14 ||| place d 7)
  | .mmaC16h b a d => some (0xC0000067 ||| place b 22 ||| place a 14 ||| place d 7)
  | .mxld b a d => some (0x00000069 ||| place b 22 ||| place a 14 ||| place d 7)
  | .mxst b a d => some (0x40000069 ||| place b 22 ||| place a 14 ||| place d 7)
  | .mxrecomb b a d => some (0x80000069 ||| place b 22 ||| place a 14 ||| place d 7)
  | .mxscale a d => some (0xC0000069 ||| place a 14 ||| place d 7)
  | .sktake b a d => some (0x0000006B ||| place b 22 ||| place a 14 ||| place d 7)
  | .skgive b a => some (0x4000006B ||| place b 22 ||| place a 14)
  | .skreadx a d => some (0x8000006B ||| place a 14 ||| place d 7)
  | .skinit b a => some (0xC000006B ||| place b 22 ||| place a 14)
  | .prdef a d => some (0x0000006D ||| place a 14 ||| place d 7)
  | .prdone a => some (0x4000006D ||| place a 14)
  | .previct b a => some (0x8000006D ||| place b 22 ||| place a 14)
  | .prq a d => some (0xC000006D ||| place a 14 ||| place d 7)
  | .trap a => some (0x00000071 ||| place a 14)
  | .bkpt => some (0x40000071)
  | .rett => some (0x80000071)
  | .sleep a => some (0xC0000071 ||| place a 14)
  | .csrr c d => some (0x00000073 ||| place c 22 ||| place d 7)
  | .csrw c a => some (0x40000073 ||| place c 22 ||| place a 14)
  | .flgr d => some (0x80000073 ||| place d 7)
  | .flgc a => some (0xC0000073 ||| place a 14)
  | .dqpush a => some (0x00000075 ||| place a 14)
  | .launch a => some (0x40000075 ||| place a 14)
  | .fexit => some (0x80000075)
  | .fwaitev a d => some (0xC0000075 ||| place a 14 ||| place d 7)
  | .tceLoad b a => some (0x00000077 ||| place b 19 ||| place a 13)
  | .tceStore b a => some (0x02000077 ||| place b 19 ||| place a 13)
  | .tceMcast b a => some (0x04000077 ||| place b 19 ||| place a 13)
  | .tceSlice b a => some (0x06000077 ||| place b 19 ||| place a 13)
  | .tceGather b a => some (0x08000077 ||| place b 19 ||| place a 13)
  | .tceScatter b a => some (0x0A000077 ||| place b 19 ||| place a 13)
  | .tceFill b a => some (0x0C000077 ||| place b 19 ||| place a 13)
  | .colReduce b a => some (0x00000079 ||| place b 19 ||| place a 13)
  | .colAllred b a => some (0x02000079 ||| place b 19 ||| place a 13)
  | .colBcast b a => some (0x04000079 ||| place b 19 ||| place a 13)
  | .colAgather b a => some (0x06000079 ||| place b 19 ||| place a 13)
  | .colRscat b a => some (0x08000079 ||| place b 19 ||| place a 13)
  | .colCbar a => some (0x0A000079 ||| place a 13)
  | .wrange d => some (0x0000007B ||| place d 7)
  | .fetchw a => some (0x0200007B ||| place a 13)
  | .fixup a d => some (0x0400007B ||| place a 13 ||| place d 7)
  | .scret a => some (0x0600007B ||| place a 13)
  | .powq d => some (0x0800007B ||| place d 7)
  | .extI i => some (0x0000007F ||| place i 8)
  | .extC s n t r c => some (0x000000FF ||| place s 24 ||| place n 20 ||| place t 19 ||| place r 16 ||| place c 8)
  | .guard i p => some (0x003C ||| place i 9 ||| place p 6)
  | .nop16 s d => some (0x003E ||| place s 11 ||| place d 6)
  | .mov16 s d => some (0x0000 ||| place s 11 ||| place d 6)
  | .iadd16 s d => some (0x0002 ||| place s 11 ||| place d 6)
  | .isub16 s d => some (0x0004 ||| place s 11 ||| place d 6)
  | .imul16 s d => some (0x0006 ||| place s 11 ||| place d 6)
  | .and16 s d => some (0x0008 ||| place s 11 ||| place d 6)
  | .or16 s d => some (0x000A ||| place s 11 ||| place d 6)
  | .xor16 s d => some (0x000C ||| place s 11 ||| place d 6)
  | .shl16 s d => some (0x000E ||| place s 11 ||| place d 6)
  | .shr16 s d => some (0x0010 ||| place s 11 ||| place d 6)
  | .sar16 s d => some (0x0012 ||| place s 11 ||| place d 6)
  | .imin16 s d => some (0x0014 ||| place s 11 ||| place d 6)
  | .imax16 s d => some (0x0016 ||| place s 11 ||| place d 6)
  | .fadd16 s d => some (0x0018 ||| place s 11 ||| place d 6)
  | .fsub16 s d => some (0x001A ||| place s 11 ||| place d 6)
  | .fmul16 s d => some (0x001C ||| place s 11 ||| place d 6)
  | .fmax16 s d => some (0x001E ||| place s 11 ||| place d 6)
  | .warpFormation _ _ => none
  | .agedThread _ _ => none
  | .loadDataReturn _ => none
  | .rejectionRetry _ _ => none
  | .agedEntryGrant _ => none
  | .ownershipGrant _ => none
  | .invalidationAck _ => none
  | .fenceAccept _ => none
  | .drainAccept _ => none
  | .coh01RetentionEviction _ _ => none
  | .sleepExpiry _ _ => none
  | .knotRelease _ _ => none
  | .knotTimeout _ _ => none
  | .barrierComplete _ _ => none
  | .barrierTimeout _ _ => none
  | .blockRetire _ => none
  | .readSharedRequest _ => none
  | .ownershipRequest _ => none
  | .homeWriteback _ => none
  | .homeAtomic _ => none
  | .clusterAtomic _ => none
  | .hbmRequestIssue _ => none
  | .hbmDataReturn _ _ => none
  | .sidinRequest _ => none
  | .newHead _ => none
  | .belayLimitExpiry _ => none
  | .skeinRefillRequest _ _ => none
  | .hankReturn _ => none
  | .skeinGrant _ => none
  | .prRequest _ => none
  | .dyerSlotGrant _ _ => none
  | .prdefPropagated _ => none
  | .fillComplete _ _ => none
  | .fwaitevComplete _ => none
  | .dqRoom _ => none
  | .fetchwDelivery _ => none
  | .commandAcceptance _ _ => none
  | .tceComplete _ _ => none
  | .mxCommandStart _ => none
  | .mxCommandComplete _ => none
  | .acDeadlockSwapout _ => none
  | .colJoin _ _ _ => none
  | .colComplete _ _ => none
  | .cbarComplete _ _ => none
  | .launchPortWrite _ _ _ => none
  | .stagingTimeout _ => none
  | .blockPlacement => none
  | .quantumEnd => none
  | .swapOut _ => none
  | .walkResult _ => none
  | .faultRetry _ => none
  | .faultFail _ => none
  | .faultTimeout _ => none
  | .fqheadWrite _ => none
  | .fqsizeWrite _ => none
  | .tlbInvalidateRange _ => none
  | .tlbInvalidateAll _ => none
  | .tlbInvalidateDone => none
  | .ctxCreate _ => none
  | .ctxDestroy _ => none
  | .ctxCommandDone => none
  | .cxlMemAccess _ _ _ => none
  | .hostSnoop _ _ => none
  | .hostLineResponse _ _ => none
  | .plannedReset _ => none
  | .cxlReset => none
  | .linkDown => none
  | .watchdogReset => none
  | .thermalTrip => none
  | .clrpoison _ => none
  | .rowRefresh _ => none
  | .patrolScrub _ _ => none
  | .activationThreshold _ => none
  | .rhtWrite _ => none
  | .celogRead => none
  | .islcmdWrite _ _ => none
  | .islstatRead _ => none
  | .vfsChangeComplete _ => none
  | .islandGate _ => none
  | .energyWindow _ _ => none
  | .temperatureBandChange _ _ => none
  | .firmwareVerify _ => none
  | .die0Trained => none
  | .hbmLayoutMove => none
  | .domcfgWrite _ => none
  | .attestationRequest _ => none
  | .attestationDone => none
  | .registerWrite _ _ => none
  | .writeAcknowledgement _ => none
  | .skeinHomeOperation _ => none
  | .powerOnReset => none
  | .linkUp _ _ => none

/-- The bytes of an instruction's word in memory order; none for an event. -/
def encodeBytes (i : Instr) : Option (List Byte) :=
  (encode i).map fun w => leBytes (wordBytes w) w

/-- The instruction that the decoder reads from a word of `nbits` bits, numbered as the opcode table numbers
them, laid out as bytes with zeros above. -/
def decodeTableWord (nbits w : Nat) : Option Instr :=
  match decodeBytes (leBytes 12 (w % 2 ^ nbits)) with
  | some (.instr i, _) => some i
  | _ => none

end Sys2Proof
end

