-- ==== Sys2Proof/Machine/Bits.lean ====
section
/-! DEFINITION. Helpers on bit fields, sparse tables and sorted lists, used by every later file. -/

namespace Sys2Proof.Machine

/-- The value at a key. -/
def tget {α : Type} : Tab α → Nat → Option α
  | [], _ => none
  | (j, v) :: t, k => if j = k then some v else tget t k

/-- Setting a key, keeping the keys rising. -/
def tset {α : Type} : Tab α → Nat → α → Tab α
  | [], k, v => [(k, v)]
  | (j, u) :: t, k, v =>
    if k < j then (k, v) :: (j, u) :: t
    else if k = j then (k, v) :: t
    else (j, u) :: tset t k v

/-- Removing a key. -/
def tdel {α : Type} : Tab α → Nat → Tab α
  | [], _ => []
  | (j, u) :: t, k => if j = k then tdel t k else (j, u) :: tdel t k

/-- Changing the value at a key that is present. -/
def tmod {α : Type} : Tab α → Nat → (α → α) → Tab α
  | [], _, _ => []
  | (j, u) :: t, k, f => if j = k then (j, f u) :: t else (j, u) :: tmod t k f

/-- Changing every value. -/
def tmap {α : Type} (f : Nat → α → α) (t : Tab α) : Tab α := t.map fun p => (p.1, f p.1 p.2)

/-- Inserting into a rising list without repeats. -/
def insertNat : List Nat → Nat → List Nat
  | [], k => [k]
  | j :: t, k => if k < j then k :: j :: t else if k = j then j :: t else j :: insertNat t k

/-- Setting the n-th element of a list; nothing beyond its end. -/
def lset {α : Type} : List α → Nat → α → List α
  | [], _, _ => []
  | _ :: t, 0, v => v :: t
  | u :: t, n + 1, v => u :: lset t n v

/-- Removing the n-th element of a list. -/
def ldel {α : Type} : List α → Nat → List α
  | [], _ => []
  | _ :: t, 0 => t
  | u :: t, n + 1 => u :: ldel t n

/-- Bits [hi:lo] of a bit vector, as a number. -/
def field {n : Nat} (v : BitVec n) (hi lo : Nat) : Nat := (v.toNat >>> lo) % 2 ^ (hi - lo + 1)

/-- Bit `i` of a bit vector. -/
def bit {n : Nat} (v : BitVec n) (i : Nat) : Bool := v.getLsbD i

/-- A bit vector with bit `i` set to `b`. -/
def withBit {n : Nat} (v : BitVec n) (i : Nat) (b : Bool) : BitVec n :=
  if b then v ||| (BitVec.ofNat n (2 ^ i)) else v &&& ~~~(BitVec.ofNat n (2 ^ i))

/-- 1 or 0. -/
def boolBit (b : Bool) : Nat := if b then 1 else 0

/-- The byte mask of `len` bytes from byte `off` of a 128-byte line. -/
def byteMask (off len : Nat) : BitVec 128 := BitVec.ofNat 128 ((2 ^ len - 1) <<< off)

/-- A byte mask widened to a bit mask. -/
def spread : Nat → Nat → Nat
  | 0, _ => 0
  | n + 1, m => (if m % 2 = 1 then 0xFF else 0) + 256 * spread n (m / 2)

/-- Where the mask has a bit, the byte of `new`, elsewhere that of `old`. -/
def mergeBytes (mask : BitVec 128) (new old : BitVec 1024) : BitVec 1024 :=
  let m := BitVec.ofNat 1024 (spread 128 mask.toNat)
  (new &&& m) ||| (old &&& ~~~m)

/-- Ceiling of a quotient. -/
def ceilDiv (a b : Nat) : Nat := (a + b - 1) / b

/-- Sign extension of the low `n` bits of a number to 64 bits. -/
def sext (n v : Nat) : Quad :=
  if (v >>> (n - 1)) % 2 = 1 then BitVec.ofNat 64 (v % 2 ^ n + (2 ^ 64 - 2 ^ n)) else BitVec.ofNat 64 (v % 2 ^ n)

/-- The number of bits that are 1 among the low `n`. -/
def popCount : Nat → Nat → Nat
  | 0, _ => 0
  | n + 1, v => v % 2 + popCount n (v / 2)

end Sys2Proof.Machine
end

