-- ==== Sys2Proof/Machine/Float.lean ====
section
/-! DEFINITION. Floating-point arithmetic (R141 to R171): exact results over numbers of the form m × 2^e,
and one rounding into a format. Patterns are numbers; each instruction's width is its format's. -/

namespace Sys2Proof.Machine

/-! ## Formats (R141) -/

/-- A binary interchange format: field widths, the pattern of the largest finite value without the sign,
and whether it has infinities. -/
structure Fmt where
  ebits  : Nat
  fbits  : Nat
  maxFin : Nat
  hasInf : Bool := true

def fp64 : Fmt := { ebits := 11, fbits := 52, maxFin := 0x7FEFFFFFFFFFFFFF }
def fp32 : Fmt := { ebits := 8, fbits := 23, maxFin := 0x7F7FFFFF }
def fp16 : Fmt := { ebits := 5, fbits := 10, maxFin := 0x7BFF }
def bf16 : Fmt := { ebits := 8, fbits := 7, maxFin := 0x7F7F }
def e5m2 : Fmt := { ebits := 5, fbits := 2, maxFin := 0x7B }
def e4m3 : Fmt := { ebits := 4, fbits := 3, maxFin := 0x7E, hasInf := false }
def e2m1 : Fmt := { ebits := 2, fbits := 1, maxFin := 7, hasInf := false }

namespace Fmt

def width (f : Fmt) : Nat := f.ebits + f.fbits + 1
def bias (f : Fmt) : Nat := 2 ^ (f.ebits - 1) - 1
def signBit (f : Fmt) : Nat := 2 ^ (f.ebits + f.fbits)
def inf (f : Fmt) : Nat := (2 ^ f.ebits - 1) * 2 ^ f.fbits
def quiet (f : Fmt) : Nat := 2 ^ (f.fbits - 1)
def defNaN (f : Fmt) : Nat := f.inf + f.quiet
/-- The exponent of one unit in the last place of a subnormal. -/
def qmin (f : Fmt) : Int := 1 - (f.bias : Int) - f.fbits
def neg? (f : Fmt) (x : Nat) : Bool := x / f.signBit % 2 = 1
def mag (f : Fmt) (x : Nat) : Nat := x % f.signBit
def withSign (f : Fmt) (neg : Bool) (mag : Nat) : Nat := mag + (if neg then f.signBit else 0)

/-- A NaN: of E4M3 only 0x7F and 0xFF; of E2M1 none (its escape is judged by the conversions). -/
def isNaN (f : Fmt) (x : Nat) : Bool :=
  if f.hasInf then f.inf < f.mag x else f.maxFin < f.mag x
def isSNaN (f : Fmt) (x : Nat) : Bool := f.hasInf && f.isNaN x && x / f.quiet % 2 = 0
def isInf (f : Fmt) (x : Nat) : Bool := f.hasInf && f.mag x = f.inf
def isZero (f : Fmt) (x : Nat) : Bool := f.mag x = 0
/-- A NaN with its quiet bit set (R149). -/
def quieten (f : Fmt) (x : Nat) : Nat := if x / f.quiet % 2 = 1 then x else x + f.quiet
/-- The significand and exponent of a finite pattern: the value is m × 2^e. -/
def parts (f : Fmt) (x : Nat) : Nat × Int :=
  let m := f.mag x
  let ex := m / 2 ^ f.fbits
  if ex = 0 then (m, f.qmin) else (m % 2 ^ f.fbits + 2 ^ f.fbits, f.qmin + ex - 1)

end Fmt

/-! ## Flags (R143) and rounding (R147, R148) -/

def flagNV : BitVec 5 := 16
def flagDZ : BitVec 5 := 8
def flagOF : BitVec 5 := 4
def flagUF : BitVec 5 := 2
def flagNX : BitVec 5 := 1

/-- A result: its pattern, the flags it raises, and whether a source was a signalling NaN (R151). -/
structure FRes where
  val  : Nat
  flags : BitVec 5 := 0
  snan : Bool := false
  deriving DecidableEq, Repr

/-- Rounding modes by the codes of R145: 1 RNE, 2 RZ, 3 RU, 4 RD. -/
abbrev RMode := Nat

/-- The number of bits of a positive number. -/
def bitLen (m : Nat) : Nat := if m = 0 then 0 else Nat.log2 m + 1

/-- m × 2^e rounded to a multiple of 2^q: the multiple, and whether it is inexact. -/
def roundAt (mode : RMode) (neg : Bool) (m : Nat) (e q : Int) : Nat × Bool :=
  if q ≤ e then (m <<< (e - q).toNat, false)
  else
    let s := (q - e).toNat
    let r := m >>> s
    let low := m - (r <<< s)
    let half := 2 ^ (s - 1)
    let up :=
      if low = 0 then false
      else if mode = 2 then false
      else if mode = 3 then !neg
      else if mode = 4 then neg
      else half < low || (low = half && r % 2 = 1)
    (if up then r + 1 else r, low ≠ 0)

/-- Overflow goes to infinity, or to the largest finite value, by mode and sign (R147). -/
def overflowInf (mode : RMode) (neg : Bool) : Bool :=
  mode = 1 || (mode = 3 && !neg) || (mode = 4 && neg)

/-- A finite nonzero value ±m × 2^e delivered in a format: R147 and R148. Where the format has no infinity an
overflow that R147 sends to infinity gives the pattern above the largest finite one. -/
def roundTo (f : Fmt) (mode : RMode) (neg : Bool) (m : Nat) (e : Int) : FRes :=
  if m = 0 then { val := f.withSign neg 0 }
  else
    let q := e + bitLen m - 1 - f.fbits
    let r1 := roundAt mode neg m e q
    let pat1 : Int := (q - f.qmin) * 2 ^ f.fbits + r1.1
    if q ≥ f.qmin && (f.maxFin : Int) < pat1 then
      { val := f.withSign neg (if overflowInf mode neg then (if f.hasInf then f.inf else f.maxFin + 1) else f.maxFin),
        flags := flagOF ||| flagNX }
    else
      let tiny := q < f.qmin && !(q + 1 = f.qmin && r1.1 = 2 ^ (f.fbits + 1))
      let qt := if q < f.qmin then f.qmin else q
      let r := roundAt mode neg m e qt
      { val := f.withSign neg ((qt - f.qmin).toNat * 2 ^ f.fbits + r.1),
        flags := if r.2 then (if tiny then flagUF ||| flagNX else flagNX) else 0 }

/-! ## NaNs (R149, R150) -/

/-- The first NaN of the sources, quieted, with NV when any source is signalling; else `k`. -/
def nanOr (f : Fmt) (xs : List Nat) (k : FRes) : FRes :=
  match xs.find? f.isNaN with
  | some x => { val := f.quieten x, flags := if xs.any f.isSNaN then flagNV else 0, snan := xs.any f.isSNaN }
  | none => k

/-- An invalid operation: the default NaN (R149). -/
def invalid (f : Fmt) : FRes := { val := f.defNaN, flags := flagNV }

/-! ## Arithmetic (R156) -/

/-- The sum of two finite values, exact, then rounded; the sign of an exact zero by R147. -/
def addFin (f : Fmt) (mode : RMode) (na : Bool) (ma : Nat) (ea : Int) (nb : Bool) (mb : Nat) (eb : Int) : FRes :=
  if ma = 0 && mb = 0 then { val := f.withSign (if na = nb then na else mode = 4) 0 }
  else
    let e := if ea ≤ eb then ea else eb
    let a : Int := (if na then -1 else 1) * (ma <<< (ea - e).toNat : Nat)
    let b : Int := (if nb then -1 else 1) * (mb <<< (eb - e).toNat : Nat)
    if a + b = 0 then { val := f.withSign (mode = 4) 0 }
    else roundTo f mode (a + b < 0) (a + b).natAbs e

def fadd (f : Fmt) (mode : RMode) (x y : Nat) : FRes :=
  nanOr f [x, y] <|
    if f.isInf x then (if f.isInf y && f.neg? x ≠ f.neg? y then invalid f else { val := x })
    else if f.isInf y then { val := y }
    else
      let a := f.parts x
      let b := f.parts y
      addFin f mode (f.neg? x) a.1 a.2 (f.neg? y) b.1 b.2

/-- A pattern with its sign inverted. -/
def flipSign (f : Fmt) (x : Nat) : Nat := if f.neg? x then x - f.signBit else x + f.signBit

def fsub (f : Fmt) (mode : RMode) (x y : Nat) : FRes :=
  nanOr f [x, y] (fadd f mode x (flipSign f y))

def fmul (f : Fmt) (mode : RMode) (x y : Nat) : FRes :=
  nanOr f [x, y] <|
    let neg := f.neg? x ≠ f.neg? y
    if f.isInf x || f.isInf y then
      (if f.isZero x || f.isZero y then invalid f else { val := f.withSign neg f.inf })
    else
      let a := f.parts x
      let b := f.parts y
      roundTo f mode neg (a.1 * b.1) (a.2 + b.2)

/-- x × y + z, rounded once. 0 × ∞ raises NV even when z is a quiet NaN (R150). -/
def ffma (f : Fmt) (mode : RMode) (x y z : Nat) : FRes :=
  let zeroInf := (f.isInf x && f.isZero y) || (f.isZero x && f.isInf y)
  let r := nanOr f [x, y, z] <|
    let neg := f.neg? x ≠ f.neg? y
    if zeroInf then invalid f
    else if f.isInf x || f.isInf y then
      (if f.isInf z && f.neg? z ≠ neg then invalid f else { val := f.withSign neg f.inf })
    else if f.isInf z then { val := z }
    else
      let a := f.parts x
      let b := f.parts y
      let c := f.parts z
      addFin f mode neg (a.1 * b.1) (a.2 + b.2) (f.neg? z) c.1 c.2
  if zeroInf then { r with flags := r.flags ||| flagNV } else r

/-- The quotient of two positive numbers as m × 2^e with at least `p` bits, the lowest one sticky. -/
def quotient (p ma : Nat) (ea : Int) (mb : Nat) (eb : Int) : Nat × Int :=
  let k := p + bitLen mb - bitLen ma
  let n := ma <<< k
  let q := n / mb
  (2 * q + (if n % mb = 0 then 0 else 1), ea - k - eb - 1)

def fdiv (f : Fmt) (mode : RMode) (x y : Nat) : FRes :=
  nanOr f [x, y] <|
    let neg := f.neg? x ≠ f.neg? y
    if f.isInf x then (if f.isInf y then invalid f else { val := f.withSign neg f.inf })
    else if f.isInf y then { val := f.withSign neg 0 }
    else if f.isZero y then
      (if f.isZero x then invalid f else { val := f.withSign neg f.inf, flags := flagDZ })
    else if f.isZero x then { val := f.withSign neg 0 }
    else
      let a := f.parts x
      let b := f.parts y
      let q := quotient (f.fbits + 4) a.1 a.2 b.1 b.2
      roundTo f mode neg q.1 q.2

/-- The integer square root, bit by bit from bit `n - 1`. -/
def isqrtBits : Nat → Nat → Nat → Nat
  | 0, _, r => r
  | n + 1, v, r => isqrtBits n v (if (r + 2 ^ n) * (r + 2 ^ n) ≤ v then r + 2 ^ n else r)

def isqrt (v : Nat) : Nat := isqrtBits (bitLen v / 2 + 1) v 0

/-- √(m × 2^e) with at least `p` bits, the lowest one sticky. -/
def rootOf (p m : Nat) (e : Int) : Nat × Int :=
  let k0 := 2 * p - bitLen m
  let k := if (e - k0) % 2 = 0 then k0 else k0 + 1
  let n := m <<< k
  let s := isqrt n
  (2 * s + (if s * s = n then 0 else 1), (e - k) / 2 - 1)

def fsqrt (f : Fmt) (mode : RMode) (x : Nat) : FRes :=
  nanOr f [x] <|
    if f.isZero x then { val := x }
    else if f.neg? x then invalid f
    else if f.isInf x then { val := x }
    else
      let a := f.parts x
      let r := rootOf (f.fbits + 4) a.1 a.2
      roundTo f mode false r.1 r.2

/-! ## Minimum, maximum, compare (R157, R158) -/

/-- A key that orders patterns without NaNs, −0 below +0. -/
def orderKey (f : Fmt) (x : Nat) : Int := if f.neg? x then -(f.mag x : Int) - 1 else f.mag x

/-- FMIN (`max` false), FMAX: a NaN propagates. -/
def fminmax (f : Fmt) (max : Bool) (x y : Nat) : FRes :=
  nanOr f [x, y] { val := if (orderKey f x ≤ orderKey f y) ≠ (max = true) then x else y }

/-- FMINN, FMAXN: the number wins over a NaN. -/
def fminmaxNum (f : Fmt) (max : Bool) (x y : Nat) : FRes :=
  let s := f.isSNaN x || f.isSNaN y
  let fl : BitVec 5 := if s then flagNV else 0
  if f.isNaN x then { val := if f.isNaN y then f.quieten x else y, flags := fl, snan := s }
  else if f.isNaN y then { val := x, flags := fl, snan := s }
  else { val := if (orderKey f x ≤ orderKey f y) ≠ (max = true) then x else y }

/-- The four relations of R158. -/
inductive Relation where
  | less | equal | greater | unordered
  deriving DecidableEq, Repr

def relation (f : Fmt) (x y : Nat) : Relation :=
  if f.isNaN x || f.isNaN y then .unordered
  else if f.isZero x && f.isZero y then .equal
  else if orderKey f x < orderKey f y then .less
  else if orderKey f x = orderKey f y then .equal
  else .greater

/-- The value of a condition for a relation: the table of R158. -/
def condHolds (cond : Nat) : Relation → Bool
  | .less => cond = 1 || cond = 2 || cond = 3 || cond = 7
  | .equal => cond = 0 || cond = 3 || cond = 5 || cond = 7
  | .greater => cond = 1 || cond = 4 || cond = 5 || cond = 7
  | .unordered => cond = 1 || cond = 6

/-- A compare: `val` is 1 or 0. The signalling selection raises NV for every NaN. -/
def fcompare (f : Fmt) (sig : Bool) (cond x y : Nat) : FRes :=
  let s := f.isSNaN x || f.isSNaN y
  let nan := f.isNaN x || f.isNaN y
  { val := boolBit (condHolds cond (relation f x y)),
    flags := if s || (sig && nan) then flagNV else 0, snan := s }

/-! ## Sign, class, exponent, scale, integral rounding (R161 to R165) -/

/-- The class bit of R162. -/
def fclass (f : Fmt) (x : Nat) : Nat :=
  let n := f.neg? x
  2 ^ (if f.isSNaN x then 0
       else if f.isNaN x then 1
       else if f.isInf x then (if n then 2 else 9)
       else if f.isZero x then (if n then 5 else 6)
       else if f.mag x < 2 ^ f.fbits then (if n then 4 else 7)
       else (if n then 3 else 8))

/-- A rounded to an integral value in its own format (R163); no NX. -/
def frnd (f : Fmt) (mode : RMode) (x : Nat) : FRes :=
  nanOr f [x] <|
    if f.isInf x || f.isZero x then { val := x }
    else
      let a := f.parts x
      if 0 ≤ a.2 then { val := x }
      else
        let r := roundAt mode (f.neg? x) a.1 a.2 0
        { val := (roundTo f mode (f.neg? x) r.1 0).val }

/-- A × 2^n (R164). Beyond ±5,000 every format over- or underflows, so n is held there. -/
def fscale (f : Fmt) (mode : RMode) (x : Nat) (n : Int) : FRes :=
  nanOr f [x] <|
    if f.isInf x || f.isZero x then { val := x }
    else
      let a := f.parts x
      let k := if n < -5000 then -5000 else if 5000 < n then 5000 else n
      roundTo f mode (f.neg? x) a.1 (a.2 + k)

/-- ⌊log2 |A|⌋ as a 32-bit integer (R165). -/
def fexpo (f : Fmt) (x : Nat) : FRes :=
  if f.isNaN x then { val := 0x80000001, flags := flagNV, snan := f.isSNaN x }
  else if f.isInf x then { val := 0x7FFFFFFF, flags := flagNV }
  else if f.isZero x then { val := 0x80000000, flags := flagNV }
  else
    let a := f.parts x
    { val := ((a.2 + bitLen a.1 - 1) % 2 ^ 32).toNat }

/-! ## Conversions (R166 to R171) -/

/-- Integer to floating point. -/
def fromInt (f : Fmt) (mode : RMode) (v : Int) : FRes := roundTo f mode (v < 0) v.natAbs 0

/-- Floating point to an integer in [lo, hi], stored modulo 2^w (R168). -/
def toInt (f : Fmt) (mode : RMode) (w : Nat) (lo hi : Int) (x : Nat) : FRes :=
  let st := fun v : Int => (v % 2 ^ w).toNat
  if f.isNaN x then { val := 0, flags := flagNV, snan := f.isSNaN x }
  else if f.isInf x then { val := st (if f.neg? x then lo else hi), flags := flagNV }
  else
    let a := f.parts x
    let r := roundAt mode (f.neg? x) a.1 (if a.2 < -4000 then -4000 else a.2) 0
    let v : Int := if f.neg? x then -(r.1 : Int) else r.1
    if v < lo then { val := st lo, flags := flagNV }
    else if hi < v then { val := st hi, flags := flagNV }
    else { val := st v, flags := if r.2 then flagNX else 0 }

/-- The NaN `x` of `f` in format `g` (R167): sign kept, quieted, the top payload bits kept. -/
def convertNaN (f g : Fmt) (x : Nat) : Nat :=
  if g.hasInf then
    let frac := (f.quieten x) % 2 ^ f.fbits
    let frac' := if g.fbits ≤ f.fbits then frac >>> (f.fbits - g.fbits) else frac <<< (g.fbits - f.fbits)
    g.withSign (f.neg? x) (g.inf + frac')
  else g.withSign (f.neg? x) (g.maxFin + 1)

/-- Floating point to floating point (R166, R167, R169); formats without infinity have their own rules. -/
def convert (f g : Fmt) (mode : RMode) (x : Nat) : FRes :=
  if f.isNaN x then
    { val := if f.hasInf then convertNaN f g x else g.withSign (f.neg? x) g.defNaN,
      flags := if f.isSNaN x then flagNV else 0, snan := f.isSNaN x }
  else if f.isInf x then { val := g.withSign (f.neg? x) g.inf }
  else
    let a := f.parts x
    roundTo g mode (f.neg? x) a.1 a.2

/-- CVT.F8.F32 (R170): `e5` selects E5M2, `sat` is F8SAT. -/
def toF8 (e5 sat : Bool) (mode : RMode) (x : Nat) : FRes :=
  if e5 then
    if fp32.isNaN x || fp32.isInf x then convert fp32 e5m2 mode x
    else
      let r := convert fp32 e5m2 mode x
      if sat && r.flags &&& flagOF ≠ 0 then { r with val := e5m2.withSign (fp32.neg? x) e5m2.maxFin } else r
  else if fp32.isNaN x then
    { val := e4m3.withSign (fp32.neg? x) 0x7F, flags := if fp32.isSNaN x then flagNV else 0, snan := fp32.isSNaN x }
  else if fp32.isInf x then { val := e4m3.withSign (fp32.neg? x) 0x7F, flags := flagNV }
  else
    let a := fp32.parts x
    let r := roundTo e4m3 mode (fp32.neg? x) a.1 a.2
    if r.flags &&& flagOF ≠ 0 then
      { r with val := e4m3.withSign (fp32.neg? x) (if sat then 0x7E else 0x7F) }
    else r

/-- CVT.F32.F8 (R169, R170). -/
def fromF8 (e5 : Bool) (x : Nat) : FRes :=
  if e5 then convert e5m2 fp32 1 x else convert e4m3 fp32 1 x

/-- CVT.E2M1.F32 (R171). -/
def toE2M1 (mode : RMode) (x : Nat) : FRes :=
  if fp32.isNaN x then { val := 0, flags := flagNV, snan := fp32.isSNaN x }
  else if fp32.isInf x then { val := e2m1.withSign (fp32.neg? x) 7, flags := flagNV }
  else
    let a := fp32.parts x
    let r := roundTo e2m1 mode (fp32.neg? x) a.1 a.2
    if r.flags &&& flagOF ≠ 0 then { r with val := e2m1.withSign (fp32.neg? x) 7 }
    else if e2m1.mag r.val = 0 then { r with val := 0 }
    else r

/-- CVT.F32.E2M1 (R171): the escape is invalid. -/
def fromE2M1 (x : Nat) : FRes :=
  if x = 8 then { val := fp32.defNaN, flags := flagNV }
  else
    let a := e2m1.parts x
    roundTo fp32 1 (e2m1.neg? x) a.1 a.2

/-- sat (R152): min(max(r, +0), +1.0), NaN and −0 to +0. -/
def saturate (f : Fmt) (x : Nat) : Nat :=
  let one := f.bias * 2 ^ f.fbits
  if f.isNaN x || f.neg? x then 0 else if one < f.mag x then one else x

/-! ## Approximate operations (R159, R160)

`Exact` is the exact value of the function, as ±m × 2^e with enough bits that its own error does not show. -/

structure Exact where
  neg : Bool
  m   : Nat
  e   : Int

/-- |v − x| as a pair of integers over one exponent, compared with `k` × 2^q. -/
def withinOf (x : Exact) (vneg : Bool) (vm : Nat) (ve : Int) (k : Nat) (q : Int) : Bool :=
  let e := min x.e (min ve q)
  let xi : Int := (if x.neg then -1 else 1) * (x.m <<< (x.e - e).toNat : Nat)
  let vi : Int := (if vneg then -1 else 1) * (vm <<< (ve - e).toNat : Nat)
  (vi - xi).natAbs ≤ k <<< (q - e).toNat

/-- The spacing at an exact value: the exponent of one ulp (R159). -/
def ulpOf (f : Fmt) (x : Exact) : Int :=
  let q := x.e + bitLen x.m - 1 - f.fbits
  if q < f.qmin then f.qmin else q

/-- A finite result with the flags that R160 gives every inexact case. -/
def approxFlags (f : Fmt) (v : Nat) : BitVec 5 :=
  if f.isInf v then flagOF ||| flagNX
  else if f.mag v < 2 ^ f.fbits then flagUF ||| flagNX
  else flagNX

/-- The proposal where it lies within the bound, else the correctly rounded value. The bound is `k` units of
2^`q`, `q` given or one ulp. -/
def deliver (f : Fmt) (proposal : Nat) (x : Exact) (k : Nat) (q : Option Int) : FRes :=
  let r := roundTo f 1 x.neg x.m x.e
  let p := proposal % 2 ^ f.width
  let a := f.parts p
  let v :=
    if f.isInf r.val || f.isNaN p || f.isInf p then r.val
    else if withinOf x (f.neg? p) a.1 a.2 k (q.getD (ulpOf f x)) then p
    else r.val
  { val := v, flags := approxFlags f v }

/-- 1 / A. -/
def frcp (op : Nat) (f : Fmt) (x : Nat) : FRes :=
  nanOr f [x] <|
    if f.isZero x then { val := f.withSign (f.neg? x) f.inf, flags := flagDZ }
    else if f.isInf x then { val := f.withSign (f.neg? x) 0 }
    else
      let a := f.parts x
      let q := quotient 128 1 0 a.1 a.2
      let r := roundTo f 1 (f.neg? x) q.1 q.2
      if a.1 = 2 ^ (bitLen a.1 - 1) && 2 ^ f.fbits ≤ f.mag r.val && f.mag r.val < f.inf then { val := r.val }
      else deliver f (Config.approx op (BitVec.ofNat 64 x)).toNat { neg := f.neg? x, m := q.1, e := q.2 } 1 none

/-- 1 / √A. -/
def frsq (op : Nat) (f : Fmt) (x : Nat) : FRes :=
  nanOr f [x] <|
    if f.isZero x then { val := f.withSign (f.neg? x) f.inf, flags := flagDZ }
    else if f.neg? x then invalid f
    else if f.isInf x then { val := 0 }
    else
      let a := f.parts x
      let s := rootOf 200 a.1 a.2
      let q := quotient 128 1 0 s.1 s.2
      if a.1 = 2 ^ (bitLen a.1 - 1) && (a.2 + bitLen a.1 - 1) % 2 = 0 then
        { val := (roundTo f 1 false 1 (-((a.2 + bitLen a.1 - 1) / 2))).val }
      else deliver f (Config.approx op (BitVec.ofNat 64 x)).toNat { neg := false, m := q.1, e := q.2 } 1 none

/-- 2^(b / 2^n) in fixed point with 128 fraction bits: one root for each of the n bits of b, highest first. -/
def exp2Frac : Nat → Nat → Nat → Nat → Nat
  | 0, _, _, acc => acc
  | n + 1, b, root, acc =>
    let r := isqrt (root <<< 128)
    exp2Frac n b r (if b / 2 ^ n % 2 = 1 then (acc * r) >>> 128 else acc)

/-- 2^A. -/
def fex2 (x : Nat) : FRes :=
  let f := fp32
  nanOr f [x] <|
    if f.isInf x then { val := if f.neg? x then 0 else f.inf }
    else
      let a := f.parts x
      let big := 8 < a.2 + bitLen a.1   -- |A| ≥ 256
      let k := (-a.2).toNat
      -- ⌊A · 2^128⌋: its high part v steers the product of roots, and the rest enters as 1 + rest · ln 2
      let w : Int := if big then 0 else if f.neg? x then -(((a.1 <<< 128) + 2 ^ k - 1) >>> k : Nat) else ((a.1 <<< 128) >>> k : Nat)
      let v := w / 2 ^ 64
      if f.isZero x then { val := 0x3F800000 }
      else if !f.neg? x && (big || 128 * 2 ^ 64 ≤ v) then { val := f.inf, flags := flagOF ||| flagNX }
      else if f.neg? x && (big || v < -150 * 2 ^ 64) then { val := 0, flags := flagUF ||| flagNX }
      else
        let n := v / 2 ^ 64
        let fr := (v % 2 ^ 64).toNat
        if fr = 0 && -149 ≤ n && n ≤ 127 && (a.1 % 2 ^ (-a.2).toNat = 0 || 0 ≤ a.2) then { val := (roundTo f 1 false 1 n).val }
        else
          let m := exp2Frac 64 fr (2 ^ 129) (2 ^ 128)
          -- 2^A is no power of two here: it stands strictly between those that bound it
          let m := min (m + (m * (w % 2 ^ 64).toNat * 0xb17217f7d1cf79ab) >>> 192 + 1) (2 ^ 129 - 1)
          deliver f (Config.approx 2 (BitVec.ofNat 64 x)).toNat { neg := false, m := m, e := n - 128 } 2 none

/-- The first n fraction bits of log2 of a number in [1, 2), in fixed point with 128 fraction bits. -/
def log2Frac : Nat → Nat → Nat → Nat
  | 0, _, acc => acc
  | n + 1, v, acc =>
    let s := (v * v) >>> 128
    if 2 ^ 129 ≤ s then log2Frac n (s / 2) (2 * acc + 1) else log2Frac n s (2 * acc)

/-- log2 A. -/
def flg2 (x : Nat) : FRes :=
  let f := fp32
  nanOr f [x] <|
    if f.isZero x then { val := f.withSign true f.inf, flags := flagDZ }
    else if f.neg? x then invalid f
    else if f.isInf x then { val := x }
    else
      let a := f.parts x
      let k : Int := a.2 + bitLen a.1 - 1
      if a.1 = 2 ^ (bitLen a.1 - 1) then { val := (fromInt f 1 k).val }
      else
        let v : Int := k * 2 ^ 64 + log2Frac 64 (a.1 <<< (129 - bitLen a.1)) 0
        let inner := 0x3F000000 ≤ x && x ≤ 0x40000000   -- A in [0.5, 2]
        deliver f (Config.approx 3 (BitVec.ofNat 64 x)).toNat { neg := v < 0, m := v.natAbs, e := -64 }
          (if inner then 1 else 2) (if inner then some (-22) else none)

/-- 2π with 320 fraction bits. -/
def twoPi : Nat := 0x6487ed5110b4611a62633145c06e0e68948127044533e63a0105df531d89cd9128a5043cc71a026ef

/-- The Taylor series of sine (from term t, power 1) or cosine (power 0), 320 fraction bits: each step
multiplies the term by −θ² / ((k + 1)(k + 2)). -/
def series : Nat → Int → Int → Int → Int → Int
  | 0, _, _, _, acc => acc
  | n + 1, t, sq, k, acc =>
    series n (-(t * sq / 2 ^ 320) / ((k + 1) * (k + 2))) sq (k + 2) (acc + t)

/-- sin A or cos A, A in radians (R159): the argument is reduced modulo 2π. -/
def fsincos (cos : Bool) (x : Nat) : FRes :=
  let f := fp32
  nanOr f [x] <|
    if f.isInf x then invalid f
    else if f.isZero x then { val := if cos then 0x3F800000 else x }
    else
      let a := f.parts x
      let m := if 0 ≤ a.2 then a.1 <<< (a.2.toNat + 320) else (a.1 <<< 320) >>> (-a.2).toNat
      let th : Int := m % twoPi
      let sq := th * th / 2 ^ 320
      let v0 := if cos then series 40 (2 ^ 320) sq 0 0 else series 40 th sq 1 0
      let v := if f.neg? x && !cos then -v0 else v0
      deliver f (Config.approx (if cos then 5 else 4) (BitVec.ofNat 64 x)).toNat
        { neg := v < 0, m := v.natAbs, e := -320 } 1 (some (-21))

end Sys2Proof.Machine
end

