-- ==== Sys2Proof/Machine/State.lean ====
section
/-! DEFINITION. The state of a KS4 package as plain data: threads, front threads, blocks, cores, homes,
contexts, launches and the device's registers, each with the value that reset or placement gives it. -/

namespace Sys2Proof.Machine

/-- A program counter: 57 bits (R86, R332). -/
abbrev Pc := BitVec 57

/-- Bytes by address, in one canonical form: addresses strictly rising, no byte equal to what an
unlisted address reads as (Memory.default in Ops). -/
abbrev Memory := List Host.Cell

/-! ## Lane threads -/

/-- An entry of the latch ring (R60): the value, whether it is 64 bits wide, whether its producer had
nw = 1, the first word of the producer's group, and whether the producer was pure: R64 needs the last three. -/
structure RingEntry where
  val  : Quad
  wide : Bool
  nw   : Bool
  grp  : Pc
  pure : Bool := true
  deriving DecidableEq, Repr

/-- What a WAITING thread waits for (R96). -/
inductive Wait where
  /-- Pending registers of the group it stands at (a miss, a replay, a refill): the mask of them. -/
  | regs (mask : Quad)
  /-- A rejected access (R221), or an MX-path command that waits at issue (R26), retries at this time. -/
  | rejected (at_ : Nat)
  /-- In the core's aged queue after a fourth rejection (R221). -/
  | agedQueue
  /-- Full/empty words of tile `h` (R241): the offset source, and how many words. -/
  | fullEmpty (h o n : Nat)
  /-- A DQ entry (R39). -/
  | dq
  /-- A TALLOC at level AC of handle `h` (R225). -/
  | alloc (h : Nat)
  /-- MXACQ until INFL of tile `h` is 0 (R378). -/
  | token (h : Nat)
  /-- SLEEP until the block's cycle count reaches `until_` (R203). -/
  | sleep (until_ : Nat)
  /-- A group that R442 does not let it issue while an access of it is in translation or logged. -/
  | replay
  /-- The operand log is full (R442). -/
  | logFull
  /-- A fetch or a dispatch-table read that faulted recoverably (R445). -/
  | fetch
  /-- A dispatch-table entry in a line that the host still has to send (R462). -/
  | line (l : Nat)
  /-- A pop whose data is not in the L1 (R177). -/
  | pop
  /-- A skein operation at the home (R301, R306). -/
  | skein
  /-- A PRDEF or PREVICT that every home must handle (R309, R317). -/
  | range (lo hi : Nat)
  /-- A block of a deterministic launch that must be the head first (R293, R295). -/
  | head
  /-- Space in the Belay unit's stage (R293). -/
  | stage
  deriving DecidableEq, Repr

/-- The statuses of R89. ACTIVE names the slot and the issue lane. -/
inductive Status where
  | active (slot lane : Nat)
  | ready
  | waiting (w : Wait)
  | converging
  | knotted (k : Nat)
  | barred (b : Nat)
  | exited
  deriving DecidableEq, Repr

/-- A trap that is taken later than the access that caused it (R312, R444). -/
structure LateTrap where
  cause  : BitVec 8
  tpc    : Pc
  taddr  : Quad
  detail : BitVec 16
  /-- Taken before the next issue (R312); else at the next group that R442 does not let the member issue, and the
  registers that the access would have written (R444). -/
  soon   : Bool := true
  regs   : Quad := 0
  deriving DecidableEq, Repr

/-- The trap registers of R205 to R208. -/
structure TrapRegs where
  tcause : Word := 0
  tpc    : Quad := 0
  taddr  : Quad := 0
  tinfo  : Word := 0
  tstat  : Word := 0
  tchain : Quad := 0
  tlist  : List Word := []
  deriving DecidableEq, Repr

/-- A lane thread (R86, with the state of R143 to R145, R177 and R187). -/
structure Thread where
  pc      : Pc
  regs    : List Word
  preds   : BitVec 7 := 0
  flg     : BitVec 5 := 0
  trapen  : BitVec 6 := 0
  fctl    : BitVec 5 := 0
  ring    : List RingEntry := []
  pending : Quad := 0
  rp      : BitVec 8 := 0
  trap    : TrapRegs := {}
  csp     : Quad := 0
  csplo   : Quad := 0
  csphi   : Quad := 0
  arv     : BitVec 16 := 0
  aph     : BitVec 16 := 0
  status  : Status := .ready
  age     : Nat := 0
  rejects : Nat := 0
  /-- The expected mask it read on arrival at a home-bound group (R106). -/
  mask    : Option Word := none
  /-- That mask is the live lanes, no source having given one (R106). -/
  auto    : Bool := false
  /-- It popped that mask from the DQ (R106): a trap at the group undoes the pop (R113). -/
  popped  : Bool := false
  /-- An access of it is in translation or in the operand log (R442). -/
  held    : Bool := false
  late    : Option LateTrap := none
  /-- Lines read since its last FENCE.ar (R265). -/
  readSet : List Nat := []
  /-- Released by a knot in the cycle before (R99, rule 2). -/
  released : Bool := false
  deriving DecidableEq, Repr

/-! ## Front threads -/

/-- What a STALLED front thread waits for (R335). -/
inductive Stall where
  | load
  | fence (order scope upto : Nat)
  /-- The path, the first word of the DRAIN's group, and the commands that it waits for (R25). -/
  | drain (path : Nat) (start : Pc) (ids : List Nat)
  | dqRoom (v : Word)
  | event (d : Nat) (kind ph arg : Nat)
  | fixup (d t upto : Nat)
  | sleep (until_ : Nat)
  | command
  | fetch
  /-- A dispatch-table entry in a line that the host still has to send (R462). -/
  | line (l : Nat)
  | launch
  /-- A LAUNCH whose record has been read when every place was taken (R419): it holds the record. -/
  | place (record : BitVec 1024)
  | head
  | stage
  | rejected (at_ : Nat)
  | agedQueue
  deriving DecidableEq, Repr

/-- RUN, STALLED or DONE (R332). -/
inductive FrontStatus where
  | run
  | stalled (w : Stall)
  | done
  deriving DecidableEq, Repr

/-- A front thread (R332). -/
structure Front where
  pc      : Pc
  regs    : List Quad
  preds   : BitVec 8 := 0
  stack   : List Pc := []
  trap    : TrapRegs := {}
  wp      : BitVec 8 := 0
  status  : FrontStatus := .run
  rejects : Nat := 0
  late    : Option LateTrap := none
  readSet : List Nat := []
  /-- The descriptor that has been read for the group at which the thread stands (R352). -/
  latched : Option Nat := none
  /-- The number of the block's next access when the LAUNCH at which the thread stands made its release (R341). -/
  mark    : Option Nat := none
  /-- Registers whose results are not ready yet (R335), and the cycle from which the thread may issue. -/
  hazards : List (Nat × Nat) := []
  from_   : Nat := 0
  deriving DecidableEq, Repr

/-! ## Tiles, knots, barriers -/

/-- A tile of a block (R224, R242, R372). A scratchpad tile uses `bytes` and `full`; an accumulator tile
uses `bytes` and the four items of R372. -/
structure Tile where
  shape   : Word
  bytes   : Memory := []
  /-- Full 32-bit words of a scratchpad tile, by index, rising. -/
  full    : List Nat := []
  /-- TOKEN = THREADS. -/
  threads : Bool := false
  vc      : Nat := 32
  kacc    : Nat := 0
  infl    : Nat := 0
  /-- The export slot (R226). -/
  slot    : Option Nat := none
  deriving DecidableEq, Repr

/-- A knot (R181). -/
structure Knot where
  expected : List Nat := []
  arrived  : List Nat := []
  t0       : Nat := 0
  deriving DecidableEq, Repr

/-- A barrier (R187), with the path mask of its phase and, once its count condition has held, the
commands that its paths wait for (R188). -/
structure Barrier where
  phase   : Bool := false
  waiters : List Nat := []
  count   : Nat := 0
  /-- `none` is live mode, `some n` an explicit count. -/
  mode    : Option Nat := none
  t0      : Nat := 0
  path    : BitVec 5 := 0
  needs   : Option (List Nat) := none
  /-- Waiters of BAR.WAIT whose ARV the flip clears (R189). -/
  clear   : List Nat := []
  /-- Accesses that the arrivals of the phase release (R191, R275). -/
  ids     : List Nat := []
  deriving DecidableEq, Repr

/-- A release at block scope (R191, R275): the accesses that come before every access, and with path bits before every
command, that the block issues from `mark` on. -/
structure Sync where
  ids  : List Nat
  mark : Nat
  path : BitVec 5
  deriving DecidableEq, Repr

/-! ## Accesses -/

/-- Where the value of a load or atomic goes (R229, R231): the first register, how many 32-bit registers,
the bytes read, and whether the value is sign-extended. -/
structure Dest where
  reg    : Nat
  count  : Nat
  signed : Bool := false
  deriving DecidableEq, Repr

/-- The kinds of access to global memory. -/
inductive AccKind where
  | load
  | store
  /-- A returning atomic, with its op and type (R44). -/
  | atomic (op type : Nat)
  /-- A reduction. -/
  | reduce (op type : Nat)
  /-- A pop of RET (R177). -/
  | pop
  /-- The descriptor read of PRDEF (R309), and the record read of LAUNCH (R341). -/
  | prdef
  | record
  /-- The descriptor read of an engine command (R352). -/
  | desc
  /-- A WBR, or with `drop` an INVR (R235). -/
  | wbr (drop : Bool)
  deriving DecidableEq, Repr

/-- One access of one agent (R251). `who = none` is the block's front thread. -/
structure Acc where
  id    : Nat
  blk   : Nat
  who   : Option Nat
  grp   : Pc
  kind  : AccKind
  va    : Quad
  pa    : Nat := 0
  coh   : BitVec 2 := 0
  size  : Nat
  scope : Nat := 0
  acq   : Bool := false
  rel   : Bool := false
  data  : BitVec 128 := 0
  dest  : Option Dest := none
  /-- Its request has left the core. -/
  sent  : Bool := false
  /-- It has asked the home of its procedural block, and the home has let it pass (R311). -/
  asked : Bool := false
  pass  : Bool := false
  /-- Its translation is under way, or waits for the host (R437, R442). -/
  walking : Bool := false
  /-- The cycle of its issue (R230). -/
  time  : Nat := 0
  /-- It is not performed before this cycle: half of a b128 access (R269). -/
  due   : Nat := 0
  /-- The physical bytes of a WBR or INVR (R235). -/
  ranges : List (Nat × Nat) := []
  deriving DecidableEq, Repr

/-- An access that waits for its translation (R437) or for an aged entry (R221): where its thread goes on once it is
made, and the call-stack pointer it then leaves. -/
structure Walk where
  core : Nat
  quad : Nat
  acc  : Acc
  next : Pc
  csp  : Option Quad := none
  /-- Its thread has gone on: it waits as a miss does (R96, R437). -/
  on   : Bool := false
  /-- Its group has popped a DQ entry (R39). -/
  pop  : Bool := false
  deriving DecidableEq, Repr

/-- A range of bytes that a Lashing entry holds (R26, R246): virtual bytes of a context, or bytes of a tile. -/
inductive Range where
  | global (ctx lo hi : Nat)
  | tile (blk handle lo hi : Nat)
  deriving DecidableEq, Repr

/-- An MX command's rows: the home lane, and the value it supplies (R390). -/
abbrev Rows := List (Nat × Quad)

/-- Engine commands (R23). A tile is named by its block and handle; `mma` holds the type, D, the two operand tiles and
their C8 sidecars. -/
inductive CmdKind where
  | tce (sub : Nat) (desc : BitVec 512) (ga : Quad)
  | mma (type d : Nat) (a b sa sb : Nat × Nat) (rows : List Nat) (vc : Nat)
  | mxzero (d : Nat)
  | mxscale (d : Nat) (rows : Rows) (vc : Nat)
  | mxrecomb (f t ha hb w : Nat) (rows : List Nat) (vc : Nat)
  | col (sub : Nat) (desc : BitVec 512) (dst : Quad)
  deriving DecidableEq, Repr

/-- A command from issue to completion. `path` is 0 to 3 as R69 numbers the paths of DRAIN. -/
structure Cmd where
  id       : Nat
  blk      : Nat
  path     : Nat
  kind     : CmdKind
  srcs     : List Range := []
  dsts     : List Range := []
  /-- It has taken its Lashing entry, of this number. -/
  accepted : Bool := false
  entry    : Nat := 0
  /-- MX: the engine has started it. COL: it has joined. -/
  started  : Bool := false
  /-- MX: the core cycle in which its time in the engine ends (R386). -/
  ends     : Nat := 0
  /-- COL, after the join: the other members' commands (R405). -/
  peers    : List PeerCmd := []
  /-- It waits on a recoverable fault or on a fill (R369). -/
  blocked  : Bool := false
  /-- Source bytes that a TCE or COL command has read, by virtual address, and the elementary writes that it has made, by
  number, before it completes (R274). -/
  got      : Tab Byte := []
  wrote    : List Nat := []
  deriving DecidableEq, Repr

/-- A recorded engine fault (R371, R413). -/
structure EngineFault where
  path   : Nat
  cause  : BitVec 8
  taddr  : Quad
  detail : BitVec 16
  order  : Nat
  /-- The front thread was DONE when it was recorded: it stops the context (R202). -/
  fatal  : Bool := false
  deriving DecidableEq, Repr

/-! ## Blocks -/

/-- Where a block is resident (R420). -/
structure Place where
  core  : Nat
  quad  : Nat
  bslot : Nat
  fcx   : Nat
  deriving DecidableEq, Repr

/-- A staged write of a deterministic launch (R291, R292): bytes of a store, or a reduction, with the
virtual address for R296, the die whose Belay unit holds it, and its write sequence number. -/
inductive StagedOp where
  | store (bytes : List Byte)
  | reduce (op type : Nat) (operand : Quad)
  deriving DecidableEq, Repr

structure Staged where
  seq : Nat
  die : Nat
  pa  : Nat
  va  : Quad
  op  : StagedOp
  /-- The number of the access (R438), and its attribute (R319). -/
  id  : Nat := 0
  coh : BitVec 2 := 0
  /-- The agent and the group of an access (R286, R312); none of a command. -/
  by_ : Option (Option Nat × Pc) := none
  deriving DecidableEq, Repr

/-- The states of a block as the Dispatcher sees it (R424 to R430). -/
inductive BlockState where
  | resident
  | swapped
  | retired
  | stopped
  deriving DecidableEq, Repr

/-- What makes a block a dyer (R313): the range's context and id, the block it fills, its depth and die, whether its PRDONE
has been issued, and whether the block has become FILLED (R315). -/
structure Dyer where
  ctx   : Nat
  rid   : Nat
  base  : Nat
  depth : Nat
  die   : Nat
  done  : Bool := false
  filled : Bool := false
  deriving DecidableEq, Repr

/-- A block (R12), keyed by its launch sequence number (R420). -/
structure Block where
  launch  : Nat
  ctx     : Nat
  b       : Nat
  bx      : Nat
  byy     : Nat
  bz      : Nat
  place   : Option Place
  state   : BlockState := .resident
  threads : Tab Thread
  front   : Front
  knottmo : Word := 256
  barlim  : Word := 0x1000000
  knots   : Tab Knot := []
  bars    : Tab Barrier := []
  dq      : List Word := List.replicate 128 0
  tiles   : Tab Tile := []
  faults  : List EngineFault := []
  stage   : List Staged := []
  wseq    : Nat := 0
  dyer    : Option Dyer := none
  /-- Cycles for which the block has been resident: KNOTTMO, BARLIM, SLEEP and the Belay limit count these. -/
  cycles  : Nat := 0
  /-- The device time of its last placement, or of the beginning of its swap-out, for R421 and R423. -/
  since   : Nat := 0
  /-- Resident: it took room that the last end of a quantum made (R29). In a swap-out: that end asked for it. -/
  turn    : Bool := false
  /-- The core it was last resident on, for R426. -/
  lastCore : Nat := 0
  /-- The bytes its save area takes while it is swapped out (R425), and its COL commands that have not joined (R412). -/
  saved   : Nat := 0
  cols    : List Cmd := []
  /-- A swap-out of it has begun (R424): its warps and its front thread issue nothing. -/
  leaving : Bool := false
  /-- During a swap-out, its core has begun to write back its COH 01 lines (R424, step 3). -/
  flushed : Bool := false
  /-- R394 has swapped it out, and a block placed before it has been blocked on its core ever since. -/
  acOut   : Bool := false
  syncs   : List Sync := []
  deriving DecidableEq, Repr

/-! ## Cores -/

/-- COH 01 bytes that a head block of a deterministic launch has written into an L1 and that have not reached their home
(R296), with the virtual address of the line; by a reduction, whose write is no conflict. -/
structure Note where
  launch : Nat
  b      : Nat
  va     : Quad
  mask   : BitVec 128
  red    : Bool := false
  deriving DecidableEq, Repr

/-- A line of an L1 (R217, R218), with one dirty and one staged bit per byte. -/
structure L1Line where
  coh      : BitVec 2
  writable : Bool := false
  valid    : BitVec 128 := 0
  dirty    : BitVec 128 := 0
  staged   : BitVec 128 := 0
  data     : BitVec 1024 := 0
  poison   : BitVec 128 := 0
  filled   : Nat := 0
  notes    : List Note := []
  deriving DecidableEq, Repr

/-- A directory-tracked store that the core's own agents see and no other agent does until its line is
owned (R257). -/
structure StoreEntry where
  line : Nat
  mask : BitVec 128
  data : BitVec 1024
  acc  : Acc
  deriving DecidableEq, Repr

/-- A write that has passed earlier reads of its agent on the way to another die (R260): until those have their values,
no later read of the line by another agent of the core is performed (R278). -/
structure Early where
  blk  : Nat
  who  : Option Nat
  line : Nat
  id   : Nat
  ids  : List Nat
  deriving DecidableEq, Repr

/-- A miss-status entry (R219). -/
structure MissEntry where
  line : Nat
  aged : Bool := false
  deriving DecidableEq, Repr

/-- A hank-store entry (R299). -/
structure Hank where
  ctx    : Nat
  k      : Nat
  hank   : Nat := 0
  scarce : Bool := false
  /-- A recall round took its hank and has not ended (R303). -/
  answered : Bool := false
  deriving DecidableEq, Repr

/-- What a skein instruction asks (R302 to R306). -/
inductive SkeinOp where
  | take (n : Nat)
  | give (n : Nat)
  | readx
  | init (v : Nat)
  deriving DecidableEq, Repr

/-- A skein operation: from which core, for which thread and destination register. -/
structure SkeinReq where
  core : Nat
  blk  : Nat
  who  : Nat
  dest : Nat
  op   : SkeinOp
  /-- A recall round has ended since it reached the home (R307). -/
  waited : Bool := false
  deriving DecidableEq, Repr

/-- A skein operation that waits in the order of its core and skein (R301); `sent` once the home has to decide it. -/
structure SkeinItem where
  ctx  : Nat
  k    : Nat
  req  : SkeinReq
  sent : Bool := false
  deriving DecidableEq, Repr

/-- A cached translation (R437). -/
structure TlbEntry where
  ctx   : Nat
  vpn   : Nat
  shift : Nat
  ppn   : Nat
  coh   : BitVec 2
  x     : Bool
  w     : Bool
  deriving DecidableEq, Repr

/-- An entry of the walk caches (R437): a non-leaf entry that a walk of context `ctx` has read at `pa`. -/
structure WalkEntry where
  ctx   : Nat
  pa    : Nat
  entry : Nat
  deriving DecidableEq, Repr

/-- An issue warp (R90): its block, its members as (tlin, lane), whether its rings are empty (R98), the
cycle of its last issue, the registers whose results are not ready yet with the cycle they become
ready (R93), the cycle from which it may issue, and the fence or drain it waits at (R233, R234). -/
structure Warp where
  blk       : Nat
  members   : List (Nat × Nat)
  emptyRing : Bool := true
  lastIssue : Nat := 0
  hazards   : List (Nat × Nat) := []
  from_     : Nat := 0
  /-- A FENCE: its ordering, its scope, and the number of the first access after it. -/
  fencing   : Option (Nat × Nat × Nat) := none
  /-- The path of a DRAIN that it waits at, with the commands that were issued before it (R25). -/
  draining  : Option (Nat × List Nat) := none
  /-- The values that a RET found in the L1 until they arrive at `from_` (R177), and with them the targets of its members
  that pop nothing: tlin, whether it pops, and the address. -/
  pops      : List (Nat × Bool × Quad) := []
  deriving DecidableEq, Repr

/-- A quadrant (R90, R91, R442). -/
structure Quadrant where
  slots    : Tab Warp := []
  lastSlot : Nat := 7
  busy     : Nat := 0
  log      : List Acc := []
  deriving DecidableEq, Repr

/-- A core. -/
structure Core where
  cycle    : Nat := 0
  quads    : Tab Quadrant := []
  l1       : Tab L1Line := []
  stores   : List StoreEntry := []
  pend     : List Acc := []
  early    : List Early := []
  entries  : List MissEntry := []
  aged     : List Walk := []
  /-- Most recently used first (R299). -/
  hanks    : List Hank := []
  skeinQ   : List SkeinItem := []
  exports  : Tab (Nat × Nat) := []
  /-- Places that swap-outs at the last end of a quantum have left and no block has taken since (R29). -/
  room     : Nat := 0
  /-- Allocations, by block and handle, that a swap-out of R394 is to meet. -/
  owed     : List (Nat × Nat) := []
  cmds     : List Cmd := []
  dtlb     : List TlbEntry := []
  ftlb     : List TlbEntry := []
  lastFcx  : Nat := 31
  frontBusy : Nat := 0
  lsBusy   : Nat := 0
  deriving DecidableEq, Repr

/-! ## Homes -/

/-- The directory states of R283. -/
inductive DirState where
  | invalid
  | shared
  | owned (core : Nat)
  deriving DecidableEq, Repr

/-- A line that is present in the L2 slice that is its home (R283). -/
structure HomeLine where
  dir     : DirState := .invalid
  sharers : BitVec 40 := 0
  dies    : BitVec 4 := 0
  /-- Other devices that hold copies (R400). -/
  devs    : List Nat := []
  /-- Bytes that the slice holds newer than HBM (R281). -/
  dirty   : BitVec 128 := 0
  deriving DecidableEq, Repr

/-- A copy in a proxy slice of another die (R282, R283). -/
structure ProxyLine where
  data    : BitVec 1024
  sharers : BitVec 40 := 0
  deriving DecidableEq, Repr

/-- A request to HBM waiting in a slice or already issued (R285). -/
structure HbmReq where
  slice  : Nat
  line   : Nat
  since  : Nat
  issued : Bool := false
  /-- It carries the dirty bytes of a line that the slice has evicted (R281). -/
  write  : Bool := false
  /-- It brings the line: a request may merge into a write that waits (R285). -/
  read   : Bool := true
  deriving DecidableEq, Repr

/-- A skein at its home (R298): LIVE, or FREE with a queue. -/
structure Skein where
  live    : Bool := false
  pool    : Nat := 0
  holders : List Nat := []
  scarce  : Bool := false
  ovf     : Bool := false
  recent  : List Nat := []
  queue   : List SkeinReq := []
  /-- The holders whose hanks a recall round still awaits. -/
  round   : Option (List Nat) := none
  /-- The round was run for the take at the head of the queue. -/
  forTake : Bool := false
  deriving DecidableEq, Repr

/-- The fill states of R310. -/
inductive Fill where
  | unfilled
  | steeping
  | filled
  | poisoned (sub : Nat) (cause : BitVec 8)
  deriving DecidableEq, Repr

/-- Who waits on a fill (R311): an access, a command at an address, or a write that a stage releases: the launch, the block's
index and the write's number. -/
inductive Waiter where
  | acc (core : Nat) (a : Acc)
  | cmd (core id va : Nat)
  | staged (launch b seq : Nat)
  deriving DecidableEq, Repr

/-- A block of a procedural range (R310, R314, R316). -/
structure FillBlock where
  fill      : Fill := .unfilled
  waiters   : List Waiter := []
  ancestors : List Nat := []
  time      : Nat := 0
  /-- A PREVICT met it while STEEPING (R317). -/
  evict     : Bool := false
  /-- Its fill waits, in this order of arrival: UNFILLED for room under the budget, STEEPING for a dyer slot. -/
  queued    : Option Nat := none
  /-- Its dyer has issued PRDONE (R315). -/
  ending    : Bool := false
  /-- The physical address of its first byte, and the bytes that memory held there when its fill began (R316). -/
  pa        : Nat := 0
  backing   : Memory := []
  deriving DecidableEq, Repr

/-- A procedural range (R308), keyed by its id; its blocks are keyed by their base address. -/
structure ProcRange where
  base   : Nat
  size   : Nat
  kimg   : Quad
  arg    : Quad
  blksh  : Nat
  dx     : Nat
  budget : Nat
  blocks : Tab FillBlock := []
  deriving DecidableEq, Repr

/-- Messages in flight between cores and homes. Which of them arrives next is an event. -/
inductive Msg where
  /-- A core asks for a shared copy of a line (R283). -/
  | readShared (core line : Nat) (coh : BitVec 2)
  /-- A core asks for ownership (R283). -/
  | ownership (core line : Nat)
  /-- A single access performed at the home: COH 10, or an ordered COH 01 access (R264, R284). -/
  | readHome (core : Nat) (a : Acc)
  | writeHome (core : Nat) (a : Acc)
  /-- Dirty COH 01 bytes on their way home (R284), the agent that an acknowledgement goes to, if any, and the head blocks
  that wrote some of them (R296). -/
  | writeback (core line : Nat) (mask : BitVec 128) (data : BitVec 1024) (ack : Option (Nat × Option Nat))
      (notes : List Note)
  /-- The words of a write-back that merge later than its others (R270). -/
  | rest (core line : Nat) (mask : BitVec 128) (data : BitVec 1024) (ack : Option (Nat × Option Nat)) (notes : List Note)
  /-- An atomic for the home or for a cluster atomic unit (R287). -/
  | atomic (core : Nat) (a : Acc)
  | clusterAtomic (core : Nat) (a : Acc)
  /-- A copy of a line returns to a core (R222). -/
  | fill (core line : Nat) (coh : BitVec 2) (data : BitVec 1024) (bad : Bool)
  /-- The value of an access performed at its home returns (R222). -/
  | value (core : Nat) (a : Acc) (v : BitVec 1024) (bad : Bool)
  /-- Ownership is granted (R258). -/
  | grant (core line : Nat)
  /-- A proxy copy to invalidate, whose acknowledgement the core that writes the line counts (R258). -/
  | proxyInv (die line core : Nat)
  /-- The same for the copies of another device (R400). -/
  | devInv (dev line core : Nat)
  /-- A store, reduction or write-back is acknowledged (R289): the access of the core that ends, if any. -/
  | ack (core : Nat) (id : Option Nat) (blk : Nat) (who : Option Nat)
  /-- A hank or a part of one on its way to the pool (R302, R303); `round` marks the answer to a recall round. -/
  | hank (core ctx k amount : Nat) (round : Bool)
  /-- The home's answer to a refill request: a grant of `g`, or a refusal (R302). -/
  | skeinGrant (ctx k : Nat) (r : SkeinReq) (g : Option Nat)
  /-- A take, give, read or init on its way to the skein's home (R302 to R306). -/
  | skeinOp (ctx k : Nat) (r : SkeinReq)
  /-- The first access to a procedural block (R311). -/
  | prRequest (ctx rid base : Nat) (w : Waiter) (write : Bool) (dyer : Option Nat) (pa : Nat) (coh : BitVec 2)
  /-- A PRDEF on its way to every slice (R309). -/
  | prdef (blk : Nat) (a : Acc) (desc : BitVec 512)
  /-- A FETCHW mailbox to be written (R348). -/
  | fetchw (blk handle off : Nat)
  /-- A request for a host line: of the home slice for its copy, or of one access (R462). -/
  | hostLine (line : Nat) (a : Option (Nat × Acc))
  /-- A home slice's request to own a host line, so that it may write it (R284, R462). -/
  | hostOwn (line : Nat)
  /-- A slice's request through a Sidin port, or a line that it sends through a port or back to the host: it takes a miss entry
  until it is answered (R281). -/
  | port (line : Nat) (write : Bool)
  deriving DecidableEq, Repr

/-- A load of a peer's tile whose block is swapped out (R226): the exporting core and slot, the tile by block and handle, the
reader, the offset source and size, the load's group, and where the value goes. -/
structure PeerRead where
  core : Nat
  slot : Nat
  tile : Nat × Nat
  blk  : Nat
  who  : Nat
  off  : Nat
  size : Nat
  grp  : Pc
  dest : Dest
  deriving DecidableEq, Repr

/-! ## Launches and contexts -/

/-- A launch that the Dispatcher holds (R419), keyed by acceptance order. `rec` is the record of R414. -/
structure Launch where
  record   : BitVec 1024
  /-- The lowest linear index neither placed nor withdrawn, when every lower one has been. -/
  next     : Nat := 0
  /-- Wavefront: indices at or above `next` that have been placed. -/
  taken    : List Nat := []
  retired  : List Nat := []
  nret     : Nat := 0
  ret      : Word := 0
  fixups   : Tab Nat := []
  /-- It waits before its first block: until its header has been read (`judged`), until its staging list has been read (`stages`), or
  for the lines of that list (R84, R416). -/
  staging  : Bool := false
  judged   : Bool := false
  stages   : Option (List (Nat × Nat)) := none
  accepted : Nat := 0
  readyAt  : Tab Nat := []
  /-- Deterministic mode: the head, and the Belay records (R290, R296). -/
  head     : Nat := 0
  headFrom : Nat := 0
  dconf    : Word := 0
  dcaddr   : Quad := 0
  /-- Bytes written at their homes by blocks of the launch: (address, the first block that wrote it). -/
  written  : Tab Nat := []
  /-- Lines that hold a staged or released write: (line, block). -/
  staged   : List (Nat × Nat) := []
  /-- Stages kept after their blocks retired early (R291). -/
  kept     : Tab (List Staged) := []
  dyer     : Option Dyer := none
  /-- DONE of the completion record: 0 while the launch runs (R429), and the record itself. -/
  done     : Nat := 0
  result   : BitVec 1024 := 0
  deriving DecidableEq, Repr

/-- A context (R432, R447). -/
structure Ctx where
  live    : Bool := false
  /-- Its destroy has begun: it is live no more, and its engine commands and completion records still translate (R465). -/
  ending  : Bool := false
  stopped : Bool := false
  root    : Nat := 0
  hwb     : Nat := 0
  hwl     : Nat := 0
  hwo     : Nat := 0
  hwcoh   : BitVec 2 := 0
  hwx     : Bool := false
  hww     : Bool := false
  tvec    : Quad := 0
  ftvec   : Quad := 0
  skeins  : Tab Skein := []
  ranges  : Tab ProcRange := []
  deriving DecidableEq, Repr

/-- Whether a context has its translations: it is live, or its destroy has not come to their removal (R447, R465). -/
def Ctx.mapped (c : Ctx) : Bool := c.live || c.ending

/-- What joined a fault record (R440, R445). -/
inductive Joined where
  | acc (core quad : Nat) (a : Acc)
  /-- A fetch of a word, or of a dispatch-table entry, for the group at `grp`. -/
  | fetch (blk : Nat) (who : Option Nat) (va : Nat) (grp : Pc)
  | cmd (core id va : Nat)
  | completion (launch : Nat)
  | staging (launch : Nat)
  deriving DecidableEq, Repr

/-- A recoverable fault (R440). `posted` is the time its record was written, if it has been. -/
structure FaultRec where
  seq    : Nat
  ctx    : Nat
  va     : Nat
  kind   : BitVec 4
  cause  : Nat
  level  : Nat
  posted : Option Nat
  joined : List Joined
  deriving DecidableEq, Repr

/-! ## The device -/

/-- An island (R459): the commanded word, and the fields of ISLSTAT. -/
structure Island where
  cmd    : Quad
  energy : Word := 0
  tband  : BitVec 3 := 0
  rej    : Bool := false
  ovb    : Bool := false
  vfs    : BitVec 3
  deriving DecidableEq, Repr

/-- The registers of BAR2 (R461) with the link, reset and attestation state behind them. -/
structure Dev where
  svcl     : Nat := 0
  flushed  : Bool := false
  poisoned : List Nat := []
  domcfg   : Quad := 0
  qnt      : Word := 100
  spbase   : Quad := 0
  spsize   : Quad := 0
  fqbase   : Quad := 0
  fqsize   : Word := 16
  fqhead   : Word := 0
  fqtail   : Word := 0
  fqbusy   : Bool := false
  fqerr    : Bool := false
  ctxcmd   : Option Quad := none
  ftmo     : Word := 100000
  tlbinv   : Quad := 0
  tlbva    : Quad := 0
  /-- Accesses with lower numbers had translated before the invalidation in progress (R438). -/
  tlbFrom  : Nat := 0
  /-- The time at which the quantum in progress began (R423). -/
  qfrom    : Nat := 0
  rht      : Word := 4096
  cethr    : Half := 0x0100
  celast   : Byte := 0
  cecount  : Word := 0
  nonce    : BitVec 256 := 0
  attbusy  : Bool := false
  attdone  : Bool := false
  atterr   : Bool := false
  report   : BitVec 2560 := 0
  /-- Firmware stages that the boot ROM has verified, and whether die 0's stacks are trained (R455, R460). -/
  stages   : Nat := 0
  trained  : Bool := false
  islands  : Tab Island := []
  halted   : Bool := false
  /-- A planned reset has flushed the host lines and comes next (R452). -/
  resetting : Bool := false
  /-- Every die is trained, and issue pauses for the move of R457. -/
  moving   : Bool := false
  linkUp   : Bool := false
  linkWidth : Nat := 0
  linkSpeed : Nat := 0
  /-- MSI-X vectors raised, oldest first (R449). -/
  msix     : List Nat := []
  /-- Host lines held M or O by the slices (R284, R451). -/
  hostOwned : List Nat := []
  hostShared : List Nat := []
  /-- Launch Port halves that are pending: key 2 × slot + half (R417). -/
  port     : Tab (BitVec 512) := []
  /-- Slots whose two halves are there, in the order in which they were completed, each with that time (R417). -/
  portFull : List (Nat × Nat) := []
  /-- Record numbers of the fault queue that are not yet written (R440). -/
  faultSeq : Nat := 0
  /-- HBM rows in the filters F32 and F64, and activation counters (R453, R454). -/
  f32rows  : List Nat := []
  f64rows  : List Nat := []
  acts     : Tab Nat := []
  openRows : List Nat := []
  deriving DecidableEq, Repr

/-- An EXT word (R54): EXT.I's imm24, or EXT.C's bits [26:8]: scope, na, sat, rm and c. -/
inductive Ext where
  | i (v : BitVec 24)
  | c (v : BitVec 19)
  deriving DecidableEq, Repr

/-- The group whose prefixes have been read and whose instruction has not (R34): its first word, where its
next word lies, and the prefixes. -/
structure Group where
  start  : Pc
  next   : Pc
  guard  : Option (Nat × Bool) := none
  /-- The EXT words, the last first: R59 allows one, and R71 judges each. -/
  exts   : List Ext := []
  /-- A second GUARD or a second EXT has been met (R59). -/
  twice  : Bool := false
  /-- A prefix with a reserved bit set has been met (R55, R57, R70). -/
  bad    : Bool := false
  deriving DecidableEq, Repr

/-- The events of the opcode table as the agenda holds them, each with its arguments. -/
inductive Event where
  | warpFormation (core quad : Nat)
  | agedThread (core quad : Nat)
  | loadDataReturn (n : Nat)
  | rejectionRetry (blk tlin : Nat)
  | agedEntryGrant (core : Nat)
  | ownershipGrant (n : Nat)
  | invalidationAck (n : Nat)
  | fenceAccept (ag : Agent)
  | drainAccept (ag : Agent)
  | coh01RetentionEviction (core line : Nat)
  | sleepExpiry (blk : Nat) (who : Option Nat)
  | knotRelease (blk k : Nat)
  | knotTimeout (blk k : Nat)
  | barrierComplete (blk b : Nat)
  | barrierTimeout (blk b : Nat)
  | blockRetire (blk : Nat)
  | readSharedRequest (n : Nat)
  | ownershipRequest (n : Nat)
  | homeWriteback (n : Nat)
  | homeAtomic (n : Nat)
  | clusterAtomic (n : Nat)
  | hbmRequestIssue (slice : Nat)
  | hbmDataReturn (n : Nat) (err : EccOutcome)
  | sidinRequest (r : SidinReq)
  | newHead (launch : Nat)
  | belayLimitExpiry (launch : Nat)
  | skeinRefillRequest (ctx k : Nat)
  | hankReturn (n : Nat)
  | skeinGrant (n : Nat)
  | prRequest (n : Nat)
  | dyerSlotGrant (die depth : Nat)
  | prdefPropagated (n : Nat)
  | fillComplete (ctx : Nat) (va : BitVec 64)
  | fwaitevComplete (blk : Nat)
  | dqRoom (blk : Nat)
  | fetchwDelivery (n : Nat)
  | commandAcceptance (core n : Nat)
  | tceComplete (core id : Nat)
  | mxCommandStart (core : Nat)
  | mxCommandComplete (core : Nat)
  | acDeadlockSwapout (core : Nat)
  | colJoin (core id : Nat) (peers : List PeerCmd)
  | colComplete (core id : Nat)
  | cbarComplete (core id : Nat)
  | launchPortWrite (off len : Nat) (data : BitVec 512)
  | stagingTimeout (launch : Nat)
  | blockPlacement
  | quantumEnd
  | swapOut (blk : Nat)
  | walkResult (n : Nat)
  | faultRetry (seq : BitVec 32)
  | faultFail (seq : BitVec 32)
  | faultTimeout (seq : BitVec 32)
  | fqheadWrite (v : BitVec 32)
  | fqsizeWrite (v : BitVec 32)
  | tlbInvalidateRange (v : BitVec 64)
  | tlbInvalidateAll (v : BitVec 64)
  | tlbInvalidateDone
  | ctxCreate (v : BitVec 64)
  | ctxDestroy (v : BitVec 64)
  | ctxCommandDone
  | cxlMemAccess (pa : Nat) (wr : Option (List Byte)) (len : Nat)
  | hostSnoop (line : Nat) (inval : Bool)
  | hostLineResponse (n : Nat) (r : HostAnswer)
  | plannedReset (v : BitVec 32)
  | cxlReset
  | linkDown
  | watchdogReset
  | thermalTrip
  | clrpoison (v : BitVec 32)
  | rowRefresh (row : Nat)
  | patrolScrub (line : Nat) (err : EccOutcome)
  | activationThreshold (row : Nat)
  | rhtWrite (v : BitVec 32)
  | celogRead
  | islcmdWrite (n : Nat) (v : BitVec 64)
  | islstatRead (n : Nat)
  | vfsChangeComplete (n : Nat)
  | islandGate (n : Nat)
  | energyWindow (n : Nat) (mj : BitVec 32)
  | temperatureBandChange (n : Nat) (band : BitVec 3)
  | firmwareVerify (ok : Bool)
  | die0Trained
  | hbmLayoutMove
  | domcfgWrite (v : BitVec 64)
  | attestationRequest (v : BitVec 32)
  | attestationDone
  | registerWrite (off : Nat) (v : BitVec 64)
  | writeAcknowledgement (n : Nat)
  | skeinHomeOperation (n : Nat)
  | powerOnReset
  | linkUp (width : Nat) (gts : Nat)
  deriving DecidableEq, Repr

/-- What moves next: an event, or an agent that issues (the model's own; log 3). -/
inductive Act where
  | event (e : Event)
  /-- The end of the cycle: barriers are judged, and then knots (R183, R188, R192). -/
  | judge (knots : Bool)
  | issue (ag : Agent)
  /-- The oldest message that its receiver can serve arrives. -/
  | deliver
  /-- An issue opportunity of a quadrant (R91), and of a core's Front Engine (R335). -/
  | arbLane (core quad : Nat)
  | arbFront (core : Nat)
  deriving DecidableEq, Repr

/-- A block that waits for a place: block `b` of a launch that has never been placed, or a block that is swapped out. -/
inductive Cand where
  | fresh (launch b : Nat)
  | again (blk : Nat)
  deriving DecidableEq, Repr

/-- The state of a KS4 package. -/
structure State where
  dev      : Dev
  ctxs     : Tab Ctx
  launches : Tab Launch
  blocks   : Tab Block
  cores    : Tab Core
  mem      : Memory
  poison   : List Nat
  home     : Tab HomeLine
  proxies  : Tab ProxyLine
  clusters : Tab (List Nat)
  hbm      : List HbmReq
  net      : List Msg
  walks    : List Walk
  peers    : List PeerRead
  /-- The walk caches of the 16 walk units, newest first (R437). -/
  walkCache : List WalkEntry
  frecs    : List FaultRec
  /-- Time in core cycles since reset. -/
  now      : Nat
  nextSeq  : Nat
  nextLaunch : Nat
  nextAcc  : Nat
  /-- The cores that the Dispatcher reserves, each for a block (R421). -/
  reserve  : List (Nat × Cand)
  cur      : Agent
  grp      : Option Group
  agenda   : List Act
  nfree    : Nat
  /-- What the last request from outside the package was answered with, and whether it was poisoned. -/
  reply    : List Byte
  replyBad : Bool
  deriving DecidableEq, Repr

/-- Why the machine stops with a fault. -/
inductive Fault where
  /-- An access of a context that is not live: R465 says that none is ever translated, and gives no effect.
  Raised by a word that a block of such a context would fetch. Safe. -/
  | contextNotLive
  deriving DecidableEq, Repr

/-- Why the machine refuses. -/
inductive Refusal where
  /-- An instruction without a meaning, by its mnemonic. Raised by Dispatch alone. Safe. -/
  | notModelled (mnemonic : String)
  deriving DecidableEq, Repr

/-- Island n at reset (R459): core islands gated with a zero budget, the others at VFS 7 and unlimited. -/
def Island.reset (n : Nat) : Island :=
  if n % 64 < 40 then { cmd := 0x700, vfs := 0 } else { cmd := 0xFFFF00000707, vfs := 7 }

/-- The machine right after reset: SVCL 0, no context, launch or block, every core island gated, nothing
cached, memory with nothing listed, and BAR2 at the reset values of R461. -/
def State.reset : State where
  dev := {}
  ctxs := []
  launches := []
  blocks := []
  cores := []
  mem := []
  poison := []
  home := []
  proxies := []
  clusters := []
  hbm := []
  net := []
  walks := []
  peers := []
  walkCache := []
  frecs := []
  now := 0
  nextSeq := 0
  nextLaunch := 0
  nextAcc := 0
  reserve := []
  cur := .front 0 0
  grp := none
  agenda := []
  nfree := 0
  reply := []
  replyBad := false

end Sys2Proof.Machine
end

