-- ==== Sys2Proof/Machine/Memory.lean ====
section
/-! DEFINITION. Byte memory in canonical form, the physical regions and homes (R21, R282, R457), and translation of
virtual addresses (R431 to R436, R439). -/

namespace Sys2Proof.Machine

/-! ## Bytes by address -/

/-- DESIGN CHOICE (log 1). What a byte that nothing has written reads as. -/
def Memory.default : Byte := 0

/-- The byte at an address. -/
def Memory.get : Memory → Nat → Byte
  | [], _ => Memory.default
  | (b, v) :: m, a => if b = a then v else Memory.get m a

/-- Storing a byte, keeping the canonical form. -/
def Memory.set : Memory → Nat → Byte → Memory
  | [], a, v => if v = Memory.default then [] else [(a, v)]
  | (b, w) :: m, a, v =>
    if a < b then (if v = Memory.default then (b, w) :: m else (a, v) :: (b, w) :: m)
    else if a = b then (if v = Memory.default then m else (a, v) :: m)
    else (b, w) :: Memory.set m a v

/-- Every key is above `a`, keys rise, and no byte is the default. -/
def Memory.wfFrom : Option Nat → Memory → Bool
  | _, [] => true
  | none, (b, v) :: m => v ≠ Memory.default && Memory.wfFrom (some b) m
  | some a, (b, v) :: m => a < b && v ≠ Memory.default && Memory.wfFrom (some b) m

/-- The canonical form. -/
def Memory.wf (m : Memory) : Bool := Memory.wfFrom none m

/-- `n` bytes from an address. -/
def Memory.bytes (m : Memory) : Nat → Nat → List Byte
  | _, 0 => []
  | a, n + 1 => m.get a :: Memory.bytes m (a + 1) n

/-- Storing bytes one after another from an address. -/
def Memory.setBytes : Memory → Nat → List Byte → Memory
  | m, _, [] => m
  | m, a, b :: bs => Memory.setBytes (m.set a b) (a + 1) bs

/-- `n` bytes from an address as a little-endian number (R5). -/
def Memory.num (m : Memory) (a n : Nat) : Nat := leValue (m.bytes a n)

/-- Storing the low `n` bytes of a number, little-endian. -/
def Memory.setNum (m : Memory) (a n v : Nat) : Memory := m.setBytes a (leBytes n v)

/-- The bytes from an address that a mask of `n` bits selects are replaced by those of a number. -/
def Memory.setMasked : Memory → Nat → Nat → Nat → Nat → Memory
  | m, _, 0, _, _ => m
  | m, a, n + 1, mask, v =>
    Memory.setMasked (if mask % 2 = 1 then m.set a (BitVec.ofNat 8 v) else m) (a + 1) n (mask / 2) (v / 256)

/-! ## Physical regions and homes -/

/-- The regions of R21. -/
inductive Region where
  | localHbm
  | fabric (dev : Nat)
  | host
  | unpopulated
  deriving DecidableEq, Repr

/-- %dev (R458). -/
def ownDev (s : State) : Nat := field s.dev.domcfg 15 8

/-- DSZ (R399): the number of devices of the domain. -/
def domainSize (s : State) : Nat := field s.dev.domcfg 7 0 + 1

/-- The region of a physical address (R21, R19, R456). -/
def region (s : State) (pa : Nat) : Region :=
  if pa < 2 ^ 39 then (if s.dev.svcl < 2 && 2 ^ 37 ≤ pa then .unpopulated else .localHbm)
  else if 2 ^ 50 ≤ pa && pa < 2 ^ 50 + 2 ^ 48 then
    let d := (pa - 2 ^ 50) / 2 ^ 40
    if s.dev.svcl = 2 && pa % 2 ^ 40 < 2 ^ 39 && d < domainSize s then .fabric d else .unpopulated
  else if 2 ^ 51 ≤ pa && pa < 2 ^ 52 then .host
  else .unpopulated

/-- The device's own fabric window reaches its own HBM (R22): one physical line, one tag (R217). -/
def canonPa (s : State) (pa : Nat) : Nat :=
  match region s pa with
  | .fabric d => if d = ownDev s then pa % 2 ^ 40 else pa
  | _ => pa

/-- The line of a physical address. -/
def lineOf (pa : Nat) : Nat := pa / 128

/-- The address that the home formulas use (R282). -/
def homeIndex (pa : Nat) : Nat := if 2 ^ 51 ≤ pa then pa - 2 ^ 51 else pa

/-- The stack that holds a line of local HBM, and of which the formulas name the home die (R282; R457 below service level 2). -/
def stackOf (svcl pa : Nat) : Nat :=
  if svcl < 2 then pa / 2 ^ 12 % 2 ^^^ pa / 2 ^ 15 % 2 else pa / 2 ^ 12 % 8 ^^^ pa / 2 ^ 15 % 8

/-- The home die (R282; R457 below service level 2). -/
def homeDie (s : State) (pa : Nat) : Nat := stackOf (if 2 ^ 39 ≤ pa then 2 else s.dev.svcl) (homeIndex pa) / 2

/-- The home slice within its die (R282). -/
def homeSlice (pa : Nat) : Nat :=
  let x := homeIndex pa / 128 % 2 ^ 32
  (x ^^^ (x / 2 ^ 9) ^^^ (x / 2 ^ 18)) % 384

/-- The die of a core (R11). -/
def coreDie (core : Nat) : Nat := core / 40

/-! ## Reading at the home -/

/-- A core, or an empty one. -/
def State.core (s : State) (c : Nat) : Core := (tget s.cores c).getD { cycle := s.now }

/-- Changing a core. -/
def State.setCore (s : State) (c : Nat) (k : Core) : State := { s with cores := tset s.cores c k }

/-- Changing a core by a function. -/
def State.modCore (s : State) (c : Nat) (f : Core → Core) : State := s.setCore c (f (s.core c))

/-- Byte `i` of a line's data. -/
def lineByte (d : BitVec 1024) (i : Nat) : Byte := BitVec.ofNat 8 (d.toNat >>> (8 * i))

/-- A byte as the home gives it to an access performed there: the owner's dirty byte where a core owns the line
(R283), else the home's. -/
def homeByte (s : State) (pa : Nat) : Byte :=
  match tget s.home (lineOf pa) with
  | some { dir := .owned c, .. } =>
    (match tget (s.core c).l1 (lineOf pa) with
     | some l => if l.coh ≠ 1 && l.dirty.getLsbD (pa % 128) && !l.staged.getLsbD (pa % 128)
                 then lineByte l.data (pa % 128) else s.mem.get pa
     | none => s.mem.get pa)
  | _ => s.mem.get pa

/-- Bytes as the home gives them. -/
def homeBytes (s : State) : Nat → Nat → List Byte
  | _, 0 => []
  | pa, n + 1 => homeByte s pa :: homeBytes s (pa + 1) n

/-- A number as the home gives it. -/
def homeNum (s : State) (pa n : Nat) : Nat := leValue (homeBytes s pa n)

/-! ## Lines at their slices (R281, R282, R285) -/

/-- The home die of a line. -/
def lineDie (s : State) (line : Nat) : Nat := homeDie s (128 * line)

/-- The slice, over the package, that is a line's home. -/
def lineSlice (s : State) (line : Nat) : Nat := lineDie s line * 384 + homeSlice (128 * line)

/-- Whether a home can serve a line: local HBM or another device's in the slice, a host line obtained from the host. -/
def lineReady (s : State) (line : Nat) : Bool :=
  match region s (128 * line) with
  | .host => s.dev.hostShared.contains line || s.dev.hostOwned.contains line
  | .unpopulated => true
  | _ => (tget s.home line).isSome

/-- Whether a home may write a line: a host line only while the device owns it (R284, R462). -/
def lineOwned (s : State) (line : Nat) : Bool :=
  match region s (128 * line) with
  | .host => s.dev.hostOwned.contains line
  | _ => lineReady s line

/-- The miss entries that a slice has in use (R281): requests to HBM, to the host and to a Sidin port. -/
def missesOf (s : State) (slice : Nat) : Nat :=
  (s.hbm.filter fun h => h.slice = slice).length + (s.net.filter fun m => match m with
    | .hostLine l _ => lineSlice s l = slice
    | .hostOwn l => lineSlice s l = slice
    | .port l _ => lineSlice s l = slice
    | _ => false).length

/-- Whether a slice has one of its 64 miss entries free. -/
def sliceRoom (s : State) (slice : Nat) : Bool := missesOf s slice < 64

/-- Whether the slice of a line has one of its 64 miss entries free. -/
def missRoom (s : State) (line : Nat) : Bool := sliceRoom s (lineSlice s line)

/-- An island (R459). -/
def State.island (s : State) (n : Nat) : Island := (tget s.dev.islands n).getD (Island.reset n)

/-- The islands of a die that are no core's. -/
def dieIslands (die : Nat) : List Nat := (List.range 24).map (64 * die + 40 + ·)

/-- Whether the host has commanded every core island of a die to state 0, and every island of it. -/
def coresOff (s : State) (die : Nat) : Bool := (List.range 40).all fun i => field (s.island (64 * die + i)).cmd 2 0 = 0
def dieStops (s : State) (die : Nat) : Bool := ((dieIslands die).all fun n => field (s.island n).cmd 2 0 = 0) && coresOff s die

/-- Whether a die is powered down, or about to be (R452, R459). -/
def dieOff (s : State) (die : Nat) : Bool := ((dieIslands die).any fun n => (s.island n).vfs = 0) || dieStops s die

/-- Whether a line that a slice does not hold can be asked for: requests to one line merge, a read into a write that waits for
HBM among them (R285). A slice of a die that is powered down takes no request for a host line (R452). -/
def canFetch (s : State) (line : Nat) : Bool :=
  match region s (128 * line) with
  | .localHbm => !s.hbm.any (fun h => h.line = line && h.read) && (s.hbm.any (fun h => h.line = line && !h.issued) || missRoom s line)
  | .host => !s.net.any (fun m => m = .hostLine line none || m = .hostOwn line) && missRoom s line && !dieOff s (lineDie s line)
  | .fabric _ => !s.net.any (· = .port line false) && missRoom s line
  | .unpopulated => false

/-- Whether a host line has been asked for. -/
def asked (s : State) (line : Nat) : Bool := s.net.any fun m => m = .hostLine line none || m = .hostOwn line

/-- A line of the host that the device does not hold yet, at an address that the Dispatcher reads or a fetch takes (R462). -/
def hostAway (s : State) (pa : Nat) : Option Nat :=
  if region s pa = .host && !lineReady s (lineOf pa) then some (lineOf pa) else none

/-- Asking for a line that the slice does not hold. -/
def fetchLine (s : State) (line : Nat) : State :=
  if !canFetch s line then s
  else match region s (128 * line) with
    | .localHbm =>
      if s.hbm.any fun h => h.line = line && !h.issued then
        { s with hbm := s.hbm.map fun h => if h.line = line && !h.issued then { h with read := true } else h }
      else { s with hbm := s.hbm ++ [{ slice := lineSlice s line, line := line, since := s.now }] }
    | .host => { s with net := s.net ++ [.hostLine line none] }
    | _ => { s with net := s.net ++ [.port line false] }

/-- Asking for a line that the home is to write: a host line is asked for as owned. -/
def fetchOwned (s : State) (line : Nat) : State :=
  match region s (128 * line) with
  | .host => if canFetch s line then { s with net := s.net ++ [.hostOwn line] } else s
  | _ => fetchLine s line

/-- An evicted line's dirty bytes leave its slice: for HBM, in its queue, where they merge into a request of the line that waits
(R285); for the host or another device over the link or port. -/
def sendEvicted (s : State) (line : Nat) : State :=
  match region s (128 * line) with
  | .localHbm =>
    if s.hbm.any fun h => h.line = line && !h.issued then
      { s with hbm := s.hbm.map fun h => if h.line = line && !h.issued then { h with write := true } else h }
    else { s with hbm := s.hbm ++ [{ slice := lineSlice s line, line := line, since := s.now, write := true, read := false }] }
  | _ => { s with net := s.net ++ [.port line true] }

/-- A change of a line's directory entry. -/
def modLine (s : State) (line : Nat) (f : HomeLine → HomeLine) : State := { s with home := tmod s.home line f }

/-! ## Translation -/

/-- What an access does: read, write, fetch, in the order of KIND in R440. -/
inductive AccessMode where
  | read | write | fetch
  deriving DecidableEq, Repr

/-- The outcome of a translation: a physical address and COH; an immediate PROTECT with its DETAIL; a TLB miss; or
a recoverable fault with CAUSE and LEVEL (R439, R440). -/
inductive Translation where
  | ok (pa : Nat) (coh : BitVec 2)
  | protect (detail : Nat)
  | miss
  | fault (cause level : Nat)
  deriving DecidableEq, Repr

/-- Which COH suits which region (R435). -/
def cohSuits (r : Region) (coh : BitVec 2) : Bool :=
  match r with
  | .localHbm => coh ≠ 3
  | .fabric _ => coh ≠ 3
  | .host => coh = 2 || coh = 3
  | .unpopulated => false

/-- Region, then COH (R439). -/
def checkTarget (s : State) (pa : Nat) (coh : BitVec 2) : Option Nat :=
  match region s pa with
  | .unpopulated => some 7
  | r => if cohSuits r coh then none else some 8

/-- The heap window (R433). -/
def heapWindow (s : State) (c : Ctx) (m : AccessMode) (va : Nat) : Translation :=
  let pa := (va + c.hwo) % 2 ^ 52
  match checkTarget s pa c.hwcoh with
  | some d => .protect d
  | none =>
    if m = .write && !c.hww then .protect 4
    else if m = .fetch && !c.hwx then .protect 5
    else .ok (canonPa s pa) c.hwcoh

/-- Whether the heap window holds an address. -/
def inHeap (c : Ctx) (va : Nat) : Bool := c.hwb ≤ va && va < c.hwb + c.hwl

/-- The index bits of a level (R434): its lowest bit and its entries. -/
def levelIndex (level va : Nat) : Nat :=
  match level with
  | 3 => va / 2 ^ 43 % 16384
  | 2 => va / 2 ^ 32 % 2048
  | 1 => va / 2 ^ 21 % 2048
  | _ => va / 2 ^ 16 % 32

/-- A leaf that a walk found: the page's address, its size as a power of two, COH, X and W. -/
structure Leaf where
  page  : Nat
  shift : Nat
  coh   : BitVec 2
  x     : Bool
  w     : Bool
  deriving DecidableEq, Repr

/-- A non-leaf entry whose table would break R434 or R435: `shift` is the size of the next table. -/
def badTable (addr shift : Nat) : Bool := addr % 2 ^ shift ≠ 0 || 2 ^ 39 ≤ addr

/-- A page-table entry as a walk of context `ctx` reads it: from its home, or from a walk cache that still holds what it
was (R437, R438; log 69). -/
def tableEntry (s : State) (ctx pa : Nat) : Nat :=
  let e := homeNum s pa 8
  match s.walkCache.find? fun x => x.ctx = ctx && x.pa = pa with
  | some x => if x.entry ≠ e && Config.walkHit s.now pa then x.entry else e
  | none => e

/-- A walk from `level` at table `base` (R434, R435, R439). The error is an immediate DETAIL, or a recoverable
fault's CAUSE and LEVEL. -/
def walkFrom (s : State) (ctx va : Nat) : Nat → Nat → Except (Nat ⊕ Nat × Nat) Leaf
  | level, base =>
    let e := tableEntry s ctx (base + 8 * levelIndex level va)
    let addr := e / 256 % 2 ^ 44 * 256
    let leaf := e / 2 % 2 = 1
    let bad := e / 4 % 64 ≠ 0 || e / 2 ^ 52 % 16 ≠ 0
    if e % 2 = 0 then .error (.inr (1, level))
    else if bad then .error (.inl 6)
    else if leaf then
      if 2 ≤ level || addr % 2 ^ (if level = 1 then 21 else 16) ≠ 0 then .error (.inl 6)
      else .ok { page := addr, shift := if level = 1 then 21 else 16, coh := BitVec.ofNat 2 (e / 2 ^ 62),
                 x := e / 2 ^ 61 % 2 = 1, w := e / 2 ^ 60 % 2 = 1 }
    else if e / 2 ^ 60 ≠ 0 then .error (.inl 6)
    else match level with
      | 0 => .error (.inl 6)
      | 1 => if badTable addr 8 then .error (.inl 6) else walkFrom s ctx va 0 addr
      | 2 => if badTable addr 14 then .error (.inl 6) else walkFrom s ctx va 1 addr
      | n + 3 => if badTable addr 14 then .error (.inl 6) else walkFrom s ctx va (n + 2) addr

/-- The walk of a context's table. -/
def walk (s : State) (ctx : Nat) (c : Ctx) (va : Nat) : Except (Nat ⊕ Nat × Nat) Leaf := walkFrom s ctx va 3 c.root

/-- Whether a walk goes on from a non-leaf entry of a level (R434, R435). -/
def leadsOn (level e : Nat) : Bool :=
  e % 4 = 1 && e / 4 % 64 = 0 && e / 2 ^ 52 = 0 && level ≠ 0 && !badTable (e / 256 % 2 ^ 44 * 256) (if level = 1 then 8 else 14)

/-- The valid non-leaf entries that a walk from `level` passes, one for each level; those before a fault among them. -/
def walkEntries (s : State) (ctx va : Nat) : Nat → Nat → List WalkEntry
  | level, base =>
    let pa := base + 8 * levelIndex level va
    let e := tableEntry s ctx pa
    if !leadsOn level e then []
    else match level with
      | 0 => []
      | n + 1 => ⟨ctx, pa, e⟩ :: walkEntries s ctx va n (e / 256 % 2 ^ 44 * 256)

/-- The walk unit that reads an entry (R437): one of the two of the stack that holds its table. -/
def walkUnitOf (svcl pa : Nat) : Nat := 2 * stackOf svcl pa + Config.walkUnit pa % 2

/-- An entry enters the walk cache of its unit, which holds 1,024; a full one loses a free victim (log 9). -/
def walkInsert (svcl now : Nat) (t : List WalkEntry) (e : WalkEntry) : List WalkEntry :=
  let rest := t.filter fun x => x.ctx ≠ e.ctx || x.pa ≠ e.pa
  if rest.length < 1024 then e :: rest
  else
    let unit := rest.filter fun x => walkUnitOf svcl x.pa = walkUnitOf svcl e.pa
    if unit.length < 1024 then e :: rest
    else e :: rest.filter fun x => some x ≠ unit[Config.tlbVictim now 1024 % 1024]?

/-- The walk caches after a walk, whatever it comes to; the heap window and an address above 2^57 have none (R431). -/
def fillWalkCache (s : State) (ctx va : Nat) : State :=
  match tget s.ctxs ctx with
  | none => s
  | some c =>
    if !c.mapped || 2 ^ 57 ≤ va || inHeap c va then s
    else { s with walkCache := (walkEntries s ctx va 3 c.root).foldl (walkInsert s.dev.svcl s.now) s.walkCache }

/-- The permission that R436 asks for: CAUSE of the recoverable fault if it is refused. -/
def refused (m : AccessMode) (x w : Bool) : Option Nat :=
  match m with
  | .read => none
  | .write => if w then none else some 2
  | .fetch => if x then none else some 3

/-- The judgement of a walk's leaf (R439). -/
def judgeLeaf (s : State) (m : AccessMode) (va : Nat) (l : Leaf) : Translation :=
  let pa := l.page + va % 2 ^ l.shift
  match checkTarget s pa l.coh with
  | some d => .protect d
  | none =>
    match refused m l.x l.w with
    | some cause => .fault cause (if l.shift = 21 then 1 else 0)
    | none => .ok (canonPa s pa) l.coh

/-- A translation by heap window and walk, as a fetch, the Dispatcher and a walk's end see it; no address at or above 2^57
translates (R431). -/
def translate (s : State) (ctx : Nat) (m : AccessMode) (va : Nat) : Translation :=
  match tget s.ctxs ctx with
  | none => .miss
  | some c =>
    if !c.mapped then .miss
    else if 2 ^ 57 ≤ va then .protect 3
    else if inHeap c va then heapWindow s c m va
    else match walk s ctx c va with
      | .ok l => judgeLeaf s m va l
      | .error (.inl d) => .protect d
      | .error (.inr (cause, level)) => .fault cause level

/-- The entry of a TLB for an address. -/
def tlbFind (t : List TlbEntry) (ctx va : Nat) : Option TlbEntry :=
  t.find? fun e => e.ctx = ctx && e.vpn = va / 2 ^ e.shift

/-- A translation through a TLB: an entry without the permission asked for is walked again (R439). -/
def translateTlb (s : State) (t : List TlbEntry) (ctx : Nat) (m : AccessMode) (va : Nat) : Translation :=
  match tget s.ctxs ctx with
  | none => .miss
  | some c =>
    if !c.mapped then .miss
    else if inHeap c va then heapWindow s c m va
    else match tlbFind t ctx va with
      | some e =>
        if (refused m e.x e.w).isSome then .miss
        else .ok (canonPa s (e.ppn * 2 ^ e.shift + va % 2 ^ e.shift)) e.coh
      | none => .miss

/-- A TLB after a walk: at most `cap` entries, the newest first, one for a page; a full one loses a free victim (log 9). -/
def tlbInsert (now cap : Nat) (t : List TlbEntry) (ctx va : Nat) (l : Leaf) : List TlbEntry :=
  let e : TlbEntry := { ctx := ctx, vpn := va / 2 ^ l.shift, shift := l.shift, ppn := l.page / 2 ^ l.shift,
                        coh := l.coh, x := l.x, w := l.w }
  let rest := t.filter fun x => x.ctx ≠ ctx || x.shift ≠ e.shift || x.vpn ≠ e.vpn
  e :: if rest.length < cap then rest else (ldel rest (Config.tlbVictim now cap % cap)).take (cap - 1)

/-- What a walk that translates an address leaves: its leaf in a core's data TLB, and what it passed in the walk caches (R437);
the heap window has none. -/
def fillDataTlb (s : State) (core ctx va : Nat) : State :=
  match tget s.ctxs ctx with
  | none => s
  | some c =>
    if inHeap c va then s
    else match walk s ctx c va with
      | .ok l => (fillWalkCache s ctx va).modCore core fun k => { k with dtlb := tlbInsert s.now 512 k.dtlb ctx va l }
      | .error _ => s

/-- What a translation through a core's data TLB comes to (R431), a miss walking in full. -/
def peekCore (s : State) (core ctx : Nat) (m : AccessMode) (va : Nat) : Translation :=
  match translateTlb s (s.core core).dtlb ctx m va with
  | .miss => translate s ctx m va
  | r => r

/-- A translation through a core's data TLB: a miss walks at once, and what the walk found is cached, up to a fault (R431, R437). -/
def coreTranslate (s : State) (core ctx : Nat) (m : AccessMode) (va : Nat) : State × Translation :=
  match translateTlb s (s.core core).dtlb ctx m va with
  | .miss =>
    (match translate s ctx m va with
     | .ok pa coh => (fillDataTlb s core ctx va, .ok pa coh)
     | r => (fillWalkCache s ctx va, r))
  | r => (s, r)

end Sys2Proof.Machine
end

