-- ==== Sys2Proof/WellFormed.lean ====
section
/-! DEFINITION. Which rows of the table are legal words by themselves: the field values that R70 calls
ILLEGAL whatever the prefixes and the class of the code. Legality that a prefix or the class decides is
judged where the group issues (Machine/Operands). -/

namespace Sys2Proof

/-- R16, R17: scopes 6 and 7 are reserved. -/
def scopeOk (s : BitVec 3) : Bool := s.toNat ≤ 5

/-- R68: which ops and types an atomic may combine. -/
def atomOk (op type : Nat) : Bool :=
  if op ≤ 5 then type ≤ 3
  else if op = 6 then type ≤ 5
  else if op = 7 then type ≤ 3
  else if op = 8 ∨ op = 9 then type = 1
  else if op = 10 then 4 ≤ type
  else false

/-- R61: with nw = 1 the d field must be 0. -/
def nwOk (n : BitVec 1) (d : BitVec 6) : Bool := n = 0 || d = 0

namespace Instr

/-- R42, R43, R44, R49, R61, R68 and R69: the field values that are not ILLEGAL. -/
def wellFormed : Instr → Bool
  | .iadd _ _ n d => nwOk n d
  | .isub _ _ n d => nwOk n d
  | .irsub _ _ n d => nwOk n d
  | .iaddc _ _ n d => nwOk n d
  | .imul _ _ n d => nwOk n d
  | .imulh _ _ n d => nwOk n d
  | .nmulh _ _ n d => nwOk n d
  | .imad _ _ n d => nwOk n d
  | .imin _ _ n d => nwOk n d
  | .imax _ _ n d => nwOk n d
  | .nmin _ _ n d => nwOk n d
  | .nmax _ _ n d => nwOk n d
  | .and32 _ _ n d => nwOk n d
  | .or32 _ _ n d => nwOk n d
  | .xor32 _ _ n d => nwOk n d
  | .andn _ _ n d => nwOk n d
  | .shl _ _ n d => nwOk n d
  | .shr _ _ n d => nwOk n d
  | .sar _ _ n d => nwOk n d
  | .rotl _ _ n d => nwOk n d
  | .bfx _ _ n d => nwOk n d
  | .bfxn _ _ n d => nwOk n d
  | .bfi _ _ n d => nwOk n d
  | .prmt _ _ n d => nwOk n d
  | .popc _ n d => nwOk n d
  | .clz _ n d => nwOk n d
  | .brev _ n d => nwOk n d
  | .iabs _ n d => nwOk n d
  | .isetpI32 _ _ c _ => c.toNat ≤ 5
  | .isetpN32 _ _ c _ => c.toNat ≤ 5
  | .isetpI64 _ _ c _ => c.toNat ≤ 5
  | .isetpN64 _ _ c _ => c.toNat ≤ 5
  | .mov _ n d => nwOk n d
  | .sel _ _ n d => nwOk n d
  | .movh _ n d => nwOk n d
  | .plop _ _ _ _ _ _ => true
  | .iaddW _ _ n d => nwOk n d
  | .isubW _ _ n d => nwOk n d
  | .imulW _ _ n d => nwOk n d
  | .imadW _ _ n d => nwOk n d
  | .shlW _ _ n d => nwOk n d
  | .shrW _ _ n d => nwOk n d
  | .sarW _ _ n d => nwOk n d
  | .imulx _ _ n d => nwOk n d
  | .idiv _ _ n d => nwOk n d
  | .ndiv _ _ n d => nwOk n d
  | .irem _ _ n d => nwOk n d
  | .nrem _ _ n d => nwOk n d
  | .iadds _ _ n d => nwOk n d
  | .isubs _ _ n d => nwOk n d
  | .nadds _ _ n d => nwOk n d
  | .nsubs _ _ n d => nwOk n d
  | .logt _ _ n d => nwOk n d
  | .bmrg _ _ n d => nwOk n d
  | .fshl _ _ n d => nwOk n d
  | .fshr _ _ n d => nwOk n d
  | .fadd _ _ n d => nwOk n d
  | .fsub _ _ n d => nwOk n d
  | .fmul _ _ n d => nwOk n d
  | .ffma _ _ n d => nwOk n d
  | .fmin _ _ n d => nwOk n d
  | .fmax _ _ n d => nwOk n d
  | .fminn _ _ n d => nwOk n d
  | .fmaxn _ _ n d => nwOk n d
  | .fsetp _ _ _ _ => true
  | .fsetpSig _ _ _ _ => true
  | .fdiv _ _ n d => nwOk n d
  | .fsqrt _ n d => nwOk n d
  | .frcp _ n d => nwOk n d
  | .frsq _ n d => nwOk n d
  | .fex2 _ n d => nwOk n d
  | .flg2 _ n d => nwOk n d
  | .fsin _ n d => nwOk n d
  | .fcos _ n d => nwOk n d
  | .fabs _ n d => nwOk n d
  | .fneg _ n d => nwOk n d
  | .fcpys _ _ n d => nwOk n d
  | .fclass _ n d => nwOk n d
  | .frnd _ n d => nwOk n d
  | .fscale _ _ n d => nwOk n d
  | .fexpo _ n d => nwOk n d
  | .hadd2 _ _ n d => nwOk n d
  | .hmul2 _ _ n d => nwOk n d
  | .hfma2 _ _ n d => nwOk n d
  | .hmax2 _ _ n d => nwOk n d
  | .badd2 _ _ n d => nwOk n d
  | .bmul2 _ _ n d => nwOk n d
  | .bfma2 _ _ n d => nwOk n d
  | .bmax2 _ _ n d => nwOk n d
  | .dadd _ _ n d => nwOk n d
  | .dsub _ _ n d => nwOk n d
  | .dmul _ _ n d => nwOk n d
  | .dfma _ _ n d => nwOk n d
  | .dmin _ _ n d => nwOk n d
  | .dmax _ _ n d => nwOk n d
  | .dminn _ _ n d => nwOk n d
  | .dmaxn _ _ n d => nwOk n d
  | .dsetp _ _ _ _ _ => true
  | .dclass _ n d => nwOk n d
  | .dabs _ n d => nwOk n d
  | .dneg _ n d => nwOk n d
  | .ddiv _ _ n d => nwOk n d
  | .dsqrt _ n d => nwOk n d
  | .drcp _ n d => nwOk n d
  | .drsq _ n d => nwOk n d
  | .drnd _ n d => nwOk n d
  | .dscale _ _ n d => nwOk n d
  | .cvtF32I32 _ n d => nwOk n d
  | .cvtF32N32 _ n d => nwOk n d
  | .cvtI32F32 _ n d => nwOk n d
  | .cvtN32F32 _ n d => nwOk n d
  | .cvtF64F32 _ n d => nwOk n d
  | .cvtF32F64 _ n d => nwOk n d
  | .cvtF64I64 _ n d => nwOk n d
  | .cvtI64F64 _ n d => nwOk n d
  | .cvtF16F32 _ n d => nwOk n d
  | .cvtF32F16 _ n d => nwOk n d
  | .cvtBf16F32 _ n d => nwOk n d
  | .cvtF32Bf16 _ n d => nwOk n d
  | .cvtF8F32 _ n d => nwOk n d
  | .cvtF32F8 _ n d => nwOk n d
  | .cvtE2m1F32 _ n d => nwOk n d
  | .cvtF32E2m1 _ n d => nwOk n d
  | .ballot _ _ _ => true
  | .voteAny _ _ _ => true
  | .voteAll _ _ _ => true
  | .voteEq _ _ _ => true
  | .lxchAt _ _ _ => true
  | .lxchBack _ _ _ => true
  | .lxchFwd _ _ _ => true
  | .lxchXor _ _ _ => true
  | .reduxAdd _ _ => true
  | .reduxMin _ _ => true
  | .reduxMax _ _ => true
  | .matchAny _ _ => true
  | .ld _ z s r _ _ => z.toNat ≤ 6 && (r = 0 || r = 1) && scopeOk s
  | .st _ z s r _ _ => z.toNat ≤ 4 && (r = 0 || r = 2) && scopeOk s
  | .pref _ s _ l => l.toNat ≤ 1 && scopeOk s
  | .atom t o s _ _ _ => atomOk o.toNat t.toNat && scopeOk s
  | .red t o s _ _ _ => atomOk o.toNat t.toNat && o ≠ 7 && scopeOk s
  | .fence s r => r ≠ 0 && scopeOk s
  | .drain _ => true
  | .wbr s _ _ => scopeOk s
  | .invr s _ _ => scopeOk s
  | .lds _ _ _ _ => true
  | .sts _ _ _ _ => true
  | .atoms _ _ _ _ => true
  | .tinfo _ _ _ => true
  | .ldf _ _ _ _ => true
  | .lde _ _ _ _ => true
  | .stf _ _ _ _ => true
  | .stx _ _ _ _ => true
  | .talloc _ _ _ => true
  | .tfree _ => true
  | .feset _ _ _ => true
  | .texport _ _ => true
  | .br _ _ _ => true
  | .bruAny _ _ _ => true
  | .bruAll _ _ _ => true
  | .bruNone _ _ _ => true
  | .bruUni _ _ _ => true
  | .jmp _ => true
  | .call _ => true
  | .dcall _ => true
  | .djmp _ => true
  | .ret => true
  | .exit => true
  | .ktie _ => true
  | .join _ => true
  | .kreset _ => true
  | .barSync _ p _ => p ≠ 0
  | .barArrive _ p _ => p ≠ 0
  | .barWait p _ => p ≠ 0
  | .mxacq _ => true
  | .mxrel _ => true
  | .mxzero _ => true
  | .mxvc _ _ => true
  | .mmaC8 _ _ _ => true
  | .mmaX8 _ _ _ => true
  | .mmaC16 _ _ _ => true
  | .mmaC16h _ _ _ => true
  | .mxld _ _ _ => true
  | .mxst _ _ _ => true
  | .mxrecomb _ _ _ => true
  | .mxscale _ _ => true
  | .sktake _ _ _ => true
  | .skgive _ _ => true
  | .skreadx _ _ => true
  | .skinit _ _ => true
  | .prdef _ _ => true
  | .prdone _ => true
  | .previct _ _ => true
  | .prq _ _ => true
  | .trap _ => true
  | .bkpt => true
  | .rett => true
  | .sleep _ => true
  | .csrr _ _ => true
  | .csrw _ _ => true
  | .flgr _ => true
  | .flgc _ => true
  | .dqpush _ => true
  | .launch _ => true
  | .fexit => true
  | .fwaitev _ _ => true
  | .tceLoad _ _ => true
  | .tceStore _ _ => true
  | .tceMcast _ _ => true
  | .tceSlice _ _ => true
  | .tceGather _ _ => true
  | .tceScatter _ _ => true
  | .tceFill _ _ => true
  | .colReduce _ _ => true
  | .colAllred _ _ => true
  | .colBcast _ _ => true
  | .colAgather _ _ => true
  | .colRscat _ _ => true
  | .colCbar _ => true
  | .wrange _ => true
  | .fetchw _ => true
  | .fixup _ _ => true
  | .scret _ => true
  | .powq _ => true
  | .extI _ => true
  | .extC s _ _ _ _ => scopeOk s
  | .guard _ _ => true
  | .nop16 _ _ => true
  | .mov16 _ _ => true
  | .iadd16 _ _ => true
  | .isub16 _ _ => true
  | .imul16 _ _ => true
  | .and16 _ _ => true
  | .or16 _ _ => true
  | .xor16 _ _ => true
  | .shl16 _ _ => true
  | .shr16 _ _ => true
  | .sar16 _ _ => true
  | .imin16 _ _ => true
  | .imax16 _ _ => true
  | .fadd16 _ _ => true
  | .fsub16 _ _ => true
  | .fmul16 _ _ => true
  | .fmax16 _ _ => true
  | .warpFormation _ _ => true
  | .agedThread _ _ => true
  | .loadDataReturn _ => true
  | .rejectionRetry _ _ => true
  | .agedEntryGrant _ => true
  | .ownershipGrant _ => true
  | .invalidationAck _ => true
  | .fenceAccept _ => true
  | .drainAccept _ => true
  | .coh01RetentionEviction _ _ => true
  | .sleepExpiry _ _ => true
  | .knotRelease _ _ => true
  | .knotTimeout _ _ => true
  | .barrierComplete _ _ => true
  | .barrierTimeout _ _ => true
  | .blockRetire _ => true
  | .readSharedRequest _ => true
  | .ownershipRequest _ => true
  | .homeWriteback _ => true
  | .homeAtomic _ => true
  | .clusterAtomic _ => true
  | .hbmRequestIssue _ => true
  | .hbmDataReturn _ _ => true
  | .sidinRequest _ => true
  | .newHead _ => true
  | .belayLimitExpiry _ => true
  | .skeinRefillRequest _ _ => true
  | .hankReturn _ => true
  | .skeinGrant _ => true
  | .prRequest _ => true
  | .dyerSlotGrant _ _ => true
  | .prdefPropagated _ => true
  | .fillComplete _ _ => true
  | .fwaitevComplete _ => true
  | .dqRoom _ => true
  | .fetchwDelivery _ => true
  | .commandAcceptance _ _ => true
  | .tceComplete _ _ => true
  | .mxCommandStart _ => true
  | .mxCommandComplete _ => true
  | .acDeadlockSwapout _ => true
  | .colJoin _ _ _ => true
  | .colComplete _ _ => true
  | .cbarComplete _ _ => true
  | .launchPortWrite _ _ _ => true
  | .stagingTimeout _ => true
  | .blockPlacement => true
  | .quantumEnd => true
  | .swapOut _ => true
  | .walkResult _ => true
  | .faultRetry _ => true
  | .faultFail _ => true
  | .faultTimeout _ => true
  | .fqheadWrite _ => true
  | .fqsizeWrite _ => true
  | .tlbInvalidateRange _ => true
  | .tlbInvalidateAll _ => true
  | .tlbInvalidateDone => true
  | .ctxCreate _ => true
  | .ctxDestroy _ => true
  | .ctxCommandDone => true
  | .cxlMemAccess _ _ _ => true
  | .hostSnoop _ _ => true
  | .hostLineResponse _ _ => true
  | .plannedReset _ => true
  | .cxlReset => true
  | .linkDown => true
  | .watchdogReset => true
  | .thermalTrip => true
  | .clrpoison _ => true
  | .rowRefresh _ => true
  | .patrolScrub _ _ => true
  | .activationThreshold _ => true
  | .rhtWrite _ => true
  | .celogRead => true
  | .islcmdWrite _ _ => true
  | .islstatRead _ => true
  | .vfsChangeComplete _ => true
  | .islandGate _ => true
  | .energyWindow _ _ => true
  | .temperatureBandChange _ _ => true
  | .firmwareVerify _ => true
  | .die0Trained => true
  | .hbmLayoutMove => true
  | .domcfgWrite _ => true
  | .attestationRequest _ => true
  | .attestationDone => true
  | .registerWrite _ _ => true
  | .writeAcknowledgement _ => true
  | .skeinHomeOperation _ => true
  | .powerOnReset => true
  | .linkUp _ _ => true

end Instr

end Sys2Proof
end

