-- ==== Sys2Proof/Machine/Operands.lean ====
section
/-! DEFINITION. The operand shape of every word (R36 to R58, R67, R119, R155), the decode traps (R59, R70, R71),
and the values of constants (R40), immediates (R56) and special values (R38). -/

namespace Sys2Proof.Machine

/-! ## Causes (R209) -/

def causeIllegal : BitVec 8 := 0x01
def causeIllopnd : BitVec 8 := 0x02
def causeIllclass : BitVec 8 := 0x03
def causeIllprefix : BitVec 8 := 0x04
def causeFpe : BitVec 8 := 0x08
def causeIdivz : BitVec 8 := 0x0A
def causePagefault : BitVec 8 := 0x10
def causeProtect : BitVec 8 := 0x11
def causeMisalign : BitVec 8 := 0x13
def causeLashed : BitVec 8 := 0x14
def causeToken : BitVec 8 := 0x15
def causeTile : BitVec 8 := 0x16
def causeFemisuse : BitVec 8 := 0x17
def causeDispatch : BitVec 8 := 0x18
def causeBartmo : BitVec 8 := 0x19
def causeBelaytmo : BitVec 8 := 0x1A
def causePrfill : BitVec 8 := 0x1B
def causeSkein : BitVec 8 := 0x1D
def causeEccdata : BitVec 8 := 0x1E
def causeUser : BitVec 8 := 0x1F
def causeBkpt : BitVec 8 := 0x20

/-! ## Shapes -/

/-- The classes of R66. -/
inductive Cls where
  | lf | lane | home | front
  deriving DecidableEq, Repr

/-- The effect on the latch ring (R60). -/
inductive RingEff where
  | pure | group | empties | none
  deriving DecidableEq, Repr

/-- The type of an operand position (R119, R155). `z64` is the source of CSRW for a 64-bit CSR (R204). -/
inductive Pos where
  | i32 | i64 | f32 | f64 | h2 | b2 | bits | z64
  deriving DecidableEq, Repr

/-- The third source (R58). -/
inductive Third where
  | none
  /-- Field c, or without EXT.C the old value of d. -/
  | oldD (p : Pos)
  /-- Field c, required (SEL). -/
  | must (p : Pos)
  /-- Field c with the truth table beside it (LOGT). -/
  | table
  /-- The expected mask of a home-bound instruction. -/
  | mask
  /-- The op and type of ATOMS. -/
  | atoms
  deriving DecidableEq, Repr

/-- The field that EXT.I replaces (R56): b, a, the offset, the a of CSRW, or b in place of a (MOV, MOVH). -/
inductive ExtField where
  | none | b | a | off | csr | instead
  deriving DecidableEq, Repr

/-- How long a group of n members holds the issue port (R105). -/
inductive Port where
  | one | half | fourHalf | eighth
  deriving DecidableEq, Repr

/-- The operand shape of a word. A pair (r, k) names the k registers from r, 0 of them for none. -/
structure Sig where
  cls   : Cls := .lf
  ring  : RingEff := .empties
  a     : Option (BitVec 8 × Pos) := none
  b     : Option (BitVec 8 × Pos) := none
  third : Third := .none
  /-- The destination in lane code, and how many s registers it is in front code. -/
  dst   : Nat × Nat := (0, 0)
  fdst  : Nat := 1
  nw    : Bool := false
  pd    : Option Nat := none
  /-- The address register of a memory word, and the data it reads. -/
  base  : Option Nat := none
  data  : Nat × Nat := (0, 0)
  fdata : Nat := 1
  /-- An address field that must be a register code (R67). -/
  addr  : Option (BitVec 8) := none
  off   : Nat := 0
  ext   : ExtField := .none
  naA   : Bool := false
  naB   : Bool := false
  sat   : Bool := false
  rm    : Bool := false
  scope : Bool := false
  guard : Bool := true
  short : Bool := false
  csr   : Option Nat := none
  /-- s registers that a front word names in plain fields and reads. -/
  sregs : List Nat := []
  /-- A transfer of control (R176). -/
  jump  : Bool := false
  /-- Result latency in lanes (R93) and on the front thread (R335), and the port class. -/
  lat   : Nat := 4
  flat  : Nat := 2
  port  : Port := .one
  deriving DecidableEq, Repr

namespace Sig

/-- A pure word. -/
def pure : Sig := { ring := .pure }

/-- Format L with one or two sources; `k` registers at d. -/
def two (pa pb : Pos) (k : Nat) (b a : BitVec 8) (n : BitVec 1) (d : BitVec 6) : Sig :=
  { ring := .pure, a := some (a, pa), b := some (b, pb), dst := (d.toNat, k),
    nw := n = 1, ext := .b }

def one (pa : Pos) (k : Nat) (a : BitVec 8) (n : BitVec 1) (d : BitVec 6) : Sig :=
  { ring := .pure, a := some (a, pa), dst := (d.toNat, k), nw := n = 1 }

def three (p : Pos) (k : Nat) (b a : BitVec 8) (n : BitVec 1) (d : BitVec 6) : Sig :=
  { two p p k b a n d with third := .oldD p }

/-- Floating-point words: lane-only, with the na, sat and rm of EXT.C (R57, R152). -/
def fp2 (p : Pos) (k : Nat) (b a : BitVec 8) (n : BitVec 1) (d : BitVec 6) : Sig :=
  { two p p k b a n d with cls := .lane, naA := true, naB := true, sat := true, rm := true }

def fp1 (p : Pos) (k : Nat) (a : BitVec 8) (n : BitVec 1) (d : BitVec 6) : Sig :=
  { one p k a n d with cls := .lane, naA := true, sat := true, rm := true }

def fp3 (p : Pos) (k : Nat) (b a : BitVec 8) (n : BitVec 1) (d : BitVec 6) : Sig :=
  { fp2 p k b a n d with third := .oldD p }

/-- Lane-group words (R193). -/
def grouped : Sig := { cls := .home, ring := .group, third := .mask, lat := 8 }

/-- Matrix words (R376). -/
def matrix : Sig := { cls := .home, third := .mask }

/-- Memory words (R43, R44, R69). -/
def memory (a : BitVec 6) : Sig := { base := some a.toNat, ext := .off, scope := true }

/-- Front words of format X, which name s registers (R50). -/
def engine (rs : List (BitVec 6)) : Sig := { cls := .front, sregs := rs.map BitVec.toNat }

/-- Scratchpad words with an offset source (R45). -/
def scratch (a : BitVec 8) : Sig := { cls := .lane, a := some (a, .i32), ext := .a }

/-- 16-bit words (R51, R52). -/
def source16 (s : BitVec 5) : BitVec 8 :=
  if s < 16 then s.zeroExtend 8 else if s < 28 then 0x40 + (s.zeroExtend 8 - 16) else 0x80 + (s.zeroExtend 8 - 28)

def reg16 (d : BitVec 5) : BitVec 6 := d.zeroExtend 6

def short2 (p : Pos) (s d : BitVec 5) : Sig :=
  { two p p 1 (source16 s) (d.zeroExtend 8) 0 (reg16 d) with short := true, ext := .none }

/-- Registers of a memory size code (R43). -/
def sizeRegs (z : Nat) : Nat := if z = 3 then 2 else if z = 4 then 4 else 1

/-- Registers of a scratchpad size code (R45). -/
def tileRegs (z : Nat) : Nat := if z = 1 then 2 else if z = 2 then 4 else 1

/-- Whether an atomic's type is 64 bits wide (R44). -/
def atomWide (t : Nat) : Bool := t = 2 || t = 3 || t = 5

/-- Registers an atomic returns, and reads as operand: CAS reads two values (R231). -/
def atomRet (t : Nat) : Nat := if atomWide t then 2 else 1
def atomData (t o : Nat) : Nat := if o = 7 then 2 * atomRet t else atomRet t

/-- Registers of a CSR (R205): 2 where it is 64 bits wide. -/
def csrRegs (c : Nat) : Nat :=
  if c = 1 || c = 2 || (5 ≤ c && c ≤ 10) || c = 0x30 || c = 0x49 then 2 else 1

end Sig

open Sig in
/-- The shape of every row of the table. R93 lists no result latency for CSRR, FLGR, TINFO and TALLOC, which do not return through
the scoreboard either: they take 4 cycles (log 93: DESIGN CHOICE). -/
def shape : Instr → Sig
  | .iadd b a n d => two .i32 .i32 1 b a n d
  | .isub b a n d => two .i32 .i32 1 b a n d
  | .irsub b a n d => two .i32 .i32 1 b a n d
  | .iaddc b a n d => three .i32 1 b a n d
  | .imul b a n d => { two .i32 .i32 1 b a n d with lat := 6, flat := 4 }
  | .imulh b a n d => { two .i32 .i32 1 b a n d with lat := 6, flat := 4 }
  | .nmulh b a n d => { two .i32 .i32 1 b a n d with lat := 6, flat := 4 }
  | .imad b a n d => { three .i32 1 b a n d with lat := 6, flat := 4 }
  | .imin b a n d => two .i32 .i32 1 b a n d
  | .imax b a n d => two .i32 .i32 1 b a n d
  | .nmin b a n d => two .i32 .i32 1 b a n d
  | .nmax b a n d => two .i32 .i32 1 b a n d
  | .and32 b a n d => two .i32 .i32 1 b a n d
  | .or32 b a n d => two .i32 .i32 1 b a n d
  | .xor32 b a n d => two .i32 .i32 1 b a n d
  | .andn b a n d => two .i32 .i32 1 b a n d
  | .shl b a n d => two .i32 .i32 1 b a n d
  | .shr b a n d => two .i32 .i32 1 b a n d
  | .sar b a n d => two .i32 .i32 1 b a n d
  | .rotl b a n d => two .i32 .i32 1 b a n d
  | .bfx b a n d => two .i32 .i32 1 b a n d
  | .bfxn b a n d => two .i32 .i32 1 b a n d
  | .bfi b a n d => three .i32 1 b a n d
  | .prmt b a n d => three .i32 1 b a n d
  | .popc a n d => one .i32 1 a n d
  | .clz a n d => one .i32 1 a n d
  | .brev a n d => one .i32 1 a n d
  | .iabs a n d => one .i32 1 a n d
  | .isetpI32 b a _ p => { two .i32 .i32 0 b a 0 0 with pd := some p.toNat }
  | .isetpN32 b a _ p => { two .i32 .i32 0 b a 0 0 with pd := some p.toNat }
  | .isetpI64 b a _ p => { two .i64 .i64 0 b a 0 0 with pd := some p.toNat }
  | .isetpN64 b a _ p => { two .i64 .i64 0 b a 0 0 with pd := some p.toNat }
  | .mov a n d => { one .i32 1 a n d with ext := .instead }
  | .sel b a n d => { two .i32 .i32 1 b a n d with third := .must .i32 }
  | .movh a n d => { one .i32 1 a n d with ext := .instead }
  | .plop _ _ _ _ _ p => { pure with pd := some p.toNat }
  | .iaddW b a n d => two .i64 .i64 2 b a n d
  | .isubW b a n d => two .i64 .i64 2 b a n d
  | .imulW b a n d => { two .i64 .i64 2 b a n d with lat := 6, flat := 4 }
  | .imadW b a n d => { three .i64 2 b a n d with lat := 6, flat := 4 }
  | .shlW b a n d => two .i64 .i32 2 b a n d
  | .shrW b a n d => two .i64 .i32 2 b a n d
  | .sarW b a n d => two .i64 .i32 2 b a n d
  | .imulx b a n d => { two .i32 .i32 2 b a n d with lat := 6, flat := 4, fdst := 2 }
  | .idiv b a n d => { two .i32 .i32 1 b a n d with lat := 36, flat := 36, port := .eighth }
  | .ndiv b a n d => { two .i32 .i32 1 b a n d with lat := 36, flat := 36, port := .eighth }
  | .irem b a n d => { two .i32 .i32 1 b a n d with lat := 36, flat := 36, port := .eighth }
  | .nrem b a n d => { two .i32 .i32 1 b a n d with lat := 36, flat := 36, port := .eighth }
  | .iadds b a n d => two .i32 .i32 1 b a n d
  | .isubs b a n d => two .i32 .i32 1 b a n d
  | .nadds b a n d => two .i32 .i32 1 b a n d
  | .nsubs b a n d => two .i32 .i32 1 b a n d
  | .logt b a n d => { two .i32 .i32 1 b a n d with third := .table }
  | .bmrg b a n d => three .i32 1 b a n d
  | .fshl b a n d => three .i32 1 b a n d
  | .fshr b a n d => three .i32 1 b a n d
  | .fadd b a n d => fp2 .f32 1 b a n d
  | .fsub b a n d => fp2 .f32 1 b a n d
  | .fmul b a n d => fp2 .f32 1 b a n d
  | .ffma b a n d => fp3 .f32 1 b a n d
  | .fmin b a n d => fp2 .f32 1 b a n d
  | .fmax b a n d => fp2 .f32 1 b a n d
  | .fminn b a n d => fp2 .f32 1 b a n d
  | .fmaxn b a n d => fp2 .f32 1 b a n d
  | .fsetp b a _ p => { fp2 .f32 0 b a 0 0 with pd := some p.toNat, sat := false, rm := false }
  | .fsetpSig b a _ p => { fp2 .f32 0 b a 0 0 with pd := some p.toNat, sat := false, rm := false }
  | .fdiv b a n d => { fp2 .f32 1 b a n d with lat := 20, port := .eighth }
  | .fsqrt a n d => { fp1 .f32 1 a n d with lat := 20, port := .eighth }
  | .frcp a n d => { fp1 .f32 1 a n d with lat := 16, port := .eighth }
  | .frsq a n d => { fp1 .f32 1 a n d with lat := 16, port := .eighth }
  | .fex2 a n d => { fp1 .f32 1 a n d with lat := 16, port := .eighth }
  | .flg2 a n d => { fp1 .f32 1 a n d with lat := 16, port := .eighth }
  | .fsin a n d => { fp1 .f32 1 a n d with lat := 16, port := .eighth }
  | .fcos a n d => { fp1 .f32 1 a n d with lat := 16, port := .eighth }
  | .fabs a n d => fp1 .f32 1 a n d
  | .fneg a n d => fp1 .f32 1 a n d
  | .fcpys b a n d => { fp2 .f32 1 b a n d with b := some (b, .bits), naB := false }
  | .fclass a n d => fp1 .f32 1 a n d
  | .frnd a n d => fp1 .f32 1 a n d
  | .fscale b a n d => { fp2 .f32 1 b a n d with b := some (b, .i32), naB := false }
  | .fexpo a n d => fp1 .f32 1 a n d
  | .hadd2 b a n d => fp2 .h2 1 b a n d
  | .hmul2 b a n d => fp2 .h2 1 b a n d
  | .hfma2 b a n d => fp3 .h2 1 b a n d
  | .hmax2 b a n d => fp2 .h2 1 b a n d
  | .badd2 b a n d => fp2 .b2 1 b a n d
  | .bmul2 b a n d => fp2 .b2 1 b a n d
  | .bfma2 b a n d => fp3 .b2 1 b a n d
  | .bmax2 b a n d => fp2 .b2 1 b a n d
  | .dadd b a n d => { fp2 .f64 2 b a n d with lat := 8, port := .half }
  | .dsub b a n d => { fp2 .f64 2 b a n d with lat := 8, port := .half }
  | .dmul b a n d => { fp2 .f64 2 b a n d with lat := 8, port := .half }
  | .dfma b a n d => { fp3 .f64 2 b a n d with lat := 8, port := .half }
  | .dmin b a n d => { fp2 .f64 2 b a n d with lat := 8, port := .half }
  | .dmax b a n d => { fp2 .f64 2 b a n d with lat := 8, port := .half }
  | .dminn b a n d => { fp2 .f64 2 b a n d with lat := 8, port := .half }
  | .dmaxn b a n d => { fp2 .f64 2 b a n d with lat := 8, port := .half }
  | .dsetp b a _ _ p => { fp2 .f64 0 b a 0 0 with pd := some p.toNat, sat := false, rm := false, lat := 8, port := .half }
  | .dclass a n d => { fp1 .f64 1 a n d with lat := 8, port := .half }
  | .dabs a n d => { fp1 .f64 2 a n d with lat := 8, port := .half }
  | .dneg a n d => { fp1 .f64 2 a n d with lat := 8, port := .half }
  | .ddiv b a n d => { fp2 .f64 2 b a n d with lat := 36, port := .fourHalf }
  | .dsqrt a n d => { fp1 .f64 2 a n d with lat := 36, port := .fourHalf }
  | .drcp a n d => { fp1 .f64 2 a n d with lat := 24, port := .fourHalf }
  | .drsq a n d => { fp1 .f64 2 a n d with lat := 24, port := .fourHalf }
  | .drnd a n d => { fp1 .f64 2 a n d with lat := 8, port := .half }
  | .dscale b a n d => { fp2 .f64 2 b a n d with b := some (b, .i32), naB := false, lat := 8, port := .half }
  | .cvtF32I32 a n d => { fp1 .i32 1 a n d with naA := false }
  | .cvtF32N32 a n d => { fp1 .i32 1 a n d with naA := false }
  | .cvtI32F32 a n d => fp1 .f32 1 a n d
  | .cvtN32F32 a n d => fp1 .f32 1 a n d
  | .cvtF64F32 a n d => fp1 .f32 2 a n d
  | .cvtF32F64 a n d => fp1 .f64 1 a n d
  | .cvtF64I64 a n d => { fp1 .i64 2 a n d with naA := false }
  | .cvtI64F64 a n d => fp1 .f64 2 a n d
  | .cvtF16F32 a n d => fp1 .f32 1 a n d
  | .cvtF32F16 a n d => { fp1 .bits 1 a n d with naA := false }
  | .cvtBf16F32 a n d => fp1 .f32 1 a n d
  | .cvtF32Bf16 a n d => { fp1 .bits 1 a n d with naA := false }
  | .cvtF8F32 a n d => fp1 .f32 1 a n d
  | .cvtF32F8 a n d => { fp1 .bits 1 a n d with naA := false }
  | .cvtE2m1F32 a n d => fp1 .f32 1 a n d
  | .cvtF32E2m1 a n d => { fp1 .bits 1 a n d with naA := false }
  | .ballot _ _ d => { grouped with dst := (d.toNat, 1) }
  | .voteAny _ _ q => { grouped with pd := some q.toNat }
  | .voteAll _ _ q => { grouped with pd := some q.toNat }
  | .voteEq _ _ q => { grouped with pd := some q.toNat }
  | .lxchAt b a d => { grouped with a := some (a, .i32), b := some (b, .i32), ext := .b, dst := (d.toNat, 1) }
  | .lxchBack b a d => { grouped with a := some (a, .i32), b := some (b, .i32), ext := .b, dst := (d.toNat, 1) }
  | .lxchFwd b a d => { grouped with a := some (a, .i32), b := some (b, .i32), ext := .b, dst := (d.toNat, 1) }
  | .lxchXor b a d => { grouped with a := some (a, .i32), b := some (b, .i32), ext := .b, dst := (d.toNat, 1) }
  | .reduxAdd a d => { grouped with a := some (a, .i32), dst := (d.toNat, 1) }
  | .reduxMin a d => { grouped with a := some (a, .i32), dst := (d.toNat, 1) }
  | .reduxMax a d => { grouped with a := some (a, .i32), dst := (d.toNat, 1) }
  | .matchAny a d => { grouped with a := some (a, .i32), dst := (d.toNat, 1) }
  | .ld o z _ _ a d => { memory a with off := o.toNat, dst := (d.toNat, sizeRegs z.toNat), fdst := 1, lat := 24, flat := 24 }
  | .st o z _ _ a d => { memory a with off := o.toNat, data := (d.toNat, sizeRegs z.toNat) }
  | .pref o _ a _ => { memory a with off := o.toNat, scope := false, cls := .lane }
  | .atom t o _ _ a d => { memory a with dst := (d.toNat, atomRet t.toNat), data := (d.toNat, atomData t.toNat o.toNat), fdata := if o = 7 then 2 else 1, lat := 24, flat := 24 }
  | .red t o _ _ a d => { memory a with data := (d.toNat, atomData t.toNat o.toNat) }
  | .fence _ _ => { ({} : Sig) with scope := true }
  | .drain _ => ({} : Sig)
  | .wbr _ a d => { memory a with data := (d.toNat, 1) }
  | .invr _ a d => { memory a with data := (d.toNat, 1) }
  | .lds z _ a d => { scratch a with dst := (d.toNat, tileRegs z.toNat), lat := 16 }
  | .sts z _ a d => { scratch a with data := (d.toNat, tileRegs z.toNat) }
  | .atoms z _ a d => { scratch a with ext := .none, third := .atoms, dst := (d.toNat, if z = 1 then 2 else 1), data := (d.toNat, if z = 1 then 2 else 1) }
  | .tinfo _ a d => { ({} : Sig) with cls := .lane, a := some (a, .i32), dst := (d.toNat, 1) }
  | .ldf z _ a d => { scratch a with dst := (d.toNat, tileRegs z.toNat), lat := 16 }
  | .lde z _ a d => { scratch a with dst := (d.toNat, tileRegs z.toNat), lat := 16 }
  | .stf z _ a d => { scratch a with data := (d.toNat, tileRegs z.toNat) }
  | .stx z _ a d => { scratch a with data := (d.toNat, tileRegs z.toNat) }
  | .talloc _ a d => { ({} : Sig) with cls := .lane, a := some (a, .i32), dst := (d.toNat, 1) }
  | .tfree _ => { ({} : Sig) with cls := .lane }
  | .feset _ a d => { scratch a with data := (d.toNat, 1) }
  | .texport _ a => { ({} : Sig) with cls := .lane, a := some (a, .i32) }
  | .br _ _ _ => { ({} : Sig) with cls := .lane, guard := false, jump := true }
  | .bruAny _ _ _ => { ({} : Sig) with guard := false, jump := true }
  | .bruAll _ _ _ => { ({} : Sig) with guard := false, jump := true }
  | .bruNone _ _ _ => { ({} : Sig) with guard := false, jump := true }
  | .bruUni _ _ _ => { ({} : Sig) with guard := false, jump := true }
  | .jmp _ => { ({} : Sig) with guard := false, jump := true }
  | .call _ => { ({} : Sig) with guard := false, jump := true }
  | .dcall a => { ({} : Sig) with guard := false, jump := true, a := some (a, .i32) }
  | .djmp a => { ({} : Sig) with guard := false, jump := true, a := some (a, .i32) }
  | .ret => { ({} : Sig) with guard := false, jump := true }
  | .exit => { ({} : Sig) with cls := .lane, guard := false }
  | .ktie _ => { ({} : Sig) with cls := .lane, guard := false }
  | .join _ => { ({} : Sig) with cls := .lane, guard := false }
  | .kreset _ => { ({} : Sig) with cls := .lane, guard := false }
  | .barSync c _ _ => { ({} : Sig) with cls := .lane, guard := false, a := some (c, .i32) }
  | .barArrive c _ _ => { ({} : Sig) with cls := .lane, guard := false, a := some (c, .i32) }
  | .barWait _ _ => { ({} : Sig) with cls := .lane, guard := false }
  | .mxacq _ => matrix
  | .mxrel _ => matrix
  | .mxzero _ => matrix
  | .mxvc a _ => { matrix with a := some (a, .i32) }
  | .mmaC8 _ _ _ => matrix
  | .mmaX8 _ _ _ => matrix
  | .mmaC16 _ _ _ => matrix
  | .mmaC16h _ _ _ => matrix
  | .mxld b _ d => { matrix with b := some (b, .i32), ext := .b, dst := (d.toNat, 1), lat := 16 }
  | .mxst b _ d => { matrix with b := some (b, .i32), ext := .b, data := (d.toNat, 1) }
  | .mxrecomb b _ _ => { matrix with b := some (b, .i32), ext := .b }
  | .mxscale a _ => { matrix with a := some (a, .f32) }
  | .sktake b a d => { ({} : Sig) with cls := .lane, a := some (a, .i32), b := some (b, .i32), ext := .b, dst := (d.toNat, 1), lat := 24 }
  | .skgive b a => { ({} : Sig) with cls := .lane, a := some (a, .i32), b := some (b, .i32), ext := .b }
  | .skreadx a d => { ({} : Sig) with cls := .lane, a := some (a, .i32), dst := (d.toNat, 2) }
  | .skinit b a => { ({} : Sig) with cls := .lane, a := some (a, .i32), b := some (b, .i32), ext := .b }
  | .prdef a d => { ({} : Sig) with cls := .lane, addr := some a, dst := (d.toNat, 1) }
  | .prdone a => { ({} : Sig) with cls := .lane, addr := some a }
  | .previct b a => { ({} : Sig) with cls := .lane, addr := some a, b := some (b, .i32), ext := .b }
  | .prq a d => { ({} : Sig) with cls := .lane, addr := some a, dst := (d.toNat, 1) }
  | .trap a => { ({} : Sig) with a := some (a, .i32) }
  | .bkpt => ({} : Sig)
  | .rett => { ({} : Sig) with guard := false, jump := true }
  | .sleep a => { ({} : Sig) with a := some (a, .i32) }
  | .csrr c d => { ({} : Sig) with dst := (d.toNat, csrRegs c.toNat), fdst := 1, flat := 2, csr := some c.toNat }
  | .csrw c a => { ({} : Sig) with a := some (a, if csrRegs c.toNat = 2 then .z64 else .i32), ext := .csr, csr := some c.toNat }
  | .flgr d => { ({} : Sig) with cls := .lane, dst := (d.toNat, 1) }
  | .flgc a => { ({} : Sig) with cls := .lane, a := some (a, .i32), ext := .a }
  | .dqpush a => { ({} : Sig) with cls := .front, a := some (a, .i64) }
  | .launch a => { ({} : Sig) with cls := .front, addr := some a }
  | .fexit => { ({} : Sig) with cls := .front }
  | .fwaitev a d => { ({} : Sig) with cls := .front, a := some (a, .i64), dst := (d.toNat, 1), fdst := 1 }
  | .tceLoad b a => engine [a, b]
  | .tceStore b a => engine [a, b]
  | .tceMcast b a => engine [a, b]
  | .tceSlice b a => engine [a, b]
  | .tceGather b a => engine [a, b]
  | .tceScatter b a => engine [a, b]
  | .tceFill b a => engine [a, b]
  | .colReduce b a => engine [a, b]
  | .colAllred b a => engine [a, b]
  | .colBcast b a => engine [a, b]
  | .colAgather b a => engine [a, b]
  | .colRscat b a => engine [a, b]
  | .colCbar a => engine [a]
  | .wrange d => { ({} : Sig) with cls := .front, dst := (d.toNat, 2), fdst := 2, flat := 2 }
  | .fetchw a => engine [a]
  | .fixup a d => { engine [a] with dst := (d.toNat, 1), flat := 2 }
  | .scret a => engine [a]
  | .powq d => { ({} : Sig) with cls := .front, dst := (d.toNat, 1), flat := 2 }
  | .extI _ => { ({} : Sig) with ring := .none }
  | .extC _ _ _ _ _ => { ({} : Sig) with ring := .none }
  | .guard _ _ => { ({} : Sig) with ring := .none, short := true }
  | .nop16 _ _ => { ({} : Sig) with ring := .none, guard := false, short := true }
  | .mov16 s d => { one .i32 1 (source16 s) 0 (reg16 d) with short := true, ext := .none }
  | .iadd16 s d => short2 .i32 s d
  | .isub16 s d => short2 .i32 s d
  | .imul16 s d => { short2 .i32 s d with lat := 6, flat := 4 }
  | .and16 s d => short2 .i32 s d
  | .or16 s d => short2 .i32 s d
  | .xor16 s d => short2 .i32 s d
  | .shl16 s d => short2 .i32 s d
  | .shr16 s d => short2 .i32 s d
  | .sar16 s d => short2 .i32 s d
  | .imin16 s d => short2 .i32 s d
  | .imax16 s d => short2 .i32 s d
  | .fadd16 s d => { short2 .f32 s d with cls := .lane }
  | .fsub16 s d => { short2 .f32 s d with cls := .lane }
  | .fmul16 s d => { short2 .f32 s d with cls := .lane }
  | .fmax16 s d => { short2 .f32 s d with cls := .lane }
  | _ => {}

/-! ## Fields of EXT.C (R57) -/

/-- A reserved scope or rounding code, or a field of EXT.C that the word cannot use, is not 0 (R57, R121, R152). The c of
an integer word that takes no third source is left to ILLPREFIX (R121). For LOGT the truth table stands in the place of na,
sat and rm. -/
def extCIllegal (q : Sig) (x : BitVec 19) : Bool :=
  let rm := field x 10 8
  let na := field x 15 12
  let scope := field x 18 16
  match q.third with
  | .table => scope ≠ 0
  | t =>
    (t = .none && field x 7 0 ≠ 0 && !(q.cls = .lf && q.ring = .pure && !q.short)) || 5 ≤ rm || 6 ≤ scope
    || (!q.naA && na % 4 ≠ 0) || (!q.naB && 4 ≤ na) || (!q.sat && bit x 11) || (!q.rm && rm ≠ 0) || (!q.scope && scope ≠ 0)

namespace Group

/-- The imm24 of EXT.I. -/
def extI (g : Group) : Option (BitVec 24) := g.exts.findSome? fun x => match x with
  | .i v => some v
  | .c _ => none

/-- The fields of EXT.C. -/
def extC (g : Group) : Option (BitVec 19) := g.exts.findSome? fun x => match x with
  | .c v => some v
  | .i _ => none

def c (g : Group) : Option (BitVec 8) := g.extC.map fun x => BitVec.ofNat 8 (field x 7 0)
def rm (g : Group) : Nat := (g.extC.map fun x => field x 10 8).getD 0
def sat (g : Group) : Bool := (g.extC.map fun x => bit x 11).getD false
def na (g : Group) : Nat := (g.extC.map fun x => field x 15 12).getD 0
def scope (g : Group) : Nat := (g.extC.map fun x => field x 18 16).getD 0
/-- The truth table of LOGT: EXT.C [23:16]. -/
def table (g : Group) : Nat := (g.extC.map fun x => field x 15 8).getD 0

end Group

/-! ## Legality and decode traps -/

/-- Whether EXT.C has a field that the word accepts (R57, R58). -/
def acceptsExtC (q : Sig) : Bool :=
  !q.short && (q.third ≠ .none || q.naA || q.naB || q.sat || q.rm || q.scope)

/-- The value of the field that EXT.I replaces (R56). -/
def replacedField (q : Sig) : Nat :=
  match q.ext with
  | .b => (q.b.map fun x => x.1.toNat).getD 0
  | .off => q.off
  | _ => (q.a.map fun x => x.1.toNat).getD 0

/-- Whether the immediate stands in a packed position, where [23:16] must be 0 (R56). -/
def packedImm (q : Sig) : Bool :=
  q.ext = .b && (match q.b with | some (_, .h2) => true | some (_, .b2) => true | _ => false)

/-- ATOMS: the op and type of EXT.C c, and the size they ask for: b32 or b64 (R58, R67). -/
def atomsBad (size : Nat) (c : BitVec 8) : Bool :=
  bit c 7 || !atomOk (field c 3 0) (field c 6 4) || size ≠ (if Sig.atomWide (field c 6 4) then 1 else 0)

/-- ILLEGAL for an EXT word before a word (R56, R57, R70). -/
def extIllegal (i : Instr) (q : Sig) : Ext → Bool
  | .c x => extCIllegal q x || (match i with
      | .atoms z _ _ _ => atomsBad z.toNat (BitVec.ofNat 8 (field x 7 0))
      | _ => false)
  | .i v => q.ext ≠ .none && !q.short && (replacedField q ≠ 0 || (packedImm q && field v 23 16 ≠ 0))

/-- A memory word of size b128, which front code has not (R36, R43). -/
def wideAccess : Instr → Bool
  | .ld _ z _ _ _ _ => z = 4
  | .st _ z _ _ _ _ => z = 4
  | .lds z _ _ _ => z = 2
  | .sts z _ _ _ => z = 2
  | .ldf z _ _ _ => z = 2
  | .lde z _ _ _ => z = 2
  | .stf z _ _ _ => z = 2
  | .stx z _ _ _ => z = 2
  | _ => false

/-- ILLEGAL (R70), for a word with its prefixes. -/
def illegal (front : Bool) (g : Group) (i : Instr) (q : Sig) : Bool :=
  g.bad || !i.wellFormed || g.exts.any (extIllegal i q)
  || (g.extC.isNone && (match q.third with | .must _ => true | .table => true | .atoms => true | _ => false))
  || (front && (q.nw || wideAccess i))

/-- ILLCLASS (R66, R70, R53). -/
def illclass (front : Bool) (q : Sig) : Bool :=
  match q.cls with
  | .lf => false
  | .front => !front
  | _ => front

/-- ILLPREFIX (R59). -/
def illprefix (g : Group) (i : Instr) (q : Sig) : Bool :=
  g.twice || (g.guard.isSome && !q.guard)
  || (g.extI.isSome && (q.ext = .none || q.short))
  || (g.extC.isSome && !acceptsExtC q)
  || (match i with | .nop16 _ _ => g.guard.isSome || g.extI.isSome || g.extC.isSome | _ => false)

/-- The registers a position takes: pairs are a lane matter (R36). -/
def posRegs (front : Bool) : Pos → Nat
  | .i64 => if front then 1 else 2
  | .f64 => if front then 1 else 2
  | .z64 => if front then 1 else 2
  | _ => 1

/-- `k` registers from r do not stand within the allocation, or are misaligned (R36). -/
def regBad (nregs r k : Nat) : Bool := k ≠ 0 && (r % k ≠ 0 || nregs < r + k)

/-- A source code that raises ILLOPND at decode (R37, R62). -/
def codeBad (front : Bool) (nregs : Nat) (latch : Bool) (x : BitVec 8 × Pos) : Bool :=
  let c := x.1.toNat
  if c < 0x40 then regBad nregs c (posRegs front x.2)
  else if c < 0x80 then false
  else if c < 0x84 then front || !latch
  else if c < 0x86 then front
  else if c < 0x88 then true
  else if c < 0x8F then front
  else 0x9E ≤ c

/-- The third source as an operand, when EXT.C supplies it. -/
def thirdOperand (q : Sig) (g : Group) : Option (BitVec 8 × Pos) :=
  match g.c, q.third with
  | some c, .oldD p => some (c, p)
  | some c, .must p => some (c, p)
  | some c, .table => some (c, .i32)
  | some c, .mask => some (c, .i32)
  | _, _ => none

/-- The source operands that the word reads as codes: EXT.I takes the place of one. -/
def operands (q : Sig) (g : Group) : List (BitVec 8 × Pos) :=
  let imm := g.extI.isSome
  let a := if imm && (q.ext = .a || q.ext = .csr || q.ext = .instead) then [] else q.a.toList
  let b := if imm && q.ext = .b then [] else q.b.toList
  a ++ b ++ (thirdOperand q g).toList

/-- The data registers that a lane word reads: ATOMS with CAS reads two values (R68). -/
def dataCount (q : Sig) (g : Group) : Nat :=
  match q.third, g.c with
  | .atoms, some c => if field c 3 0 = 7 then 2 * q.data.2 else q.data.2
  | _, _ => q.data.2

/-- The registers that the word names as plain fields: (first, count), read ones and written ones. -/
def plainReads (front : Bool) (q : Sig) (g : Group) : List (Nat × Nat) :=
  (match q.base with | some r => [(r, if front then 1 else 2)] | none => [])
  ++ (match q.addr with | some a => [(a.toNat, if front then 1 else 2)] | none => [])
  ++ (if q.data.2 = 0 then [] else [(q.data.1, if front then q.fdata else dataCount q g)])
  ++ (match q.third with
      | .oldD p => if g.c.isSome then [] else [(q.dst.1, posRegs front p)]
      | _ => [])
  ++ (if front then q.sregs.map fun r => (r, 1) else [])

def plainWrites (front : Bool) (q : Sig) : List (Nat × Nat) :=
  if q.dst.2 = 0 || q.nw then [] else [(q.dst.1, if front then q.fdst else q.dst.2)]

/-- The CSRs of lane code, and of front code (R205, R337). -/
def csrKnown (front : Bool) (c : Nat) : Bool :=
  c ≤ 7 || c = 0x18 || c = 0x19 || c = 0x30 || c = 0x40 || c = 0x48 || c = 0x49
  || (!front && ((8 ≤ c && c ≤ 10) || c = 0x10 || c = 0x11 || (0x20 ≤ c && c ≤ 0x2F)))

/-- TINFO's query must be k0 to k3 (R67). -/
def queryBad : Instr → Bool
  | .tinfo _ a _ => a.toNat < 0x40 || 0x43 < a.toNat
  | _ => false

/-- How many of a group's sources are DQ codes (R39). -/
def dqCodes (q : Sig) (g : Group) : Nat := ((operands q g).filter fun x => x.1 = 0x84 || x.1 = 0x85).length

/-- A group that is pure (R60): it reads no DQ code. -/
def pureGroup (q : Sig) (g : Group) : Bool := q.ring = .pure && dqCodes q g = 0

/-- A group that does not empty the ring: a pure one, and NOP16 (R60). -/
def keepsRing (q : Sig) (g : Group) : Bool := pureGroup q g || q.ring = .none

/-- ILLOPND found at decode (R70). -/
def illopnd (front : Bool) (nregs : Nat) (g : Group) (i : Instr) (q : Sig) : Bool :=
  (operands q g).any (codeBad front nregs (pureGroup q g))
  || (plainReads front q g).any (fun x => regBad nregs x.1 x.2)
  || (plainWrites front q).any (fun x => regBad nregs x.1 x.2)
  || (match q.addr with | some a => 0x40 ≤ a.toNat | none => false)
  || (match q.csr with | some c => !csrKnown front c | none => false)
  || queryBad i

/-- The decode trap of a group, in the order of R71 (rows 2 to 5). -/
def decodeTrap (front : Bool) (nregs : Nat) (g : Group) (i : Instr) (q : Sig) : Option (BitVec 8) :=
  if illegal front g i q then some causeIllegal
  else if illclass front q then some causeIllclass
  else if illprefix g i q then some causeIllprefix
  else if illopnd front nregs g i q then some causeIllopnd
  else none

/-- The registers that source codes name. -/
def codeReads (front : Bool) (ops : List (BitVec 8 × Pos)) : List (Nat × Nat) :=
  (ops.filter fun x => x.1 < 0x40).map fun x => (x.1.toNat, posRegs front x.2)

/-- The mask of k registers from r. -/
def regMask (x : Nat × Nat) : Quad := BitVec.ofNat 64 ((2 ^ x.2 - 1) <<< x.1)

/-- The registers that a group reads or writes (R92, R96). -/
def groupRegs (front : Bool) (q : Sig) (g : Group) : Quad :=
  (codeReads front (operands q g) ++ plainReads front q g ++ plainWrites front q).foldl (fun m x => m ||| regMask x) 0

/-- 32-bit registers read and written, for the Braid (R104). -/
def braidRegs (q : Sig) (g : Group) : Nat :=
  (codeReads false (operands q g) ++ plainReads false q g ++ plainWrites false q).foldl (fun m x => m + x.2) 0

/-- Cycles for which a group of `n` members with `c` crossed ones holds the port (R104, R105). -/
def portCycles (q : Sig) (g : Group) (n c : Nat) : Nat :=
  let braid := if q.cls = .home then 1 else max 1 (ceilDiv (c * braidRegs q g) 16)
  max braid (match q.port with
    | .one => 1
    | .half => ceilDiv n 16
    | .fourHalf => 4 * ceilDiv n 16
    | .eighth => ceilDiv n 8)

/-! ## Constants (R40) -/

/-- The integer entry k0 to k63, exact. -/
def constInt (k : Nat) : Int :=
  if k ≤ 16 then k
  else if k ≤ 31 then -((k : Int) - 16)
  else if k ≤ 58 then 2 ^ (k - 27)
  else if k = 59 then 0xFF
  else if k = 60 then 0xFFFF
  else if k = 61 then 0x0F0F0F0F
  else if k = 62 then 0x33333333
  else 0x55555555

/-- k56, k57, k58 and k59 to k63 (π, 1/π, ln 2, 1/ln 2, log2 10, √2, 1/√2, e) with 120 fraction bits. -/
def constIrrational (k : Nat) : Nat :=
  if k = 56 then 0x3243f6a8885a308d313198a2e037073
  else if k = 57 then 0x517cc1b727220a94fe13abe8fa9a6e
  else if k = 58 then 0xb17217f7d1cf79abc9e3b39803f2f6
  else if k = 59 then 0x171547652b82fe1777d0ffda0d23a7d
  else if k = 60 then 0x35269e12f346e2bf924afdbfd36bf6d
  else if k = 61 then 0x16a09e667f3bcc908b2fb1366ea957d
  else if k = 62 then 0xb504f333f9de6484597d89b3754abe
  else 0x2b7e151628aed2a6abf7158809cf4f3

/-- The divisors of k48 to k55. -/
def constDivisor (k : Nat) : Nat :=
  if k = 48 then 3 else if k = 49 then 5 else if k = 50 then 6 else if k = 51 then 7
  else if k = 52 then 9 else if k = 53 then 10 else if k = 54 then 12 else 24

/-- The floating-point entry, rounded to nearest even in a format. -/
def constFloat (f : Fmt) (k : Nat) : Nat :=
  if k ≤ 31 then (fromInt f 1 (constInt k)).val
  else if k ≤ 47 then (roundTo f 1 false 1 (-((k : Int) - 31))).val
  else if k ≤ 55 then (fdiv f 1 (fromInt f 1 1).val (fromInt f 1 (constDivisor k)).val).val
  else (roundTo f 1 false (constIrrational k) (-120)).val

/-- An inline constant in a position. `front` makes integer positions 64 bits wide. -/
def constValue (front : Bool) (p : Pos) (k : Nat) : Quad :=
  let i := constInt k
  match p with
  | .i32 => BitVec.ofInt 64 (if front then i else i % 2 ^ 32)
  | .i64 => BitVec.ofInt 64 i
  | .z64 => BitVec.ofInt 64 (i % 2 ^ 32)
  | .bits => BitVec.ofInt 64 (i % 2 ^ 32)
  | .f32 => BitVec.ofNat 64 (constFloat fp32 k)
  | .f64 => BitVec.ofNat 64 (constFloat fp64 k)
  | .h2 => BitVec.ofNat 64 (constFloat fp16 k * 0x10001)
  | .b2 => BitVec.ofNat 64 (constFloat bf16 k * 0x10001)

/-- EXT.I's value in a position (R56). DESIGN CHOICE (log 71): the bit-pattern position of FCPYS's b, for which the table
of R56 has no row, takes the immediate sign-extended to 32 bits. -/
def immValue (front : Bool) (p : Pos) (i : BitVec 24) : Quad :=
  match p with
  | .i32 => if front then i.signExtend 64 else (i.signExtend 32).zeroExtend 64
  | .i64 => i.signExtend 64
  | .z64 => (i.signExtend 32).zeroExtend 64
  | .bits => (i.signExtend 32).zeroExtend 64
  | .f32 => BitVec.ofNat 64 (i.toNat * 2 ^ 8)
  | .f64 => BitVec.ofNat 64 (i.toNat * 2 ^ 40)
  | .h2 => BitVec.ofNat 64 (field i 15 0 * 0x10001)
  | .b2 => BitVec.ofNat 64 (field i 15 0 * 0x10001)

/-! ## Registers -/

/-- A v register. -/
def Thread.reg (t : Thread) (r : Nat) : Word := t.regs.getD r 0

/-- A pair, by its even register. -/
def Thread.pair (t : Thread) (r : Nat) : Quad := (t.reg (r + 1)).append (t.reg r)

/-- Writing a v register. -/
def Thread.setReg (t : Thread) (r : Nat) (v : Word) : Thread := { t with regs := t.regs.set r v }

/-- Writing the low `32 * k` bits of a number to k registers from r. -/
def Thread.setRegs (t : Thread) : Nat → Nat → Nat → Thread
  | _, 0, _ => t
  | r, k + 1, v => Thread.setRegs (t.setReg r (BitVec.ofNat 32 v)) (r + 1) k (v / 2 ^ 32)

/-- `k` registers from r as a number. -/
def Thread.regsNum (t : Thread) : Nat → Nat → Nat
  | _, 0 => 0
  | r, k + 1 => (t.reg r).toNat + 2 ^ 32 * t.regsNum (r + 1) k

/-- A predicate of a lane thread; p7 reads 1 (R86). -/
def Thread.pred (t : Thread) (p : Nat) : Bool := p = 7 || t.preds.getLsbD p

/-- Writing a predicate; p7 ignores writes. -/
def Thread.setPred (t : Thread) (p : Nat) (v : Bool) : Thread :=
  if p = 7 then t else { t with preds := withBit t.preds p v }

/-- An s register. -/
def Front.reg (f : Front) (r : Nat) : Quad := f.regs.getD r 0

def Front.setReg (f : Front) (r : Nat) (v : Quad) : Front := { f with regs := f.regs.set r v }

/-- q0 to q7 are all ordinary (R123). -/
def Front.pred (f : Front) (q : Nat) : Bool := f.preds.getLsbD q

def Front.setPred (f : Front) (q : Nat) (v : Bool) : Front := { f with preds := withBit f.preds q v }

/-! ## Launch record fields (R414, R83) -/

namespace Launch

/-- Bytes of the record from an offset. -/
def bytes (l : Launch) (off n : Nat) : Nat := (l.record.toNat >>> (8 * off)) % 2 ^ (8 * n)

def kimg (l : Launch) : Nat := l.bytes 0x00 8
def regsPer (l : Launch) : Nat := l.bytes 0x08 1
def acct (l : Launch) : Nat := l.bytes 0x09 1
def dtlen (l : Launch) : Nat := l.bytes 0x0A 2
def scrb (l : Launch) : Nat := l.bytes 0x0C 4
def fent (l : Launch) : Nat := l.bytes 0x10 4
def lent (l : Launch) : Nat := l.bytes 0x14 4
def imglen (l : Launch) : Nat := l.bytes 0x18 4
def dtoff (l : Launch) : Nat := l.bytes 0x1C 4
def argp (l : Launch) : Nat := l.bytes 0x20 8
def nbx (l : Launch) : Nat := l.bytes 0x28 4
def nby (l : Launch) : Nat := l.bytes 0x2C 2
def nbz (l : Launch) : Nat := l.bytes 0x2E 2
def dx (l : Launch) : Nat := l.bytes 0x30 2
def dy (l : Launch) : Nat := l.bytes 0x32 2
def dz (l : Launch) : Nat := l.bytes 0x34 2
def mode (l : Launch) : Nat := l.bytes 0x38 1
def det (l : Launch) : Bool := l.bytes 0x39 1 % 2 = 1
def rmode (l : Launch) : Nat := l.bytes 0x3A 1
def ten (l : Launch) : Nat := l.bytes 0x3B 1
def ctxIdx (l : Launch) : Nat := l.bytes 0x3C 1
def stencil (l : Launch) : Nat := l.bytes 0x3E 2
def privb (l : Launch) : Nat := l.bytes 0x40 8
def privsz (l : Launch) : Nat := l.bytes 0x48 4
def blim (l : Launch) : Nat := l.bytes 0x4C 4
def wt (l : Launch) : Nat := l.bytes 0x50 8
def wipt (l : Launch) : Nat := l.bytes 0x58 4
def prio (l : Launch) : Nat := l.bytes 0x5C 1
def nstg (l : Launch) : Nat := l.bytes 0x5D 1
def cplt (l : Launch) : Nat := l.bytes 0x60 8
def stga (l : Launch) : Nat := l.bytes 0x68 8
def tag (l : Launch) : Nat := l.bytes 0x70 8

/-- %ntid (R13), and the number of blocks. -/
def ntid (l : Launch) : Nat := l.dx * l.dy * l.dz
def nblocks (l : Launch) : Nat := l.nbx * l.nby * l.nbz

end Launch

/-! ## Special values (R38, R11 to R15) -/

/-- The launch of a block. -/
def State.launchOf (s : State) (b : Block) : Launch := (tget s.launches b.launch).getD { record := 0 }

/-- Threads of a block that have not exited (R15). -/
def liveCount (b : Block) : Nat := (b.threads.filter fun p => p.2.status ≠ .exited).length

/-- A special value, for the thread `tlin` that stands in `lane`. -/
def special (s : State) (b : Block) (tlin lane : Nat) (code : Nat) : Nat :=
  let l := s.launchOf b
  let core := (b.place.map Place.core).getD 0
  match code with
  | 0x88 => tlin % l.dx
  | 0x89 => tlin / l.dx % l.dy
  | 0x8A => tlin / (l.dx * l.dy)
  | 0x8B => tlin
  | 0x8C => tlin / 32
  | 0x8D => tlin % 32
  | 0x8E => lane
  | 0x8F => b.bx
  | 0x90 => b.byy
  | 0x91 => b.bz
  | 0x92 => l.nbx
  | 0x93 => l.nby
  | 0x94 => l.nbz
  | 0x95 => l.ntid
  | 0x96 => core
  | 0x97 => core / 4
  | 0x98 => core / 40
  | 0x99 => ownDev s
  | 0x9A => (s.core core).cycle % 2 ^ 32
  | 0x9B => liveCount b
  | 0x9C => b.ctx
  | _ => s.dev.svcl

/-! ## Source values in lanes (R37 to R40, R62) -/

/-- What a source of a lane thread gives: a value, a DQ entry that is not there yet, or ILLOPND at issue. -/
inductive SrcRes where
  | val (v : Quad)
  | wait
  | bad
  deriving DecidableEq, Repr

/-- Whether a position is 64 bits wide in lanes. -/
def Pos.wide : Pos → Bool
  | .i64 => true
  | .f64 => true
  | _ => false

/-- The value of a source code for a lane thread of block `b`. -/
def laneSource (s : State) (b : Block) (tlin lane : Nat) (t : Thread) (x : BitVec 8 × Pos) : SrcRes :=
  let c := x.1.toNat
  if c < 0x40 then .val (if posRegs false x.2 = 2 then t.pair c else (t.reg c).zeroExtend 64)
  else if c < 0x80 then .val (constValue false x.2 (c - 0x40))
  else if c < 0x84 then
    (match t.ring[c - 0x80]? with
     | some e => if e.wide = x.2.wide then .val e.val else .bad
     | none => .bad)
  else if c < 0x86 then
    (if t.rp = b.front.wp then .wait else .val ((b.dq.getD (t.rp.toNat % 128) 0).zeroExtend 64))
  else .val (BitVec.ofNat 64 (special s b tlin lane c))

/-- The EXT.C sign changes on one element of a format (R57): abs, then negate. -/
def signChange (f : Fmt) (na : Nat) (x : Nat) : Nat :=
  let y := if na / 2 % 2 = 1 then f.mag x else x
  if na % 2 = 1 then flipSign f y else y

/-- The sign changes on a source in a floating-point position. -/
def applyNa (p : Pos) (na : Nat) (v : Quad) : Quad :=
  match p with
  | .f32 => BitVec.ofNat 64 (signChange fp32 na v.toNat)
  | .f64 => BitVec.ofNat 64 (signChange fp64 na v.toNat)
  | .h2 => BitVec.ofNat 64 (signChange fp16 na (v.toNat % 65536) + 65536 * signChange fp16 na (v.toNat / 65536 % 65536))
  | .b2 => BitVec.ofNat 64 (signChange bf16 na (v.toNat % 65536) + 65536 * signChange bf16 na (v.toNat / 65536 % 65536))
  | _ => v

/-- The values a, b and c of a lane thread. -/
structure Vals where
  a : Quad := 0
  b : Quad := 0
  c : Quad := 0
  deriving DecidableEq, Repr

/-- What reading the sources gives: the values, and whether the DQ pointer moves. -/
inductive ValsRes where
  | vals (v : Vals) (pop : Bool)
  | wait
  | bad
  deriving DecidableEq, Repr

/-- One source joined to the ones before it: ILLOPND wins over a wait. -/
def joinSrc (r : ValsRes) (x : SrcRes) (f : Quad → Vals → Vals) : ValsRes :=
  match r, x with
  | .bad, _ => .bad
  | _, .bad => .bad
  | .wait, _ => .wait
  | _, .wait => .wait
  | .vals v p, .val w => .vals (f w v) p

/-- The a, b and c of a group for a lane thread. -/
def laneVals (s : State) (b : Block) (tlin lane : Nat) (t : Thread) (q : Sig) (g : Group) : ValsRes :=
  let src := laneSource s b tlin lane t
  let imm := fun (p : Pos) => SrcRes.val (immValue false p (g.extI.getD 0))
  let hasI := g.extI.isSome
  let a := match q.a with
    | some x => if hasI && (q.ext = .a || q.ext = .csr || q.ext = .instead) then imm x.2 else src x
    | none => .val 0
  let bb := match q.b with
    | some x => if hasI && q.ext = .b then imm x.2 else src x
    | none => .val 0
  let c := match thirdOperand q g, q.third with
    | some x, .mask => if x.1 = 0x84 || x.1 = 0x85 then .val 0 else src x
    | some x, _ => src x
    | none, .oldD p => .val (if posRegs false p = 2 then t.pair q.dst.1 else (t.reg q.dst.1).zeroExtend 64)
    | none, _ => .val 0
  let ap := (q.a.map Prod.snd).getD .i32
  let bp := (q.b.map Prod.snd).getD .i32
  let pop := (operands q g).any fun x => x.1 = 0x84 && !(q.third = .mask && some x.1 = g.c)
  let r0 : ValsRes := if 2 ≤ dqCodes q g then .bad else .vals {} pop
  let r1 := joinSrc r0 a fun w v => { v with a := applyNa ap (if q.naA then g.na % 4 else 0) w }
  let r2 := joinSrc r1 bb fun w v => { v with b := applyNa bp (if q.naB then g.na / 4 else 0) w }
  joinSrc r2 c fun w v => { v with c := w }

/-! ## Source values on the front thread -/

/-- The value of a source code for a front thread. -/
def frontSource (s : State) (b : Block) (x : BitVec 8 × Pos) : Quad :=
  let c := x.1.toNat
  if c < 0x40 then b.front.reg c
  else if c < 0x80 then constValue true x.2 (c - 0x40)
  else BitVec.ofNat 64 (special s b 0 0 c)

/-- The a, b and c of a group for a front thread. -/
def frontVals (s : State) (b : Block) (q : Sig) (g : Group) : Vals :=
  let hasI := g.extI.isSome
  let imm := fun (p : Pos) => immValue true p (g.extI.getD 0)
  { a := match q.a with
      | some x => if hasI && (q.ext = .a || q.ext = .csr || q.ext = .instead) then imm x.2 else frontSource s b x
      | none => 0
    b := match q.b with
      | some x => if hasI && q.ext = .b then imm x.2 else frontSource s b x
      | none => 0
    c := match thirdOperand q g, q.third with
      | some x, _ => frontSource s b x
      | none, .oldD _ => b.front.reg q.dst.1
      | none, _ => 0 }

end Sys2Proof.Machine
end

