-- ==== Sys2Proof/Machine/Flags.lean ====
section
/-! DEFINITION. The floating-point state of a thread and the FPE rule (R143 to R147, R151, R152). -/

namespace Sys2Proof.Machine

/-- The rounding mode of a group: the EXT.C override, else FCTL.RM (R147). -/
def modeOf (t : Thread) (g : Group) : RMode := if g.rm = 0 then field t.fctl 2 0 else g.rm

/-- F8FMT and F8SAT (R145). -/
def Thread.e5m2 (t : Thread) : Bool := bit t.fctl 3
def Thread.f8sat (t : Thread) : Bool := bit t.fctl 4

/-- A write to FCTL (R145): RM keeps its value for 0 and 5 to 7. -/
def fctlWrite (old : BitVec 5) (v : Word) : BitVec 5 :=
  let rm := field v 2 0
  BitVec.ofNat 5 (field v 4 3 * 8 + (if rm = 0 || 5 ≤ rm then field old 2 0 else rm))

/-- FLG gains the flags raised; they are sticky (R143). -/
def Thread.raise (t : Thread) (f : BitVec 5) : Thread := { t with flg := t.flg ||| f }

/-- Whether a result is an FPE trap under TRAPEN (R151). -/
def fpeTraps (t : Thread) (r : FRes) : Bool :=
  (r.snan && bit t.trapen 5) || (r.flags &&& t.trapen.truncate 5) ≠ 0

/-- DETAIL of an FPE trap (R209): the signalling bit and the whole set of flags. -/
def fpeDetail (r : FRes) : Nat := r.flags.toNat + 32 * boolBit r.snan

/-- The result with sat applied: after rounding, adding no flag (R152). -/
def withSat (f : Fmt) (on : Bool) (r : FRes) : FRes := if on then { r with val := saturate f r.val } else r

/-- Two elements of a packed result (R151): the union of their flags. -/
def packed (lo hi : FRes) : FRes :=
  { val := lo.val + 65536 * hi.val, flags := lo.flags ||| hi.flags, snan := lo.snan || hi.snan }

end Sys2Proof.Machine
end

