-- ==== Sys2Proof/Machine/Ops.lean ====
section
/-! DEFINITION. The shared operations on blocks, threads and warps; taking a trap (R200, R337), its fatal case
(R202, R430), the end of a dyer by a fault (R314) and the return from a handler (R201). -/

namespace Sys2Proof.Machine

/-! ## Blocks and threads -/

def State.block (s : State) (k : Nat) : Option Block := tget s.blocks k

def State.setBlock (s : State) (k : Nat) (b : Block) : State := { s with blocks := tset s.blocks k b }

def State.modBlock (s : State) (k : Nat) (f : Block → Block) : State := { s with blocks := tmod s.blocks k f }

def Block.thread (b : Block) (t : Nat) : Option Thread := tget b.threads t

def Block.modThread (b : Block) (t : Nat) (f : Thread → Thread) : Block := { b with threads := tmod b.threads t f }

def State.modThread (s : State) (k t : Nat) (f : Thread → Thread) : State := s.modBlock k fun b => b.modThread t f

def State.modFront (s : State) (k : Nat) (f : Front → Front) : State :=
  s.modBlock k fun b => { b with front := f b.front }

def State.modLaunch (s : State) (k : Nat) (f : Launch → Launch) : State := { s with launches := tmod s.launches k f }

def State.modCtx (s : State) (k : Nat) (f : Ctx → Ctx) : State := { s with ctxs := tmod s.ctxs k f }

/-- The context of a block. -/
def State.ctxOf (s : State) (b : Block) : Ctx := (tget s.ctxs b.ctx).getD {}

/-- A quadrant of a core, and a change to it. -/
def Core.quad (c : Core) (q : Nat) : Quadrant := (tget c.quads q).getD {}

def Core.modQuad (c : Core) (q : Nat) (f : Quadrant → Quadrant) : Core := { c with quads := tset c.quads q (f (c.quad q)) }

def State.modQuad (s : State) (c q : Nat) (f : Quadrant → Quadrant) : State := s.modCore c fun k => k.modQuad q f

/-- The fields of a shape word (R224). -/
def shapeRows (w : Word) : Nat := field w 12 0 + 1
def shapeCols (w : Word) : Nat := field w 25 13 + 1
def shapeEb (w : Word) : Nat := 2 ^ field w 27 26

/-- The byte size TB of a shape. -/
def shapeBytes (w : Word) : Nat := shapeRows w * shapeCols w * shapeEb w

/-- Whether a shape is of level AC. -/
def shapeAc (w : Word) : Bool := bit w 31

/-- A thread becomes READY at a pc, with age 0 and an empty ring (R96, R110). -/
def Thread.ready (t : Thread) (pc : Pc) : Thread :=
  { t with status := .ready, pc := pc, age := 0, ring := [] }

/-- A thread leaves its warp as WAITING at a pc. -/
def Thread.waitAt (t : Thread) (pc : Pc) (w : Wait) : Thread :=
  { t with status := .waiting w, pc := pc, age := 0, ring := [] }

/-- Whether a status means that the thread runs in a warp. -/
def Status.isActive : Status → Bool
  | .active _ _ => true
  | _ => false

/-- The chain head of a ring that holds a suppressed result (R64): the group of the oldest entry of a pure instruction. -/
def chainHead (ring : List RingEntry) : Option Pc :=
  if ring.any RingEntry.nw then (ring.reverse.find? RingEntry.pure).map RingEntry.grp else none

/-- Shifting a result into l0 (R60). -/
def Thread.shift (t : Thread) (e : RingEntry) : Thread := { t with ring := (e :: t.ring).take 4 }

/-- Pending bits cleared; a thread that waited for them and has none left becomes READY (R96). -/
def Thread.arrive (t : Thread) (mask : Quad) : Thread :=
  let p := t.pending &&& ~~~mask
  let t := { t with pending := p }
  match t.status with
  | .waiting (.regs m) => if p &&& m = 0 then { t with status := .ready, age := 0 } else t
  | _ => t

/-- The mask of a destination. -/
def Dest.mask (d : Dest) : Quad := regMask (d.reg, d.count)

/-- A returning value reaches its registers, wherever the block is (R222, R424); an exited thread's is discarded
(R180). -/
def State.deliver (s : State) (blk : Nat) (who : Option Nat) (d : Dest) (v : Nat) : State :=
  match who with
  | some t => s.modThread blk t fun th =>
      if th.status = .exited then th else (th.setRegs d.reg d.count v).arrive d.mask
  | none => s.modFront blk fun f => { f.setReg d.reg (BitVec.ofNat 64 v) with status := if f.status = .done then .done else .run }

/-- A warp without some of its members; an empty slot is freed (R97). -/
def Quadrant.dropMembers (q : Quadrant) (slot : Nat) (out : Nat → Bool) : Quadrant :=
  match tget q.slots slot with
  | none => q
  | some w =>
    let m := w.members.filter fun p => !out p.1
    { q with slots := if m.isEmpty then tdel q.slots slot else tset q.slots slot { w with members := m } }

/-- A thread leaves the warp it stands in, if any. -/
def State.leaveWarp (s : State) (blk tlin : Nat) : State :=
  match s.block blk with
  | none => s
  | some b =>
    match b.place, (b.thread tlin).map Thread.status with
    | some p, some (.active slot _) => s.modQuad p.core p.quad fun q => q.dropMembers slot (· = tlin)
    | _, _ => s

/-! ## Trap registers (R205 to R208) -/

/-- TINFO (R207). -/
def tinfoWord (count rtlin detail : Nat) : Word :=
  BitVec.ofNat 32 (count % 64 * 2 ^ 26 + rtlin % 1024 * 2 ^ 16 + detail % 2 ^ 16)

/-- TLIST0 to TLIST15 (R208): two tlins to a register. -/
def tlistWords : Nat → List Nat → List Word
  | 0, _ => []
  | n + 1, ts =>
    let w := match ts with
      | [] => 0
      | [a] => 2 ^ 15 + a % 1024
      | a :: b :: _ => 2 ^ 31 + b % 1024 * 2 ^ 16 + 2 ^ 15 + a % 1024
    BitVec.ofNat 32 w :: tlistWords n (ts.drop 2)

/-- One thread's trap within a collection: its own cause, TPC, TADDR and DETAIL, and for a trap that is taken later
than its access the address where the thread stood (R312, R444). -/
structure TrapReq where
  tlin   : Nat
  cause  : BitVec 8
  tpc    : Pc
  taddr  : Quad
  detail : Nat
  resume : Option Pc := none
  deriving DecidableEq, Repr

/-- The trap registers after a trap (R200). -/
def trapRegs (old : TrapRegs) (r : TrapReq) (info : Word) (list : List Word) (chain : Option Pc) : TrapRegs :=
  { tcause := r.cause.zeroExtend 32, tpc := r.tpc.zeroExtend 64, taddr := r.taddr, tinfo := info,
    tstat := if chain.isSome then 3 else 1,
    tchain := (chain.map fun p => p.zeroExtend 64).getD old.tchain, tlist := list }

/-- TSTAT.IH (R206). -/
def TrapRegs.inHandler (t : TrapRegs) : Bool := bit t.tstat 0

/-- A thread enters its handler (R200): READY at TVEC, its ring gone. An entry that it popped as the mask of the group at
which it stands is not gone (R113). -/
def Thread.enterTrap (t : Thread) (tvec : Quad) (r : TrapReq) (info : Word) (list : List Word) : Thread :=
  let chain := match r.resume with
    | some p => some ((chainHead t.ring).getD p)
    | none => chainHead t.ring
  { t.ready (tvec.truncate 57) with
    trap := trapRegs t.trap r info list chain, mask := none, late := none
    rp := if t.mask.isSome && t.popped then t.rp - 1 else t.rp }

/-! ## Stopping a context (R202, R429, R430) -/

/-- The fields of a completion record (R429). -/
structure Report where
  done   : Nat
  fcause : Nat := 0
  rtlin  : Nat := 0
  tinfo  : Nat := 0
  tpc    : Nat := 0
  taddr  : Nat := 0
  bx     : Nat := 0
  byy    : Nat := 0
  bz     : Nat := 0
  tlist  : List Word := []

/-- Words as one number, the first lowest. -/
def wordsNum : List Word → Nat
  | [] => 0
  | w :: ws => w.toNat + 2 ^ 32 * wordsNum ws

/-- The 128 bytes of a completion record. -/
def Report.record (r : Report) (l : Launch) : BitVec 1024 :=
  BitVec.ofNat 1024 <|
    r.done + l.ret.toNat <<< 32 + l.tag <<< 64 + l.dconf.toNat <<< 128 + l.dcaddr.toNat <<< 192
    + r.fcause <<< 256 + r.rtlin <<< 272 + r.tinfo <<< 288 + r.tpc <<< 320 + r.taddr <<< 384
    + r.bx <<< 448 + r.byy <<< 480 + r.bz <<< 496 + wordsNum r.tlist <<< 512

/-- Bytes of a line at its home become dirty there (R281). -/
def dirtyHome (s : State) (line : Nat) (mask : BitVec 128) : State := modLine s line fun h => { h with dirty := h.dirty ||| mask }

/-- Bytes that reach a line's home merge there (R283, R284); a line that is written whole loses its poison (R286). -/
def mergeHome (s : State) (line : Nat) (mask : BitVec 128) (data : BitVec 1024) : State :=
  dirtyHome { s with
    mem := s.mem.setMasked (128 * line) 128 mask.toNat data.toNat
    poison := if mask = BitVec.allOnes 128 then s.poison.filter (· ≠ line) else s.poison } line mask

/-- The dirty bytes of a directory-tracked copy, those staged left out, merge at the home (R283, R295). -/
def mergeCopy (s : State) (c : Core) (line : Nat) : State :=
  match tget c.l1 line with
  | some l => if l.coh = 1 then s else mergeHome s line (l.dirty &&& ~~~l.staged) l.data
  | none => s

/-- Removing every copy that the cores and proxies hold of a line, as a home does before it performs a write of its
own: dirty bytes that are not staged go home first (R283, R289). -/
def dropCopies (s : State) (line : Nat) : State :=
  let s := s.cores.foldl (fun s p => mergeCopy s p.2 line) s
  { s with
    cores := tmap (fun _ c =>
      match tget c.l1 line with
      | some l => if l.coh ≠ 1 then { c with l1 := tdel c.l1 line } else c
      | none => c) s.cores
    clusters := tmap (fun _ ls => ls.filter (· ≠ line)) s.clusters
    proxies := s.proxies.filter fun p => p.1 % 2 ^ 45 ≠ line
    home := tmod s.home line fun h => { h with dir := .invalid, sharers := 0, dies := 0, devs := [] }
    net := s.net.map fun m => match m with
      | .fill c l coh d p => if l = line && coh ≠ 1 then .readShared c l coh else .fill c l coh d p
      | .grant c l => if l = line then .ownership c l else .grant c l
      | m => m }

/-- The bytes of an access within its line. -/
def Acc.off (a : Acc) : Nat := a.pa % 128
def Acc.line (a : Acc) : Nat := lineOf a.pa
def Acc.mask (a : Acc) : BitVec 128 := byteMask a.off a.size

/-- Copies and ordered reads of COH 01 lines on their way to a core are asked for again, behind what it has written back, so
that it never reads a value older than one it has read (R253), nor one older than its last acquire or INVR (R235, R264). -/
def refill (s : State) (core : Nat) (p : Nat → Bool) : State :=
  let ask := fun (m : Msg) => match m with
    | .readShared c l coh => if c = core && p l && coh = 1 then some m else none
    | .fill c l coh _ _ => if c = core && p l && coh = 1 then some (.readShared c l coh) else none
    | .readHome c a => if c = core && p a.line && a.coh = 1 then some m else none
    | _ => none
  { s with net := (s.net.filter fun m => (ask m).isNone) ++ s.net.filterMap ask }

/-- The device has written a line: a host line that it does not own has gone to the host over the link, and no copy of it stays
(R284, R462). -/
def ownHost (s : State) (line : Nat) : State :=
  match region s (128 * line) with
  | .host =>
    if s.dev.hostOwned.contains line then s
    else { s with home := tdel s.home line, dev := { s.dev with hostShared := s.dev.hostShared.filter (· ≠ line) } }
  | _ => s

/-- Writing bytes at their homes (R252, R271): every other copy of the lines goes first; bytes of a host line that the device
does not own go to the host (R284). -/
def homeWrite (s : State) (pa : Nat) (bs : List Byte) : State :=
  let s := dropCopies s (lineOf pa)
  let s := if lineOf (pa + bs.length - 1) = lineOf pa then s else dropCopies s (lineOf (pa + bs.length - 1))
  let s := dirtyHome (dirtyHome s (lineOf pa) (byteMask (pa % 128) bs.length)) (lineOf pa + 1)
    (byteMask 0 (pa % 128 + bs.length - 128))
  let s := { s with mem := s.mem.setBytes pa bs
                    poison := if pa % 128 = 0 && 128 ≤ bs.length then s.poison.filter (· ≠ lineOf pa) else s.poison }
  ownHost (if lineOf (pa + bs.length - 1) = lineOf pa then s else ownHost s (lineOf pa + 1)) (lineOf pa)

/-- Recording a recoverable fault (R440): it joins an outstanding record of the same context, 64 KiB page and kind,
or makes a new one, whose record waits to be written. -/
def recordFault (s : State) (ctx va kind cause level : Nat) (j : Joined) : State :=
  if s.frecs.any fun f => f.ctx = ctx && f.va / 65536 = va / 65536 && f.kind.toNat = kind then
    { s with frecs := s.frecs.map fun f =>
        if f.ctx = ctx && f.va / 65536 = va / 65536 && f.kind.toNat = kind && !f.joined.contains j
        then { f with joined := f.joined ++ [j] } else f }
  else
    { s with frecs := s.frecs ++ [{ seq := 0, ctx := ctx, va := va, kind := BitVec.ofNat 4 kind, cause := cause,
                                    level := level, posted := none, joined := [j] }] }

/-- Whether the fault queue is full (R463). -/
def queueFull (d : Dev) : Bool := d.fqtail - d.fqhead = d.fqsize

/-- The 32 bytes of a fault record (R440). -/
def faultRecord (f : FaultRec) (seq : Nat) : Nat :=
  f.va + f.ctx <<< 64 + f.kind.toNat <<< 72 + f.level <<< 80 + f.cause <<< 88 + seq <<< 96

/-- The physical address of a host address (R21). -/
def hostPa (a : Nat) : Nat := 2 ^ 51 + a % 2 ^ 51

/-- Writing the waiting records while the queue in host memory has room (R440, R463): each gets its SEQ, and vector 0 is
raised. -/
def postFaults : Nat → State → State
  | 0, s => s
  | n + 1, s =>
    match s.frecs.find? fun f => f.posted.isNone with
    | none => s
    | some f =>
      if queueFull s.dev then s
      else
        let c := s.dev.fqtail.toNat
        let pa := hostPa (s.dev.fqbase.toNat + 32 * (c % s.dev.fqsize.toNat))
        let upd := s.frecs.map fun g =>
          if g = f then { g with seq := c, posted := some s.now } else g
        postFaults n { s with
          mem := s.mem.setNum pa 32 (faultRecord f c)
          frecs := upd
          dev := { s.dev with fqtail := s.dev.fqtail + 1, msix := s.dev.msix ++ [0] } }

/-- A recoverable fault is recorded and, where the queue has room, posted. -/
def raiseFault (s : State) (ctx va kind cause level : Nat) (j : Joined) : State :=
  let s := recordFault s ctx va kind cause level j
  postFaults (s.frecs.length) s

/-- Bytes of a bit vector from its low end. -/
def bytesOf {n : Nat} (k : Nat) (v : BitVec n) : List Byte := leBytes k v.toNat

/-- Writing a completion record at CPLT in the launch's context (R429): a recoverable fault waits for the host, and an
unrecoverable one leaves it unwritten. -/
def writeCompletion (s : State) (k : Nat) : State :=
  match tget s.launches k with
  | none => s
  | some l =>
    if l.cplt = 0 || l.dyer.isSome then s
    else match translate s l.ctxIdx .write l.cplt with
      | .ok pa _ => homeWrite s pa (bytesOf 128 l.result)
      | .fault cause level => raiseFault s l.ctxIdx l.cplt 10 cause level (.completion k)
      | _ => s

/-- The bytes of a line that staged stores cover. -/
def stageMask (line : Nat) (ws : List Staged) : BitVec 128 :=
  ws.foldl (fun m w => match w.op with
    | .store bs => (List.range 128).foldl (fun m i =>
        if w.pa ≤ 128 * line + i && 128 * line + i < w.pa + bs.length then withBit m i true else m) m
    | .reduce _ _ _ => m) 0

/-- Staged writes that will never be released leave the L1 copies that show them, but for bytes that another stage holds
(log 84). -/
def unstage (s : State) (ws : List Staged) (others : List Staged) : State :=
  if ws.isEmpty then s
  else { s with cores := tmap (fun _ c => { c with l1 := tmap (fun line (l : L1Line) =>
      let gone := l.staged &&& stageMask line ws &&& ~~~stageMask line others
      { l with valid := l.valid &&& ~~~gone, staged := l.staged &&& ~~~gone }) c.l1 }) s.cores }

/-- A launch ends (R429); what its Belay units still held of it is freed. -/
def finishLaunch (s : State) (k : Nat) (r : Report) : State :=
  let kept := ((tget s.launches k).map Launch.kept).getD []
  let s := unstage s (kept.flatMap Prod.snd) (s.blocks.flatMap fun p => p.2.stage)
  writeCompletion (s.modLaunch k fun l => { l with done := r.done, result := r.record l, kept := [] }) k

/-- A block's warps leave the quadrant it stands in. -/
def dropWarps (s : State) (blk : Nat) : State :=
  match (s.block blk).bind Block.place with
  | none => s
  | some p => s.modQuad p.core p.quad fun q => { q with slots := q.slots.filter fun x => x.2.blk ≠ blk }

/-- Whether a core still runs a command of a block. -/
def hasCommands (s : State) (blk : Nat) : Bool := s.cores.any fun c => c.2.cmds.any fun k => k.blk = blk

/-- A block gives its slot, tiles and exports back (R225, R244, R343). -/
def releaseBlock (s : State) (blk : Nat) : State :=
  let s := dropWarps s blk
  let s := { s with cores := tmap (fun _ c => { c with exports := c.exports.filter fun e => e.2.1 ≠ blk }) s.cores }
  s.modBlock blk fun b => { b with place := none, tiles := [], knots := [], bars := [], cols := [] }

/-- Whether a block has been stopped (R314, R430). -/
def State.isStopped (s : State) (blk : Nat) : Bool := (s.block blk).any fun b => b.state = .stopped

/-- Whether a joined access is one of a block. -/
def Joined.ofBlock (blk : Nat) : Joined → Bool
  | .acc _ _ a => a.blk = blk
  | .fetch b _ _ _ => b = blk
  | _ => false

/-- The accesses of a block that have not been sent, or that wait at a procedural block, leave the core, its operand log and the
fault records (log 28). -/
def dropAccesses (s : State) (blk : Nat) : State :=
  { s with
    cores := tmap (fun _ c => { c with
      pend := c.pend.filter fun a => a.blk ≠ blk || (a.sent && (a.pass || !a.asked))
      aged := c.aged.filter fun w => w.acc.blk ≠ blk
      quads := tmap (fun _ q => { q with log := q.log.filter fun a => a.blk ≠ blk }) c.quads }) s.cores
    walks := s.walks.filter fun w => w.acc.blk ≠ blk
    peers := s.peers.filter fun r => r.blk ≠ blk
    frecs := s.frecs.map fun f => { f with joined := f.joined.filter fun j => !j.ofBlock blk } }

/-- A block stops without retiring (R430, R314): its stage and its save area are freed, and it keeps its place while one of
its commands runs. -/
def stopBlock (s : State) (blk : Nat) : State :=
  let ws := ((s.block blk).map Block.stage).getD []
  let s := dropAccesses (unstage s ws ((s.blocks.filter fun p => p.1 ≠ blk).flatMap fun p => p.2.stage)) blk
  let s := dropWarps (s.modBlock blk fun b => { b with state := .stopped, stage := [], saved := 0, cols := [] }) blk
  if hasCommands s blk then s else releaseBlock s blk

/-- A fatal fault stops every block of the context (R202, R430). -/
def fatalStop (s : State) (ctx : Nat) (launch : Nat) (r : Report) : State :=
  let s := s.modCtx ctx fun c => { c with stopped := true }
  let live := s.blocks.filter fun p => p.2.ctx = ctx && (p.2.state = .resident || p.2.state = .swapped)
  let s := live.foldl (fun s p => stopBlock s p.1) s
  let ls := s.launches.filter fun p => p.2.ctxIdx = ctx && p.2.done = 0
  ls.foldl (fun s p => finishLaunch s p.1 (if p.1 = launch then r else { done := 3 })) s

/-- The report of a trap that is fatal. -/
def trapReport (b : Block) (r : TrapReq) (info : Word) (list : List Word) (rtlin : Nat) : Report :=
  { done := 3, fcause := r.cause.toNat, rtlin := rtlin, tinfo := info.toNat, tpc := r.tpc.toNat,
    taddr := r.taddr.toNat, bx := b.bx, byy := b.byy, bz := b.bz, tlist := list }

/-- A collection of lane traps in a block that is no dyer's (R113, R114, R200). `count` is the COUNT field. -/
def ordinaryTraps (s : State) (blk : Nat) (b : Block) (count : Nat) (rs : List TrapReq) : State :=
  match rs with
  | [] => s
  | r0 :: _ =>
    let list := tlistWords 16 ((rs.map TrapReq.tlin).take 32)
    let info := fun (r : TrapReq) => tinfoWord count r0.tlin r.detail
    let tvec := (s.ctxOf b).tvec
    let ih := rs.any fun r => ((b.thread r.tlin).map fun t => t.trap.inHandler).getD false
    if tvec = 0 || ih then fatalStop s b.ctx b.launch (trapReport b r0 (info r0) list r0.tlin)
    else rs.foldl (fun s r =>
      (s.leaveWarp blk r.tlin).modThread blk r.tlin fun t => t.enterTrap tvec r (info r) list) s

/-- A front trap in a block that is no dyer's (R337). -/
def ordinaryFrontTrap (s : State) (blk : Nat) (b : Block) (r : TrapReq) : State :=
  let info := tinfoWord 1 0 r.detail
  let ftvec := (s.ctxOf b).ftvec
  if ftvec = 0 || b.front.trap.inHandler then
    fatalStop s b.ctx b.launch (trapReport b r info [] 0xFFFF)
  else
    s.modFront blk fun f =>
      { f with trap := { trapRegs f.trap r info [] none with tchain := 0 }, pc := ftvec.truncate 57, status := .run,
               late := none, latched := none, mark := none }

/-! ## A waiter that a poisoned fill fails (R312), and a dyer that a fault ends (R314) -/

/-- Where a front thread's poisoned access traps: a load at its own group, a store at the next (R312). -/
def AccKind.returns : AccKind → Bool
  | .load => true
  | .atomic _ _ => true
  | .pop => true
  | .prdef => true
  | .record => true
  | .desc => true
  | _ => false

/-- A trap taken later than its access (R312, R444): at once where the thread stands in the pool, else before its next
issue. Its pending bits clear and the destination keeps its value. -/
def lateTrap (s : State) (blk : Nat) (who : Option Nat) (dest : Option Dest) (l : LateTrap) : State :=
  match s.block blk, who with
  | some b, some tlin =>
    (match b.thread tlin with
     | none => s
     | some t =>
       if t.status = .exited then s
       else
         let s := s.modThread blk tlin fun t =>
           { t with pending := t.pending &&& ~~~((dest.map Dest.mask).getD 0) }
         if t.status.isActive || b.place.isNone then s.modThread blk tlin fun t => { t with late := some l }
         else ordinaryTraps s blk b 1 [⟨tlin, l.cause, l.tpc, l.taddr, l.detail.toNat, some t.pc⟩])
  | some b, none =>
    if b.front.status = .done then s
    else if dest.isSome then
      ordinaryFrontTrap s blk b { tlin := 0, cause := l.cause, tpc := l.tpc, taddr := l.taddr, detail := l.detail.toNat }
    else s.modFront blk fun f => { f with late := some l }
  | none, _ => s

/-- Changing one block of a procedural range. -/
def modFill (s : State) (ctx rid base : Nat) (f : FillBlock → FillBlock) : State :=
  s.modCtx ctx fun c => { c with ranges := tmod c.ranges rid fun r =>
    { r with blocks := tset r.blocks base (f ((tget r.blocks base).getD {})) } }

/-- One block of a procedural range. -/
def getFill (s : State) (ctx rid base : Nat) : FillBlock :=
  (((tget s.ctxs ctx).bind fun c => tget c.ranges rid).bind fun r => tget r.blocks base).getD {}

/-- The procedural range of a context that holds an address: its id, and the base of its block (R308). -/
def rangeOf (s : State) (ctx va : Nat) : Option (Nat × Nat) :=
  match tget s.ctxs ctx with
  | none => none
  | some c =>
    (c.ranges.find? fun r => r.2.base ≤ va && va < r.2.base + r.2.size).map fun r =>
      (r.1, va - va % 2 ^ r.2.blksh)

/-- A command leaves every Lashing table that holds an entry of it (R26, R364). -/
def dropCommand (s : State) (id : Nat) : State :=
  { s with cores := tmap (fun _ c => { c with cmds := c.cmds.filter fun x => x.id ≠ id }) s.cores }

/-- A fault of a path is recorded unless an earlier one of that path is still held (R371, R413). -/
def noteFault (s : State) (blk path : Nat) (cause : BitVec 8) (taddr : Quad) (detail : Nat) : State :=
  let s := s.modBlock blk fun b =>
    if b.faults.any fun f => f.path = path then b
    else { b with faults := b.faults ++ [⟨path, cause, taddr, BitVec.ofNat 16 detail, s.nextAcc, decide (b.front.status = .done)⟩] }
  { s with nextAcc := s.nextAcc + 1 }

/-- A command ends with a fault of its block (R371). -/
def failCommand (s : State) (core id : Nat) (cause : BitVec 8) (taddr : Quad) (detail : Nat) : State :=
  match (s.core core).cmds.find? fun c => c.id = id with
  | none => s
  | some c => noteFault (dropCommand s id) c.blk c.path cause taddr detail

/-- The block of a launch with an index. -/
def blockOf (s : State) (k b : Nat) : Option (Nat × Block) := s.blocks.find? fun p => p.2.launch = k && p.2.b = b

/-- What a block's stage still holds: its own, or what was kept when it retired (R291). -/
def stageOf (s : State) (k b : Nat) : List Staged :=
  (((tget s.launches k).map Launch.kept).bind fun t => tget t b).getD (((blockOf s k b).map fun p => p.2.stage).getD [])

/-- A write leaves its block's stage. -/
def dropStaged (s : State) (k b seq : Nat) : State :=
  let keep := fun (l : List Staged) => l.filter fun w => w.seq ≠ seq
  { s with blocks := tmap (fun _ (x : Block) => if x.launch = k && x.b = b then { x with stage := keep x.stage } else x) s.blocks
           launches := tmod s.launches k fun l => { l with kept := tmod l.kept b keep } }

/-- A released write that cannot be performed: its bytes leave the copies that show them, and its thread traps (R286, R312). -/
def failStaged (s : State) (k b : Nat) (w : Staged) (dest : Option Dest) (cause : BitVec 8) (detail : Nat) : State :=
  let s := unstage (dropStaged s k b w.seq) [w] (s.blocks.flatMap fun p => p.2.stage.filter (· ≠ w))
  match blockOf s k b, w.by_ with
  | some (blk, _), some (who, grp) =>
    lateTrap s blk who dest { cause := cause, tpc := grp, taddr := w.va, detail := BitVec.ofNat 16 detail }
  | _, _ => s

/-- A waiter that a poisoned block fails (R312): a command records the fault, an access traps, and a dyer's own block is
poisoned in turn by `poison`, unless it is FILLED already. One of a stopped block ends. -/
def failWaiter (poison : State → Dyer → State) (s : State) (sub : Nat) (w : Waiter) : State :=
  match w with
  | .cmd core id va => failCommand s core id causePrfill (BitVec.ofNat 64 va) sub
  | .staged k b seq => (match (stageOf s k b).find? fun w => w.seq = seq with
      | some w => failStaged s k b w none causePrfill sub
      | none => s)
  | .acc core a =>
    let s := s.modCore core fun k => { k with pend := k.pend.filter fun x => x.id ≠ a.id }
    if s.isStopped a.blk then s
    else match (s.block a.blk).bind Block.dyer with
    | some d => if d.filled then finishLaunch (stopBlock s a.blk) (((s.block a.blk).map Block.launch).getD 0) { done := 3 } else poison s d
    | none =>
      lateTrap s a.blk a.who (if a.kind.returns then some (a.dest.getD { reg := 0, count := 0 }) else none)
        { cause := causePrfill, tpc := a.grp, taddr := a.va, detail := BitVec.ofNat 16 sub }

/-- The acknowledgement that a write-back asks for. -/
def backAck (core : Nat) (who : Option (Nat × Option Nat)) : List Msg :=
  match who with
  | some (blk, t) => [.ack core none blk t]
  | none => []

/-- A read of a line that its home has performed, and that has not reached its core, keeps its value, which goes to the accesses
that wait for it without entering the L1 (R319); dirty bytes on their way home are discarded (R316). -/
def keptValues (s : State) (inside : Nat → Bool) (m : Msg) : List Msg :=
  match m with
  | .fill c l coh d p =>
    if inside l then
      ((s.core c).pend.filter fun a => a.sent && a.pass && lineOf a.pa = l && a.kind.returns && a.size ≤ 128 && (match a.kind with
        | .atomic _ _ => false
        | _ => true)).map fun a =>
          .value c a (BitVec.ofNat 1024 (d.toNat >>> (8 * (a.pa % 128)) % 2 ^ (8 * a.size))) p
    else [.fill c l coh d p]
  | .writeback c l _ _ who _ => if inside l then backAck c who else [m]
  | .rest c l _ _ who _ => if inside l then backAck c who else [m]
  | m => [m]

/-- A request of a passed access that has not been performed (R319): it asks at its block's home again. -/
def askedAgain (ctx : Nat) (s : State) (lo hi : Nat) (a : Acc) : Bool :=
  a.pass && lo ≤ a.va.toNat && a.va.toNat < hi && (s.block a.blk).any fun b => b.ctx = ctx

/-- A block of a procedural range loses its contents (R310, R316): every cached copy of its lines is invalidated, dirty bytes are
discarded, and memory holds what it held before the fill. Requests under way to the lines ask at the block's home again, and a
store that waits for ownership is such a request; those of a stopped block end. -/
def discardBlock (s : State) (ctx rid base : Nat) : State :=
  let fb := (((tget s.ctxs ctx).bind fun c => tget c.ranges rid).bind fun r => tget r.blocks base).getD {}
  let size := (((tget s.ctxs ctx).bind fun c => tget c.ranges rid).map fun r => 2 ^ r.blksh).getD 0
  let inside := fun (line : Nat) => fb.pa ≤ 128 * line && 128 * line < fb.pa + size
  let again := askedAgain ctx s base (base + size)
  let kept := s.net.flatMap (keptValues s inside)
  let served := fun (a : Acc) => kept.any fun m => match m with
    | .value _ x _ _ => x.id = a.id
    | .ack _ i _ _ => i = some a.id
    | _ => false
  let back := fun (a : Acc) => if again a && !served a then { a with asked := false, pass := false, sent := false } else a
  let pends := fun (c : Core) =>
    let queued : List Acc := (c.stores.filter fun e => again e.acc).map fun e =>
      { e.acc with kind := .store, asked := false, pass := false, sent := false }
    (c.pend.map back ++ queued).filter fun a => a.sent || !s.isStopped a.blk
  let stays := fun (m : Msg) => match m with
    | .readShared _ l _ => !inside l
    | .ownership _ l => !inside l
    | .grant _ l => !inside l
    | .readHome _ a => !again a
    | .writeHome _ a => !again a
    | .atomic _ a => !again a
    | .clusterAtomic _ a => !again a
    | _ => true
  { s with
    mem := fb.backing.foldl (fun m c => m.set c.1 c.2) (s.mem.filter fun c => c.1 < fb.pa || fb.pa + size ≤ c.1)
    cores := tmap (fun _ c =>
      { c with l1 := c.l1.filter fun l => !inside l.1
               stores := c.stores.filter fun e => !again e.acc
               pend := pends c }) s.cores
    clusters := tmap (fun _ ls => ls.filter fun l => !inside l) s.clusters
    proxies := s.proxies.filter fun p => !inside (p.1 % 2 ^ 45)
    home := s.home.filter fun h => !inside h.1
    net := kept.filter stays }

/-- A fill ends as POISONED (R312, R314): the dyer block stops, its writes go, and every waiter fails with the subcode; a waiter of
another dyer poisons that dyer's own block. -/
def poisonFill : Nat → State → Nat → Nat → Nat → Nat → BitVec 8 → State
  | 0, s, _, _, _, _, _ => s
  | fuel + 1, s, ctx, rid, base, sub, cause =>
    let fb := getFill s ctx rid base
    match fb.fill with
    | .steeping =>
      let s := (s.blocks.filter fun p => (p.2.state = .resident || p.2.state = .swapped) && (match p.2.dyer with
          | some d => d.ctx = ctx && d.rid = rid && d.base = base && !d.filled
          | none => false)).foldl (fun s p => finishLaunch (stopBlock s p.1) p.2.launch { done := 3 }) s
      let s := modFill (discardBlock s ctx rid base) ctx rid base fun b =>
        { b with backing := [], fill := if fb.evict then .unfilled else .poisoned sub cause, waiters := [], ancestors := [],
                 evict := false, ending := false, queued := none }
      fb.waiters.foldl (fun s w => failWaiter (fun s d => poisonFill fuel s d.ctx d.rid d.base sub causePrfill) s sub w) s
    | _ => s

/-- A trap in a dyer ends its fill and runs no handler (R314). DESIGN CHOICE (log 96): after its PRDONE has made the block FILLED,
a trap stops the dyer's block and its launch, and the block stays FILLED; R314 and R315 do not say. -/
def dyerFault (s : State) (blk : Nat) (d : Dyer) (sub : Nat) (cause : BitVec 8) : State :=
  match d.filled, (getFill s d.ctx d.rid d.base).fill with
  | false, .steeping => poisonFill 16 s d.ctx d.rid d.base sub cause
  | _, _ => match s.block blk with
    | some b => finishLaunch (stopBlock s blk) b.launch { done := 3 }
    | none => s

/-! ## Taking a trap -/

/-- A collection of lane traps, in ascending tlin, with its COUNT (R113, R114, R200). -/
def takeTrapsCount (s : State) (blk count : Nat) (rs : List TrapReq) : State :=
  match s.block blk, rs with
  | some b, r :: _ =>
    (match b.dyer with
     | some d => dyerFault s blk d (if r.cause = causePrfill then r.detail else 1) r.cause
     | none => ordinaryTraps s blk b count rs)
  | _, _ => s

/-- A collection of one issue. -/
def takeTraps (s : State) (blk : Nat) (rs : List TrapReq) : State := takeTrapsCount s blk rs.length rs

/-- A front trap (R337). -/
def takeFrontTrap (s : State) (blk : Nat) (r : TrapReq) : State :=
  match s.block blk with
  | some b =>
    (match b.dyer with
     | some d => dyerFault s blk d (if r.cause = causePrfill then r.detail else 1) r.cause
     | none => ordinaryFrontTrap s blk b r)
  | none => s

/-- A late trap of any block but a stopped one: where it is taken at once, a dyer's ends its fill (R314, R337). -/
def lateFault (s : State) (blk : Nat) (who : Option Nat) (dest : Option Dest) (l : LateTrap) : State :=
  let active := ((s.block blk).bind fun b => who.bind fun t => b.thread t).any fun t => t.status.isActive
  if s.isStopped blk then s
  else match (s.block blk).bind Block.dyer with
  | some d =>
    if active then lateTrap s blk who dest l
    else dyerFault s blk d (if l.cause = causePrfill then l.detail.toNat else 1) l.cause
  | none => lateTrap s blk who dest l

/-! ## Returning from a handler (R201) -/

/-- The target of RETT. -/
def rettTarget (t : TrapRegs) : Quad := if bit t.tstat 1 then t.tchain else t.tpc

/-- The trap registers after RETT. -/
def rettRegs (t : TrapRegs) : TrapRegs := { t with tstat := 0 }

/-- The end of a step's instruction: its group is closed. -/
def closeGroup (s : State) : State := { s with grp := none }

end Sys2Proof.Machine
end

