-- ==== Sys2Proof/Machine/Launching.lean ====
section
/-! DEFINITION. Launch records and the start of a launch: the checks of acceptance (R84, R419), staging lists (R416), the
order in which blocks leave a launch, and the state in which a block starts (R87, R333, R415). -/

namespace Sys2Proof.Machine

/-- DEDUCED (log 6). Core cycles in a microsecond, at the core clock of R3. -/
def cyclesPerUs : Nat := 2100

/-! ## Acceptance -/

/-- R13 and R14. -/
def dimsOk (l : Launch) : Bool :=
  1 ≤ l.dx && 1 ≤ l.dy && 1 ≤ l.dz && l.ntid ≤ 1024 && 1 ≤ l.nbx && l.nbx < 2 ^ 31 && 1 ≤ l.nby && 1 ≤ l.nbz

/-- The limits of R79 and the entries, as R84 checks them. -/
def imagePartOk (l : Launch) : Bool :=
  l.regsPer % 8 = 0 && 8 ≤ l.regsPer && l.regsPer ≤ 64 && l.scrb % 256 = 0 && l.scrb ≤ 786432 && l.acct ≤ 64
  && l.fent % 2 = 0 && l.fent < l.imglen && l.lent % 2 = 0 && l.lent < l.imglen

/-- The header at a physical address against the record (R81, R84). -/
def headerOk (s : State) (l : Launch) (pa : Nat) : Bool :=
  homeNum s (pa + 0x28) 8 = l.kimg && homeNum s pa 4 = 0x4934534B && homeNum s (pa + 4) 2 = 1
  && homeNum s (pa + 6) 2 = 0 && homeNum s (pa + 0x30) 16 = 0 && homeNum s (pa + 8) 24 = l.bytes 8 24
  && !s.poison.contains (lineOf pa)

/-- What the image checks of a record come to. -/
inductive Image where
  | fits
  | bad
  /-- Its header faults recoverably (R439), or lies in a line that the host still has to send. -/
  | page (cause level : Nat)
  | away (line : Nat)
  deriving DecidableEq, Repr

/-- The image checks (R84). DEDUCED (log 86): an image that cannot be read at all, one at or above 2^57 among them, fails; that
of a context that is not live is not read. -/
def imageOf (s : State) (l : Launch) : Image :=
  if l.kimg % 256 ≠ 0 || l.dyer.isNone && !imagePartOk l then .bad
  else if !((tget s.ctxs l.ctxIdx).any Ctx.live) then .fits
  else match translate s l.ctxIdx .read l.kimg with
    | .ok pa _ =>
      (match hostAway s pa with
       | some line => .away line
       | none => if imagePartOk l && headerOk s l pa then .fits else .bad)
    | .fault cause level => .page cause level
    | _ => .bad

/-- Whether a launch may run in its context, for the issuer's context of a LAUNCH (R419). -/
def ctxOk (s : State) (l : Launch) (issuer : Option Nat) : Bool :=
  (match tget s.ctxs l.ctxIdx with
   | some c => c.live && !c.stopped
   | none => false)
  && (match issuer with
      | some c => c = l.ctxIdx
      | none => true)

/-- Whether one block fits a core (R419). -/
def fitsCore (l : Launch) : Bool := l.regsPer * l.ntid * 4 ≤ 262144 && l.scrb ≤ 786432 && l.acct ≤ 64

/-- The values and reserved fields of R414. -/
def fieldsOk (l : Launch) : Bool :=
  l.mode ≤ 3 && l.bytes 0x39 1 < 2 && 1 ≤ l.rmode && l.rmode ≤ 4 && l.ten < 64 && l.prio < 4 && l.nstg ≤ 8
  && l.bytes 0x36 2 = 0 && l.bytes 0x3D 1 = 0 && l.bytes 0x5E 2 = 0 && l.bytes 0x78 8 = 0
  && l.cplt % 128 = 0 && l.privb % 8 = 0 && l.privsz % 8 = 0 && l.privsz ≤ 2 ^ 20 && l.stga % 16 = 0
  && (l.nstg ≠ 0 || l.stga = 0)
  && (if l.mode = 1 then 1 ≤ l.wt && l.wt ≤ 2 ^ 48 else l.wt = 0 && l.wipt = 0)
  && (if l.mode = 3 then l.stencil < 2 ^ 15 else l.stencil = 0)

/-- The limits of work-split and wavefront launches (R419). -/
def modeOk (l : Launch) : Bool :=
  !(l.mode = 1 && (l.wipt = 0 || 2 ^ 20 < ceilDiv l.wt l.wipt)) && !(l.mode = 3 && 65535 < l.nbx)

/-- The private regions lie below 2^57 (R415). -/
def privOk (l : Launch) : Bool :=
  let n := l.nblocks * l.ntid * l.privsz
  n = 0 || l.privb + n ≤ 2 ^ 57

/-- A staging list as it was read: its entries as (address, length, rest), or why it could not be read. -/
inductive Staging where
  | entries (es : List (Nat × Nat × Nat))
  | fault (va cause level : Nat)
  | away (line : Nat)
  | skip
  deriving DecidableEq, Repr

/-- Reading `n` staging entries (R416); a poisoned one cannot be read (R286). -/
def readStaging (s : State) (ctx : Nat) : Nat → Nat → Staging
  | _, 0 => .entries []
  | va, n + 1 =>
    match translate s ctx .read va with
    | .ok pa _ =>
      (match hostAway s pa, readStaging s ctx (va + 16) n with
       | some line, _ => .away line
       | none, .entries es => if s.poison.contains (lineOf pa) then .skip else .entries ((homeNum s pa 8, homeNum s (pa + 8) 4, homeNum s (pa + 12) 4) :: es)
       | none, r => r)
    | .fault cause level => .fault va cause level
    | _ => .skip

/-- The staging list of a launch. -/
def stagingOf (s : State) (l : Launch) : Staging := readStaging s l.ctxIdx l.stga l.nstg

/-- Whether an entry that was read breaks R416. -/
def stagingBad : Staging → Bool
  | .entries es => es.any fun e => 2 ^ 26 < e.2.1 || e.2.2 ≠ 0
  | _ => false

/-- Launches that count against the queue (R419, R313). -/
def heldLaunches (s : State) : Nat := (s.launches.filter fun p => p.2.done = 0 && p.2.dyer.isNone).length

/-- The DETAIL with which a record is refused (R419), if any, where `full` says that the queue has no room for it. -/
def refusal (s : State) (l : Launch) (issuer : Option Nat) (full : Bool) : Option Nat :=
  if !dimsOk l then some 1
  else if imageOf s l = .bad then some 2
  else if !ctxOk s l issuer then some 3
  else if !fitsCore l then some 4
  else if !fieldsOk l || stagingBad (stagingOf s l) then some 5
  else if !modeOk l then some 6
  else if full then some 7
  else if !privOk l then some 8
  else none

/-- A launch that is refused (R419): its completion record is written through a live context only (R429, R465), and a dyer's poisons
its block (R313). -/
def refuse (s : State) (k detail : Nat) : State :=
  match tget s.launches k with
  | none => s
  | some l =>
    let r : Report := { done := 2, fcause := 0x18, tinfo := detail }
    let s := s.modLaunch k fun l => { l with judged := true, staging := false }
    let s := if (tget s.ctxs l.ctxIdx).any Ctx.ending then s.modLaunch k fun l => { l with done := r.done, result := r.record l }
      else finishLaunch s k r
    match l.dyer with
    | some d => poisonFill 16 s d.ctx d.rid d.base 1 causeDispatch
    | none => s

/-- Whether an address lies in no procedural range, or in a FILLED block of one. DEDUCED (log 81): a PREF starts no fill. -/
def filledAt (s : State) (ctx va : Nat) : Bool :=
  match rangeOf s ctx va with
  | some (rid, base) => (getFill s ctx rid base).fill = .filled
  | none => true

/-- The line that staging asks for at an address: none for one that faults or is not cached (R416). -/
def stagedLine (s : State) (ctx va : Nat) : Option Nat :=
  match translate s ctx .read va with
  | .ok pa coh => if coh = 2 || !filledAt s ctx va then none else some (lineOf pa)
  | _ => none

/-- One line of a staged region: a level-1 PREF (R416, R232). -/
def stageLine (s : State) (ctx va : Nat) : State :=
  match stagedLine s ctx va with
  | some l => if lineReady s l then s else fetchLine s l
  | none => s

/-- The lines of a region. -/
def regionLines (va len : Nat) : List Nat :=
  if len = 0 then [] else (List.range ((va + len - 1) / 128 - va / 128 + 1)).map fun i => (va / 128 + i) * 128

/-- The staging of an accepted launch begins (R416): a recoverable fault waits for the host, an unrecoverable one skips
the list. -/
def startStaging (s : State) (k : Nat) : State :=
  match tget s.launches k with
  | none => s
  | some l =>
    if l.nstg = 0 || l.done ≠ 0 then s
    else match stagingOf s l with
      | .skip => s.modLaunch k fun l => { l with staging := false, stages := some [] }
      | .fault va cause level =>
        raiseFault (s.modLaunch k fun l => { l with staging := true }) l.ctxIdx va 9 cause level (.staging k)
      | .away line => fetchLine (s.modLaunch k fun l => { l with staging := true }) line
      | .entries es =>
        if stagingBad (.entries es) then refuse s k 5
        else (es.flatMap fun e => regionLines e.1 e.2.1).foldl (fun s va => stageLine s l.ctxIdx va)
          (s.modLaunch k fun l => { l with staging := true, stages := some (es.map fun e => (e.1, e.2.1)) })

/-- The 24 bytes that a dyer's image part takes from its header (R83); zeros where it cannot be read. -/
def dyerHeader (s : State) (ctx kimg : Nat) : Nat :=
  match translate s ctx .read kimg with
  | .ok pa _ => if kimg % 256 = 0 then homeNum s (pa + 8) 24 else 0
  | _ => 0

/-- The record that a descriptor implies (R313). -/
def dyerRecord (s : State) (ctx : Nat) (r : ProcRange) : BitVec 1024 :=
  BitVec.ofNat 1024 <|
    r.kimg.toNat + dyerHeader s ctx r.kimg.toNat <<< 64 + r.arg.toNat <<< 0x100 + 1 <<< 0x140 + 1 <<< 0x160 + 1 <<< 0x170
    + r.dx <<< 0x180 + 1 <<< 0x190 + 1 <<< 0x1A0 + 1 <<< 0x1D0 + 0x20 <<< 0x1D8 + ctx <<< 0x1E0

/-- A launch is judged (R84, R419): where its header faults recoverably it waits for the host (R441), and where the header lies in
a line of the host, for that line. -/
def judgeLaunch (s : State) (k : Nat) (issuer : Option Nat) (full : Bool) : State :=
  match tget s.launches k with
  | none => s
  | some l =>
    let held := s.modLaunch k fun l => { l with staging := true }
    let passed := fun (s : State) => startStaging (s.modLaunch k fun l => { l with judged := true, staging := false, accepted := s.now }) k
    let judge := match refusal s l issuer full with
      | some d => refuse s k d
      | none => passed s
    if !dimsOk l || !ctxOk s l issuer || full then judge
    else match imageOf s l with
      | .page cause level => raiseFault held l.ctxIdx l.kimg 9 cause level (.staging k)
      | .away line => fetchLine held line
      | _ => judge

/-- A launch whose header could not be read is judged again: a dyer's record takes its image part from the header (R83). -/
def judgeAgain (s : State) (k : Nat) : State :=
  match tget s.launches k with
  | none => s
  | some l =>
    let record := (l.dyer.bind fun d => ((tget s.ctxs d.ctx).bind fun c => tget c.ranges d.rid).map (dyerRecord s d.ctx)).getD l.record
    if l.done ≠ 0 then s else judgeLaunch (s.modLaunch k fun l => { l with record := record }) k none false

/-- A record enters acceptance: from the host, from a LAUNCH of a context, or as a dyer's (R313). -/
def submit (s : State) (record : BitVec 1024) (issuer : Option Nat) (dy : Option Dyer) : State :=
  let k := s.nextLaunch
  judgeLaunch { s with launches := tset s.launches k { record := record, accepted := s.now, dyer := dy }, nextLaunch := k + 1 } k issuer
    (1024 ≤ heldLaunches s && dy.isNone)

/-! ## The blocks of a launch -/

/-- Moving past indices that have been taken already. -/
def advanceOver : Nat → List Nat → Nat × List Nat
  | n, [] => (n, [])
  | n, t :: ts => if t = n then advanceOver (n + 1) ts else (n, t :: ts)

/-- Block `b` of a launch is placed or withdrawn. -/
def Launch.take (l : Launch) (b : Nat) : Launch :=
  if b = l.next then { l with next := (advanceOver (b + 1) l.taken).1, taken := (advanceOver (b + 1) l.taken).2 }
  else { l with taken := insertNat l.taken b }

/-- A launch completes when every block has retired or been withdrawn (R429); in deterministic mode the last stage has then
been released (R291). -/
def checkLaunch (s : State) (k : Nat) : State :=
  match tget s.launches k with
  | none => s
  | some l => if l.done = 0 && l.nret = l.nblocks && (!l.det || l.head + 1 = l.nblocks) then finishLaunch s k { done := 1 } else s

/-- The offsets that a stencil marks (R427): bit 4·(−dy) + (−dx) − 1. -/
def stencilOffsets (m : Nat) : List (Nat × Nat) :=
  ((List.range 15).filter fun i => m / 2 ^ i % 2 = 1).map fun i => ((i + 1) % 4, (i + 1) / 4)

/-- Whether the blocks that a wavefront block waits for have retired (R427). -/
def stencilReady (l : Launch) (b : Nat) : Bool :=
  let x := b % l.nbx
  let y := b / l.nbx % l.nby
  (stencilOffsets l.stencil).all fun o => x < o.1 || y < o.2 || l.retired.contains (b - o.1 - o.2 * l.nbx)

/-- A block retires or is withdrawn: wavefront blocks that this makes ready start to wait (R421, R427). -/
def noteRetired (s : State) (k b : Nat) : State :=
  let s := s.modLaunch k fun l =>
    let l' := { l with retired := insertNat l.retired b, nret := l.nret + 1 }
    if l.mode ≠ 3 then l'
    else
      let next := ((stencilOffsets l.stencil).map fun o => b + o.1 + o.2 * l.nbx).filter fun c =>
        c < l.nblocks && stencilReady l' c && !stencilReady l c
      { l' with readyAt := next.foldl (fun t c => tset t c s.now) l.readyAt }
  checkLaunch s k

/-! ## How a block starts -/

/-- A lane thread at its block's first placement (R87, R144, R145, R415). -/
def startThread (l : Launch) (b tlin : Nat) : Thread :=
  let pb := BitVec.ofNat 64 (l.privb + (b * l.ntid + tlin) * l.privsz)
  let top := pb + BitVec.ofNat 64 l.privsz
  { pc := BitVec.ofNat 57 (l.kimg + l.lent), regs := List.replicate l.regsPer 0, trapen := BitVec.ofNat 6 l.ten,
    fctl := BitVec.ofNat 5 (16 + l.rmode), csplo := pb, csphi := top, csp := top }

/-- The front thread at its block's first placement (R333). -/
def startFront (l : Launch) (size : Nat) : Front :=
  let regs : List Quad := match l.dyer with
    | some d => [BitVec.ofNat 64 l.kimg, BitVec.ofNat 64 l.argp, BitVec.ofNat 64 d.base, BitVec.ofNat 64 d.rid, BitVec.ofNat 64 size]
    | none => [BitVec.ofNat 64 l.kimg, BitVec.ofNat 64 l.argp, 0, 0, 0]
  { pc := BitVec.ofNat 57 (l.kimg + l.fent), regs := regs ++ List.replicate 59 0 }

/-- A block at its first placement (R12, R87, R333, R343). -/
def startBlock (s : State) (k : Nat) (l : Launch) (b : Nat) (p : Place) : Block :=
  let size := match l.dyer with
    | some d => (((tget s.ctxs d.ctx).bind fun c => tget c.ranges d.rid).map fun r => 2 ^ r.blksh).getD 0
    | none => 0
  { launch := k, ctx := l.ctxIdx, b := b, bx := b % l.nbx, byy := b / l.nbx % l.nby, bz := b / (l.nbx * l.nby)
    place := some p, threads := (List.range l.ntid).map fun t => (t, startThread l b t), front := startFront l size
    dyer := l.dyer, since := s.now, lastCore := p.core }

/-- A block takes room on a core: whether the end of a quantum made it (R29). -/
def takesTurn (s : State) (core : Nat) : Bool := (s.core core).room ≠ 0
def takeRoom (s : State) (core : Nat) : State := s.modCore core fun c => { c with room := c.room - 1 }

/-- A block of a launch is placed for the first time: its number is the launch sequence number (R420). What the record acquired
(R341, R418) holds on its core: no older copy of a COH 01 line comes in. -/
def placeNew (s : State) (k b : Nat) (p : Place) : State :=
  match tget s.launches k with
  | none => s
  | some l =>
    { refill (takeRoom (s.modLaunch k fun l => l.take b) p.core) p.core (fun _ => true) with
      blocks := tset s.blocks s.nextSeq { startBlock s k l b p with turn := takesTurn s p.core }
      nextSeq := s.nextSeq + 1 }

end Sys2Proof.Machine
end

