-- ==== Sys2Proof/Machine/Access.lean ====
section
/-! DEFINITION. The path of a global access: L1 lines, miss-status entries, the order of one agent's accesses, staging
in deterministic launches, and the messages that leave a core (R217 to R222, R230, R231, R251 to R268, R287 to
R296, R311). -/

namespace Sys2Proof.Machine

/-! ## L1 lines -/

/-- The access's data moved to its place in the line. -/
def Acc.placed (a : Acc) : BitVec 1024 := BitVec.ofNat 1024 (a.data.toNat <<< (8 * a.off))

/-- Whether an access is performed at its home whatever the L1 holds: an uncached one, or an ordered access to a COH 01 line
(R264, R284). -/
def Acc.atHome (a : Acc) : Bool := a.coh = 2 || (a.coh = 1 && a.scope ≠ 0 && (a.acq || a.rel))

/-- `size` bytes at `off` of a line, as a number. -/
def sliceOf (d : BitVec 1024) (off size : Nat) : Nat := (d.toNat >>> (8 * off)) % 2 ^ (8 * size)

/-- The key of a proxy copy. -/
def proxyKey (die line : Nat) : Nat := die * 2 ^ 45 + line

/-- A core no longer holds a directory-tracked line (R283): its bit goes from the vector of the home's die, or from that of
its own die's proxy slice. -/
def forgetSharer (s : State) (core line : Nat) : State :=
  let off := fun (v : BitVec 40) => withBit v (core % 40) false
  let s := modLine s line fun h => { h with dir := if h.dir = .owned core then .invalid else h.dir }
  if coreDie core = lineDie s line then modLine s line fun h => { h with sharers := off h.sharers }
  else { s with proxies := tmod s.proxies (proxyKey (coreDie core) line) fun p => { p with sharers := off p.sharers } }

/-- The notes of a line for bytes of a mask, and for the others (R296). -/
def notesIn (m : BitVec 128) (ns : List Note) : List Note :=
  (ns.map fun n => { n with mask := n.mask &&& m }).filter fun n => n.mask ≠ 0

/-- The value of an ordered read of a COH 01 line on its way to a core takes the bytes that are dirty in the core's copy from
there (R264). -/
def overValue (core line : Nat) (m : BitVec 128) (d : BitVec 1024) (x : Msg) : Msg :=
  match x with
  | .value c a v bad =>
    if c = core && a.line = line && a.atHome && a.coh = 1 && a.kind = .load then
      .value c a (BitVec.ofNat 1024 (sliceOf (mergeBytes m d (BitVec.ofNat 1024 (v.toNat <<< (8 * a.off)))) a.off a.size)) bad
    else x
  | x => x

/-- Dirty COH 01 bytes leave for their home (R253, R284), acknowledged to an agent if it asks. -/
def sendWriteback (s : State) (core line : Nat) (m : BitVec 128) (l : L1Line) (ack : Option (Nat × Option Nat)) : State :=
  if m = 0 then s
  else { s with net := s.net.map (overValue core line m l.data) ++ [.writeback core line m l.data ack (notesIn m l.notes)] }

/-- A line leaves an L1 (R218, R254, R295): dirty bytes that are not staged go home, for COH 01 as a message. -/
def evictLine (s : State) (core line : Nat) : State :=
  match tget (s.core core).l1 line with
  | none => s
  | some l =>
    let m := l.dirty &&& ~~~l.staged
    let s := s.modCore core fun c => { c with l1 := tdel c.l1 line }
    if l.coh = 1 then refill (sendWriteback s core line m l none) core (· = line)
    else forgetSharer (mergeHome s line m l.data) core line

/-- The lines of an L1 that share a set (R217). -/
def l1Set (c : Core) (line : Nat) : List Nat := (c.l1.map Prod.fst).filter fun k => k % 128 = line % 128

/-- Room for a line: of sixteen in its set, the implementation picks the victim (log 9). -/
def makeRoom (s : State) (core line : Nat) : State :=
  let set := l1Set (s.core core) line
  if (tget (s.core core).l1 line).isSome || set.length < 16 then s
  else
    let v := set.getD (Config.victim s.nfree 16 % 16) 0
    { evictLine s core v with nfree := s.nfree + 1 }

/-- A line held under another attribute is written back and invalidated first (R218). -/
def sameCoh (s : State) (core line : Nat) (coh : BitVec 2) : State :=
  match tget (s.core core).l1 line with
  | some l => if l.coh = coh then s else evictLine s core line
  | none => s

/-- The bytes and data that the core's stores still waiting for ownership lay over a line (R257). -/
def overlay (c : Core) (line : Nat) : BitVec 128 × BitVec 1024 :=
  c.stores.foldl (fun o e => if e.line = line then (o.1 ||| e.mask, mergeBytes e.mask e.data o.2) else o) (0, 0)

/-- The bytes of a line that an agent of the core reads without a request, if all of `need` are there. -/
def l1Read (c : Core) (line : Nat) (coh : BitVec 2) (need : BitVec 128) : Option (BitVec 1024) :=
  let o := if coh = 1 then (0, 0) else overlay c line
  let (valid, data) := match tget c.l1 line with
    | some l => if l.coh = coh then (l.valid, l.data) else (0, 0)
    | none => ((0 : BitVec 128), (0 : BitVec 1024))
  if need &&& ~~~(valid ||| o.1) = 0 then some (mergeBytes o.1 o.2 data) else none

/-- Whether bytes of a line in the L1 are poisoned (R222, R286). -/
def l1Bad (c : Core) (line : Nat) (need : BitVec 128) : Bool :=
  match tget c.l1 line with
  | some l => l.poison &&& need ≠ 0
  | none => false

/-- Bytes written into an L1 line: valid, and dirty or staged as the caller says (R218, R295). -/
def writeLine (l : L1Line) (mask : BitVec 128) (data : BitVec 1024) (dirty staged : Bool) : L1Line :=
  { l with valid := l.valid ||| mask, data := mergeBytes mask data l.data
           dirty := if dirty then l.dirty ||| mask else l.dirty &&& ~~~mask
           staged := if staged then l.staged ||| mask else l.staged &&& ~~~mask
           poison := l.poison &&& ~~~mask }

/-! ## Agents and their order -/

/-- Whether two accesses are of one agent (R251). -/
def sameAgent (a b : Acc) : Bool := a.blk = b.blk && a.who = b.who

def AccKind.writes : AccKind → Bool
  | .store => true
  | .atomic _ _ => true
  | .reduce _ _ => true
  | _ => false

def AccKind.reads : AccKind → Bool
  | .store => false
  | .reduce _ _ => false
  | .wbr _ => false
  | _ => true

/-- What a translation of an access asks for (R436): an atomic, a WBR and an INVR are judged as writes. -/
def AccKind.accessMode : AccKind → AccessMode
  | .wbr _ => .write
  | k => if k.writes then .write else .read

/-- The address at which a logged access faulted: of a WBR or INVR that of the page, kept in `pa`. -/
def Acc.faultAt (a : Acc) : Nat :=
  match a.kind with
  | .wbr _ => a.pa
  | _ => a.va.toNat

/-- KIND of a fault record for an access (R440). -/
def AccKind.kindBits (k : AccKind) : Nat := if k.accessMode = .write then 2 else 1

/-- Whether a core and the homes of two of its accesses lie on one die (R259). -/
def dieLocal (s : State) (core : Nat) (b a : Acc) : Bool :=
  homeDie s b.pa = coreDie core && homeDie s a.pa = coreDie core

/-- The accesses of a core that have not been performed, those in its aged queue included. -/
def Core.accs (c : Core) : List Acc := c.pend ++ c.aged.map Walk.acc

/-- Whether the access of a number has not been performed. -/
def stillOpen (s : State) (id : Nat) : Bool := s.cores.any fun c => c.2.accs.any fun a => a.id = id

/-- Whether a write may pass an earlier read of its agent: the pair is not die-local, and no other agent of the core has a
read of its line open (R260, R278). -/
def mayPass (s : State) (core : Nat) (b a : Acc) : Bool :=
  !dieLocal s core b a && !(s.core core).accs.any fun x => x.kind.reads && x.line = a.line && !sameAgent x a

/-- Whether a WBR or INVR takes in a line. -/
def Acc.covers (a : Acc) (line : Nat) : Bool := a.ranges.any fun r => 128 * line < r.2 && r.1 < 128 * line + 128

/-- Whether a later access must wait for an earlier one of its agent that has not been performed: a shared line
(R230), an acquire (R261), a release; two reads (R278; log 80); a read before a write that may not pass it; two writes, or an
atomic and a read, whose homes lie on the core's die (R259). A WBR or INVR waits for the writes before it, and an access to
what an INVR drops, or a release, for the INVR or WBR (R235). -/
def mustFollow (s : State) (core : Nat) (b a : Acc) : Bool :=
  match b.kind, a.kind with
  | .wbr _, .wbr _ => true
  | .wbr drop, _ => a.rel || (drop && b.covers a.line)
  | _, .wbr _ => b.kind.writes || b.acq
  | _, _ => b.line = a.line || b.acq || a.rel ||
      (if b.kind.reads then a.kind.reads || !mayPass s core b a else (a.kind.writes || b.kind ≠ .store) && dieLocal s core b a)

/-- Whether a later access of one issue must wait for a lower thread's write of its line (R230). -/
def sameIssue (b a : Acc) : Bool :=
  b.blk = a.blk && b.time = a.time && b.line = a.line && b.kind.writes && a.kind.writes && (match b.who, a.who with
    | some t, some u => t < u
    | _, _ => false)

/-- Whether an access of a core must wait: for its translation, or for another access that is open, an earlier one of its agent,
on whichever core (R112), or one of its own issue (R230). -/
def isHeld (s : State) (core : Nat) (a : Acc) : Bool :=
  a.walking || s.now < a.due || s.cores.any fun c => c.2.accs.any fun b =>
    (b.id < a.id && sameAgent b a && mustFollow s core b a) || (c.1 = core && sameIssue b a)

/-- Whether a release at block scope holds an access back (R191, R275): what it released is still open. -/
def syncHeld (s : State) (a : Acc) : Bool :=
  match s.block a.blk with
  | some b => b.syncs.any fun y => bit y.path 0 && y.mark ≤ a.id && y.ids.any (stillOpen s)
  | none => false

/-- The core and the acknowledgement of bytes on their way home from an L1. -/
def Msg.back : Msg → Option (Nat × Option (Nat × Option Nat))
  | .writeback core _ _ _ who _ => some (core, who)
  | .rest core _ _ _ who _ => some (core, who)
  | _ => none

/-- Whether COH 01 bytes are on their way home that an agent of a block may have written: those acknowledged to one of `p`, and
those that leave the core where the block stands, by an eviction too (R235, R263, R264). -/
def goingHome (s : State) (blk : Nat) (p : Option Nat → Bool) : Bool :=
  s.net.any fun m => match m.back with
    | some (core, ack) => (ack.any fun x => x.1 = blk && p x.2) || ((s.block blk).bind Block.place).any fun q => q.core = core
    | none => false

/-- Whether a release at block scope still holds the commands of its paths back (R191): accesses open, stores not owned, or
write-backs not acknowledged. -/
def Sync.holds (s : State) (blk : Nat) (y : Sync) : Bool :=
  y.ids.any (fun i => stillOpen s i || s.cores.any fun c => c.2.stores.any fun e => e.acc.id = i)
  || goingHome s blk fun _ => true

/-- Whether a TCE or COL command must wait for writes that come before it (R27): those of its front thread, and those that a
phase with its path bit has released (R191). -/
def behindWrites (s : State) (c : Cmd) : Bool :=
  (s.cores.any fun k => (k.2.accs.any fun a => a.blk = c.blk && a.who = none)
    || k.2.stores.any fun e => e.acc.blk = c.blk && e.acc.who = none)
  || goingHome s c.blk Option.isNone
  || (s.block c.blk).any fun b => b.syncs.any fun y => bit y.path (c.path + 1) && y.holds s c.blk

/-- Whether a read waits because another agent of the core has let a write of its line pass earlier reads (R278). -/
def earlyHeld (s : State) (core : Nat) (a : Acc) : Bool :=
  a.kind.reads && (s.core core).early.any fun e =>
    e.line = a.line && !(e.blk = a.blk && e.who = a.who) && e.ids.any (stillOpen s)

/-- Whether a write reaches its place through the L1's queue of stores (R257). -/
def Acc.queued (a : Acc) : Bool := (a.coh = 0 || a.coh = 3) && (a.kind = .store || a.scope = 0)

/-- Whether the core's queue of stores holds an access back: a store of its line under another attribute (R218), or, before a
write that does not go through the queue, an earlier one of its agent that is die-local with it (R259). -/
def queueHeld (s : State) (core : Nat) (a : Acc) : Bool :=
  (s.core core).stores.any fun e => (e.line = a.line && e.acc.coh ≠ a.coh)
    || (a.kind.writes && !a.queued && sameAgent e.acc a && dieLocal s core e.acc a)

/-- Whether a write that a release of block `blk` carries is still on its way (R233, R258, R263): a store of the block before
access `upto` that is not owned, a write-back or store not acknowledged, or an invalidation that its core counts. -/
def carrying (s : State) (blk upto : Nat) : Bool :=
  (s.cores.any fun c => c.2.stores.any fun e => e.acc.blk = blk && e.acc.id < upto)
  || goingHome s blk (fun _ => true)
  || s.net.any fun m => match m with
    | .proxyInv _ _ c => ((s.block blk).bind Block.place).any fun p => p.core = c
    | .devInv _ _ c => ((s.block blk).bind Block.place).any fun p => p.core = c
    | .ack _ (some i) b _ => b = blk && i < upto
    | .ack _ none b _ => b = blk
    | _ => false

/-- Whether a line is in the read set of some agent of a block (R265). -/
def Block.hasRead (b : Block) (line : Nat) : Bool :=
  b.front.readSet.contains line || b.threads.any fun t => t.2.readSet.contains line

/-- Whether every write that an agent of a block has read is visible beyond its core and die (R263, R265): no copy of the
lines is still to be invalidated, and no store of them on the block's core waits for ownership. -/
def shown (s : State) (blk upto : Nat) : Bool :=
  match s.block blk with
  | none => true
  | some b =>
    (s.net.all fun m => match m with
      | .proxyInv _ l _ => !b.hasRead l
      | .devInv _ l _ => !b.hasRead l
      | _ => true)
    && (match b.place with
      | some p => (s.core p.core).stores.all fun e => !b.hasRead e.line || (e.acc.blk = blk && upto ≤ e.acc.id)
      | none => true)

/-- Whether a release of a block may be performed (R263). -/
def releasable (s : State) (blk upto : Nat) : Bool := !carrying s blk upto && shown s blk upto

/-- Whether an agent has any access that has not been performed. -/
def unperformed (s : State) (blk : Nat) (who : Option Nat) : Bool :=
  s.cores.any fun c => c.2.accs.any fun a => a.blk = blk && a.who = who

/-- Whether a block has a write that has not been performed. -/
def writing (s : State) (blk : Nat) : Bool := s.cores.any fun c => c.2.accs.any fun a => a.blk = blk && a.kind.writes

/-- The accesses of an agent that its release at block scope covers (R191, R275): those open, and its stores not yet owned. -/
def releasedBy (s : State) (blk : Nat) (who : Option Nat) : List Nat :=
  s.cores.flatMap fun c =>
    ((c.2.accs.filter fun a => a.blk = blk && a.who = who).map Acc.id)
    ++ (c.2.stores.filter fun e => e.acc.blk = blk && e.acc.who = who).map fun e => e.acc.id

/-- A release at block scope by an agent (R275). -/
def blockRelease (s : State) (blk : Nat) (who : Option Nat) : State :=
  let ids := releasedBy s blk who
  if ids.isEmpty then s
  else s.modBlock blk fun b => { b with syncs := b.syncs ++ [⟨ids, s.nextAcc, 1⟩] }

/-! ## Deterministic launches -/

/-- Whether a block of a deterministic launch is not its head (R290). -/
def notHead (s : State) (b : Block) : Bool :=
  let l := s.launchOf b
  l.det && b.b ≠ l.head

/-- The latest staged item of a block that covers a byte: a store's byte, or `none` inside for a reduction (R293). -/
def stagedByte (stage : List Staged) (pa : Nat) : Option (Option Byte) :=
  stage.foldl (fun r w => match w.op with
    | .store bs => if w.pa ≤ pa && pa < w.pa + bs.length then some (some (bs.getD (pa - w.pa) 0)) else r
    | .reduce _ t _ => if w.pa ≤ pa && pa < w.pa + (if Sig.atomWide t then 8 else 4) then some none else r) none

/-- Whether a load meets a staged reduction of its own block (R293). -/
def meetsReduction (stage : List Staged) (pa n : Nat) : Bool :=
  (List.range n).any fun i => stagedByte stage (pa + i) = some none

/-- A loaded number with the bytes that its own block has staged laid over it (R293). -/
def overlayStage (stage : List Staged) (pa : Nat) : Nat → Nat → Nat
  | 0, _ => 0
  | n + 1, v =>
    let b := match stagedByte stage pa with
      | some (some x) => x.toNat
      | _ => v % 256
    b + 256 * overlayStage stage (pa + 1) n (v / 256)

/-- The bytes of staging a write takes. -/
def Staged.size (w : Staged) : Nat :=
  match w.op with
  | .store bs => bs.length
  | .reduce _ t _ => if Sig.atomWide t then 8 else 4

/-- The staging in use on a die (R293). -/
def stagingUsed (s : State) (die : Nat) : Nat :=
  let sum := fun (ws : List Staged) => ws.foldl (fun n w => if w.die = die then n + w.size else n) 0
  (s.blocks.foldl (fun n p => n + sum p.2.stage) 0)
    + s.launches.foldl (fun n p => n + p.2.kept.foldl (fun n k => n + sum k.2) 0) 0

/-- What its home gives a load, the bytes that its block has staged laid over it (R293). -/
def withOwnStage (s : State) (a : Acc) (v : Nat) : Nat :=
  match s.block a.blk with
  | some b => if notHead s b && a.kind.reads && !a.kind.writes then overlayStage b.stage a.pa a.size v else v
  | none => v

/-- Recording a conflict in DCONF and DCADDR (R296). -/
def conflict (l : Launch) (va : Quad) : Launch :=
  if bit l.dconf 0 then { l with dconf := l.dconf ||| 2 }
  else { l with dconf := l.dconf ||| 1, dcaddr := va &&& 0x1FFFFFFFFFFFFFF }

/-- A read conflict (R296): a read, and the line holds a staged or released write of another block of the launch. -/
def readConflict (s : State) (a : Acc) : State :=
  match s.block a.blk with
  | some b =>
    let l := s.launchOf b
    if l.det && a.kind.reads && !a.kind.writes && l.staged.any (fun p => p.1 = a.line && p.2 ≠ b.b) then
      s.modLaunch b.launch fun l => conflict l a.va
    else s
  | none => s

/-- A reduction of a head block is performed: its line counts for read conflicts (R296). -/
def noteReduction (s : State) (a : Acc) : State :=
  match s.block a.blk with
  | some b =>
    if (s.launchOf b).det then s.modLaunch b.launch fun l =>
      { l with staged := if l.staged.contains (a.line, b.b) then l.staged else l.staged ++ [(a.line, b.b)] }
    else s
  | none => s

/-- A write of block `b` reaches its home, at these offsets from an address: the conflict of its lowest byte that another
block has written, then the bytes nobody had written count as the block's (R296). Writes come in ascending blocks (R294), so a
byte's first writer tells whether any other block wrote it. -/
def writeAtHome (s : State) (launch b pa : Nat) (va : Quad) (bytes : List Nat) : State :=
  s.modLaunch launch fun l =>
    if !l.det then l
    else
      let hit := bytes.find? fun i => match tget l.written (pa + i) with
        | some w => w ≠ b
        | none => false
      let l := match hit with
        | some i => conflict l (va + BitVec.ofNat 64 i)
        | none => l
      let wr := bytes.foldl (fun t i => if (tget t (pa + i)).isSome then t else tset t (pa + i) b) l.written
      { l with written := wr, staged := if l.staged.any (fun p => p = (lineOf pa, b)) then l.staged else l.staged ++ [(lineOf pa, b)] }

/-- Dirty bytes of an L1 line under a write that is staged reach their home first, so that they are staged only (R294, R295). -/
def cleanUnder (s : State) (core line : Nat) (mask : BitVec 128) : State :=
  match tget (s.core core).l1 line with
  | none => s
  | some l =>
    let m := l.dirty &&& ~~~l.staged &&& mask
    if l.coh = 1 then
      sendWriteback (s.modCore core fun c => { c with l1 := tset c.l1 line { l with notes := notesIn (~~~m) l.notes } }) core line m l none
    else if m = 0 then s
    else mergeHome s line m l.data

/-- A write enters its block's stage (R291, R292, R295): the L1 copy, when there is one or COH 01 makes one, takes a
store's bytes, marked staged and not dirty. -/
def stageWrite (s : State) (core : Nat) (a : Acc) (op : StagedOp) : State :=
  match s.block a.blk with
  | none => s
  | some b =>
    let w : Staged := { seq := b.wseq, die := coreDie core, pa := a.pa, va := a.va, op := op, id := a.id, coh := a.coh, by_ := some (a.who, a.grp) }
    let s := s.modBlock a.blk fun b => { b with stage := b.stage ++ [w], wseq := b.wseq + 1 }
    let s := s.modLaunch b.launch fun l =>
      { l with staged := if l.staged.any (fun p => p = (a.line, b.b)) then l.staged else l.staged ++ [(a.line, b.b)] }
    match op with
    | .reduce _ _ _ => s
    | .store _ =>
      let s := cleanUnder (sameCoh s core a.line a.coh) core a.line a.mask
      match tget (s.core core).l1 a.line with
      | some l => s.modCore core fun c => { c with l1 := tset c.l1 a.line (writeLine l a.mask a.placed false true) }
      | none =>
        if a.coh = 1 then
          let s := makeRoom s core a.line
          let l : L1Line := { coh := 1, filled := (s.core core).cycle }
          s.modCore core fun c => { c with l1 := tset c.l1 a.line (writeLine l a.mask a.placed false true) }
        else s

/-! ## Atomic arithmetic (R231) -/

/-- The new value of an atomic on `w` bits: `v` and `v2` are its operands. -/
def atomicNew (op type : Nat) (old v v2 : Nat) : Nat :=
  let w := if Sig.atomWide type then 64 else 32
  let sg := fun x : Nat => if x / 2 ^ (w - 1) % 2 = 1 then (x : Int) - 2 ^ w else (x : Int)
  let signed := type % 2 = 0
  let less := if signed then decide (sg old ≤ sg v) else decide (old ≤ v)
  let grtr := if signed then decide (sg v ≤ sg old) else decide (v ≤ old)
  match op with
  | 0 => (old + v) % 2 ^ w
  | 1 => if less then old else v
  | 2 => if grtr then old else v
  | 3 => old &&& v
  | 4 => old ||| v
  | 5 => old ^^^ v
  | 6 => v
  | 7 => if old = v then v2 else old
  | 8 => if v ≤ old then 0 else old + 1
  | 9 => if old = 0 || v < old then v else old - 1
  | _ =>
    match type with
    | 4 => (fadd fp32 1 old v).val
    | 5 => (fadd fp64 1 old v).val
    | 6 => (packed (fadd fp16 1 (old % 65536) (v % 65536)) (fadd fp16 1 (old / 65536) (v / 65536))).val
    | _ => (packed (fadd bf16 1 (old % 65536) (v % 65536)) (fadd bf16 1 (old / 65536) (v / 65536))).val

/-- The op and type of an atomic access. -/
def AccKind.opType : AccKind → Nat × Nat
  | .atomic o t => (o, t)
  | .reduce o t => (o, t)
  | _ => (6, 1)

/-- The new value of an access that is an atomic, from the old one. -/
def Acc.newValue (a : Acc) (old : Nat) : Nat :=
  let (o, t) := a.kind.opType
  atomicNew o t old (a.data.toNat % 2 ^ (8 * a.size)) (a.data.toNat / 2 ^ (8 * a.size) % 2 ^ (8 * a.size))

/-! ## Values that return -/

/-- A loaded number as its destination takes it: sign-extended where the size says so (R43, R229). -/
def destValue (a : Acc) (v : Nat) : Nat :=
  match a.dest with
  | some d => if d.signed then (sext (8 * a.size) v).toNat else v
  | none => v

/-- The record of a LAUNCH has been read: the Dispatcher takes it, and the front thread goes on (R341); it stalls while every
place is taken (R419). -/
def submitRead (s : State) (blk v : Nat) : State :=
  match s.block blk with
  | none => s
  | some b =>
    if 1024 ≤ heldLaunches s && b.front.status ≠ .done then
      s.modFront blk fun f => { f with status := .stalled (.place (BitVec.ofNat 1024 v)) }
    else (submit s (BitVec.ofNat 1024 v) (some b.ctx) none).modFront blk fun f =>
      { f with status := if f.status = .done then .done else .run }

/-- A popped address reaches its thread (R177): an odd one raises MISALIGN. -/
def popValue (s : State) (a : Acc) (t v : Nat) : State :=
  match (s.block a.blk).bind fun b => b.thread t with
  | some th =>
    if th.status = .exited then s
    else if v % 2 = 1 then takeTraps s a.blk [⟨t, causeMisalign, a.grp, BitVec.ofNat 64 v, 0, none⟩]
    else s.modThread a.blk t fun th => { th.ready (BitVec.ofNat 57 v) with csp := th.csp + 8 }
  | none => s

/-- An agent has read: the line joins its read set (R265), and after an acquire no older copy of a COH 01 line reaches its
core (R264). -/
def sawRead (s : State) (a : Acc) : State :=
  let s := match a.who with
    | some t => s.modThread a.blk t fun th => { th with readSet := insertNat th.readSet a.line }
    | none => s.modFront a.blk fun f => { f with readSet := insertNat f.readSet a.line }
  match a.acq, (s.block a.blk).bind Block.place with
  | true, some p => refill s p.core fun _ => true
  | _, _ => s

/-- The value of a read is delivered: a conflict is noted, and the registers or a popped address are written. -/
def completeRead (s : State) (a : Acc) (v : Nat) : State :=
  let s := sawRead (readConflict s a) a
  match a.kind, a.who, a.dest with
  | .pop, some t, _ => popValue s a t v
  | .prdef, _, _ => { s with net := s.net ++ [.prdef a.blk a (BitVec.ofNat 512 v)] }
  | .record, _, _ => submitRead s a.blk v
  | .desc, _, _ => s.modFront a.blk fun f => { f with latched := some v, status := if f.status = .done then .done else .run }
  | _, _, some d => s.deliver a.blk a.who d (destValue a v)
  | _, _, none => s

/-! ## WBR and INVR (R235) -/

/-- Writing back the dirty bytes of a COH 01 line, acknowledged to an agent; no older copy of them comes in afterwards (R253). -/
def writeBackLine (s : State) (core line : Nat) (ack : Option (Nat × Option Nat)) : State :=
  match tget (s.core core).l1 line with
  | none => s
  | some l =>
    let m := l.dirty &&& ~~~l.staged
    if l.coh ≠ 1 || m = 0 then s
    else
      let s := s.modCore core fun c =>
        { c with l1 := tset c.l1 line { l with dirty := l.dirty &&& l.staged, notes := notesIn (~~~m) l.notes } }
      refill (sendWriteback s core line m l ack) core (· = line)

/-- The COH 01 lines of an L1 that a set of physical line numbers holds. -/
def selfLines (c : Core) (p : Nat → Bool) : List Nat :=
  (c.l1.filter fun x => x.2.coh = 1 && p x.1).map Prod.fst

/-- Dropping a COH 01 line that has just been written back: no older copy of it comes in afterwards (R235). -/
def dropLine (s : State) (core line : Nat) : State :=
  refill (s.modCore core fun c => { c with l1 := tdel c.l1 line }) core (· = line)

/-- Every COH 01 line of a core written back, and invalidated where asked (R424, R426). -/
def writeBackAll (s : State) (core : Nat) (drop : Bool) : State :=
  (selfLines (s.core core) fun _ => true).foldl (fun s l =>
    let s := writeBackLine s core l none
    if drop then dropLine s core l else s) s

/-- Writing back, and for INVR dropping, the COH 01 lines that overlap physical ranges. -/
def writeBackRanges (s : State) (core blk : Nat) (who : Option Nat) (drop : Bool) (rs : List (Nat × Nat)) : State :=
  (selfLines (s.core core) fun l => rs.any fun r => l * 128 < r.2 && r.1 < l * 128 + 128).foldl (fun s l =>
    let s := writeBackLine s core l (some (blk, who))
    if drop then dropLine s core l else s) s

/-! ## One access -/

/-- What trying an access comes to. -/
inductive Go where
  /-- Performed: the value of a read. -/
  | done (v : Nat)
  /-- Its request has left, or it waits for a home or for its turn. -/
  | sent (a : Acc)
  /-- No miss-status entry is free (R221). -/
  | full
  /-- No staging space is free (R293). -/
  | noStage
  /-- Poisoned bytes (R222). -/
  | bad
  deriving DecidableEq, Repr

/-- Whether a line has a miss-status entry, and whether a general one is free (R219). -/
def hasEntry (c : Core) (line : Nat) : Bool := c.entries.any fun e => e.line = line
def entryFree (c : Core) : Bool := (c.entries.filter fun e => !e.aged).length < 248

/-- Sending a message for a line, taking or joining an entry; a request for a copy is sent once per entry. -/
def request (s : State) (core : Nat) (a : Acc) (m : Msg) (merges : Bool) : State × Go :=
  let c := s.core core
  let a' := { a with sent := true }
  if merges && s.net.any (fun x => x = m) then (s, .sent a')
  else if hasEntry c a.line then ({ s with net := s.net ++ [m] }, .sent a')
  else if entryFree c then
    ({ s.setCore core { c with entries := c.entries ++ [{ line := a.line }] } with net := s.net ++ [m] }, .sent a')
  else (s, .full)

/-- The dyer that an access is marked with: the block it fills (R311). -/
def dyerOf (s : State) (blk : Nat) : Option Nat := (((s.block blk).bind Block.dyer).filter fun d => !d.filled).map Dyer.base

/-- A request that leaves the core asks first at the home of its procedural block, if it lies in one (R311); it takes its
miss-status entry then (R219). -/
def throughRange (s : State) (core : Nat) (a : Acc) (k : State → State × Go) : State × Go :=
  let ctx := ((s.block a.blk).map Block.ctx).getD 0
  match rangeOf s ctx a.va.toNat with
  | none => k s
  | some (rid, base) =>
    if a.pass then k s
    else if a.asked then (s, .sent { a with sent := true })
    else
      let a' := { a with asked := true }
      request s core a' (.prRequest ctx rid base (.acc core { a' with sent := true }) a.kind.writes (dyerOf s a.blk)
        (a.pa - (a.va.toNat - base)) a.coh) false

/-- A directory-tracked store enters the L1's queue of stores: its core sees it at once (R218, R257). -/
def enqueueStore (s : State) (core : Nat) (a : Acc) : State :=
  s.modCore core fun c => { c with stores := c.stores ++ [⟨a.line, a.mask, a.placed, a⟩] }

/-- Whether the core holds a line writable. -/
def heldWritable (c : Core) (line : Nat) (coh : BitVec 2) : Bool :=
  match tget c.l1 line with
  | some l => l.writable && l.coh = coh
  | none => false

/-- A block's own write recorded for conflicts when it goes straight to its home (R291, R296). -/
def noteWrite (s : State) (a : Acc) : State :=
  match s.block a.blk with
  | some b =>
    if (s.launchOf b).det && a.kind = .store then writeAtHome s b.launch b.b a.pa a.va (List.range a.size) else s
  | none => s

/-- Whether an access is a reduction. -/
def AccKind.reduces : AccKind → Bool
  | .reduce _ _ => true
  | _ => false

/-- The same for a write into a COH 01 line: it counts when its bytes have reached their home, so the line keeps a note of the
block that wrote them last. A reduction changes what others have written and is noted beside it. -/
def noteLine (s : State) (a : Acc) (l : L1Line) : L1Line :=
  let red := a.kind.reduces
  let rest := if red then l.notes else notesIn (~~~a.mask) l.notes
  match s.block a.blk with
  | some b =>
    if !(s.launchOf b).det then { l with notes := rest }
    else { l with notes := match rest.find? fun n => n.launch = b.launch && n.b = b.b && n.red = red with
      | some n => (rest.filter (· ≠ n)) ++ [{ n with mask := n.mask ||| a.mask }]
      | none => rest ++ [⟨b.launch, b.b, a.va - BitVec.ofNat 64 a.off, a.mask, red⟩] }
  | none => l

/-- Storing the oldest queued stores whose lines the core owns (R257): their bytes become dirty in order. -/
def drainStores : List StoreEntry → State → Nat → State
  | [], s, core => s.modCore core fun c => { c with stores := [] }
  | e :: es, s, core =>
    let c := s.core core
    match tget c.l1 e.line with
    | some l =>
      if l.writable && l.coh = e.acc.coh then
        drainStores es (s.setCore core { c with l1 := tset c.l1 e.line (writeLine l e.mask e.data true false) }) core
      else s.setCore core { c with stores := e :: es }
    | none => s.setCore core { c with stores := e :: es }

/-- A core asks again for the line of its oldest queued store, where it has lost the line since it was granted. -/
def askAgain (s : State) (core : Nat) : State :=
  match (s.core core).stores with
  | [] => s
  | e :: _ =>
    if s.net.any fun m => m = .ownership core e.line || m = .grant core e.line then s
    else { s with net := s.net ++ [.ownership core e.line] }

/-- The queued stores of a core, drained as far as its lines allow. -/
def drain (s : State) (core : Nat) : State := askAgain (drainStores (s.core core).stores s core) core

/-- Whether an access meets a procedural block that is being filled by another than its own block: the L1 serves none of it
(R311). -/
def filling (s : State) (a : Acc) : Bool :=
  let ctx := ((s.block a.blk).map Block.ctx).getD 0
  match rangeOf s ctx a.va.toNat with
  | some (rid, base) =>
    (a.kind.reads || a.kind.writes) && !a.pass && (getFill s ctx rid base).fill = .steeping && dyerOf s a.blk ≠ some base
  | none => false

/-- A plain load, or a load that an L1 may serve (R218). DESIGN CHOICE (log 95): a COH 01 byte that the L1 holds clean is served
after an ordered read of the core has brought a newer value from the home; R264 keeps the copy, where R253 says that a core never
reads an older value. -/
def goLoad (s : State) (core : Nat) (a : Acc) : State × Go :=
  let s := sameCoh s core a.line a.coh
  let c := s.core core
  match l1Read c a.line a.coh a.mask with
  | some d => if l1Bad c a.line a.mask then (s, .bad) else (s, .done (sliceOf d a.off a.size))
  | none => throughRange s core a fun s =>
    request (if a.coh = 1 then refill s core (· = a.line) else s) core a (.readShared core a.line a.coh) true

/-- A store to a directory-tracked line (R218, R257). -/
def goTracked (s : State) (core : Nat) (a : Acc) : State × Go :=
  let s := sameCoh s core a.line a.coh
  if heldWritable (s.core core) a.line a.coh then (drain (enqueueStore (noteWrite s a) core a) core, .done 0)
  else throughRange s core a fun s =>
    match request s core a (.ownership core a.line) true with
    | (s, .sent _) => (drain (enqueueStore (noteWrite s a) core a) core, .done 0)
    | r => r

/-- A store to a COH 01 line: plain into the L1; a release writes its bytes through and leaves them clean (R218, R264). -/
def goSelf (s : State) (core : Nat) (a : Acc) : State × Go :=
  let put := fun (s : State) (dirty : Bool) =>
    let s := makeRoom (sameCoh s core a.line 1) core a.line
    s.modCore core fun c =>
      let l := (tget c.l1 a.line).getD { coh := 1, filled := c.cycle }
      let l' := writeLine l a.mask a.placed dirty false
      { c with l1 := tset c.l1 a.line (if dirty then noteLine s a l' else { l' with notes := notesIn (~~~a.mask) l'.notes }) }
  if a.rel && a.scope ≠ 0 then
    throughRange s core a fun s =>
      match request s core a (.writeHome core a) false with
      | (s, .sent a') => (refill (put (noteWrite s a) false) core (· = a.line), .sent a')
      | r => r
  else if (tget (s.core core).l1 a.line).isSome then (put s true, .done 0)
  else throughRange s core a fun s => (put s true, .done 0)

/-- An atomic in the L1 (R231, R287): block scope on a line that the core holds, writable for COH 00 and 11. There its write
goes through the queue of stores: the core's agents see it at once, and an atomic performed at another place may come between
its read and its write (R268). -/
def goLocalAtomic (s : State) (core : Nat) (a : Acc) : State × Go :=
  let s := sameCoh s core a.line a.coh
  let c := s.core core
  match l1Read c a.line a.coh a.mask, tget c.l1 a.line with
  | some d, some l =>
    let old := sliceOf d a.off a.size
    let new := { a with data := BitVec.ofNat 128 (a.newValue old) }
    if l1Bad c a.line a.mask then (s, .bad)
    else if a.coh = 1 then
      (s.setCore core { c with l1 := tset c.l1 a.line (noteLine s a (writeLine l a.mask new.placed true false)) }, .done old)
    else if l.writable then
      let s := enqueueStore (noteReduction s a) core new
      (if Config.splitAtomic s.now then s else drain s core, .done old)
    else throughRange s core a fun s => request s core a (.ownership core a.line) true
  | _, _ =>
    throughRange s core a fun s =>
      request s core a (if a.coh = 1 then .readShared core a.line 1 else .ownership core a.line) true

/-- An atomic above the L1: the core's dirty bytes go home and its copy goes first (R231). -/
def goFarAtomic (s : State) (core : Nat) (a : Acc) : State × Go :=
  if (s.core core).stores.any (fun e => e.line = a.line) then (s, .sent { a with sent := false })
  else throughRange s core a fun s =>
    let s := evictLine s core a.line
    match request s core a (if a.scope = 1 && (a.coh = 0 || a.coh = 3) then .clusterAtomic core a else .atomic core a) false with
    | (s, .sent a') => (refill s core (· = a.line), .sent a')
    | r => r

/-- Performing an access that its agent's order allows to go, or sending its request. -/
def tryGo (s : State) (core : Nat) (a : Acc) : State × Go :=
  match s.block a.blk with
  | none => (s, .sent a)
  | some b =>
    let det := notHead s b
    if syncHeld s a || earlyHeld s core a || queueHeld s core a then (s, .sent { a with sent := false })
    else if a.rel && a.scope ≠ 0 && !det && !releasable s a.blk a.id then (s, .sent { a with sent := false })
    else if det && (a.acq || a.kind = .prdef || (a.kind.reads && a.kind.writes)) then (s, .sent { a with sent := false })
    else (if filling s a && !(det && a.kind.writes) then throughRange s core a else fun k => k s) fun s => match a.kind with
      | .wbr drop => (writeBackRanges s core a.blk a.who drop a.ranges, .done 0)
      | .store =>
        if det then
          (if stagingUsed s (coreDie core) + a.size ≤ 2 ^ 22
           then (stageWrite s core a (.store (bytesOf a.size a.data)), .done 0) else (s, .noStage))
        else if a.coh = 2 then
          throughRange (sameCoh s core a.line 2) core a fun s => request (noteWrite s a) core a (.writeHome core a) false
        else if a.coh = 1 then goSelf s core a
        else goTracked s core a
      | .reduce o t =>
        if det then
          (if stagingUsed s (coreDie core) + a.size ≤ 2 ^ 22
           then (stageWrite s core a (.reduce o t (a.data.truncate 64)), .done 0) else (s, .noStage))
        else if a.scope = 0 && a.coh ≠ 2 then goLocalAtomic s core a
        else goFarAtomic s core a
      | .atomic _ _ => if a.scope = 0 && a.coh ≠ 2 then goLocalAtomic s core a else goFarAtomic s core a
      | _ =>
        if det && meetsReduction b.stage a.pa a.size then (s, .sent { a with sent := false })
        else
          let lay := fun (r : State × Go) => match r with
            | (s, .done v) => (s, Go.done (if det then overlayStage b.stage a.pa a.size v else v))
            | r => r
          if det && (List.range a.size).all (fun i => (stagedByte b.stage (a.pa + i)).isSome) then lay (s, .done 0)
          else if a.atHome then
            throughRange (sameCoh s core a.line a.coh) core a fun s => request s core a (.readHome core a) false
          else lay (goLoad s core a)

/-! ## The accesses of a core in order -/

/-- Whether a message asks for, or brings, a line of a core. -/
def Msg.carries (m : Msg) (core line : Nat) : Bool :=
  match m with
  | .readShared c l _ => c = core && l = line
  | .ownership c l => c = core && l = line
  | .fill c l _ _ _ => c = core && l = line
  | .grant c l => c = core && l = line
  | _ => false

/-- Entries whose lines have nothing outstanding are freed (R219), and writes that have passed reads are forgotten with those
reads. -/
def freeEntries (s : State) (core : Nat) : State := s.modCore core fun c =>
  { c with
    entries := c.entries.filter fun e =>
      (c.pend.any fun a => a.line = e.line) || (c.stores.any fun x => x.line = e.line)
      || s.net.any fun m => m.carries core e.line
    early := c.early.filter fun e => e.ids.any (stillOpen s) }

/-- A write that is performed while earlier accesses of its agent are open has passed them (R278). -/
def notePass (s : State) (core : Nat) (a : Acc) : State :=
  let ids := (((s.core core).accs.filter fun b => sameAgent b a && b.id < a.id)).map Acc.id
  if !a.kind.writes || ids.isEmpty then s
  else s.modCore core fun c => { c with early := c.early ++ [⟨a.blk, a.who, a.line, a.id, ids⟩] }

/-- Whether a load that must wait asks its procedural block meanwhile (R311, R330): earlier plain reads of other lines alone hold
it back, and the L1 does not serve it. -/
def mayAsk (s : State) (core : Nat) (a : Acc) : Bool :=
  a.kind = .load && !a.acq && !a.walking && a.due ≤ s.now && !a.asked && !syncHeld s a && !(s.block a.blk).any (notHead s)
    && (l1Read (s.core core) a.line a.coh a.mask).isNone
    && !s.cores.any fun c => c.2.accs.any fun b => b.id < a.id && sameAgent b a && mustFollow s core b a
        && (b.line = a.line || b.acq || b.kind.writes || !b.kind.reads)

/-- An access that nothing holds back is tried; one that must wait stays as it is, but that it may ask its procedural block. -/
def turn (s : State) (core : Nat) (a : Acc) : State × Go :=
  if isHeld s core a then
    let stay := (s, Go.sent { a with sent := false })
    if mayAsk s core a then
      match throughRange s core a fun _ => stay with
      | (_, .full) => stay
      | r => r
    else stay
  else match tryGo s core a with
    | (s, .done v) => (notePass s core a, .done v)
    | (s, .sent a') => (if a'.sent then notePass s core a else s, .sent a')
    | r => r

/-- The effect of an access that has been performed, on its agent. -/
def finishAcc (s : State) (a : Acc) (v : Nat) : State := if a.kind.reads then completeRead s a v else s

/-- An access to poisoned data takes ECCDATA at its group (R222). -/
def failEcc (s : State) (a : Acc) : State :=
  lateFault s a.blk a.who (some (a.dest.getD { reg := 0, count := 0 }))
    { cause := causeEccdata, tpc := a.grp, taddr := a.va, detail := 0 }

/-- An access of a core is taken from those pending, or replaced there. -/
def dropAcc (s : State) (core id : Nat) : State := s.modCore core fun c => { c with pend := c.pend.filter fun a => a.id ≠ id }

def putAcc (s : State) (core : Nat) (a : Acc) : State :=
  s.modCore core fun c => { c with pend := c.pend.map fun b => if b.id = a.id then a else b }

/-- An access whose thread has gone on finds no entry: its request joins the aged queue (R221). -/
def ageAcc (s : State) (core : Nat) (a : Acc) : State :=
  s.modCore core fun c => { c with aged := c.aged ++ [{ core := core, quad := 0, acc := a, next := a.grp, on := true }] }

/-- One pass over the accesses not yet performed, oldest first: each that nothing holds back is tried. -/
def progressList (core : Nat) : List Acc → State → State
  | [], s => freeEntries s core
  | a :: rest, s =>
    progressList core rest (match (s.core core).pend.find? fun b => b.id = a.id && !b.sent with
      | none => s
      | some a => match turn s core a with
        | (s, .done v) => finishAcc (dropAcc s core a.id) a v
        | (s, .sent a') => putAcc s core a'
        | (s, .full) => ageAcc (dropAcc s core a.id) core a
        | (s, .noStage) => s
        | (s, .bad) => failEcc (dropAcc s core a.id) a)

/-- The accesses of a core that can go now go. -/
def progress (s : State) (core : Nat) : State :=
  let s := drain s core
  progressList core (s.core core).pend s

/-- What issuing an access comes to, for its member. -/
inductive Issued where
  | value (v : Nat)
  | pending
  | rejected
  | stageFull
  | bad
  deriving DecidableEq, Repr

/-- Whether an access that must wait will leave the core when its turn comes, as the L1 stands (R219); a block that is not the
head of its launch stages its writes (R291). -/
def leavesCore (s : State) (core : Nat) (a : Acc) : Bool :=
  let c := s.core core
  !((s.block a.blk).any (notHead s)) && (a.atHome || (match a.kind with
    | .store => a.coh ≠ 1 && !heldWritable c a.line a.coh
    | .atomic _ _ => a.scope ≠ 0 || !(a.coh = 1 || heldWritable c a.line a.coh)
    | .reduce _ _ => a.scope ≠ 0 || !(a.coh = 1 || heldWritable c a.line a.coh)
    | .wbr _ => false
    | _ => (l1Read c a.line a.coh a.mask).isNone))

/-- The miss-status entry of an access that waits, taken at its issue (R219, R220): none if it needs one and none is free. -/
def reserve (s : State) (core : Nat) (a : Acc) : Option State :=
  let c := s.core core
  if !leavesCore s core a || hasEntry c a.line then some s
  else if entryFree c then some (s.setCore core { c with entries := c.entries ++ [{ line := a.line }] })
  else none

/-- Whether an access that is being issued, the last to be numbered, is performed as two 64-bit halves apart (R269). -/
def torn (s : State) (a : Acc) : Bool :=
  a.size = 16 && (a.kind = .load || a.kind = .store) && s.nextAcc = a.id + 1 && Config.splitWide s.now

/-- The two 64-bit halves of a b128 access, the lower one first. -/
def Acc.halves (a : Acc) (now : Nat) : List Acc :=
  [{ a with size := 8, data := a.data &&& 0xFFFFFFFFFFFFFFFF, due := now + 1, dest := a.dest.map fun d => { d with count := 2 } },
   { a with id := a.id + 1, va := a.va + 8, pa := a.pa + 8, size := 8, data := a.data >>> 64, due := now + 2
            dest := a.dest.map fun d => { d with reg := d.reg + 2, count := 2 } }]

/-- Issuing an access: behind what holds it back, else tried at once (R220, R221). -/
def issueAccess (s : State) (core : Nat) (a : Acc) : State × Issued :=
  if torn s a then
    match reserve s core a with
    | some s => ({ (s.modCore core fun c => { c with pend := c.pend ++ a.halves s.now }) with nextAcc := s.nextAcc + 1 }, .pending)
    | none => (s, .rejected)
  else match turn s core a with
  | (s, .done v) => (if a.kind.reads then readConflict s a else s, .value v)
  | (s, .sent a') =>
    (match if a'.sent then some s else reserve s core a' with
     | some s => (s.modCore core fun c => { c with pend := c.pend ++ [a'] }, .pending)
     | none => (s, .rejected))
  | (s, .full) => (s, .rejected)
  | (s, .noStage) => (s, .stageFull)
  | (s, .bad) => (s, .bad)

/-- The access with this id leaves the pending list, and what waited behind it may go. -/
def endAcc (s : State) (core id : Nat) : State := progress (dropAcc s core id) core

/-- Whether an access has a message of its own under way. -/
def travels (s : State) (a : Acc) : Bool :=
  s.net.any fun m => match m with
    | .readHome _ x => x.id = a.id
    | .writeHome _ x => x.id = a.id
    | .atomic _ x => x.id = a.id
    | .clusterAtomic _ x => x.id = a.id
    | .value _ x _ _ => x.id = a.id
    | .ack _ i _ _ => i = some a.id
    | .hostLine _ x => (x.map fun y => y.2.id) = some a.id
    | _ => false

/-- The accesses that wait for a line may be tried again. -/
def retryLine (s : State) (core line : Nat) : State :=
  progress (s.modCore core fun c => { c with pend := c.pend.map fun a =>
    if a.line = line && (a.pass || !a.asked) && !travels s a then { a with sent := false } else a }) core

/-! ## FENCE (R233, R265, R293) -/

/-- Whether the conditions of a FENCE hold for an agent: its ordering 1, 2 or 3, its scope, and the number of the first access
after it. In a deterministic launch an acquire waits until the block is the head, and a release carries nothing beyond the block. -/
def fenceOk (s : State) (blk : Nat) (who : Option Nat) (ord scope upto : Nat) : Bool :=
  let det := (s.block blk).any (notHead s)
  let reads := s.cores.any fun c => c.2.accs.any fun a => a.blk = blk && a.who = who && a.kind.reads
  if ord = 1 then !reads && !det
  else !unperformed s blk who && (ord = 2 || !det) && (scope = 0 || det || releasable s blk upto)

/-- The acceptance of a FENCE: its acquire part keeps older copies of COH 01 lines out of the core's L1 (R264), and a FENCE.ar
whose scope goes beyond the block, and that has waited for what its thread has read, starts a new read set (R265). -/
def fenceDone (s : State) (blk : Nat) (who : Option Nat) (ord scope : Nat) : State :=
  let s := match (s.block blk).bind Block.place with
    | some p => if ord = 2 then s else refill s p.core fun _ => true
    | none => s
  if ord ≠ 3 || scope = 0 || (s.block blk).any (notHead s) then s
  else match who with
    | some t => s.modThread blk t fun th => { th with readSet := [] }
    | none => s.modFront blk fun f => { f with readSet := [] }

/-! ## The Lashing table (R26, R246) -/

/-- Whether two ranges share a byte. -/
def Range.overlaps : Range → Range → Bool
  | .global c lo hi, .global d lo' hi' => c = d && lo < hi' && lo' < hi
  | .tile b h lo hi, .tile b' h' lo' hi' => b = b' && h = h' && lo < hi' && lo' < hi
  | _, _ => false

/-- The entry that an access conflicts with: a write meets any range, a read a destination. -/
def lashedBy (c : Core) (r : Range) (write : Bool) : Option Nat :=
  (c.cmds.find? fun k => k.accepted && (k.dsts.any (Range.overlaps r) || (write && k.srcs.any (Range.overlaps r)))).map
    Cmd.entry

/-- DETAIL of LASHED (R245). -/
def lashedDetail (entry : Nat) (write tile : Bool) : Nat := entry + 32 * boolBit write + 64 * boolBit tile

end Sys2Proof.Machine
end

