-- ==== Sys2Proof/Machine/Issue.lean ====
section
/-! DEFINITION. The issue of a group: by an issue warp of a quadrant (R34, R55 to R64, R71, R90 to R113, R442), and by
a front thread (R332 to R337). A body supplies the instruction's own effect on each member. -/

namespace Sys2Proof.Machine

/-- What a meaning answers. -/
abbrev Result := Host.Outcome State Fault Refusal

/-! ## The group that issues -/

/-- A group at its issue by a warp. -/
structure Issue where
  core : Nat
  quad : Nat
  slot : Nat
  blk  : Nat
  /-- The address of the next group. -/
  next : Pc
  g    : Group
  i    : Instr
  q    : Sig
  /-- Registers of the group that only the tile it names tells (R389, R390). -/
  also : Quad := 0
  deriving DecidableEq, Repr

/-- One member of the issue: its thread and lane, whether its guard is true, its source values, and whether it pops a
DQ entry. -/
structure Member where
  tlin : Nat
  lane : Nat
  on   : Bool
  v    : Vals := {}
  pop  : Bool := false
  deriving DecidableEq, Repr

/-- What a group does with one member. -/
inductive Fate where
  /-- It goes on at the next group, with no result of the word's destination. -/
  | next
  /-- It goes on at the next group; this is the word's result. -/
  | done (v : Quad)
  /-- It goes on at a target. -/
  | goto (pc : Pc)
  /-- It leaves the warp. -/
  | leave (st : Status) (pc : Pc)
  /-- It traps, with TPC the group unless another is given. -/
  | trap (cause : BitVec 8) (taddr : Quad) (detail : Nat) (tpc : Option Pc)
  deriving DecidableEq, Repr

/-- The block of an issue. -/
def Issue.block (is : Issue) (s : State) : Block :=
  (s.block is.blk).getD { launch := 0, ctx := 0, b := 0, bx := 0, byy := 0, bz := 0, place := none, threads := [], front := { pc := 0, regs := [] } }

/-- The thread of a member. -/
def Issue.thread (is : Issue) (s : State) (t : Nat) : Thread :=
  ((is.block s).thread t).getD { pc := 0, regs := [] }

/-- The warp of an issue, as it stands. -/
def Issue.warp (is : Issue) (s : State) : Warp :=
  (tget ((s.core is.core).quad is.quad).slots is.slot).getD { blk := is.blk, members := [] }

/-- Changing one thread of the block. -/
def Issue.modThread (is : Issue) (s : State) (t : Nat) (f : Thread → Thread) : State := s.modThread is.blk t f

/-- Changing the warp, if it is still there. -/
def Issue.modWarp (is : Issue) (s : State) (f : Warp → Warp) : State :=
  s.modQuad is.core is.quad fun q => { q with slots := tmod q.slots is.slot f }

/-- Bytes of an instruction word. -/
def sigBytes (q : Sig) : Nat := if q.short then 2 else 4

/-- The pc of a warp. -/
def warpPc (s : State) (w : Warp) : Pc :=
  match (s.block w.blk).bind fun b => (w.members.head?).bind fun m => b.thread m.1 with
  | some t => t.pc
  | none => 0

/-- The upper register of a pair from an even register, as a mask. -/
def upperOf (r : Nat) : Quad := if r % 2 = 0 && r < 64 then regMask (r + 1, 1) else 0

/-- A tile of 8-byte elements makes a pair of the register that MXLD, MXST or MXSCALE names (R389, R390). -/
def pairRegs (s : State) (blk : Nat) (i : Instr) : Quad :=
  let wide := fun (h : BitVec 6) => ((s.block blk).bind fun b => tget b.tiles h.toNat).any fun t => shapeEb t.shape = 8
  match i with
  | .mxld _ a d => if wide a then upperOf d.toNat else 0
  | .mxst _ a d => if wide a then upperOf d.toNat else 0
  | .mxscale a d => if wide d then upperOf a.toNat else 0
  | _ => 0

/-- The group that the current lane agent issues, of which `i` is the instruction. -/
def findIssue (s : State) (i : Instr) : Option Issue :=
  match s.cur with
  | .lane core quad slot =>
    (tget ((s.core core).quad quad).slots slot).map fun w =>
      let pc := warpPc s w
      let g := s.grp.getD { start := pc, next := pc }
      let q := shape i
      { core := core, quad := quad, slot := slot, blk := w.blk
        next := g.next + BitVec.ofNat 57 (sigBytes q), g := g, i := i, q := q, also := pairRegs s w.blk i }
  | .front _ _ => none

/-- A group that issues as pure (R60). -/
def Issue.pure (is : Issue) : Bool := pureGroup is.q is.g

/-- The registers that the group reads or writes. -/
def Issue.regs (is : Issue) : Quad := groupRegs false is.q is.g ||| is.also

/-- Whether R442 lets a member with a logged access issue the group. -/
def Issue.allowed (is : Issue) (pending : Quad) : Bool :=
  (is.pure && is.regs &&& pending = 0) || (match is.i with
    | .br _ _ _ => true
    | .bruAny _ _ _ => true
    | .bruAll _ _ _ => true
    | .bruNone _ _ _ => true
    | .bruUni _ _ _ => true
    | .jmp _ => true
    | _ => false)

/-! ## Lanes (R103) -/

/-- Inserting a member in ascending tlin order. -/
def insertMember : List (Nat × Nat) → Nat × Nat → List (Nat × Nat)
  | [], m => [m]
  | x :: xs, m => if m.1 < x.1 then m :: x :: xs else x :: insertMember xs m

/-- First pass: threads whose home lane is free take it. Answers the placed, the others and the lanes left. -/
def placeHome : List Nat → List Nat → List (Nat × Nat) × List Nat × List Nat
  | free, [] => ([], [], free)
  | free, t :: ts =>
    if free.contains (t % 32) then
      let (p, r, f) := placeHome (free.erase (t % 32)) ts
      ((t, t % 32) :: p, r, f)
    else
      let (p, r, f) := placeHome free ts
      (p, t :: r, f)

/-- Second pass: the lowest lane still free. -/
def placeRest : List Nat → List Nat → List (Nat × Nat)
  | l :: free, t :: ts => (t, l) :: placeRest free ts
  | _, _ => []

/-- The lanes of threads, in ascending tlin order. -/
def placeLanes (free ts : List Nat) : List (Nat × Nat) :=
  let (p, r, f) := placeHome free ts
  (placeRest f r).foldl insertMember p

/-- Threads enter a slot with an empty ring (R110). -/
def activate (s : State) (blk slot : Nat) (ms : List (Nat × Nat)) : State :=
  s.modBlock blk fun b => ms.foldl (fun b m =>
    b.modThread m.1 fun t => { t with status := .active slot m.2, ring := [], released := false }) b

/-- READY threads of a PC group, in ascending tlin order. -/
def readyAt (b : Block) (pc : Pc) : List Nat :=
  (b.threads.filter fun p => p.2.status = .ready && p.2.pc = pc && p.2.mask.isNone).map Prod.fst

/-- Top-up (R98). -/
def topUp (s : State) (is : Issue) : State :=
  let w := is.warp s
  if is.q.cls = .home || 16 ≤ w.members.length || !w.emptyRing then s
  else
    let ts := (readyAt (is.block s) is.g.start).take (32 - w.members.length)
    let free := (List.range 32).filter fun l => !(w.members.any fun m => m.2 = l)
    let add := placeLanes free ts
    activate (is.modWarp s fun w => { w with members := add.foldl insertMember w.members }) is.blk is.slot add

/-! ## Home-bound groups (R106 to R109) -/

/-- The live lanes of a home warp. -/
def liveLanes (b : Block) (hw : Nat) : Word :=
  b.threads.foldl (fun m p =>
    if p.1 / 32 = hw && p.2.status ≠ .exited then m ||| BitVec.ofNat 32 (2 ^ (p.1 % 32)) else m) 0

/-- Whether a thread has reached a home-bound group with a mask. -/
def atMask (t : Thread) (pc : Pc) (m : Word) : Bool :=
  t.pc = pc && t.mask = some m && (t.status = .converging || t.status = .ready || t.status.isActive)

/-- Whether a convergence set is complete (R106). -/
def setComplete (b : Block) (hw : Nat) (pc : Pc) (m : Word) : Bool :=
  (List.range 32).all fun l => !bit m l ||
    (match b.thread (32 * hw + l) with
     | none => true
     | some t => t.status = .exited || atMask t pc m)

/-- The members of a complete set that has a thread in it. -/
def setMembers (b : Block) (hw : Nat) (pc : Pc) (m : Word) : List Nat :=
  (b.threads.filter fun p => p.1 / 32 = hw && atMask p.2 pc m).map Prod.fst

/-- CONVERGING threads whose set is complete become READY (R109); a thread that becomes READY while its set is not complete,
as a member of it waits, is CONVERGING (R89, R99). -/
def settle (b : Block) : Block :=
  { b with threads := tmap (fun k t =>
      match t.status, t.mask with
      | .converging, some m => if setComplete b (k / 32) t.pc m then { t with status := .ready, age := 0 } else t
      | .ready, some m => if setComplete b (k / 32) t.pc m then t else { t with status := .converging, age := 0 }
      | _, _ => t) b.threads }

/-- The mask that an arriving thread supplies, and whether it is the live lanes (R106); or what the thread waits for: a
pending register (R96), or a DQ entry. -/
def readMask (s : State) (is : Issue) (tlin lane : Nat) (t : Thread) : Except Wait (Word × Bool) :=
  match thirdOperand is.q is.g with
  | none => .ok (liveLanes (is.block s) (tlin / 32), true)
  | some x =>
    let regs := (codeReads false [x]).foldl (fun m r => m ||| regMask r) 0
    if t.pending &&& regs ≠ 0 then .error (.regs (t.pending &&& regs))
    else match laneSource s (is.block s) tlin lane t x with
      | .val v => .ok (v.truncate 32, false)
      | _ => .error .dq

/-- Whether a pending set of the same home warp at the same PC has another mask that shares a bit (R107). -/
def maskClash (b : Block) (tlin : Nat) (pc : Pc) (m : Word) : Bool :=
  b.threads.any fun p => p.1 ≠ tlin && p.1 / 32 = tlin / 32 && p.2.pc = pc && p.2.status ≠ .exited &&
    (match p.2.mask with
     | some m' => m' ≠ m && m' &&& m ≠ 0
     | none => false)

/-- One arrival (R106, R107): the thread with its mask, or its fate. -/
def arriveOne (s : State) (is : Issue) (m : Nat × Nat) : State × Option (Nat × Fate) :=
  let t := is.thread s m.1
  if t.mask.isSome then (s, none)
  else match readMask s is m.1 m.2 t with
    | .error w => (s, some (m.1, .leave (.waiting w) is.g.start))
    | .ok (w, auto) =>
      if !bit w (m.1 % 32) || maskClash (is.block s) m.1 is.g.start w then
        (s, some (m.1, .trap causeIllopnd 0 0 none))
      else
        (is.modThread s m.1 fun t =>
          let pop : Bool := is.g.c = some 0x84
          { t with mask := some w, auto := auto, popped := pop, rp := if pop then t.rp + 1 else t.rp }, none)

/-- All members of a warp arrive. DESIGN CHOICE (log 72): of members that arrive in one issue with different masks that
share a bit, the lower tlin arrives first, and the later ones trap. -/
def arriveAll (s : State) (is : Issue) : List (Nat × Nat) → State × List (Nat × Fate)
  | [] => (s, [])
  | m :: ms =>
    let (s, f) := arriveOne s is m
    let (s, fs) := arriveAll s is ms
    (s, f.toList ++ fs)

/-- The warp's members are one complete convergence set in their home lanes, none of them waiting for a register or for
a DQ entry (R109). -/
def inPlace (s : State) (is : Issue) (ms : List (Nat × Nat)) : Bool :=
  let b := is.block s
  match ms with
  | [] => false
  | m :: _ =>
    match (is.thread s m.1).mask with
    | none => false
    | some w =>
      ms.all (fun x => x.2 = x.1 % 32 && x.1 / 32 = m.1 / 32 && (is.thread s x.1).mask = some w)
      && setComplete b (m.1 / 32) is.g.start w
      && setMembers b (m.1 / 32) is.g.start w = ms.map Prod.fst

/-- The members of a home-bound warp that is not in place become CONVERGING. -/
def disperse (s : State) (is : Issue) (ms : List (Nat × Nat)) : State :=
  let s := s.modBlock is.blk fun b => settle (ms.foldl (fun b m =>
    b.modThread m.1 fun t => { t with status := .converging, age := 0, ring := [], pc := is.g.start }) b)
  s.modQuad is.core is.quad fun q => { q with slots := tdel q.slots is.slot }

/-! ## The end of an issue -/

/-- Writing the word's result to its register or predicate. -/
def writeResult (q : Sig) (t : Thread) (v : Quad) : Thread :=
  match q.pd with
  | some p => t.setPred p (v ≠ 0)
  | none => if q.nw then t else t.setRegs q.dst.1 q.dst.2 v.toNat

/-- The value that a guarded-off thread shifts (R63). -/
def offValue (q : Sig) (t : Thread) : Quad :=
  match q.pd with
  | some p => BitVec.ofNat 64 (boolBit (t.pred p))
  | none => if q.nw then 0 else BitVec.ofNat 64 (t.regsNum q.dst.1 q.dst.2)

/-- The ring after the group (R60). -/
def ringAfter (is : Issue) (t : Thread) (v : Quad) : Thread :=
  let e : RingEntry := ⟨v, is.q.dst.2 = 2, is.q.nw, is.g.start, is.pure⟩
  if is.pure then t.shift e
  else match is.q.ring with
    | .group => { t with ring := [e] }
    | .none => t
    | _ => { t with ring := [] }

/-- A member that goes on: its result, ring, DQ pointer and age. -/
def goOn (is : Issue) (m : Member) (t : Thread) (v : Option Quad) : Thread :=
  let t' := match m.on, v with
    | true, some v => ringAfter is (writeResult is.q t v) v
    | _, _ => ringAfter is t (offValue is.q t)
  { t' with rp := if m.pop then t'.rp + 1 else t'.rp, age := 0, mask := none }

/-- The target that keeps the slot (R95): the one of most members; on a tie the next group if `tie` says so and it is
among them, else the lowest. -/
def keepTarget (tie : Bool) (next : Pc) (ts : List Pc) : Pc :=
  ts.foldl (fun k p =>
    let a := ts.count k
    let b := ts.count p
    if a < b || (a = b && (if tie then p = next else p.toNat < k.toNat)) then p else k) (ts.headD next)

/-- Whether a tie goes to the fall-through side (R95). -/
def tieNext : Instr → Bool
  | .br _ _ _ => true
  | .bruUni _ _ _ => true
  | _ => false

/-- The target of a member that goes on. -/
def Fate.target (next : Pc) : Fate → Option Pc
  | .next => some next
  | .done _ => some next
  | .goto p => some p
  | _ => none

/-- Whether a member that leaves at its group has executed it, so that a DQ entry it popped is gone (R188). -/
def Status.executed : Status → Bool
  | .barred _ => true
  | _ => false

/-- One member after its fate, traps excepted. -/
def settleMember (is : Issue) (keep : Pc) (s : State) (x : Member × Fate) : State :=
  let (m, f) := x
  let stay := fun (v : Option Quad) (pc : Pc) => is.modThread s m.tlin fun t =>
    let t := goOn is m t v
    if pc = keep then { t with pc := pc } else t.ready pc
  match f with
  | .next => stay none is.next
  | .done v => stay (some v) is.next
  | .goto p => stay none p
  | .leave st pc => is.modThread s m.tlin fun t =>
      { t with status := st, pc := pc, age := 0, ring := [],
               rp := if m.pop && (pc ≠ is.g.start || st.executed) then t.rp + 1 else t.rp,
               mask := if is.q.cls = .home && pc = is.g.start then t.mask else none }
  | .trap _ _ _ _ => s

/-- The registers that the group's result makes late, with their latencies (R93): 64 + p is predicate p, 200 + i is
latch i. A crossed member's 2 cycles are added to the 24 of a load that the L1 holds (R222) too, of which R93 says only that it
returns through the scoreboard (log 93: DESIGN CHOICE). -/
def resultHazards (is : Issue) (now : Nat) (crossed : Bool) : List (Nat × Nat) :=
  let reg := now + is.q.lat + (if crossed then 2 else 0)
  let regs := if is.q.nw then [] else (List.range is.q.dst.2).map fun i => (is.q.dst.1 + i, reg)
  let prd := match is.q.pd with
    | some p => [(64 + p, reg)]
    | none => []
  let latch := if is.pure || is.q.ring = .group then [(200, now + is.q.lat - 2)] else []
  regs ++ prd ++ latch

/-- The hazards that remain, the latches moved on. -/
def shiftHazards (is : Issue) (hs : List (Nat × Nat)) : List (Nat × Nat) :=
  if is.q.ring = .none then hs
  else (hs.filter fun h => h.1 < 200 || (is.pure && h.1 < 203)).map fun h =>
    if 200 ≤ h.1 then (h.1 + 1, h.2) else h

/-- The slot after an issue: who is left, and what the issue port and the next group must wait for. -/
def noteIssue (s : State) (is : Issue) (stay : List (Nat × Nat)) (n c : Nat) : State :=
  let now := (s.core is.core).cycle
  s.modQuad is.core is.quad fun q =>
    match tget q.slots is.slot with
    | none => { q with lastSlot := is.slot, busy := now + portCycles is.q is.g n c }
    | some w =>
      let w' := { w with
        members := stay
        emptyRing := if is.pure || is.q.ring = .group then false else if is.q.ring = .none then w.emptyRing else true
        lastIssue := now
        hazards := resultHazards is now (0 < c) ++ (shiftHazards is w.hazards).filter (fun h => now < h.2)
        from_ := if is.q.jump then max w.from_ (now + 3) else w.from_ }
      { q with lastSlot := is.slot, busy := now + portCycles is.q is.g n c
               slots := if stay.isEmpty then tdel q.slots is.slot else tset q.slots is.slot w' }

/-- Inserting a trap in ascending tlin order, and sorting a collection (R113, R208). -/
def insertTrap : List TrapReq → TrapReq → List TrapReq
  | [], r => [r]
  | x :: xs, r => if r.tlin < x.tlin then r :: x :: xs else x :: insertTrap xs r

def sortTraps (rs : List TrapReq) : List TrapReq := rs.foldl insertTrap []

/-- The end of an issue: every member's fate takes effect, the side with most members keeps the slot, and the traps are
collected (R94, R95, R97, R113). -/
def finish (s : State) (is : Issue) (fs : List (Member × Fate)) : State :=
  let ts := fs.filterMap fun x => x.2.target is.next
  let keep := keepTarget (tieNext is.i) is.next ts
  let s := fs.foldl (settleMember is keep) s
  let stay := (fs.filter fun x => x.2.target is.next = some keep).map fun x => (x.1.tlin, x.1.lane)
  let c := (fs.filter fun x => x.1.lane ≠ x.1.tlin % 32).length
  let traps : List TrapReq := fs.filterMap fun x => match x.2 with
    | .trap cause taddr detail tpc => some ⟨x.1.tlin, cause, tpc.getD is.g.start, taddr, detail, none⟩
    | _ => none
  takeTraps (noteIssue s is stay fs.length c) is.blk (sortTraps traps)

/-! ## The group before its own effect -/

/-- What an instruction does with the members of an issue, in ascending tlin order. -/
abbrev Body := State → Issue → List Member → State × List (Member × Fate)

/-- Traps that are taken before the next issue, or at the first group that R442 does not let the member issue; each is
collected alone (R312, R444). -/
def takeLate (s : State) (is : Issue) : State :=
  (is.warp s).members.foldl (fun s m =>
    let t := is.thread s m.1
    match t.late with
    | some l =>
      if l.soon || !is.allowed (t.pending ||| l.regs) then
        takeTraps s is.blk [⟨m.1, l.cause, l.tpc, l.taddr, l.detail.toNat, some is.g.start⟩]
      else s
    | none => s) s

/-- Where a member that leaves before a group of its warp resumes: at its chain head, unless no later group can read the
ring (R64, R111). -/
def Issue.resume (is : Issue) (t : Thread) : Pc := if keepsRing is.q is.g then (chainHead t.ring).getD is.g.start else is.g.start

/-- The fate of a member that R442 holds back from the group. -/
def heldFate (is : Issue) (t : Thread) : Option Fate :=
  if t.held && !is.allowed t.pending then some (.leave (.waiting .replay) (is.resume t)) else none

/-- Members that wait for a pending register of the group, or that R442 holds back, leave (R96, R111). -/
def pendingFate (is : Issue) (t : Thread) : Option Fate :=
  if t.pending &&& is.regs ≠ 0 then some (.leave (.waiting (.regs (t.pending &&& is.regs))) (is.resume t))
  else heldFate is t

/-- One member's guard and source values, or the fate that they give it. -/
def evalMember (s : State) (is : Issue) (m : Nat × Nat) : Member × Option Fate :=
  let t := is.thread s m.1
  let on := match is.g.guard with
    | some (p, inv) => t.pred p != inv
    | none => true
  if !on then (⟨m.1, m.2, false, {}, false⟩, none)
  else match laneVals s (is.block s) m.1 m.2 t is.q is.g with
    | .bad => (⟨m.1, m.2, true, {}, false⟩, some (.trap causeIllopnd 0 0 none))
    | .wait => (⟨m.1, m.2, true, {}, false⟩, some (.leave (.waiting .dq) is.g.start))
    | .vals v pop => (⟨m.1, m.2, true, v, pop⟩, none)

/-- A member and its fate before the instruction's own effect, if it has one. -/
def preMember (s : State) (is : Issue) (m : Nat × Nat) : Member × Option Fate :=
  match pendingFate is (is.thread s m.1) with
  | some f => (⟨m.1, m.2, true, {}, false⟩, some f)
  | none => evalMember s is m

/-- Members that R442 holds back from a group which traps before it issues leave it; the others are answered. -/
def leaveHeld (s : State) (is : Issue) (ms : List (Nat × Nat)) : State × List (Nat × Nat) :=
  ms.foldl (fun r m => match heldFate is (is.thread s m.1) with
    | some (.leave st pc) => (is.modThread r.1 m.1 fun t => { t with status := st, pc := pc, age := 0, ring := [] }, r.2)
    | _ => (r.1, r.2 ++ [m])) (s, [])

/-- Every member of a group that traps as it is decoded or fetched takes the trap, once R442 lets it (R71, R442). -/
def trapAll (s : State) (is : Issue) (cause : BitVec 8) (taddr : Quad) (detail : Nat) : State :=
  let r := leaveHeld s is (is.warp s).members
  noteIssue (takeTraps r.1 is.blk (r.2.map fun m => ⟨m.1, cause, is.g.start, taddr, detail, none⟩)) is [] (is.warp s).members.length 0

/-- The outcome of the checks: the issue is over, or the instruction acts on the members given, beside those whose fate
is settled. -/
inductive Prep where
  | halt (s : State)
  | go (s : State) (is : Issue) (ms : List Member) (fs : List (Member × Fate))
  deriving DecidableEq, Repr

/-- Of members at a home-bound group, those with a fate leave or trap; the others disperse. -/
def homeLeave (s : State) (is : Issue) (ms : List (Nat × Nat)) (fs : List (Nat × Fate)) : State :=
  let rest := ms.filter fun m => !fs.any fun f => f.1 = m.1
  let traps : List TrapReq := fs.filterMap fun x => match x.2 with
    | .trap cause taddr detail tpc => some ⟨x.1, cause, tpc.getD is.g.start, taddr, detail, none⟩
    | _ => none
  let s := fs.foldl (fun s x => match x.2 with
    | .leave st pc => is.modThread s x.1 fun t => { t with status := st, pc := pc, age := 0, ring := [] }
    | _ => s) s
  let s := takeTraps s is.blk (sortTraps traps)
  disperse s is rest

/-- The members of a home-bound group that R442 holds back, which do not arrive at it. -/
def heldOut (s : State) (is : Issue) (ms : List (Nat × Nat)) : List (Nat × Fate) :=
  ms.filterMap fun m => (heldFate is (is.thread s m.1)).map fun f => (m.1, f)

/-- The checks of a group, once its members are known (R71, R96, R109, R113, R442). A home-bound group issues only if no
member of the set has to wait; members that trap at its issue leave the others to finish it. -/
def checks (s : State) (is : Issue) (ms : List (Nat × Nat)) : Prep :=
  let go := fun (s : State) =>
    let pre := ms.map (preMember s is)
    Prep.go s is ((pre.filter fun x => x.2.isNone).map Prod.fst) (pre.filterMap fun x => x.2.map fun f => (x.1, f))
  if is.q.cls = .home then
    let held := heldOut s is ms
    match arriveAll s is (ms.filter fun m => !held.any fun f => f.1 = m.1), held with
    | (s, []), [] =>
      if !inPlace s is ms then .halt (disperse s is ms)
      else
        let waits := ms.filterMap fun m => match preMember s is m with
          | (_, some (.leave st pc)) => some (m.1, Fate.leave st pc)
          | _ => none
        if waits.isEmpty then go s else .halt (homeLeave s is ms waits)
    | (s, fs), held => .halt (homeLeave s is ms (fs ++ held))
  else go s

/-- The group up to its own effect: top-up, late traps, decode traps, convergence, pending registers, guards and source
values, in the order of R71. -/
def prepare (s : State) (i : Instr) : Prep :=
  match findIssue s i with
  | none => .halt (closeGroup s)
  | some is =>
    let s := takeLate (topUp (closeGroup s) is) is
    let ms := (is.warp s).members
    match decodeTrap false (s.launchOf (is.block s)).regsPer is.g i is.q with
    | some cause => .halt (trapAll s is cause 0 0)
    | none => if ms.isEmpty then .halt s else checks s is ms

/-- A group that a warp issues. -/
def laneIssue (s : State) (i : Instr) (body : Body) : State :=
  match prepare s i with
  | .halt s => s
  | .go s is ms fs =>
    let (s, gs) := body s is ms
    finish s is (fs ++ gs)

/-- An encoding that is no instruction (R70): every member takes ILLEGAL. -/
def laneIllegal (s : State) (bytes : Nat) : State :=
  match findIssue s .bkpt with
  | none => closeGroup s
  | some is =>
    let is := { is with next := is.g.next + BitVec.ofNat 57 bytes }
    trapAll (takeLate (topUp (closeGroup s) is) is) is causeIllegal 0 0

/-! ## Bodies -/

/-- A body that treats the members whose guard is true one by one; the others go on. -/
def eachMember (f : State → Issue → Member → State × Fate) : Body
  | s, _, [] => (s, [])
  | s, is, m :: ms =>
    let (s, x) := if m.on then f s is m else (s, .next)
    let (s, xs) := eachMember f s is ms
    (s, (m, x) :: xs)

/-- A body that sees all members at once and changes nothing but them. -/
def allMembers (f : State → Issue → List Member → Member → Fate) : Body := fun s is ms =>
  (s, ms.map fun m => (m, if m.on then f s is ms m else .next))

/-- A pure integer instruction of width 32 or 64: none is a division by 0 (R122, R129). -/
def intMember (f : Thread → Group → Vals → Option Quad) (s : State) (is : Issue) (m : Member) : State × Fate :=
  match f (is.thread s m.tlin) is.g m.v with
  | some v => (s, .done v)
  | none => (s, .trap causeIdivz 0 0 none)

/-- A pure floating-point instruction: flags are raised, and an enabled one traps (R143, R151). -/
def floatMember (f : Thread → Group → Vals → FRes) (s : State) (is : Issue) (m : Member) : State × Fate :=
  let t := is.thread s m.tlin
  let r := f t is.g m.v
  let s := is.modThread s m.tlin fun t => t.raise r.flags
  if fpeTraps t r then (s, .trap causeFpe 0 (fpeDetail r) none) else (s, .done (BitVec.ofNat 64 r.val))

/-! ## The front thread -/

/-- A group at its issue by a front thread. -/
structure FrontIssue where
  core : Nat
  fcx  : Nat
  blk  : Nat
  next : Pc
  g    : Group
  i    : Instr
  q    : Sig
  v    : Vals
  deriving DecidableEq, Repr

/-- What a group does with the front thread. -/
inductive FrontFate where
  | next
  | done (v : Quad)
  | done2 (v w : Quad)
  | goto (pc : Pc)
  /-- It stalls, and goes on at the next group when the condition comes. -/
  | stall (w : Stall)
  /-- It stalls and issues this group again. -/
  | again (w : Stall)
  | stop
  | trap (cause : BitVec 8) (taddr : Quad) (detail : Nat) (tpc : Option Pc)
  deriving DecidableEq, Repr

/-- The block whose front thread holds a front context of a core. -/
def frontBlock (s : State) (core fcx : Nat) : Option Nat :=
  (s.blocks.find? fun p => match p.2.place with
    | some q => q.core = core && q.fcx = fcx
    | none => false).map Prod.fst

/-- The front thread of an issue. -/
def FrontIssue.block (is : FrontIssue) (s : State) : Block :=
  (s.block is.blk).getD { launch := 0, ctx := 0, b := 0, bx := 0, byy := 0, bz := 0, place := none, threads := [], front := { pc := 0, regs := [] } }

def FrontIssue.front (is : FrontIssue) (s : State) : Front := (is.block s).front

/-- The group that the current front agent issues. -/
def findFront (s : State) (i : Instr) : Option FrontIssue :=
  match s.cur with
  | .front core fcx =>
    (frontBlock s core fcx).map fun k =>
      let pc := ((s.block k).map fun b => b.front.pc).getD 0
      let g := s.grp.getD { start := pc, next := pc }
      let q := shape i
      { core := core, fcx := fcx, blk := k, next := g.next + BitVec.ofNat 57 (sigBytes q), g := g, i := i, q := q, v := {} }
  | .lane _ _ _ => none

/-- Writing a front result. -/
def writeFront (q : Sig) (f : Front) (v : Quad) : Front :=
  match q.pd with
  | some p => f.setPred p (v ≠ 0)
  | none => if q.dst.2 = 0 then f else f.setReg q.dst.1 v

/-- The registers that a front result makes late (R335). -/
def frontHazards (is : FrontIssue) (now : Nat) : List (Nat × Nat) :=
  (if is.q.dst.2 = 0 then [] else (List.range is.q.fdst).map fun i => (is.q.dst.1 + i, now + is.q.flat))
  ++ (match is.q.pd with
      | some p => [(64 + p, now + is.q.flat)]
      | none => [])

/-- The end of a front issue. -/
def finishFront (s : State) (is : FrontIssue) (f : FrontFate) : State :=
  let now := (s.core is.core).cycle
  let note := fun (t : Front) =>
    { t with hazards := frontHazards is now ++ t.hazards.filter (fun (h : Nat × Nat) => now < h.2) }
  let s := s.modCore is.core fun c => { c with lastFcx := is.fcx, frontBusy := now + 1 }
  match f with
  | .next => s.modFront is.blk fun t => { t with pc := is.next }
  | .done v => s.modFront is.blk fun t => { note (writeFront is.q t v) with pc := is.next }
  | .done2 v w => s.modFront is.blk fun t =>
      { note ((t.setReg is.q.dst.1 v).setReg (is.q.dst.1 + 1) w) with pc := is.next }
  | .goto p => s.modFront is.blk fun t => { t with pc := p, from_ := now + 3 }
  | .stall w => s.modFront is.blk fun t => { t with pc := is.next, status := .stalled w }
  | .again w => s.modFront is.blk fun t => { t with pc := is.g.start, status := .stalled w }
  | .stop => s.modFront is.blk fun t => { t with pc := is.next, status := .done }
  | .trap cause taddr detail tpc => takeFrontTrap s is.blk ⟨0, cause, tpc.getD is.g.start, taddr, detail, none⟩

/-- The scope of a group: EXT.C replaces the field (R57). -/
def scopeOf (g : Group) (sc : BitVec 3) : Nat := if g.extC.isSome then g.scope else sc.toNat

/-- The ordering and scope of a memory group that orders accesses even where it is guarded off (R266). -/
def orderOf (g : Group) : Instr → Nat × Nat
  | .ld _ _ sc r _ _ => (r.toNat, scopeOf g sc)
  | .st _ _ sc r _ _ => (r.toNat, scopeOf g sc)
  | .atom _ _ sc r _ _ => (r.toNat, scopeOf g sc)
  | .red _ _ sc r _ _ => (r.toNat, scopeOf g sc)
  | _ => (0, 0)

/-- A FENCE of a front thread: it stalls until the conditions hold (R233). -/
def frontFence (s : State) (is : FrontIssue) (ord scope : Nat) : State × FrontFate :=
  if fenceOk s is.blk none ord scope s.nextAcc then (fenceDone s is.blk none ord scope, .next)
  else (s, .stall (.fence ord scope s.nextAcc))

/-- A front group that is guarded off: a memory group keeps its ordering part (R266). -/
def frontOff (s : State) (is : FrontIssue) (i : Instr) : State :=
  let o := orderOf is.g i
  let r := if o.1 = 0 then (s, .next) else frontFence s is o.1 o.2
  finishFront r.1 is r.2

/-- A front group up to its own effect: a late trap (R312), decode traps (R71) and the guard. The state is handed back
with the issue, or the group is over. -/
def frontPrepare (s : State) (i : Instr) : State ⊕ State × FrontIssue :=
  match findFront s i with
  | none => .inl (closeGroup s)
  | some is =>
    let s := closeGroup s
    let t := is.front s
    match t.late, decodeTrap true 64 is.g i is.q with
    | some l, _ => .inl (takeFrontTrap s is.blk ⟨0, l.cause, is.g.start, l.taddr, l.detail.toNat, none⟩)
    | none, some cause => .inl (finishFront s is (.trap cause 0 0 none))
    | none, none =>
      let on := match is.g.guard with
        | some (p, inv) => t.pred p != inv
        | none => true
      if on then .inr (s, { is with v := frontVals s (is.block s) is.q is.g }) else .inl (frontOff s is i)

/-- A group that a front thread issues. -/
def frontIssue (s : State) (i : Instr) (body : State → FrontIssue → State × FrontFate) : State :=
  match frontPrepare s i with
  | .inl s => s
  | .inr (s, is) =>
    let (s, f) := body s is
    finishFront s is f

/-- An encoding that is no instruction, in front code (R70). -/
def frontIllegal (s : State) : State :=
  match findFront s .bkpt with
  | none => closeGroup s
  | some is => finishFront (closeGroup s) is (.trap causeIllegal 0 0 none)

/-- A front body for lane-only words: the decode trap has stopped them before. -/
def noFront (s : State) (_ : FrontIssue) : State × FrontFate := (s, .next)

/-- A lane body for front-only words. -/
def noLane : Body := fun s _ ms => (s, ms.map fun m => (m, .next))

/-! ## One meaning for both kinds of agent -/

/-- A group issued by the agent whose turn it is. -/
def issue (s : State) (i : Instr) (body : Body) (front : State → FrontIssue → State × FrontFate) :
    Result :=
  .next (match s.cur with
    | .lane _ _ _ => laneIssue s i body
    | .front _ _ => frontIssue s i front)

end Sys2Proof.Machine
end

