-- ==== Sys2Proof/Machine/Prefix.lean ====
section
/-! DEFINITION. The prefixes GUARD, EXT.I and EXT.C (R54 to R59): each joins the group that its agent is reading, and
the group issues with its instruction (R34). -/

namespace Sys2Proof.Machine

/-- The pc of the current agent. -/
def agentPc (s : State) : Option Pc :=
  match s.cur with
  | .lane core quad slot => (tget ((s.core core).quad quad).slots slot).map (warpPc s)
  | .front core fcx => ((frontBlock s core fcx).bind s.block).map fun b => b.front.pc

/-- A prefix of `bytes` bytes joins the group. -/
def joinGroup (s : State) (bytes : Nat) (f : Group → Group) : Result :=
  .next (match agentPc s with
    | none => closeGroup s
    | some pc =>
      let g := s.grp.getD { start := pc, next := pc }
      { s with grp := some { f g with next := g.next + BitVec.ofNat 57 bytes } })

/-- A prefix with a reserved bit set: the group is ILLEGAL, once it has been fetched whole (R71). -/
def joinBad (bytes : Nat) (s : State) : Result := joinGroup s bytes fun g => { g with bad := true }

/-- GUARD (R55). -/
def execGuard (inv : BitVec 1) (p : BitVec 3) (s : State) : Result :=
  joinGroup s 2 fun g => { g with guard := some (p.toNat, inv = 1), twice := g.twice || g.guard.isSome }

/-- An EXT word joins the prefixes; a second one is noted (R59). -/
def Group.withExt (g : Group) (x : Ext) : Group := { g with exts := x :: g.exts, twice := g.twice || !g.exts.isEmpty }

/-- EXT.I (R56). -/
def execExtI (i : BitVec 24) (s : State) : Result :=
  joinGroup s 4 fun g => g.withExt (.i i)

/-- EXT.C (R57): scope, na, sat, rm and c from the top. -/
def execExtC (sc : BitVec 3) (n : BitVec 4) (t : BitVec 1) (r : BitVec 3) (c : BitVec 8) (s : State) : Result :=
  joinGroup s 4 fun g => g.withExt (.c (sc ++ n ++ t ++ r ++ c))

end Sys2Proof.Machine
end

