-- ==== Sys2Proof/Machine/Fetch.lean ====
section
/-! DEFINITION. Fetching the current agent's next word and what a fetch fault does (R33, R71, R445, R465). -/

namespace Sys2Proof.Machine

/-- What fetching a word gives: its instruction, if the bits are one, with its length; an immediate PROTECT; a
recoverable fault; uncorrectable data; a line that the host still has to send; or nothing, in a context that is not live. -/
inductive Fetched where
  | word (i : Option Instr) (bytes : Nat)
  /-- A GUARD or EXT.C with a reserved bit set: the group goes on to its instruction. -/
  | badPrefix (bytes : Nat)
  | protect (detail : Nat)
  | fault (va cause level : Nat)
  | poisoned
  | away (line : Nat)
  | dead
  deriving DecidableEq, Repr

/-- The translation of a fetch: through the core's fetch TLB, then by a walk (R437). -/
def fetchTranslate (s : State) (core ctx va : Nat) : Translation :=
  match translateTlb s (s.core core).ftlb ctx .fetch va with
  | .miss => translate s ctx .fetch va
  | t => t

/-- What a fetch that the fetch TLB misses leaves: the entries that its walk passes in the walk caches, and the leaf that it comes
to, if it is permitted, in the fetch TLB (R437). -/
def fillFetchTlb (s : State) (core ctx va : Nat) : State :=
  match translateTlb s (s.core core).ftlb ctx .fetch va with
  | .miss =>
    let u := fillWalkCache s ctx va
    (match translate s ctx .fetch va, (tget s.ctxs ctx).map fun c => walk s ctx c va with
     | .ok _ _, some (.ok l) => u.modCore core fun c => { c with ftlb := tlbInsert s.now 64 c.ftlb ctx va l }
     | _, _ => u)
  | _ => s

/-- A failed translation as the fetch's outcome. -/
def fetchFailed (va : Nat) : Translation → Fetched
  | .protect d => .protect d
  | .fault cause level => .fault va cause level
  | _ => .dead

/-- One halfword (R33), of the word at `word`. DESIGN CHOICE (log 77): code that software rewrites during a launch is fetched as the home holds it
at the fetch, where R85 lets the old word be fetched too. -/
def fetchHalf (s : State) (core ctx word va : Nat) : Except Fetched Nat :=
  match fetchTranslate s core ctx va with
  | .ok pa _ =>
    match hostAway s pa with
    | some line => .error (.away line)
    | none => if s.poison.contains (lineOf pa) then .error .poisoned else .ok (homeNum s pa 2)
  | t => .error (fetchFailed word t)

/-- A word of the kind of GUARD, or of EXT (R54, R55). -/
def prefixWord (w : Nat) : Bool := w % 64 = 0x3C || w % 256 = 0xFF

/-- What a word read from memory is. -/
def fetchedWord (w n : Nat) : Fetched :=
  match decodeBytes (leBytes n w) with
  | some (.instr i, _) => .word (some i) n
  | _ => if prefixWord w then .badPrefix n else .word none n

/-- The word at an address of a context: a fault on either half is one of the first half's address (R33). -/
def fetchWord (s : State) (core ctx : Nat) (pc : Pc) : Fetched :=
  match fetchHalf s core ctx pc.toNat pc.toNat with
  | .error f => f
  | .ok h =>
    if wordBytes h = 2 then fetchedWord h 2
    else match fetchHalf s core ctx pc.toNat (pc + 2).toNat with
      | .error f => f
      | .ok k => fetchedWord (h + 65536 * k) 4

/-- What fetching the word at an address leaves in the fetch TLB and the walk caches. -/
def fillFetch (s : State) (core ctx : Nat) (pc : Pc) : State :=
  let t := fillFetchTlb s core ctx pc.toNat
  match fetchHalf s core ctx pc.toNat pc.toNat with
  | .ok h => if wordBytes h = 2 then t else fillFetchTlb t core ctx (pc + 2).toNat
  | .error _ => t

/-- The block of the current agent, and where its next word lies. -/
def nextWord (s : State) : Option (Nat × Pc) :=
  match s.cur with
  | .lane core quad slot =>
    (tget ((s.core core).quad quad).slots slot).map fun w =>
      (w.blk, match s.grp with | some g => g.next | none => warpPc s w)
  | .front core fcx =>
    (frontBlock s core fcx).bind fun k => (s.block k).map fun b =>
      (k, match s.grp with | some g => g.next | none => b.front.pc)

/-- The core of an agent. -/
def agentCore : Agent → Nat
  | .lane core _ _ => core
  | .front core _ => core

/-- A word that is no instruction (R70). -/
def noInstruction (s : State) (bytes : Nat) : State :=
  match s.cur with
  | .lane _ _ _ => laneIllegal s bytes
  | .front _ _ => frontIllegal s

/-- A fetch that a trap stops: every member traps at the group, TADDR the word (R71, R442). -/
def fetchTrap (s : State) (pc : Pc) (cause : BitVec 8) (detail : Nat) : State :=
  match s.cur with
  | .lane _ _ _ =>
    (match findIssue s .bkpt with
     | none => closeGroup s
     | some is => trapAll (closeGroup s) is cause (pc.zeroExtend 64) detail)
  | .front _ _ =>
    match findFront s .bkpt with
    | none => closeGroup s
    | some is => finishFront (closeGroup s) is (.trap cause (pc.zeroExtend 64) detail none)

/-- A fetch that PROTECT stops. -/
def fetchProtect (s : State) (pc : Pc) (detail : Nat) : State := fetchTrap s pc causeProtect detail

/-- A fetch in a line that the host still has to send (R462): the line is asked for, and the group is not issued; the agent's
turn has passed. -/
def fetchAway (s : State) (line : Nat) : State :=
  let s := closeGroup (fetchLine s line)
  match s.cur with
  | .lane core quad slot => s.modQuad core quad fun q => { q with lastSlot := slot }
  | .front core fcx => s.modCore core fun c => { c with lastFcx := fcx }

/-- A fetch that faults recoverably: every member waits at the group, or at its chain head (R110), and the fetch is replayed
(R445). -/
def fetchWait (s : State) (va cause level : Nat) : State :=
  match s.cur with
  | .lane _ _ _ =>
    (match findIssue s .bkpt with
     | none => closeGroup s
     | some is =>
       let ms := (is.warp s).members
       let ctx := (is.block s).ctx
       let s := ms.foldl (fun s m =>
         raiseFault (is.modThread s m.1 fun t => t.waitAt ((chainHead t.ring).getD is.g.start) .fetch) ctx va 4 cause level (.fetch is.blk (some m.1) va is.g.start))
         (closeGroup s)
       s.modQuad is.core is.quad fun q => { q with slots := tdel q.slots is.slot })
  | .front _ _ =>
    match findFront s .bkpt with
    | none => closeGroup s
    | some is =>
      let ctx := (is.block s).ctx
      raiseFault (finishFront (closeGroup s) is (.again .fetch)) ctx va 4 cause level (.fetch is.blk none va is.g.start)

end Sys2Proof.Machine
end

