-- ==== Sys2Proof/Machine/LoadStore.lean ====
section
/-! DEFINITION. Global memory instructions of lanes and front threads (R217 to R235, R246 to R250, R265, R266). -/

namespace Sys2Proof.Machine

/-! ## Addresses and checks -/

/-- The offset of a group (R227), in bytes: EXT.I's, or the field times the unit. -/
def offsetOf (g : Group) (off : BitVec 4) (unit : Nat) : Quad :=
  match g.extI with
  | some i => i.signExtend 64
  | none => off.signExtend 64 * BitVec.ofNat 64 unit

/-- Bytes of a size code (R43), and whether it sign-extends. -/
def sizeBytes (z : Nat) : Nat :=
  match z with
  | 0 => 1
  | 5 => 1
  | 1 => 2
  | 6 => 2
  | 2 => 4
  | 3 => 8
  | _ => 16

/-- The checks of R250 up to translation: cause and DETAIL. -/
def accessCheck (s : State) (core ctx : Nat) (va : Quad) (width n : Nat) (write : Bool) : Option (BitVec 8 × Nat) :=
  if va.toNat % width ≠ 0 then some (causeMisalign, 0)
  else if 2 ^ 57 ≤ va.toNat then some (causeProtect, 3)
  else match lashedBy (s.core core) (.global ctx va.toNat (va.toNat + n)) write with
    | some e => some (causeLashed, lashedDetail e write false)
    | none => none

/-- A read that has been served at once: its read set and registers. -/
def takeRead (s : State) (a : Acc) (v : Nat) : State :=
  let s := sawRead s a
  match a.dest with
  | some d => s.deliver a.blk a.who d (destValue a v)
  | none => s

/-- The descriptor of a PRDEF has been read at once (R309): its line joins the read set, and the definition travels to every
slice. -/
def takeDef (s : State) (a : Acc) (v : Nat) : State :=
  let s := sawRead s a
  { s with net := s.net ++ [.prdef a.blk a (BitVec.ofNat 512 v)] }

/-- An access whose destination becomes pending (R96). -/
def setPending (s : State) (a : Acc) : State :=
  match a.who, a.dest with
  | some t, some d => s.modThread a.blk t fun th => { th with pending := th.pending ||| d.mask }
  | _, _ => s

/-- The id of a new access. -/
def newAcc (s : State) : State := { s with nextAcc := s.nextAcc + 1 }

/-! ## Lane accesses -/

/-- A rejected member (R221): it retries 8 cycles later, or joins the aged queue at its fourth rejection. -/
def rejectMember (s : State) (is : Issue) (m : Member) (w : Walk) : State × Fate :=
  let n := (is.thread s m.tlin).rejects + 1
  let s := is.modThread s m.tlin fun t => { t with rejects := n }
  if n < 4 then (s, .leave (.waiting (.rejected (s.now + 8))) is.g.start)
  else (s.modCore is.core fun c => { c with aged := c.aged ++ [{ w with pop := m.pop }] }, .leave (.waiting .agedQueue) is.g.start)

/-- A member whose access waits beyond the L1 goes on, its destination pending (R96); one that pops waits (R177). -/
def goneOn (s : State) (is : Issue) (m : Member) (w : Walk) (held : Bool) (go : Fate) : State × Fate :=
  let s := is.modThread (setPending s w.acc) m.tlin fun t =>
    { t with rejects := 0, csp := w.csp.getD t.csp, held := t.held || held }
  (s, match w.acc.kind with
    | .pop => .leave (.waiting .pop) is.g.start
    | _ => go)

/-- A member whose access faults recoverably (R442): it takes a log entry and goes on; with the log full it leaves and makes
none of its access. -/
def logMember (s : State) (is : Issue) (m : Member) (w : Walk) (cause level : Nat) (go : Fate) : State × Fate :=
  let a := w.acc
  if 64 ≤ ((s.core is.core).quad is.quad).log.length then (s, .leave (.waiting .logFull) is.g.start)
  else
    let s := (newAcc s).modQuad is.core is.quad fun q => { q with log := q.log ++ [a] }
    let r := goneOn s is m w true go
    (raiseFault r.1 (is.block s).ctx a.faultAt a.kind.kindBits cause level (.acc is.core is.quad a), r.2)

/-- An access is pending, and its walk is under way (R437); a b128 one may be two (R269). -/
def walkAcc (s : State) (w : Walk) : State :=
  let accs := if torn s w.acc then w.acc.halves s.now else [w.acc]
  { (s.modCore w.core fun c => { c with pend := c.pend ++ accs }) with
    walks := s.walks ++ accs.map fun a => { w with acc := a }
    nextAcc := s.nextAcc + (accs.length - 1) }

/-- An access of a member after the checks: translated, made, and the member's fate. `go` is its fate when the access is
made or under way, `w` says where it goes on, and `hit` treats a value served at once; `forced` rejects it, as another member of
its sector has been (R221). After a TLB miss the access is pending while its walk is under way, and the member goes on as after
a miss (R96, R437). -/
def performAccess (forced : Bool) (s : State) (is : Issue) (m : Member) (w : Walk) (go : Fate)
    (hit : State → Acc → Nat → State × Fate) : State × Fate :=
  let a := w.acc
  let ctx := (is.block s).ctx
  match translateTlb s (s.core is.core).dtlb ctx a.kind.accessMode a.va.toNat with
  | .protect d => (s, .trap causeProtect a.va d none)
  | .ok pa coh =>
    let a := { a with pa := pa, coh := coh }
    if forced then rejectMember s is m { w with acc := a }
    else
    (match issueAccess (newAcc s) is.core a with
     | (s, .value v) =>
       let s := is.modThread s m.tlin fun t => { t with rejects := 0, csp := w.csp.getD t.csp }
       if a.kind.reads then hit s a v else (s, go)
     | (s, .pending) => goneOn s is m w false go
     | (s, .rejected) => rejectMember s is m { w with acc := a }
     | (s, .stageFull) => (s, .leave (.waiting .stage) is.g.start)
     | (s, .bad) => (s, .trap causeEccdata a.va 0 none))
  | _ =>
    match translate s ctx a.kind.accessMode a.va.toNat with
    | .protect d => (fillWalkCache s ctx a.va.toNat, .trap causeProtect a.va d none)
    | .fault cause level => logMember (fillWalkCache s ctx a.va.toNat) is m w cause level go
    | .ok pa coh =>
      let w := { w with acc := { a with pa := pa, coh := coh, walking := true }, on := true }
      goneOn (walkAcc (newAcc s) w) is m w false go
    | .miss => (s, go)

/-- An access of a member: the checks of R250 in order. -/
def laneAccess (forced : Bool) (s : State) (is : Issue) (m : Member) (a : Acc) (width : Nat) (csp : Option Quad) (next : Pc)
    (go : Fate) (hit : State → Acc → Nat → State × Fate) : State × Fate :=
  match accessCheck s is.core (is.block s).ctx a.va width a.size (a.kind.accessMode = .write) with
  | some (cause, detail) => (s, .trap cause a.va detail none)
  | none => performAccess forced s is m { core := is.core, quad := is.quad, acc := a, next := next, csp := csp } go hit

/-- The access of a member, without its kind and data. -/
def memberAcc (s : State) (is : Issue) (m : Member) (kind : AccKind) (va : Quad) (size : Nat) : Acc :=
  { id := s.nextAcc, blk := is.blk, who := some m.tlin, grp := is.g.start, kind := kind, va := va, size := size, time := s.now }

/-- Members that fence: the warp goes on at once, or keeps its slot until the conditions hold (R233, R266). -/
def fenceMembers (s : State) (is : Issue) (ts : List Nat) (ord scope : Nat) : State :=
  if ord = 0 || ts.isEmpty then s
  else if ts.all fun t => fenceOk s is.blk (some t) ord scope s.nextAcc then
    ts.foldl (fun s t => fenceDone s is.blk (some t) ord scope) s
  else is.modWarp s fun w => { w with fencing := some (ord, scope, s.nextAcc) }

/-- The sector of an access that passes the checks of R250 up to translation: its physical line (R217, R220). -/
def sectorOf (s : State) (is : Issue) (width : Nat) (a : Acc) : Option Nat :=
  let ctx := (is.block s).ctx
  match accessCheck s is.core ctx a.va width a.size (a.kind.accessMode = .write) with
  | some _ => none
  | none => match peekCore s is.core ctx a.kind.accessMode a.va.toNat with
    | .ok pa _ => some (lineOf pa)
    | _ => none

/-- The members of a group by the sectors they touch, in ascending order (R220). -/
def sectorsOf (key : Member → Option Nat) (ms : List Member) : Tab (List Member) :=
  ms.foldl (fun t m => match key m with
    | some k => tset t k ((tget t k).getD [] ++ [m])
    | none => t) []

/-- Whether a member has been rejected. -/
def Fate.rejected : Fate → Bool
  | .leave (.waiting (.rejected _)) _ => true
  | .leave (.waiting .agedQueue) _ => true
  | _ => false

/-- Sectors one after another: a sector of which any access is rejected is rejected as a whole (R221). -/
def eachSector (f : Bool → State → Issue → Member → State × Fate) : State → Issue → List (List Member) →
    State × List (Member × Fate)
  | s, _, [] => (s, [])
  | s, is, ms :: rest =>
    let r := eachMember (f false) s is ms
    let r := if r.2.any fun x => x.2.rejected then eachMember (f true) s is ms else r
    let q := eachSector f r.1 is rest
    (q.1, r.2 ++ q.2)

/-- A global memory group: each member whose guard is true in order of its sector, those that no sector counts, then the fences
of the others, and the time for which the engine takes no further memory group (R220). `acc` is a member's access, of this
width. -/
def memoryBody (ord : Nat) (scope : Group → Nat) (width : Nat) (acc : State → Issue → Member → Acc)
    (f : Bool → State → Issue → Member → State × Fate) : Body := fun s is ms =>
  let on := ms.filter Member.on
  let off := ms.filter fun m => !m.on
  let key := fun m => sectorOf s is width (acc s is m)
  let sectors := sectorsOf key on
  let (s, xs) := eachSector f s is (sectors.map Prod.snd ++ [on.filter fun m => (key m).isNone])
  let s := fenceMembers s is (off.map Member.tlin) ord (scope is.g)
  let s := s.modCore is.core fun c => { c with lsBusy := c.cycle + ceilDiv sectors.length 4 }
  (s, xs ++ off.map fun m => (m, .next))

/-- The address of a member's access (R227). -/
def laneAddr (a : BitVec 6) (off : Group → Quad) (s : State) (is : Issue) (m : Member) : Quad :=
  (is.thread s m.tlin).pair a.toNat + off is.g

/-! ## Front accesses -/

/-- The access of a front thread. -/
def frontAcc (s : State) (is : FrontIssue) (kind : AccKind) (va : Quad) (size : Nat) : Acc :=
  { id := s.nextAcc, blk := is.blk, who := none, grp := is.g.start, kind := kind, va := va, size := size, time := s.now }

/-- A front access: the checks of R250, then a value, which an L1 hit returns in 24 cycles (R335), a stall, or the next
group. -/
def frontAccess (s : State) (is : FrontIssue) (a : Acc) (width : Nat) : State × FrontFate :=
  let ctx := (is.block s).ctx
  match accessCheck s is.core ctx a.va width a.size (a.kind.accessMode = .write) with
  | some (cause, detail) => (s, .trap cause a.va detail none)
  | none =>
    match coreTranslate s is.core ctx a.kind.accessMode a.va.toNat with
    | (s, .protect d) => (s, .trap causeProtect a.va d none)
    | (s, .fault cause level) =>
      (raiseFault s ctx a.va.toNat a.kind.kindBits cause level (.fetch is.blk none a.va.toNat is.g.start), .again .fetch)
    | (s, .miss) => (s, .again .fetch)
    | (s, .ok pa coh) =>
      let a := { a with pa := pa, coh := coh }
      let clear := fun (s : State) => s.modFront is.blk fun f => { f with rejects := 0 }
      match issueAccess (newAcc s) is.core a with
      | (s, .value v) => (match a.kind with
          | .record => submitRead (sawRead (clear s) a) is.blk v
          | .desc => (sawRead (clear s) a).modFront is.blk fun f => { f with latched := some v }
          | _ => if a.dest.isSome then
              (takeRead (clear s) a v).modFront is.blk fun f => { f with from_ := (s.core is.core).cycle + 24 }
            else clear s, .next)
      | (s, .pending) => (clear s, match a.kind with
          | .record => .stall .launch
          | .desc => .again .load
          | _ => if a.dest.isSome then .stall .load else .next)
      | (s, .stageFull) => (s, .again .stage)
      | (s, .bad) => (s, .trap causeEccdata a.va 0 none)
      | (s, .rejected) =>
        let n := (is.front s).rejects + 1
        let s := s.modFront is.blk fun f => { f with rejects := n }
        if n < 4 then (s, .again (.rejected (s.now + 8)))
        else (s.modCore is.core fun c => { c with aged := c.aged ++ [{ core := is.core, quad := 0, acc := a, next := is.next }] },
              .again .agedQueue)

/-! ## Loads, stores and atomics -/

/-- LD (R229). -/
def execLd (o : BitVec 4) (z sc : BitVec 3) (r : BitVec 2) (a d : BitVec 6) (s : State) : Result :=
  let n := sizeBytes z.toNat
  let off := fun g => offsetOf g o n
  let acc := fun (x : Acc) (g : Group) (k : Nat) =>
    { x with scope := scopeOf g sc, acq := r = 1, dest := some ⟨d.toNat, k, 5 ≤ z.toNat⟩ }
  let lane := fun s is m => acc (memberAcc s is m .load (laneAddr a off s is m) n) is.g (Sig.sizeRegs z.toNat)
  issue s (.ld o z sc r a d)
    (memoryBody r.toNat (fun g => scopeOf g sc) n lane fun forced s is m =>
      laneAccess forced s is m (lane s is m) n none is.next .next fun s a v => (takeRead s a v, .next))
    fun s is => frontAccess s is (acc (frontAcc s is .load ((is.front s).reg a.toNat + off is.g) n) is.g 1) n

/-- ST (R229). -/
def execSt (o : BitVec 4) (z sc : BitVec 3) (r : BitVec 2) (a d : BitVec 6) (s : State) : Result :=
  let n := sizeBytes z.toNat
  let off := fun g => offsetOf g o n
  let acc := fun (x : Acc) (g : Group) (v : Nat) =>
    { x with scope := scopeOf g sc, rel := r = 2, data := BitVec.ofNat 128 (v % 2 ^ (8 * n)) }
  let lane := fun (s : State) (is : Issue) (m : Member) => acc (memberAcc s is m .store (laneAddr a off s is m) n) is.g
    ((is.thread s m.tlin).regsNum d.toNat (Sig.sizeRegs z.toNat))
  issue s (.st o z sc r a d)
    (memoryBody r.toNat (fun g => scopeOf g sc) n lane fun forced s is m =>
      laneAccess forced s is m (lane s is m) n none is.next .next fun s _ _ => (s, .next))
    fun s is =>
      frontAccess s is (acc (frontAcc s is .store ((is.front s).reg a.toNat + off is.g) n) is.g ((is.front s).reg d.toNat).toNat) n

/-- The operands of a lane's atomic (R231): the value, and for CAS the new one above it. -/
def laneOperand (t : Thread) (d ty op : Nat) : BitVec 128 := BitVec.ofNat 128 (t.regsNum d (Sig.atomData ty op))

/-- The operands of a front thread's atomic (R231). -/
def frontOperand (f : Front) (d ty op : Nat) : BitVec 128 :=
  let w := if Sig.atomWide ty then 64 else 32
  let v := (f.reg d).toNat % 2 ^ w
  BitVec.ofNat 128 (if op = 7 then v + 2 ^ w * ((f.reg (d + 1)).toNat % 2 ^ w) else v)

/-- ATOM and its reductions (R231). -/
def atomOp (ty op : Nat) (ret : Bool) (sc : BitVec 3) (r : BitVec 2) (a d : BitVec 6) (i : Instr) (s : State) : Result :=
  let n := if Sig.atomWide ty then 8 else 4
  let off := fun (g : Group) => offsetOf g 0 n
  let kind := if ret then AccKind.atomic op ty else .reduce op ty
  let acc := fun (x : Acc) (g : Group) (v : BitVec 128) (sg : Bool) (k : Nat) =>
    { x with scope := scopeOf g sc, acq := r = 1 || r = 3, rel := r = 2 || r = 3, data := v,
             dest := if ret then some ⟨d.toNat, k, sg⟩ else none }
  let lane := fun (s : State) (is : Issue) (m : Member) => acc (memberAcc s is m kind (laneAddr a off s is m) n) is.g
    (laneOperand (is.thread s m.tlin) d.toNat ty op) false (Sig.atomRet ty)
  issue s i
    (memoryBody r.toNat (fun g => scopeOf g sc) n lane fun forced s is m =>
      laneAccess forced s is m (lane s is m) n none is.next .next fun s a v => (takeRead s a v, .next))
    fun s is =>
      frontAccess s is (acc (frontAcc s is kind ((is.front s).reg a.toNat + off is.g) n) is.g
        (frontOperand (is.front s) d.toNat ty op) (ty = 0) 1) n

/-- ATOM (R231). -/
def execAtom (t : BitVec 3) (o : BitVec 4) (sc : BitVec 3) (r : BitVec 2) (a d : BitVec 6) (s : State) : Result :=
  atomOp t.toNat o.toNat true sc r a d (.atom t o sc r a d) s

/-- A reduction: ATOM with nw = 1 (R231). -/
def execRed (t : BitVec 3) (o : BitVec 4) (sc : BitVec 3) (r : BitVec 2) (a d : BitVec 6) (s : State) : Result :=
  atomOp t.toNat o.toNat false sc r a d (.red t o sc r a d) s

/-! ## PREF (R232) -/

/-- Asking for a line, into the L1 or into its home slice; a fault, a conflict, an uncached line or a rejection, for want of an
entry, drops it. -/
def prefetch (s : State) (core ctx : Nat) (va : Quad) (l2 : Bool) : State :=
  if (lashedBy (s.core core) (.global ctx va.toNat (va.toNat + 1)) false).isSome then s
  else match coreTranslate s core ctx .read va.toNat with
    | (s, .ok pa coh) =>
      let line := lineOf pa
      let c := s.core core
      if coh = 2 || !filledAt s ctx va.toNat then s
      else if l2 then (if lineReady s line then s else fetchLine s line)
      else if (l1Read c line coh (BitVec.allOnes 128)).isSome || s.net.any (fun m => m.carries core line) then s
      else if hasEntry c line then { s with net := s.net ++ [.readShared core line coh] }
      else if !entryFree c then s
      else { s.setCore core { c with entries := c.entries ++ [{ line := line }] } with
             net := s.net ++ [.readShared core line coh] }
    | (s, _) => s

/-- PREF. -/
def execPref (o : BitVec 4) (sc : BitVec 3) (a : BitVec 6) (l : BitVec 2) (s : State) : Result :=
  let off := fun g => offsetOf g o 1
  issue s (.pref o sc a l)
    (memoryBody 0 (fun _ => 0) 1 (fun s is m => memberAcc s is m .load (laneAddr a off s is m) 1) fun _ s is m =>
      let va := laneAddr a off s is m
      if 2 ^ 57 ≤ va.toNat then (s, .trap causeProtect va 3 none)
      else (prefetch s is.core (is.block s).ctx va (l = 1), .next))
    noFront

/-! ## FENCE and DRAIN (R233, R234) -/

/-- FENCE. DESIGN CHOICE (log 94): one that is guarded off does nothing, in lanes as in front code; R230 and R266 keep the
ordering of ST, LD and ATOM only. -/
def execFence (sc : BitVec 3) (r : BitVec 2) (s : State) : Result :=
  issue s (.fence sc r)
    (fun s is ms =>
      (fenceMembers s is ((ms.filter Member.on).map Member.tlin) r.toNat (scopeOf is.g sc), ms.map fun m => (m, .next)))
    fun s is => frontFence s is r.toNat (scopeOf is.g sc)

/-- The commands that a core has issued and that are not complete, those saved with a block it has lost among them (R25, R412). -/
def coreCmds (s : State) (core : Nat) : List Cmd :=
  (s.core core).cmds ++ (s.blocks.filter fun p => p.2.place.isNone && p.2.lastCore = core).flatMap fun p => p.2.cols

/-- Those of a path: a DRAIN issued now waits for them (R25). -/
def pathCmds (s : State) (core path : Nat) : List Nat := ((coreCmds s core).filter fun c => c.path = path).map Cmd.id

/-- Whether the commands that a DRAIN or a barrier's path waits for are complete, on whichever core they are by now, or saved with
a block that is swapped out (R412). -/
def idsDone (s : State) (ids : List Nat) : Bool :=
  !(s.cores.any fun c => c.2.cmds.any fun x => ids.contains x.id) && !s.blocks.any fun p => p.2.cols.any fun x => ids.contains x.id

/-- The earliest recorded fault of the paths that a group delivers (R371, R413). -/
def takeRecord (b : Block) (p : Nat → Bool) : Option EngineFault :=
  (b.faults.filter fun f => p f.path).foldl (fun r f => match r with
    | none => some f
    | some g => if f.order < g.order then some f else r) none

/-- The record is cleared as it is delivered. -/
def clearRecord (s : State) (blk : Nat) (f : EngineFault) : State :=
  s.modBlock blk fun b => { b with faults := b.faults.filter fun g => g.path ≠ f.path }

/-- What a DRAIN that is accepted makes of a path into global memory (R234, R273, R411): no copy of a COH 01 line that is older
than the commands' writes reaches the core afterwards. -/
def drainDone (s : State) (core path : Nat) : State := if path = 1 || path = 3 then refill s core fun _ => true else s

/-- DRAIN. A front thread's DRAIN delivers the fault recorded on its path (R371, R413). -/
def execDrain (p : BitVec 2) (s : State) : Result :=
  issue s (.drain p)
    (fun s is ms =>
      let ids := pathCmds s is.core p.toNat
      (if ids.isEmpty || !ms.any Member.on then drainDone s is.core p.toNat
       else is.modWarp s fun w => { w with draining := some (p.toNat, ids) }, ms.map fun m => (m, .next)))
    fun s is =>
      let ids := pathCmds s is.core p.toNat
      if !ids.isEmpty then (s, .stall (.drain p.toNat is.g.start ids))
      else match takeRecord (is.block s) (fun q => q = p.toNat) with
        | some f => (clearRecord s is.blk f, .trap f.cause f.taddr f.detail.toNat none)
        | none => (drainDone s is.core p.toNat, .next)

/-! ## WBR and INVR (R235) -/

/-- The physical ranges of a virtual range, 64 KiB page by page through the data TLB; or the translation that stops it, with
its address. -/
def physRanges (core ctx : Nat) : Nat → Nat → Nat → State → Except (Nat × Translation) (State × List (Nat × Nat))
  | 0, _, _, s => .ok (s, [])
  | n + 1, lo, hi, s =>
    if hi ≤ lo then .ok (s, [])
    else match coreTranslate s core ctx .write lo with
      | (s, .ok pa _) =>
        let stop := min hi ((lo / 65536 + 1) * 65536)
        (match physRanges core ctx n stop hi s with
         | .ok (s, rs) => .ok (s, (pa, pa + (stop - lo)) :: rs)
         | .error e => .error e)
      | (_, t) => .error (lo, t)

/-- What a WBR or INVR comes to before it is made: its physical ranges, or what stops it. -/
inductive RangeOp where
  | ready (s : State) (ranges : List (Nat × Nat))
  | trap (cause : BitVec 8) (va : Quad) (detail : Nat)
  | fault (va cause level : Nat)
  deriving DecidableEq, Repr

/-- The checks of a WBR or INVR on a range: it takes in nothing at block scope or for no bytes. -/
def rangeOp (s : State) (core ctx : Nat) (va : Quad) (n scope : Nat) : RangeOp :=
  if 2 ^ 57 ≤ va.toNat then .trap causeProtect va 3
  else if n = 0 || scope = 0 then .ready s []
  else
    let hi := min (va.toNat + n) (2 ^ 57)
    match lashedBy (s.core core) (.global ctx va.toNat hi) true with
    | some e => .trap causeLashed va (lashedDetail e true false)
    | none =>
      match physRanges core ctx (n / 65536 + 2) va.toNat hi s with
      | .ok (s, rs) => .ready s rs
      | .error (lo, .protect d) => .trap causeProtect (BitVec.ofNat 64 lo) d
      | .error (lo, .fault cause level) => .fault lo cause level
      | .error _ => .ready s []

/-- A WBR or INVR of these physical ranges is made, behind what comes before it in its thread's order (R235). -/
def issueRange (s : State) (core : Nat) (a : Acc) (rs : List (Nat × Nat)) : State :=
  if rs.isEmpty then s
  else (issueAccess (newAcc s) core { a with id := s.nextAcc, ranges := rs, coh := 1, pa := (rs.head?.map Prod.fst).getD 0 }).1

/-- WBR and INVR for both kinds of agent. -/
def wbrOp (drop : Bool) (sc : BitVec 3) (a d : BitVec 6) (i : Instr) (s : State) : Result :=
  let off := fun g => offsetOf g 0 1
  let lane := fun (s : State) (is : Issue) (m : Member) =>
    { memberAcc s is m (.wbr drop) (laneAddr a off s is m) ((is.thread s m.tlin).reg d.toNat).toNat with scope := scopeOf is.g sc }
  issue s i
    (memoryBody 0 (fun _ => 0) 1 lane fun _ s is m =>
      let x := lane s is m
      match rangeOp s is.core (is.block s).ctx x.va x.size x.scope with
      | .ready s rs => (issueRange s is.core x rs, .next)
      | .trap cause va detail => (s, .trap cause va detail none)
      | .fault va cause level =>
        logMember s is m { core := is.core, quad := is.quad, acc := { x with pa := va }, next := is.next } cause level .next)
    fun s is =>
      let ctx := (is.block s).ctx
      let x := { frontAcc s is (.wbr drop) ((is.front s).reg a.toNat + off is.g) ((is.front s).reg d.toNat).toNat with
                 scope := scopeOf is.g sc }
      match rangeOp s is.core ctx x.va x.size x.scope with
      | .ready s rs => (issueRange s is.core x rs, .next)
      | .trap cause va detail => (s, .trap cause va detail none)
      | .fault va cause level => (raiseFault s ctx va 2 cause level (.fetch is.blk none va is.g.start), .again .fetch)

/-- WBR. -/
def execWbr (sc : BitVec 3) (a d : BitVec 6) (s : State) : Result := wbrOp false sc a d (.wbr sc a d) s

/-- INVR. -/
def execInvr (sc : BitVec 3) (a d : BitVec 6) (s : State) : Result := wbrOp true sc a d (.invr sc a d) s

end Sys2Proof.Machine
end

