-- ==== Sys2Proof/Machine/Control.lean ====
section
/-! DEFINITION. Control flow (R172 to R180), knots (R181 to R185) and barriers (R187 to R192), in lanes and on the front
thread. -/

namespace Sys2Proof.Machine

/-! ## Branches and jumps -/

/-- A target: the branch word plus twice the displacement (R35). -/
def branchTarget {n : Nat} (next : Pc) (disp : BitVec n) : Pc := next - 4 + 2 * disp.signExtend 57

/-- The value that a branch tests. -/
def branchValue (s : State) (is : Issue) (p : BitVec 3) (n : BitVec 1) (m : Member) : Bool :=
  (is.thread s m.tlin).pred p.toNat != (n = 1)

def frontBranch (v : Bool) (is : FrontIssue) (t : Pc) : FrontFate := if v then .goto t else .goto is.next

/-- BR (R173). -/
def execBr (d : BitVec 15) (n : BitVec 1) (p : BitVec 3) (s : State) : Result :=
  issue s (.br d n p)
    (allMembers fun s is _ m => if branchValue s is p n m then .goto (branchTarget is.next d) else .next) noFront

/-- BRU.ANY, .ALL and .NONE (R174): one direction for all members. -/
def bruOp (f : List Bool → Bool) (d : BitVec 15) (n : BitVec 1) (p : BitVec 3) (i : Instr) (s : State) : Result :=
  issue s i
    (allMembers fun s is ms _ =>
      if f (ms.map (branchValue s is p n)) then .goto (branchTarget is.next d) else .next)
    fun s is => (s, if f [(is.front s).pred p.toNat != (n = 1)] then .goto (branchTarget is.next d) else .next)

def execBruAny (d : BitVec 15) (n : BitVec 1) (p : BitVec 3) (s : State) : Result :=
  bruOp (fun v => v.any id) d n p (.bruAny d n p) s

def execBruAll (d : BitVec 15) (n : BitVec 1) (p : BitVec 3) (s : State) : Result :=
  bruOp (fun v => v.all id) d n p (.bruAll d n p) s

def execBruNone (d : BitVec 15) (n : BitVec 1) (p : BitVec 3) (s : State) : Result :=
  bruOp (fun v => !v.any id) d n p (.bruNone d n p) s

/-- BRU.UNI (R174): each member goes its own way, as with BR. -/
def execBruUni (d : BitVec 15) (n : BitVec 1) (p : BitVec 3) (s : State) : Result :=
  issue s (.bruUni d n p)
    (allMembers fun s is _ m => if branchValue s is p n m then .goto (branchTarget is.next d) else .next)
    fun s is => (s, if (is.front s).pred p.toNat != (n = 1) then .goto (branchTarget is.next d) else .next)

/-- JMP (R177). -/
def execJmp (d : BitVec 24) (s : State) : Result :=
  issue s (.jmp d) (allMembers fun _ is _ _ => .goto (branchTarget is.next d))
    fun s is => (s, .goto (branchTarget is.next d))

/-! ## Calls and returns (R177 to R179, R336) -/

/-- A push of the return address, then a transfer. -/
def lanePush (s : State) (is : Issue) (m : Member) (target : Pc) : State × Fate :=
  let t := is.thread s m.tlin
  let va := t.csp - 8
  if t.csp.toNat < t.csplo.toNat + 8 then (s, .trap causeProtect va 1 none)
  else laneAccess false s is m { memberAcc s is m .store va 8 with data := is.next.zeroExtend 128 } 8 (some va) target
    (.goto target) fun s _ _ => (s, .goto target)

/-- A pop (R177): a value in the L1 arrives 24 cycles after the issue, and until then its warp stays at the RET. -/
def lanePop (s : State) (is : Issue) (m : Member) : State × Fate :=
  let t := is.thread s m.tlin
  if t.csphi ≤ t.csp then (s, .trap causeProtect t.csp 2 none)
  else laneAccess false s is m (memberAcc s is m .pop t.csp 8) 8 none is.g.start .next fun s a v =>
    let s := sawRead s a
    (is.modWarp s fun w => { w with from_ := (s.core is.core).cycle + 24, pops := (m.tlin, true, BitVec.ofNat 64 v) :: w.pops },
     .goto is.g.start)

/-- A push on the front thread's return stack. -/
def frontPush (s : State) (is : FrontIssue) (target : Pc) : State × FrontFate :=
  if (is.front s).stack.length = 32 then (s, .trap causeProtect 32 1 none)
  else (s.modFront is.blk fun f => { f with stack := is.next :: f.stack }, .goto target)

/-- CALL. -/
def execCall (d : BitVec 24) (s : State) : Result :=
  issue s (.call d) (eachMember fun s is m => lanePush s is m (branchTarget is.next d))
    fun s is => frontPush s is (branchTarget is.next d)

/-- The pops of a RET's members. Where one hits, those that the guard turns off stay with it at the RET (log 78). -/
def popMembers : Body := fun s is ms =>
  let (s, xs) := eachMember lanePop s is ms
  if (is.warp s).pops.isEmpty then (s, xs)
  else
    let off := ms.filter fun m => !m.on
    (is.modWarp s fun w => { w with pops := off.map (fun m => (m.tlin, false, is.next.zeroExtend 64)) ++ w.pops },
     xs.map fun x => if x.1.on then x else (x.1, .goto is.g.start))

/-- RET. -/
def execRet (s : State) : Result :=
  issue s .ret popMembers fun s is =>
    match (is.front s).stack with
    | [] => (s, .trap causeProtect 0 2 none)
    | p :: ps => (s.modFront is.blk fun f => { f with stack := ps }, .goto p)

/-- What a dispatch-table read gives (R179). -/
inductive TableRead where
  | target (pc : Pc)
  | trap (cause : BitVec 8) (taddr : Quad) (detail : Nat)
  | fault (va cause level : Nat)
  | away (line : Nat)
  deriving DecidableEq, Repr

/-- The address of entry `i` of a launch's dispatch table. -/
def tableAddr (l : Launch) (i : Nat) : Nat := (l.kimg + l.dtoff + 4 * i) % 2 ^ 64

/-- The entry `i` of the launch's dispatch table, fetched as code is; `cls` is 0 for lane and 1 for front code. DESIGN CHOICE
(log 77): an entry that software rewrites during a launch reads as the home holds it, where R85 lets the old word be read
too. -/
def tableRead (s : State) (core : Nat) (b : Block) (cls i : Nat) : TableRead :=
  let l := s.launchOf b
  if l.dtlen ≤ i then .trap causeDispatch (BitVec.ofNat 64 i) 1
  else
    let va := tableAddr l i
    match fetchTranslate s core b.ctx va with
    | .ok pa _ =>
      let e := homeNum s pa 4
      let t := l.kimg + e / 2 * 2
      if let some line := hostAway s pa then .away line
      else if s.poison.contains (lineOf pa) then .trap causeEccdata (BitVec.ofNat 64 va) 0
      else if e % 2 ≠ cls then .trap causeDispatch (BitVec.ofNat 64 i) 2
      else if t % 2 = 1 then .trap causeMisalign (BitVec.ofNat 64 t) 0
      else .target (BitVec.ofNat 57 t)
    | .protect d => .trap causeProtect (BitVec.ofNat 64 va) d
    | .fault cause level => .fault va cause level
    | .miss => .trap causeProtect (BitVec.ofNat 64 va) 6

/-- What reading entry `i` leaves in the fetch TLB and the walk caches (R437). -/
def tableFilled (s : State) (core : Nat) (b : Block) (i : Nat) : State :=
  let l := s.launchOf b
  if i < l.dtlen then fillFetchTlb s core b.ctx (tableAddr l i) else s

/-- DCALL and DJMP in lanes. -/
def laneTable (k : State → Issue → Member → Pc → State × Fate) (s : State) (is : Issue) (m : Member) : State × Fate :=
  let b := is.block s
  let i := m.v.a.toNat % 2 ^ 32
  let u := tableFilled s is.core b i
  match tableRead s is.core b 0 i with
  | .target pc => k u is m pc
  | .trap cause taddr detail => (u, .trap cause taddr detail none)
  | .fault va cause level =>
    (raiseFault u b.ctx va 4 cause level (.fetch is.blk (some m.tlin) va is.g.start), .leave (.waiting .fetch) is.g.start)
  | .away line => (fetchLine u line, .leave (.waiting (.line line)) is.g.start)

/-- DCALL and DJMP on the front thread. -/
def frontTable (k : State → FrontIssue → Pc → State × FrontFate) (s : State) (is : FrontIssue) : State × FrontFate :=
  let b := is.block s
  let i := is.v.a.toNat % 2 ^ 32
  let u := tableFilled s is.core b i
  match tableRead s is.core b 1 i with
  | .target pc => k u is pc
  | .trap cause taddr detail => (u, .trap cause taddr detail none)
  | .fault va cause level => (raiseFault u b.ctx va 4 cause level (.fetch is.blk none va is.g.start), .again .fetch)
  | .away line => (fetchLine u line, .again (.line line))

/-- DCALL. -/
def execDcall (a : BitVec 8) (s : State) : Result :=
  issue s (.dcall a) (eachMember (laneTable lanePush)) (frontTable frontPush)

/-- DJMP. -/
def execDjmp (a : BitVec 8) (s : State) : Result :=
  issue s (.djmp a) (eachMember (laneTable fun s _ _ pc => (s, .goto pc))) (frontTable fun s _ pc => (s, .goto pc))

/-! ## Exit (R180) -/

/-- A thread that exits leaves the knots, the live barriers it has arrived at, and the convergence sets whose mask is
the live lanes (R106, R180, R190). DESIGN CHOICE (log 79): where exits bring AC(b) of a phase in live mode back to 0, the next
arrival fixes the mode, the path mask and the timer anew. -/
def Block.exitThread (b : Block) (t : Nat) : Block :=
  let th := (b.thread t).getD { pc := 0, regs := [] }
  let bars := tmap (fun k (x : Barrier) =>
    if x.mode.isNone && x.count ≠ 0 && bit th.arv k && bit th.aph k = x.phase then { x with count := x.count - 1 } else x) b.bars
  let threads := tmap (fun k u =>
    if k = t then { u with status := .exited, ring := [], mask := none }
    else if u.auto && k / 32 = t / 32 then
      { u with mask := u.mask.map fun m => withBit m (t % 32) false }
    else u) b.threads
  { b with threads := threads, bars := bars
           knots := tmap (fun _ (k : Knot) => { k with expected := k.expected.filter (· ≠ t) }) b.knots }

/-- Live threads that have arrived in a barrier's phase (R188). -/
def Block.arrivedLive (b : Block) (k : Nat) (x : Barrier) : Nat :=
  (b.threads.filter fun p => p.2.status ≠ .exited && bit p.2.arv k && bit p.2.aph k = x.phase).length

/-- The count condition (R188): it holds only in a phase with an arrival. -/
def countHolds (b : Block) (k : Nat) (x : Barrier) : Bool :=
  x.count ≠ 0 && (b.arrivedLive k x = liveCount b || match x.mode with
    | none => false
    | some n => n ≤ x.count)

/-- When the count condition first holds, the commands that the paths wait for are fixed. -/
def judgeBarriers (s : State) (blk core : Nat) : State :=
  let ids := (coreCmds s core).map Cmd.id
  s.modBlock blk fun b => { b with bars := tmap (fun k (x : Barrier) =>
    if x.needs.isNone && countHolds b k x then { x with needs := some ids } else x) b.bars }

/-- EXIT: every member exits. -/
def execExit (s : State) : Result :=
  issue s .exit
    (fun s is ms =>
      let s := s.modBlock is.blk fun b => settle (ms.foldl (fun b m => b.exitThread m.tlin) b)
      (judgeBarriers s is.blk is.core, ms.map fun m => (m, .leave .exited is.g.start)))
    noFront

/-! ## Knots (R182 to R185) -/

/-- A knot of a block, and a change to it. -/
def Block.knot (b : Block) (k : Nat) : Knot := (tget b.knots k).getD {}

def Block.modKnot (b : Block) (k : Nat) (f : Knot → Knot) : Block := { b with knots := tset b.knots k (f (b.knot k)) }

/-- A release (R184): the arrivals become READY after their JOIN, and the knot is cleared. -/
def Block.releaseKnot (b : Block) (k : Nat) : Block :=
  let b' := (b.knot k).arrived.foldl (fun b t => b.modThread t fun th =>
    if th.status = .knotted k then { th.ready (th.pc + 4) with released := true } else th) b
  { b' with knots := tdel b'.knots k }

/-- KTIE. -/
def execKtie (k : BitVec 4) (s : State) : Result :=
  issue s (.ktie k)
    (fun s is ms =>
      (s.modBlock is.blk fun b => b.modKnot k.toNat fun x =>
        { x with expected := ms.foldl (fun e m => insertNat e m.tlin) x.expected }, ms.map fun m => (m, .next)))
    noFront

/-- JOIN. -/
def execJoin (k : BitVec 4) (s : State) : Result :=
  issue s (.join k)
    (fun s is ms =>
      (s.modBlock is.blk fun b => b.modKnot k.toNat fun x =>
        { expected := ms.foldl (fun e m => insertNat e m.tlin) x.expected
          arrived := ms.foldl (fun e m => insertNat e m.tlin) x.arrived
          t0 := if x.arrived.isEmpty then b.cycles else x.t0 },
       ms.map fun m => (m, .leave (.knotted k.toNat) is.g.start)))
    noFront

/-- KRESET. -/
def execKreset (k : BitVec 4) (s : State) : Result :=
  issue s (.kreset k)
    (fun s is ms => (s.modBlock is.blk fun b => b.releaseKnot k.toNat, ms.map fun m => (m, .next))) noFront

/-! ## Barriers (R188, R189) -/

/-- A barrier of a block, and a change to it. -/
def Block.bar (b : Block) (k : Nat) : Barrier := (tget b.bars k).getD {}

def Block.modBar (b : Block) (k : Nat) (f : Barrier → Barrier) : Block := { b with bars := tset b.bars k (f (b.bar k)) }

/-- The count of an arrival: live for code 0x40, else explicit, where 0 and more than 1,024 are ILLOPND (R49). -/
def arrivalMode (code : BitVec 8) (v : Quad) : Option (Option Nat) :=
  let n := v.toNat % 2 ^ 32
  if code = 0x40 then some none
  else if n = 0 || 1024 < n then none else some (some n)

/-- An arrival of one thread (R188), or none where it raises ILLOPND; `ids` are its accesses that the phase releases (R191). -/
def Block.arrive (b : Block) (k t : Nat) (mode : Option Nat) (path : BitVec 5) (wait : Bool) (ids : List Nat) : Option Block :=
  let x := b.bar k
  let th := (b.thread t).getD { pc := 0, regs := [] }
  if bit th.arv k && bit th.aph k = x.phase then none
  else if x.count ≠ 0 && x.mode ≠ mode then none
  else
    let b := b.modThread t fun th => { th with arv := withBit th.arv k true, aph := withBit th.aph k x.phase }
    some (b.modBar k fun x =>
      { x with mode := if x.count = 0 then mode else x.mode
               t0 := if x.count = 0 then b.cycles else x.t0
               path := if x.count = 0 then path else x.path ||| path
               needs := if x.count = 0 then none else x.needs
               count := x.count + 1
               ids := x.ids ++ ids
               waiters := if wait then insertNat x.waiters t else x.waiters })

/-- BAR.SYNC and BAR.ARRIVE. -/
def barOp (wait : Bool) (c : BitVec 8) (p : BitVec 5) (k : BitVec 4) (i : Instr) (s : State) : Result :=
  issue s i
    (fun s is ms =>
      let (s, xs) := eachMember (fun s is m =>
        match arrivalMode c m.v.a with
        | none => (s, .trap causeIllopnd 0 0 none)
        | some mode =>
          match (is.block s).arrive k.toNat m.tlin mode p wait (releasedBy s is.blk (some m.tlin)) with
          | none => (s, .trap causeIllopnd 0 0 none)
          | some b => (s.setBlock is.blk b, if wait then .leave (.barred k.toNat) is.g.start else .next)) s is ms
      (judgeBarriers s is.blk is.core, xs))
    noFront

/-- BAR.SYNC. -/
def execBarSync (c : BitVec 8) (p : BitVec 5) (i : BitVec 4) (s : State) : Result := barOp true c p i (.barSync c p i) s

/-- BAR.ARRIVE. -/
def execBarArrive (c : BitVec 8) (p : BitVec 5) (i : BitVec 4) (s : State) : Result :=
  barOp false c p i (.barArrive c p i) s

/-- BAR.WAIT (R189). -/
def execBarWait (p : BitVec 5) (i : BitVec 4) (s : State) : Result :=
  issue s (.barWait p i)
    (eachMember fun s is m =>
      let b := is.block s
      let th := is.thread s m.tlin
      let x := b.bar i.toNat
      let wait := fun (c : Bool) =>
        (s.setBlock is.blk (b.modBar i.toNat fun x =>
          { x with waiters := insertNat x.waiters m.tlin, clear := if c then insertNat x.clear m.tlin else x.clear }),
         Fate.leave (.barred i.toNat) is.g.start)
      if !bit th.arv i.toNat then wait false
      else if bit th.aph i.toNat = x.phase then wait true
      else (is.modThread s m.tlin fun t => { t with arv := withBit t.arv i.toNat false }, .leave .ready is.next))
    noFront

/-- The end of a phase (R188, R192): the phase flips, the count and the paths clear. -/
def Barrier.flip (x : Barrier) : Barrier := { phase := !x.phase }

/-- A phase that completes: its waiters become READY after their barrier group. -/
def Block.completeBar (b : Block) (k : Nat) : Block :=
  let x := b.bar k
  let b := x.waiters.foldl (fun b t => b.modThread t fun th =>
    if th.status = .barred k then th.ready (th.pc + 4) else th) b
  let b := x.clear.foldl (fun b t => b.modThread t fun th => { th with arv := withBit th.arv k false }) b
  b.modBar k Barrier.flip

end Sys2Proof.Machine
end

