-- ==== Sys2Proof/Machine/Scratch.lean ====
section
/-! DEFINITION. Scratchpad tiles: their shapes and resources, the checks of an access, plain, atomic and full/empty
access, and tile management (R223 to R226, R236 to R246). -/

namespace Sys2Proof.Machine

/-! ## Tiles -/

/-- Whether a shape word is valid (R224). -/
def shapeOk (w : Word) : Bool :=
  field w 30 28 = 0 &&
    (if shapeAc w then 2 ≤ field w 27 26 && shapeBytes w ≤ 8192 else shapeBytes w ≤ 786432)

def Tile.size (t : Tile) : Nat := shapeBytes t.shape
def Tile.ac (t : Tile) : Bool := shapeAc t.shape

/-- The tile of a handle, and a change to it. -/
def State.tile (s : State) (blk h : Nat) : Option Tile := (s.block blk).bind fun b => tget b.tiles h

def State.modTile (s : State) (blk h : Nat) (f : Tile → Tile) : State :=
  s.modBlock blk fun b => { b with tiles := tmod b.tiles h f }

/-- The core that a peer offset names (R226). -/
def peerCore (core off : Nat) : Nat := core / 4 * 4 + (core + off) % 4

/-- A tile that an access reaches: its core, block and handle. -/
structure Spot where
  core : Nat
  blk  : Nat
  h    : Nat
  tile : Tile
  deriving DecidableEq, Repr

/-- The tile that handle field `h` names at a peer offset. -/
def spotOf (s : State) (core blk h off : Nat) : Option Spot :=
  if off = 0 then (s.tile blk h).map fun t => ⟨core, blk, h, t⟩
  else
    let c := peerCore core off
    (tget (s.core c).exports h).bind fun e => (s.tile e.1 e.2).map fun t => ⟨c, e.1, e.2, t⟩

/-- Which scratchpad access is made. -/
inductive TileAcc where
  | load | store | atomic
  | loadFull | loadEmpty | storeFull | storeAny | setState
  deriving DecidableEq, Repr

namespace TileAcc

def fullEmpty : TileAcc → Bool
  | .load => false
  | .store => false
  | .atomic => false
  | _ => true

def writes : TileAcc → Bool
  | .load => false
  | .loadFull => false
  | _ => true

end TileAcc

/-- The checks of R237: cause and DETAIL, or the tile. `span` bytes are covered. -/
def tileCheck (s : State) (core blk h o size span : Nat) (k : TileAcc) : Except (BitVec 8 × Nat) Spot :=
  let off := o % 2 ^ 20
  let peer := o / 2 ^ 30 % 4
  if off % (if k = .setState then 4 else size) ≠ 0 then .error (causeMisalign, 0)
  else match spotOf s core blk h peer with
    | none => .error (causeTile, 1)
    | some p =>
      if o / 2 ^ 20 % 2 ^ 10 ≠ 0 || p.tile.size < off + span then .error (causeTile, 2)
      else if peer ≠ 0 && (k = .store || k = .atomic) then .error (causeTile, 7)
      else if k = .atomic && p.tile.ac then .error (causeTile, 16)
      else if k.fullEmpty && peer ≠ 0 then .error (causeFemisuse, 2)
      else if k.fullEmpty && p.tile.ac then .error (causeFemisuse, 1)
      else if k.fullEmpty && size = 2 then .error (causeFemisuse, 3)
      else if span = 0 then .ok p
      else match lashedBy (s.core p.core) (.tile p.blk p.h off (off + span)) k.writes with
        | some e => .error (causeLashed, lashedDetail e k.writes true)
        | none => .ok p

/-! ## Full/empty bits (R241 to R243) -/

/-- Making words full or empty: the tile, and the words that changed. -/
def Tile.mark (t : Tile) (full : Bool) (ws : List Nat) : Tile × List Nat :=
  let changed := ws.filter fun w => t.full.contains w != full
  ({ t with full := if full then ws.foldl insertNat t.full else t.full.filter (fun w => !ws.contains w) }, changed)

/-- A thread that waits for a word of tile `h` that has changed retries. -/
def Thread.wakeWord (th : Thread) (h : Nat) (changed : List Nat) : Thread :=
  match th.status with
  | .waiting (.fullEmpty h' o n) =>
    if h' = h && changed.any (fun w => o % 2 ^ 20 / 4 ≤ w && w < o % 2 ^ 20 / 4 + n) then { th with status := .ready, age := 0 }
    else th
  | _ => th

/-- Marking words of a tile: threads that wait for one that changes retry (R241). -/
def markWords (s : State) (blk h : Nat) (full : Bool) (ws : List Nat) : State :=
  match s.tile blk h with
  | none => s
  | some t =>
    let (t', changed) := t.mark full ws
    let s := s.modTile blk h fun _ => t'
    s.modBlock blk fun b => { b with threads := tmap (fun _ th => th.wakeWord h changed) b.threads }

/-- `n` words from a byte offset. -/
def wordsFrom (off n : Nat) : List Nat := (List.range n).map fun i => off / 4 + i

/-! ## Accesses of the members -/

/-- Bytes of a scratchpad size code (R45). -/
def tileSize (z : Nat) : Nat :=
  match z with
  | 0 => 4
  | 1 => 8
  | 2 => 16
  | _ => 2

/-- The largest number of distinct words that accesses touch in one bank (R223, R238). -/
def bankCycles (ws : List (Nat × Nat)) : Nat :=
  let d := ws.eraseDups
  (List.range 32).foldl (fun m b => max m (d.filter fun w => w.2 % 32 = b).length) 0

/-- The words of own tiles that the members touch. -/
def touchedWords (h n : Nat) (ms : List Member) : List (Nat × Nat) :=
  (ms.filter fun m => m.on && m.v.a.toNat / 2 ^ 30 % 4 = 0).flatMap fun m =>
    (wordsFrom (m.v.a.toNat % 2 ^ 20) (ceilDiv n 4)).map fun w => (h, w)

/-- The members of a scratchpad group whose checks hold. -/
def touching (s : State) (is : Issue) (h : BitVec 6) (k : TileAcc) (size : Nat) (ms : List Member) : List Member :=
  ms.filter fun m => match tileCheck s is.core is.blk h.toNat (m.v.a.toNat % 2 ^ 32) size size k with
    | .ok _ => true
    | .error _ => false

/-- A load of a peer's tile whose block is swapped out (R226): its destination is pending, and the member goes on (R96). -/
def waitPeer (s : State) (is : Issue) (m : Member) (p : Spot) (h size : Nat) (d : Dest) : State :=
  let r : PeerRead := ⟨p.core, h, (p.blk, p.h), is.blk, m.tlin, m.v.a.toNat % 2 ^ 32, size, is.g.start, d⟩
  is.modThread { s with peers := s.peers ++ [r] } m.tlin fun t => { t with pending := t.pending ||| d.mask }

/-- A scratchpad group: the members in ascending tlin, then the bank cycles (R238). `d` is what a load writes. -/
def tileBody (h : BitVec 6) (k : TileAcc) (size : Nat) (d : Dest)
    (act : State → Issue → Member → Spot → State × Fate) : Body := fun s is ms =>
  let cycles := bankCycles (touchedWords h.toNat size (touching s is h k size ms))
  let (s, xs) := eachMember (fun s is m =>
    let o := m.v.a.toNat % 2 ^ 32
    match tileCheck s is.core is.blk h.toNat o size size k with
    | .error (cause, detail) => (s, .trap cause (BitVec.ofNat 64 o) detail none)
    | .ok p =>
      if o / 2 ^ 30 ≠ 0 && ((s.block p.blk).bind Block.place).isNone then
        (waitPeer s is m p h.toNat size d, .next)
      else act s is m p) s is ms
  (s.modCore is.core fun c => { c with lsBusy := c.cycle + cycles }, xs)

/-- Writing what a load of a tile read. -/
def tileLoad (s : State) (is : Issue) (m : Member) (d z v : Nat) : State :=
  is.modThread s m.tlin fun t => t.setRegs d (Sig.tileRegs z) v

/-- Registers that are late until `n` cycles after this one. -/
def lateRegs (s : State) (is : Issue) (d k n : Nat) : State :=
  let at_ := (s.core is.core).cycle + n
  is.modWarp s fun w => { w with hazards := (List.range k).map (fun i => (d + i, at_)) ++ w.hazards }

/-- A tile load: the members, then the latency of the bank cycles beyond the first (R238). -/
def loadBody (h : BitVec 6) (k : TileAcc) (z : BitVec 2) (d : BitVec 6)
    (act : State → Issue → Member → Spot → State × Fate) : Body := fun s is ms =>
  let size := tileSize z.toNat
  let cycles := bankCycles (touchedWords h.toNat size (touching s is h k size ms))
  let (s, xs) := tileBody h k size ⟨d.toNat, Sig.tileRegs z.toNat, false⟩ act s is ms
  (lateRegs s is d.toNat (Sig.tileRegs z.toNat) (16 + max cycles 1 - 1), xs)

/-- The bytes of a tile as a number, and storing them. -/
def Spot.read (p : Spot) (o n : Nat) : Nat := p.tile.bytes.num (o % 2 ^ 20) n

def tileStore (s : State) (p : Spot) (o n v : Nat) : State :=
  s.modTile p.blk p.h fun t => { t with bytes := t.bytes.setNum (o % 2 ^ 20) n v }

/-- LDS (R238); the data of a peer's tile comes no earlier than 48 cycles after issue. -/
def execLds (z : BitVec 2) (h : BitVec 6) (a : BitVec 8) (d : BitVec 6) (s : State) : Result :=
  let n := tileSize z.toNat
  issue s (.lds z h a d)
    (loadBody h .load z d fun s is m p =>
      let o := m.v.a.toNat % 2 ^ 32
      let s := tileLoad s is m d.toNat z.toNat (p.read o n)
      (if o / 2 ^ 30 = 0 then s else lateRegs s is d.toNat (Sig.tileRegs z.toNat) 48, .next)) noFront

/-- STS (R238). -/
def execSts (z : BitVec 2) (h : BitVec 6) (a : BitVec 8) (d : BitVec 6) (s : State) : Result :=
  let n := tileSize z.toNat
  issue s (.sts z h a d)
    (tileBody h .store n ⟨0, 0, false⟩ fun s is m p =>
      (tileStore s p (m.v.a.toNat % 2 ^ 32) n ((is.thread s m.tlin).regsNum d.toNat (Sig.tileRegs z.toNat)), .next)) noFront

/-- ATOMS (R239): op and type stand in EXT.C c. -/
def execAtoms (z : BitVec 2) (h : BitVec 6) (a : BitVec 8) (d : BitVec 6) (s : State) : Result :=
  let n := if z = 1 then 8 else 4
  issue s (.atoms z h a d)
    (tileBody h .atomic n ⟨0, 0, false⟩ fun s is m p =>
      let c := (is.g.c.getD 0)
      let (op, ty) := (field c 3 0, field c 6 4)
      let o := m.v.a.toNat % 2 ^ 32
      let old := p.read o n
      let v := (laneOperand (is.thread s m.tlin) d.toNat ty op).toNat
      let new := atomicNew op ty old (v % 2 ^ (8 * n)) (v / 2 ^ (8 * n) % 2 ^ (8 * n))
      (tileStore s p o n new, .done (BitVec.ofNat 64 old))) noFront

/-- A full/empty load (R241): it waits for full words, and LDE empties them. -/
def fullLoad (empty : Bool) (z : BitVec 2) (h : BitVec 6) (d : BitVec 6) (i : Instr) (s : State) : Result :=
  let n := tileSize z.toNat
  issue s i
    (loadBody h (if empty then .loadEmpty else .loadFull) z d fun s is m p =>
      let o := m.v.a.toNat % 2 ^ 32
      let ws := wordsFrom (o % 2 ^ 20) (n / 4)
      if ws.all fun w => p.tile.full.contains w then
        let s := tileLoad s is m d.toNat z.toNat (p.read o n)
        (if empty then markWords s p.blk p.h false ws else s, .next)
      else (s, .leave (.waiting (.fullEmpty h.toNat o (n / 4))) is.g.start)) noFront

/-- LDF. -/
def execLdf (z : BitVec 2) (h : BitVec 6) (a : BitVec 8) (d : BitVec 6) (s : State) : Result :=
  fullLoad false z h d (.ldf z h a d) s

/-- LDE. -/
def execLde (z : BitVec 2) (h : BitVec 6) (a : BitVec 8) (d : BitVec 6) (s : State) : Result :=
  fullLoad true z h d (.lde z h a d) s

/-- A full/empty store (R241): STF waits for empty words, STX never waits; marking a word full is a release at block scope
(R275). -/
def fullStore (wait : Bool) (z : BitVec 2) (h : BitVec 6) (d : BitVec 6) (i : Instr) (s : State) : Result :=
  let n := tileSize z.toNat
  issue s i
    (tileBody h (if wait then .storeFull else .storeAny) n ⟨0, 0, false⟩ fun s is m p =>
      let o := m.v.a.toNat % 2 ^ 32
      let ws := wordsFrom (o % 2 ^ 20) (n / 4)
      if wait && ws.any fun w => p.tile.full.contains w then
        (s, .leave (.waiting (.fullEmpty h.toNat o (n / 4))) is.g.start)
      else
        let s := blockRelease s is.blk (some m.tlin)
        let s := tileStore s p o n ((is.thread s m.tlin).regsNum d.toNat (Sig.tileRegs z.toNat))
        (markWords s p.blk p.h true ws, .next)) noFront

/-- STF. -/
def execStf (z : BitVec 2) (h : BitVec 6) (a : BitVec 8) (d : BitVec 6) (s : State) : Result :=
  fullStore true z h d (.stf z h a d) s

/-- STX. -/
def execStx (z : BitVec 2) (h : BitVec 6) (a : BitVec 8) (d : BitVec 6) (s : State) : Result :=
  fullStore false z h d (.stx z h a d) s

/-- FESET (R243). -/
def execFeset (h : BitVec 6) (a : BitVec 8) (d : BitVec 6) (s : State) : Result :=
  issue s (.feset h a d)
    (eachMember fun s is m =>
      let w := (is.thread s m.tlin).reg d.toNat
      let o := m.v.a.toNat % 2 ^ 32
      if field w 30 18 ≠ 0 then (s, .trap causeIllopnd 0 0 none)
      else match tileCheck s is.core is.blk h.toNat o 4 (4 * field w 17 0) .setState with
        | .error (cause, detail) => (s, .trap cause (BitVec.ofNat 64 o) detail none)
        | .ok p => (markWords s p.blk p.h (bit w 31) (wordsFrom (o % 2 ^ 20) (field w 17 0)), .next)) noFront

/-! ## Tile management (R225, R240, R244) -/

/-- Granules of the reservation that a block's SP tiles take (R225). -/
def granules (b : Block) : Nat :=
  b.tiles.foldl (fun n p => if p.2.ac then n else n + ceilDiv p.2.size 256) 0

/-- AC tiles that a block holds. -/
def acHeld (b : Block) : Nat := (b.tiles.filter fun p => p.2.ac).length

/-- Blocks that stand on a core. -/
def blocksOn (s : State) (core : Nat) : List (Nat × Block) :=
  s.blocks.filter fun p => match p.2.place with
    | some q => q.core = core
    | none => false

/-- AC tiles and tile-table entries in use or reserved on a core (R225). -/
def acUsed (s : State) (core : Nat) : Nat :=
  (blocksOn s core).foldl (fun n p => n + max (s.launchOf p.2).acct (acHeld p.2)) 0

def entriesUsed (s : State) (core : Nat) : Nat :=
  (blocksOn s core).foldl (fun n p => n + max 8 p.2.tiles.length) 0

/-- Tiles of a core that a swap-out of R394 keeps for allocations other than this one. -/
def acOwed (s : State) (core : Nat) (t : Option (Nat × Nat)) : Nat := ((s.core core).owed.filter fun x => some x ≠ t).length

/-- Whether a block may take one more AC tile, under this handle. -/
def acFree (s : State) (core blk h : Nat) (b : Block) : Bool :=
  acHeld b < (s.launchOf b).acct || acUsed s core + acOwed s core (some (blk, h)) < 64

/-- TINFO's value (R240). -/
def tinfoValue (s : State) (b : Block) (h q : Nat) : Nat :=
  let t := tget b.tiles h
  match q with
  | 0 => (t.map Tile.size).getD 0
  | 1 => (t.map fun x => x.shape.toNat).getD 0
  | 2 => (t.map fun x => 1 + 2 * boolBit x.ac + (match x.slot with
      | some k => 4 + 256 * k
      | none => 0)).getD 0
  | _ => (s.launchOf b).scrb - 256 * granules b

/-- TINFO. -/
def execTinfo (h : BitVec 6) (a : BitVec 8) (d : BitVec 6) (s : State) : Result :=
  issue s (.tinfo h a d)
    (allMembers fun s is _ m => .done (BitVec.ofNat 64 (tinfoValue s (is.block s) h.toNat m.v.a.toNat))) noFront

/-- TALLOC for one member (R244). DESIGN CHOICE (log 82): the spec orders no check of R245 before another, so an invalid shape
comes before a different one, and SCRB before the tile table and the wait for an AC tile. -/
def tallocOne (h : Nat) (s : State) (is : Issue) (m : Member) : State × Fate :=
  let w : Word := m.v.a.truncate 32
  let b := is.block s
  let trap := fun (d : Nat) => (s, Fate.trap causeTile (BitVec.ofNat 64 h) d none)
  if !shapeOk w then trap 6
  else match tget b.tiles h with
    | some t => if t.shape = w then (s, .done (BitVec.ofNat 64 t.size)) else trap 3
    | none =>
      if !shapeAc w && (s.launchOf b).scrb < 256 * (granules b + ceilDiv (shapeBytes w) 256) then trap 4
      else if 8 ≤ b.tiles.length && 256 ≤ entriesUsed s is.core then trap 5
      else if shapeAc w && !acFree s is.core is.blk h b then (s, .leave (.waiting (.alloc h)) is.g.start)
      else
        let s := s.modCore is.core fun c => { c with owed := c.owed.filter (· ≠ (is.blk, h)) }
        (s.setBlock is.blk { b with tiles := tset b.tiles h { shape := w } }, .done (BitVec.ofNat 64 (shapeBytes w)))

/-- TALLOC. -/
def execTalloc (h : BitVec 6) (a : BitVec 8) (d : BitVec 6) (s : State) : Result :=
  issue s (.talloc h a d) (eachMember (tallocOne h.toNat)) noFront

/-- Withdrawing a tile's export. -/
def unexport (s : State) (core blk h : Nat) : State :=
  let s := s.modCore core fun c => { c with exports := c.exports.filter fun e => e.2 ≠ (blk, h) }
  s.modTile blk h fun t => { t with slot := none }

/-- Threads that wait on a tile that is freed take TILE, DETAIL 9, each at its own group (R242). -/
def freedWaiters (s : State) (blk h : Nat) : State :=
  let ws := ((s.block blk).map Block.threads).getD []
  ws.foldl (fun s p => match (s.block blk).bind (Block.thread · p.1) with
    | some th =>
      (match th.status with
       | .waiting (.fullEmpty h' o _) =>
         if h' = h then takeTraps s blk [⟨p.1, causeTile, th.pc, BitVec.ofNat 64 o, 9, none⟩] else s
       | _ => s)
    | none => s) s

/-- What a peer read that waits comes to (R226, R426): the value once the exporting block is back on its core; TILE where the slot
no longer holds the tile. -/
def servePeer (s : State) (r : PeerRead) : State :=
  let drop := fun (s : State) => { s with peers := s.peers.filter (· ≠ r) }
  if tget (s.core r.core).exports r.slot ≠ some r.tile then
    lateFault (drop s) r.blk (some r.who) (some r.dest)
      { cause := causeTile, tpc := r.grp, taddr := BitVec.ofNat 64 r.off, detail := 1 }
  else if ((s.block r.tile.1).bind Block.place).isNone then s
  else match s.tile r.tile.1 r.tile.2 with
    | some t => (drop s).deliver r.blk (some r.who) r.dest (t.bytes.num (r.off % 2 ^ 20) r.size)
    | none => drop s

/-- The entry that a write to a whole tile meets (R244). -/
def tileLashed (s : State) (core blk h : Nat) (t : Tile) : Option Nat :=
  lashedBy (s.core core) (.tile blk h 0 t.size) true

/-- TFREE for one member. DESIGN CHOICE (log 82): TADDR of its LASHED, which R245 calls an address or offset, is 0, the tile's
first byte. -/
def tfreeOne (h : Nat) (s : State) (is : Issue) (_ : Member) : State × Fate :=
  match s.tile is.blk h with
  | none => (s, .next)
  | some t =>
    match tileLashed s is.core is.blk h t with
    | some e => (s, .trap causeLashed 0 (lashedDetail e true true) none)
    | none =>
      let s := unexport s is.core is.blk h
      let s := s.modBlock is.blk fun b => { b with tiles := tdel b.tiles h }
      (freedWaiters s is.blk h, .next)

/-- TFREE. -/
def execTfree (h : BitVec 6) (s : State) : Result :=
  issue s (.tfree h) (eachMember (tfreeOne h.toNat)) noFront

/-- TEXPORT for one member (R244). -/
def texportOne (h : Nat) (s : State) (is : Issue) (m : Member) : State × Fate :=
  let w : Word := m.v.a.truncate 32
  let slot := field w 5 0
  let held := tget (s.core is.core).exports slot
  let trap := fun (d : Nat) => (s, Fate.trap causeTile (BitVec.ofNat 64 h) d none)
  let withdraw := fun (k : Nat) (next : State → State × Fate) =>
    match s.tile is.blk k with
    | none => next s
    | some t =>
      match tileLashed s is.core is.blk k t with
      | some e => (s, Fate.trap causeLashed 0 (lashedDetail e true true) none)
      | none => next (unexport s is.core is.blk k)
  if field w 31 7 ≠ 0 then (s, .trap causeIllopnd 0 0 none)
  else if bit w 6 then
    match s.tile is.blk h with
    | none => trap 1
    | some t =>
      let put := fun (s : State) =>
        ((s.modCore is.core fun c => { c with exports := tset c.exports slot (is.blk, h) }).modTile is.blk h
          fun t => { t with slot := some slot }, Fate.next)
      if t.ac then trap 10
      else if held = some (is.blk, h) then (s, .next)
      else if held.isSome then trap 8
      else if t.slot.isSome then withdraw h put
      else put s
  else match held with
    | some (b, k) => if b = is.blk then withdraw k fun s => (s, .next) else (s, .next)
    | none => (s, .next)

/-- TEXPORT. -/
def execTexport (h : BitVec 6) (a : BitVec 8) (s : State) : Result :=
  issue s (.texport h a) (eachMember (texportOne h.toNat)) noFront

end Sys2Proof.Machine
end

