-- ==== Sys2Proof/Machine/Front.lean ====
section
/-! DEFINITION. The front thread's own instructions: DQPUSH, LAUNCH, FEXIT, FWAITEV (R338 to R344) and the scheduler
commands (R345 to R350), with the events that end their waits. -/

namespace Sys2Proof.Machine

/-! ## The decision queue (R338) -/

/-- Entries that some live thread has not passed. -/
def dqOccupancy (b : Block) : Nat :=
  b.threads.foldl (fun n p => if p.2.status = .exited then n else max n (b.front.wp - p.2.rp).toNat) 0

/-- A push. -/
def dqPush (b : Block) (v : Word) : Block :=
  { b with dq := b.dq.set (b.front.wp.toNat % 128) v, front := { b.front with wp := b.front.wp + 1 } }

/-- A push releases the front thread's accesses at block scope (R275). -/
def pushDq (s : State) (blk : Nat) (v : Word) : State := (blockRelease s blk none).modBlock blk fun b => dqPush b v

/-- DQPUSH (R339). -/
def execDqpush (a : BitVec 8) (s : State) : Result :=
  issue s (.dqpush a) noLane fun s is =>
    let v : Word := is.v.a.truncate 32
    if 128 ≤ dqOccupancy (is.block s) then (s, .stall (.dqRoom v)) else (pushDq s is.blk v, .next)

/-- A front thread that goes on after a stall. -/
def Front.resume (f : Front) : Front := { f with status := .run }

/-- DQ_ROOM (R339). -/
def execDqRoom (blk : Nat) (s : State) : Result :=
  .next (match s.block blk with
    | some b =>
      (match b.front.status with
       | .stalled (.dqRoom v) =>
         if 128 ≤ dqOccupancy b then s
         else (pushDq s blk v).modFront blk Front.resume
       | _ => s)
    | none => s)

/-! ## LAUNCH and FEXIT -/

/-- Whether what the threads of a block released to its front thread before its access `upto`, at the barriers that it may have
waited for, has been performed (R263, R275). -/
def joined (s : State) (blk upto : Nat) : Bool :=
  match s.block blk with
  | some b => !b.syncs.any fun y => bit y.path 0 && y.mark ≤ upto && y.ids.any (stillOpen s)
  | none => true

/-- Whether a front thread's release at device scope, made where the block's next access had number `upto`, is complete (R341,
R347). -/
def released (s : State) (blk upto : Nat) : Bool := fenceOk s blk none 2 3 upto && joined s blk upto

/-- LAUNCH (R341, R295, R419): it waits until the block is the head, its writes are acknowledged and a place is free. -/
def execLaunch (a : BitVec 8) (s : State) : Result :=
  issue s (.launch a) noLane fun s is =>
    let va := (is.front s).reg a.toNat
    if va.toNat % 128 ≠ 0 then (s, .trap causeMisalign va 0 none)
    else if notHead s (is.block s) then (s, .again .head)
    else if !released s is.blk ((is.front s).mark.getD s.nextAcc) || 1024 ≤ heldLaunches s then
      (s.modFront is.blk fun f => { f with mark := some (f.mark.getD s.nextAcc) }, .again .launch)
    else frontAccess (s.modFront is.blk fun f => { f with mark := none }) is { frontAcc s is .record va 128 with scope := 3 } 128

/-- FEXIT (R342). -/
def execFexit (s : State) : Result := issue s .fexit noLane fun s _ => (s, .stop)

/-! ## FWAITEV (R344) -/

/-- The value of an event whose condition holds. -/
def eventValue (b : Block) (kind ph arg : Nat) : Option Nat :=
  let free := 128 - dqOccupancy b
  match kind with
  | 0 => some (boolBit (b.bar arg).phase)
  | 1 => if boolBit (b.bar arg).phase ≠ ph then some (boolBit (b.bar arg).phase) else none
  | 2 => if arg ≤ free then some free else none
  | _ => if liveCount b ≤ arg then some (liveCount b) else none

/-- Whether an event word is legal. -/
def eventLegal (e : Quad) : Bool :=
  let kind := field e 15 12
  let arg := field e 11 0
  field e 63 17 = 0 && kind ≤ 3 && (kind = 1 || !bit e 16) && (match kind with
    | 0 => arg < 16
    | 1 => arg < 16
    | 2 => 1 ≤ arg && arg ≤ 128
    | _ => arg ≤ 1024)

/-- FWAITEV. -/
def execFwaitev (a : BitVec 8) (d : BitVec 6) (s : State) : Result :=
  issue s (.fwaitev a d) noLane fun s is =>
    let e := is.v.a
    if !eventLegal e then (s, .trap causeIllopnd 0 0 none)
    else match eventValue (is.block s) (field e 15 12) (boolBit (bit e 16)) (field e 11 0) with
      | some v => (s, .done (BitVec.ofNat 64 v))
      | none => (s, .stall (.event d.toNat (field e 15 12) (boolBit (bit e 16)) (field e 11 0)))

/-- A stalled group's result: the thread goes on, and a dependent group waits 2 cycles (R335). -/
def Front.complete (f : Front) (d : Nat) (v : Quad) (now : Nat) : Front :=
  { (f.setReg d v).resume with hazards := (d, now + 2) :: f.hazards }

/-- The core cycle of a block's core. -/
def coreCycle (s : State) (b : Block) : Nat := (s.core ((b.place.map Place.core).getD 0)).cycle

/-- FWAITEV_COMPLETE. -/
def execFwaitevComplete (blk : Nat) (s : State) : Result :=
  .next (match s.block blk with
    | some b =>
      (match b.front.status with
       | .stalled (.event d kind ph arg) =>
         (match eventValue b kind ph arg with
          | some v => s.modFront blk fun f => f.complete d (BitVec.ofNat 64 v) (coreCycle s b)
          | none => s)
       | _ => s)
    | none => s)

/-! ## Work-split launches (R346, R347) -/

/-- The first iteration of a block's range. -/
def splitStart (l : Launch) (b : Nat) : Nat := b * l.wt / l.nblocks

/-- WRANGE (R346). -/
def execWrange (d : BitVec 6) (s : State) : Result :=
  issue s (.wrange d) noLane fun s is =>
    let b := is.block s
    let l := s.launchOf b
    if l.mode = 1 then
      (s, .done2 (BitVec.ofNat 64 (splitStart l b.b)) (BitVec.ofNat 64 (splitStart l (b.b + 1))))
    else (s, .done2 0 0)

/-- The number of blocks whose ranges meet a tile (R347). -/
def contributors (l : Launch) (t : Nat) : Nat :=
  let p := l.nblocks
  let x0 := t * l.wipt
  let x1 := min (x0 + l.wipt) l.wt - 1
  if l.wt < p then x1 - x0 + 1
  else ceilDiv ((x1 + 1) * p) l.wt - ceilDiv ((x0 + 1) * p) l.wt + 1

/-- One FIXUP on a tile: what it reads, and the new count. -/
def fixupTile (s : State) (k t : Nat) : State × Quad :=
  match tget s.launches k with
  | none => (s, 0)
  | some l =>
    if l.mode ≠ 1 then (s, BitVec.ofNat 64 (2 ^ 32))
    else
      let n := (tget l.fixups t).getD 0
      (s.modLaunch k fun l => { l with fixups := tset l.fixups t (n + 1) }, BitVec.ofNat 64 (contributors l t * 2 ^ 32 + n))

/-- FIXUP (R347, R295): a release, so it waits for the thread's writes, and an acquire. -/
def execFixup (a d : BitVec 6) (s : State) : Result :=
  issue s (.fixup a d) noLane fun s is =>
    let l := s.launchOf (is.block s)
    let t := ((is.front s).reg a.toNat).toNat
    if l.mode = 1 && ceilDiv l.wt l.wipt ≤ t then (s, .trap causeIllopnd 0 0 none)
    else if notHead s (is.block s) then (s, .again .head)
    else if !released s is.blk s.nextAcc then (s, .stall (.fixup d.toNat t s.nextAcc))
    else
      let (s, v) := fixupTile (fenceDone s is.blk none 1 3) (is.block s).launch t
      (s, .done v)

/-- A stalled FIXUP completes once its release has. -/
def completeFixup (s : State) (blk : Nat) : State :=
  match s.block blk with
  | some b =>
    (match b.front.status with
     | .stalled (.fixup d t upto) =>
       if !released s blk upto then s
       else
         let (s, v) := fixupTile (fenceDone s blk none 1 3) b.launch t
         s.modFront blk fun f => f.complete d v (coreCycle s b)
     | _ => s)
  | none => s

/-! ## FETCHW (R348) -/

/-- The four words of a mailbox, each as an STX. DESIGN CHOICE (log 98): the Dispatcher writes them, and it is no agent of R251, so
what the front thread has done before its FETCHW is not released with them. -/
def writeMailbox (s : State) (blk h off : Nat) (ws : List Nat) : State :=
  match s.tile blk h with
  | none => s
  | some _ =>
    let s := s.modTile blk h fun t => { t with bytes := t.bytes.setNum off 16 (wordsNum (ws.map (BitVec.ofNat 32))) }
    markWords s blk h true (wordsFrom off 4)

/-- FETCHW: the mailbox is checked as an STX of 16 bytes (R237). -/
def execFetchw (a : BitVec 6) (s : State) : Result :=
  issue s (.fetchw a) noLane fun s is =>
    let m := (is.front s).reg a.toNat
    let h := field m 25 20
    let off := field m 19 0
    if field m 63 26 ≠ 0 then (s, .trap causeIllopnd 0 0 none)
    else match tileCheck s is.core is.blk h off 16 16 .storeAny with
      | .error (cause, detail) => (s, .trap cause (BitVec.ofNat 64 off) detail none)
      | .ok _ =>
        if (s.launchOf (is.block s)).mode = 2 then ({ s with net := s.net ++ [.fetchw is.blk h off] }, .next)
        else (writeMailbox s is.blk h off [0, 0, 0, 0], .next)

/-- Whether mailbox message `n` is the first of its front thread (R348). -/
def mailTurn (s : State) (n blk : Nat) : Bool := !(s.net.take n).any fun m => match m with
  | .fetchw b _ _ => b = blk
  | _ => false

/-- FETCHW_DELIVERY: the lowest block not yet placed or withdrawn is withdrawn. -/
def execFetchwDelivery (n : Nat) (s : State) : Result :=
  .next (match s.net[n]? with
    | some (.fetchw blk h off) =>
      if !mailTurn s n blk then s else
      let s := { s with net := ldel s.net n }
      (match s.block blk with
       | none => s
       | some b =>
         let l := s.launchOf b
         let i := l.next
         if i < l.nblocks then
           let s := s.modLaunch b.launch fun l => l.take i
           let s := writeMailbox s blk h off [i % l.nbx, i / l.nbx % l.nby, i / (l.nbx * l.nby), 1]
           noteRetired s b.launch i
         else writeMailbox s blk h off [0, 0, 0, 0])
    | _ => s)

/-! ## SCRET and POWQ -/

/-- SCRET (R349). -/
def execScret (a : BitVec 6) (s : State) : Result :=
  issue s (.scret a) noLane fun s is =>
    let v := (is.front s).reg a.toNat
    if field v 63 32 ≠ 0 then (s, .trap causeIllopnd 0 0 none)
    else (s.modLaunch (is.block s).launch fun l => { l with ret := l.ret ||| v.truncate 32 }, .next)

/-- The island of a core. -/
def coreIsland (core : Nat) : Nat := 64 * (core / 40) + core % 40

/-- BUDGET and DUTY of an island's command word. -/
def Island.budget (i : Island) : Nat := field i.cmd 47 32
def Island.duty (i : Island) : Nat := field i.cmd 10 8

/-- The core clock of a state, in MHz. -/
def vfsMHz (v : Nat) : Nat :=
  match v with
  | 0 => 0
  | 1 => 700
  | 2 => 1050
  | 3 => 1400
  | 4 => 1600
  | 5 => 1800
  | 6 => 2000
  | _ => 2100

/-- The word of POWQ (R350). -/
def powqWord (s : State) (core : Nat) : Nat :=
  let n := coreIsland core
  let i := s.island n
  vfsMHz i.vfs.toNat * 2 ^ 32 + n * 2 ^ 16 + boolBit (i.budget = 0) * 16 + boolBit i.ovb * 8 + i.vfs.toNat

/-- POWQ. -/
def execPowq (d : BitVec 6) (s : State) : Result :=
  issue s (.powq d) noLane fun s is => (s, .done (BitVec.ofNat 64 (powqWord s is.core)))

end Sys2Proof.Machine
end

