-- ==== Sys2Proof/Machine/Home.lean ====
section
/-! DEFINITION. Home slices, proxy slices and cluster atomic units (R281 to R289), the HBM queues (R285), the host lines
(R462), and the answers that reach the cores (R222, R258, R289). -/

namespace Sys2Proof.Machine

/-! ## Lines at their home -/

/-- A line's data, the owner's dirty bytes included. -/
def lineData (s : State) (line : Nat) : BitVec 1024 := BitVec.ofNat 1024 (homeNum s (128 * line) 128)

/-- A directory-tracked copy leaves a core. -/
def dropCopy (line : Nat) (c : Core) : Core :=
  match tget c.l1 line with
  | some l => if l.coh = 1 then c else { c with l1 := tdel c.l1 line }
  | none => c

/-- Copies under way to some cores are asked for again. -/
def refetch (line : Nat) (p : Nat → Bool) (m : Msg) : Msg :=
  match m with
  | .fill c l coh d bad => if l = line && coh ≠ 1 && p c then .readShared c l coh else .fill c l coh d bad
  | m => m

/-- The copies that some cores hold of a line, or that are on their way to them, go. -/
def dropAt (s : State) (line : Nat) (p : Nat → Bool) : State :=
  { s with cores := tmap (fun k c => if p k then dropCopy line c else c) s.cores
           net := s.net.map (refetch line p) }

/-- The copy of a die's proxy slice goes, with those of its cores (R283). -/
def dropProxy (s : State) (die line : Nat) (p : Nat → Bool) : State :=
  dropAt { s with proxies := tdel s.proxies (proxyKey die line) } line fun c => decide (coreDie c = die) && p c

/-- The lines that a slice holds: those of which it is the home, and copies for the cores of its die, each with that die
(R281, R282). -/
def sliceLines (s : State) (slice : Nat) : List (Option Nat × Nat) :=
  ((s.home.filter fun h => lineSlice s h.1 = slice).map fun h => (none, h.1))
  ++ (s.proxies.filter fun p => p.1 / 2 ^ 45 * 384 + homeSlice (128 * (p.1 % 2 ^ 45)) = slice).map fun p =>
    (some (p.1 / 2 ^ 45), p.1 % 2 ^ 45)

/-- A slice evicts a line (R281, R283): every copy is invalidated, and dirty bytes are written back to where they belong. -/
def evictHome (s : State) (line : Nat) : State :=
  let s := dropCopies s line
  let dirty := ((tget s.home line).map HomeLine.dirty).getD 0
  let s := { s with home := tdel s.home line
                    dev := { s.dev with hostOwned := s.dev.hostOwned.filter (· ≠ line)
                                        hostShared := s.dev.hostShared.filter (· ≠ line) } }
  if dirty = 0 then s else sendEvicted s line

/-- Room for a line in a slice: of sixteen in its set, the implementation picks the victim (log 9). -/
def makeSlice (s : State) (slice line : Nat) : State :=
  let all := sliceLines s slice
  if all.length < 16 then s
  else
    let set := all.filter fun x => Config.l2Set x.2 % 128 = Config.l2Set line % 128
    if set.length < 16 then s
    else match set[Config.victim s.nfree 16 % 16]? with
      | some (none, l) => { evictHome s l with nfree := s.nfree + 1 }
      | some (some d, l) =>
        modLine { dropProxy s d l (fun _ => true) with nfree := s.nfree + 1 } l fun h => { h with dies := withBit h.dies d false }
      | none => s

/-- The entry of a line in its slice, made when it is first needed. -/
def enterLine (s : State) (line : Nat) : State :=
  if (tget s.home line).isSome then s
  else
    let s := makeSlice s (lineSlice s line) line
    { s with home := tset s.home line {} }

/-- Whether a line is in its slice, or can be entered without overrunning the slice's 64 requests (R285). -/
def entryRoom (s : State) (line : Nat) : Bool := (tget s.home line).isSome || missRoom s line

/-- Whether a copy for a core is tracked at the home, or in a proxy slice that holds the line or has room to enter it (R281,
R285). -/
def proxyRoom (s : State) (core line : Nat) : Bool :=
  coreDie core = lineDie s line || (tget s.proxies (proxyKey (coreDie core) line)).isSome
    || sliceRoom s (coreDie core * 384 + homeSlice (128 * line))

/-- A sharer on the home die, or through the proxy slice of its own (R282, R283). -/
def addSharer (s : State) (core line : Nat) : State :=
  let b := core % 40
  if coreDie core = lineDie s line then
    modLine s line fun h => { h with dir := .shared, sharers := withBit h.sharers b true }
  else
    let key := proxyKey (coreDie core) line
    let s := if (tget s.proxies key).isSome then s else makeSlice s (coreDie core * 384 + homeSlice (128 * line)) line
    let p : ProxyLine := (tget s.proxies key).getD { data := lineData s line }
    let s := modLine s line fun h => { h with dir := .shared, dies := withBit h.dies (coreDie core) true }
    { s with proxies := tset s.proxies key { p with sharers := withBit p.sharers b true } }

/-- A grant of a line under way is taken back, and its core asks again. -/
def revokeGrant (s : State) (line : Nat) : State :=
  let ask := fun (m : Msg) => match m with
    | .grant c l => if l = line then some (Msg.ownership c l) else none
    | _ => none
  { s with net := (s.net.filter fun m => (ask m).isNone) ++ s.net.filterMap ask }

/-- The owner supplies its dirty bytes and keeps a clean copy, where that can be tracked (R283). -/
def recallOwner (s : State) (line : Nat) : State :=
  let s := revokeGrant s line
  match (tget s.home line).map HomeLine.dir with
  | some (.owned c) =>
    let s := (mergeCopy s (s.core c) line).modCore c fun k => match tget k.l1 line with
      | some l =>
        if l.coh = 1 then k else { k with l1 := tset k.l1 line { l with dirty := l.dirty &&& l.staged, writable := false } }
      | none => k
    let s := { s with clusters := tmap (fun _ ls => ls.filter (· ≠ line)) s.clusters }
    let s := modLine s line fun h => { h with dir := .shared }
    if (tget (s.core c).l1 line).isNone then s
    else if proxyRoom s c line then addSharer s c line
    else s.modCore c (dropCopy line)
  | _ => s

/-- Dies that may still hold a copy: those of the mask, and those whose invalidation is still on its way. -/
def copyDies (s : State) (line : Nat) : List Nat :=
  let mask := ((tget s.home line).map HomeLine.dies).getD 0
  (List.range 4).filter fun d => bit mask d || s.net.any fun m => match m with
    | .proxyInv d' l _ => d' = d && l = line
    | _ => false

/-- A core becomes the owner (R283, R258): the old owner's dirty bytes are taken and its copy goes, and the copies on the home
die go; invalidations, which the writing core counts, leave for the other dies that hold copies. -/
def ownLine (s : State) (core line writer : Nat) : State :=
  let s := match (tget s.home line).map HomeLine.dir with
    | some (.owned c) => if c = core then s else (mergeCopy s (s.core c) line).modCore c (dropCopy line)
    | _ => s
  let s := dropAt s line fun c => decide (coreDie c = lineDie s line) && c != core
  let inv := (copyDies s line).map fun d => Msg.proxyInv d line writer
  let far := (((tget s.home line).map HomeLine.devs).getD []).map fun d => Msg.devInv d line writer
  let s := { s with net := s.net ++ inv ++ far
                    clusters := tmap (fun _ ls => ls.filter (· ≠ line)) s.clusters }
  modLine s line fun h => { h with dir := .owned core, sharers := 0, dies := 0, devs := [] }

/-- Whether a grant of a line is under way. -/
def granting (s : State) (line : Nat) : Bool := s.net.any fun m => match m with
  | .grant _ l => l = line
  | _ => false

/-! ## The order of messages (R285, R230) -/

/-- What orders a message: to the home or from it, its core, and its line. -/
def msgKey : Msg → Option (Bool × Nat × Nat)
  | .readShared c l _ => some (true, c, l)
  | .ownership c l => some (true, c, l)
  | .readHome c a => some (true, c, a.line)
  | .writeHome c a => some (true, c, a.line)
  | .writeback c l _ _ _ _ => some (true, c, l)
  | .rest c l _ _ _ _ => some (true, c, l)
  | .atomic c a => some (true, c, a.line)
  | .clusterAtomic c a => some (true, c, a.line)
  | .fill c l _ _ _ => some (false, c, l)
  | .value c a _ _ => some (false, c, a.line)
  | .grant c l => some (false, c, l)
  | _ => none

/-- Whether message `n` is the first of its core and line. -/
def inOrder (s : State) (n : Nat) : Bool :=
  match (s.net[n]?).bind msgKey with
  | none => true
  | some k => !(s.net.take n).any fun m => msgKey m = some k

/-- Message `n` is taken from those in flight. -/
def takeMsg (s : State) (n : Nat) : State := { s with net := ldel s.net n }

/-- Whether a message belongs to the COH 01 aperture of a line, within which a write-back is one write (R253, R270). -/
def Msg.ofSelf : Msg → Bool
  | .readShared _ _ coh => coh = 1
  | .readHome _ a => a.coh = 1
  | .writeHome _ a => a.coh = 1
  | .atomic _ a => a.coh = 1
  | .writeback _ _ _ _ _ _ => true
  | _ => false

/-- Whether words of a write-back of a line have yet to merge (R270). -/
def restOpen (s : State) (line : Nat) : Bool := s.net.any fun m => match m with
  | .rest _ l _ _ _ _ => l = line
  | _ => false

/-- Whether a home may serve message `n` on a line: in order, with no grant of it under way, and within the COH 01 aperture after
the whole of the write-back before it. -/
def mayServe (s : State) (n line : Nat) : Bool :=
  inOrder s n && !granting s line && !(restOpen s line && (s.net[n]?).any Msg.ofSelf)

/-- Whether a home has a line as a message needs it: to read, or to write. -/
def lineAt (s : State) (line : Nat) (own : Bool) : Bool := if own then lineOwned s line else lineReady s line

/-- A home serves message `n` on a line once it has the line at hand, owned if it is to write it (R284). -/
def serveLine (s : State) (n line : Nat) (own : Bool) (k : State → State) : State :=
  if !mayServe s n line then s
  else if !lineAt s line own then (if own then fetchOwned s line else fetchLine s line)
  else if !entryRoom s line then s
  else k (enterLine (takeMsg s n) line)

/-- Whether a single access goes to the host itself: a system-scope atomic on a host line (R287, R462). -/
def toHost (s : State) (a : Acc) : Bool :=
  region s a.pa = .host && a.scope = 5 && a.kind.writes && a.kind ≠ .store

/-- A single access handed to the host; a line that the device holds goes back first. -/
def askHost (s : State) (n core : Nat) (a : Acc) : State :=
  if !inOrder s n || !missRoom s a.line then s else
  let s := dropCopies (takeMsg s n) a.line
  { s with net := s.net ++ [.hostLine a.line (some (core, a))]
           home := tdel s.home a.line
           dev := { s.dev with hostOwned := s.dev.hostOwned.filter (· ≠ a.line)
                               hostShared := s.dev.hostShared.filter (· ≠ a.line) } }

/-! ## Requests at the home -/

/-- Whether a line's copy is poisoned. -/
def lineBad (s : State) (line : Nat) : Bool := s.poison.contains line

/-- Whether the proxy copy of a core's die is older than a write of the core's cluster: its invalidation is on its way (R258), and
the home serves the core so that it never reads older than its own writes (R252). -/
def staleProxy (s : State) (core line : Nat) : Bool := s.net.any fun m => match m with
  | .proxyInv d l w => d = coreDie core && l = line && w / 4 = core / 4
  | _ => false

/-- A shared copy for a core: from its die's proxy slice if that holds one, else from the home (R282, R283, R284). -/
def serveShared (s : State) (core line : Nat) (coh : BitVec 2) : State :=
  let send := fun (s : State) (d : BitVec 1024) => { s with net := s.net ++ [.fill core line coh d (lineBad s line)] }
  if coh = 1 then send s (lineData s line)
  else match if staleProxy s core line then none else tget s.proxies (proxyKey (coreDie core) line) with
    | some p =>
      send { s with proxies := tset s.proxies (proxyKey (coreDie core) line)
                      { p with sharers := withBit p.sharers (core % 40) true } } p.data
    | none =>
      let s := addSharer (recallOwner s line) core line
      send s (lineData s line)

/-- What a read performed at its home brings back. -/
def readAnswer (s : State) (core : Nat) (a : Acc) (v : Nat) : State :=
  { s with net := s.net ++ [.value core a (BitVec.ofNat 1024 (withOwnStage s a v)) (lineBad s a.line)] }

/-- A single write at its home (R252, R284). -/
def writeSingle (s : State) (core : Nat) (a : Acc) : State :=
  let s := homeWrite s a.pa (bytesOf a.size a.data)
  { s with net := s.net ++ [.ack core (some a.id) a.blk a.who] }

/-- A single read at its home. -/
def readSingle (s : State) (core : Nat) (a : Acc) : State :=
  let s := recallOwner s a.line
  readAnswer s core a (homeNum s a.pa a.size)

/-- READ_SHARED_REQUEST: a copy of a line, or a single read at the home (R283, R284, R264). -/
def execReadSharedRequest (n : Nat) (s : State) : Result :=
  .next (match s.net[n]? with
    | some (.readShared core line coh) =>
      if coh ≠ 1 && !proxyRoom s core line then s else serveLine s n line false fun s => serveShared s core line coh
    | some (.readHome core a) => serveLine s n a.line false fun s => readSingle s core a
    | _ => s)

/-- OWNERSHIP_REQUEST (R283, R258). -/
def execOwnershipRequest (n : Nat) (s : State) : Result :=
  .next (match s.net[n]? with
    | some (.ownership core line) => serveLine s n line true fun s =>
        let s := ownLine s core line core
        { s with net := s.net ++ [.grant core line] }
    | _ => s)

/-- The bytes of some 32-bit words of a line. -/
def wordsMask (w : Word) : BitVec 128 :=
  (List.range 32).foldl (fun m i => if bit w i then m ||| byteMask (4 * i) 4 else m) 0

/-- The bytes of a write-back count as writes of the head blocks that made them (R296); those of a reduction are no write, but
their line counts for read conflicts. -/
def noteHome (s : State) (line : Nat) (n : Note) : State :=
  if n.red then s.modLaunch n.launch fun l =>
    if l.det && !l.staged.contains (line, n.b) then { l with staged := l.staged ++ [(line, n.b)] } else l
  else writeAtHome s n.launch n.b (128 * line) n.va ((List.range 128).filter fun i => bit n.mask i)

/-- All that a write-back brings has merged: it counts for conflicts, and is acknowledged. -/
def finishBack (s : State) (core line : Nat) (mask : BitVec 128) (data : BitVec 1024) (who : Option (Nat × Option Nat))
    (notes : List Note) : State :=
  let s := mergeHome (notes.foldl (fun s n => noteHome s line n) s) line mask data
  { s with net := s.net ++ backAck core who }

/-- HOME_WRITEBACK: dirty bytes merge at the home, or a single write is performed there (R284). Some words of a write-back may merge
before the others, and accesses through other apertures come between (R270). -/
def execHomeWriteback (n : Nat) (s : State) : Result :=
  .next (match s.net[n]? with
    | some (.writeback core line mask data who notes) => serveLine s n line true fun s =>
        let first := mask &&& wordsMask (Config.splitMerge s.now)
        if first = 0 || first = mask || lineBad s line then finishBack s core line mask data who notes
        else
          let s := mergeHome s line first data
          { s with net := .rest core line (mask &&& ~~~first) data who notes :: s.net }
    | some (.rest core line mask data who notes) => serveLine s n line true fun s => finishBack s core line mask data who notes
    | some (.writeHome core a) => serveLine s n a.line true fun s => writeSingle s core a
    | _ => s)

/-- The write of an atomic at a place above the L1, from the value that it has read, and its answer (R231, R289). -/
def atomicWrite (s : State) (core : Nat) (a : Acc) (old : Nat) : State :=
  let s := dirtyHome { s with mem := s.mem.setNum a.pa a.size (a.newValue old) } a.line a.mask
  let s := noteReduction s a
  let m := match a.kind with
    | .reduce _ _ => Msg.ack core (some a.id) a.blk a.who
    | _ => .value core a (BitVec.ofNat 1024 old) false
  { s with net := s.net ++ [m] }

/-- Where an atomic on its way executes (R287): in a cluster unit, or at the home. -/
def Msg.place : Msg → Option (Option Nat × Nat × Acc)
  | .atomic core a => some (none, core, a)
  | .clusterAtomic core a => some (some (core / 4), core, a)
  | _ => none

/-- An atomic on a line that waits for another place than `u`. -/
def otherPlace (s : State) (line : Nat) (u : Option Nat) : Option Nat :=
  (List.range s.net.length).find? fun n => inOrder s n && match (s.net[n]?).bind Msg.place with
    | some (v, _, a) => a.line = line && v ≠ u && !toHost s a
    | none => false

/-- The atomic of another place performed, where there is one: it comes between the read and the write of one at `u` (R268). -/
def atomicBetween (s : State) (line : Nat) (u : Option Nat) : State :=
  match otherPlace s line u with
  | none => s
  | some n => match (s.net[n]?).bind Msg.place with
    | some (_, core, a) => atomicWrite (takeMsg s n) core a (homeNum s a.pa a.size)
    | none => s

/-- An atomic at its place above the L1, a cluster unit or the home (R231, R289). -/
def performAtomic (s : State) (u : Option Nat) (core : Nat) (a : Acc) : State :=
  if lineBad s a.line then { s with net := s.net ++ [.value core a 0 true] }
  else
    let old := homeNum s a.pa a.size
    atomicWrite (if Config.splitAtomic s.now then atomicBetween s a.line u else s) core a old

/-- HOME_ATOMIC: every copy is recalled first (R289). -/
def execHomeAtomic (n : Nat) (s : State) : Result :=
  .next (match s.net[n]? with
    | some (.atomic core a) =>
      if toHost s a then askHost s n core a
      else serveLine s n a.line true fun s => performAtomic (dropCopies s a.line) none core a
    | _ => s)

/-- A cluster unit that takes a line, of at most 64, as an owner in the bit of its core 0 (R288). -/
def clusterTake (s : State) (u line writer : Nat) : State :=
  let held := (tget s.clusters u).getD []
  if held.contains line then s
  else
    let s := ownLine s (4 * u) line writer
    let ls := (line :: held).take 64
    let s := (held.filter fun l => !ls.contains l).foldl (fun s l => forgetSharer s (4 * u) l) s
    { s with clusters := tset s.clusters u ls }

/-- Copies that the cores of a cluster hold go, their dirty bytes home (R288). -/
def clusterRecall (s : State) (u line : Nat) : State :=
  (List.range 4).foldl (fun s i => (mergeCopy s (s.core (4 * u + i)) line).modCore (4 * u + i) (dropCopy line)) s

/-- CLUSTER_ATOMIC (R288). -/
def execClusterAtomic (n : Nat) (s : State) : Result :=
  .next (match s.net[n]? with
    | some (.clusterAtomic core a) =>
      if toHost s a then askHost s n core a
      else serveLine s n a.line true fun s =>
        performAtomic (clusterTake (clusterRecall s (core / 4) a.line) (core / 4) a.line core) (some (core / 4)) core a
    | _ => s)

/-! ## HBM (R285, R453, R454) -/

/-- A row's activations (R454), and a change to them. -/
def actCount (s : State) (row : Nat) : Nat := (tget s.dev.acts row).getD 0

/-- Whether a row may be opened: its threshold refresh is not due. -/
def rowFree (s : State) (row : Nat) : Bool := s.dev.openRows.contains row || actCount s row < s.dev.rht.toNat

/-- Opening a row closes the row that its bank had open, and counts an activation, saturating at 16 bits. -/
def openRow (s : State) (row : Nat) : State :=
  if s.dev.openRows.contains row then s
  else { s with dev := { s.dev with
    openRows := insertNat (s.dev.openRows.filter fun r => Config.bankOf r ≠ Config.bankOf row) row
    acts := tset s.dev.acts row (min (actCount s row + 1) 65535) } }

/-- 256 mesh cycles in core cycles (R3). -/
def hbmAge : Nat := 336

/-- The request that a slice issues next (R285). -/
def hbmChoice (s : State) (slice : Nat) : Option HbmReq :=
  let q := s.hbm.filter fun h => h.slice = slice && !h.issued && rowFree s (Config.rowOf h.line)
  match q.find? fun h => h.since + hbmAge ≤ s.now with
  | some h => some h
  | none =>
    match q.find? fun h => s.dev.openRows.contains (Config.rowOf h.line) with
    | some h => some h
    | none => q.head?

/-- HBM_REQUEST_ISSUE. -/
def execHbmRequestIssue (slice : Nat) (s : State) : Result :=
  .next (match hbmChoice s slice with
    | some h =>
      let s := openRow s (Config.rowOf h.line)
      { s with hbm := s.hbm.map fun x => if x = h then { x with issued := true } else x }
    | none => s)

/-- A correctable event is logged (R454): vector 2 when the count passes the threshold. -/
def logCorrectable (d : Dev) (kind : Nat) : Dev :=
  let n := min (d.cecount.toNat + 1) (2 ^ 32 - 1)
  { d with cecount := BitVec.ofNat 32 n, celast := BitVec.ofNat 8 kind
           msix := if d.cethr ≠ 0 && d.cecount.toNat ≤ d.cethr.toNat && d.cethr.toNat < n then d.msix ++ [2] else d.msix }

/-- The refresh class of a row in force, in ms (R453). -/
def rowInterval (s : State) (row : Nat) : Nat :=
  if s.dev.f32rows.contains row || Config.rowClass row = 32 then 32
  else if s.dev.f64rows.contains row || Config.rowClass row = 64 then 64 else 128

/-- A corrected error demotes its row one class (R453). -/
def demoteRow (s : State) (row : Nat) : State :=
  match rowInterval s row with
  | 128 => { s with dev := logCorrectable { s.dev with f64rows := insertNat s.dev.f64rows row } 2 }
  | 64 => { s with dev := logCorrectable { s.dev with f32rows := insertNat s.dev.f32rows row } 2 }
  | _ => { s with dev := logCorrectable s.dev 1 }

/-- What the error check of a read of HBM does (R286, R453). -/
def hbmCheck (s : State) (line : Nat) (e : EccOutcome) : State :=
  match e with
  | .clean => s
  | .corrected => demoteRow s (Config.rowOf line)
  | .uncorrectable => { s with poison := insertNat s.poison line }

/-- HBM_DATA_RETURN: the line is present at its home, or its evicted bytes are in HBM. -/
def execHbmDataReturn (n : Nat) (err : EccOutcome) (s : State) : Result :=
  .next (match s.hbm[n]? with
    | some h =>
      let done := { s with hbm := ldel s.hbm n }
      if !h.issued then s else if h.read then hbmCheck (enterLine done h.line) h.line err else done
    | none => s)

/-! ## Answers that reach a core -/

/-- Commands that wait for a line look again. -/
def wakeCommands (s : State) : State :=
  { s with cores := tmap (fun _ c => { c with cmds := c.cmds.map fun x => { x with blocked := false } }) s.cores }

/-- A line enters an L1: bytes already dirty or staged are kept (R218). -/
def installLine (s : State) (core line : Nat) (coh : BitVec 2) (data : BitVec 1024) (bad writable : Bool) : State :=
  let s := makeRoom (sameCoh s core line coh) core line
  let c := s.core core
  let l : L1Line := (tget c.l1 line).getD { coh := coh, filled := c.cycle }
  let keep := l.dirty ||| l.staged
  let l' : L1Line := { l with writable := writable, valid := BitVec.allOnes 128, data := mergeBytes keep l.data data,
                              poison := (if bad then ~~~keep else 0) }
  s.setCore core { c with l1 := tset c.l1 line l' }

/-- Whether a core already owns a line, so that an older copy of it is of no use. -/
def ownsLine (s : State) (core line : Nat) : Bool := ((tget (s.core core).l1 line).map L1Line.writable).getD false

/-- The bytes of an ordered read of a COH 01 line, those dirty in the reader's own L1 taken from there (R264). -/
def withOwnDirty (s : State) (core : Nat) (a : Acc) (v : Nat) : Nat :=
  match tget (s.core core).l1 a.line with
  | some l =>
    if l.coh = 1 && a.coh = 1 then
      sliceOf (mergeBytes l.dirty l.data (BitVec.ofNat 1024 (v <<< (8 * a.off)))) a.off a.size
    else v
  | none => v

/-- LOAD_DATA_RETURN: a line for the L1, the value of one access (R222), or what a slice has asked of a Sidin port (R281). -/
def execLoadDataReturn (n : Nat) (s : State) : Result :=
  .next (if !inOrder s n then s else match s.net[n]? with
    | some (.fill core line coh data bad) =>
      let s := takeMsg s n
      retryLine (if ownsLine s core line then s else installLine s core line coh data bad false) core line
    | some (.value core a v bad) =>
      let s := takeMsg s n
      let s := if bad then failEcc s a
        else finishAcc s a (if a.kind = .load then withOwnDirty s core a v.toNat else v.toNat)
      endAcc s core a.id
    | some (.port line write) => if write then takeMsg s n else wakeCommands (enterLine (takeMsg s n) line)
    | _ => s)

/-- The attribute under which a core asked for a line's ownership. -/
def ownCoh (c : Core) (line : Nat) : BitVec 2 :=
  match c.stores.find? fun e => e.line = line with
  | some e => e.acc.coh
  | none => ((c.pend.find? fun a => a.line = line).map Acc.coh).getD 0

/-- OWNERSHIP_GRANT: the line is writable in the writer's L1 (R258). -/
def execOwnershipGrant (n : Nat) (s : State) : Result :=
  .next (if !inOrder s n then s else match s.net[n]? with
    | some (.grant core line) =>
      let s := takeMsg s n
      let coh := ownCoh (s.core core) line
      retryLine (installLine s core line coh (lineData s line) (lineBad s line) true) core line
    | _ => s)

/-- INVALIDATION_ACK: the copies on another die or device are gone, and the writer has one acknowledgement more (R258). -/
def execInvalidationAck (n : Nat) (s : State) : Result :=
  .next (match s.net[n]? with
    | some (.proxyInv die line core) =>
      progress (dropProxy (takeMsg s n) die line fun c => !ownsLine s c line) core
    | some (.devInv _ _ core) => progress (takeMsg s n) core
    | _ => s)

/-- WRITE_ACKNOWLEDGEMENT (R289). -/
def execWriteAcknowledgement (n : Nat) (s : State) : Result :=
  .next (match s.net[n]? with
    | some (.ack core id _ _) =>
      let s := takeMsg s n
      (match id with
       | some i => endAcc s core i
       | none => progress s core)
    | _ => s)

/-- COH01_RETENTION_EVICTION (R254). -/
def execCoh01RetentionEviction (core line : Nat) (s : State) : Result :=
  .next (match tget (s.core core).l1 line with
    | some l => if l.coh = 1 && l.filled + 2 ^ 20 ≤ (s.core core).cycle then evictLine s core line else s
    | none => s)

/-! ## The host's answers (R462) -/

/-- A line of the host is at its home. -/
def holdHost (s : State) (line : Nat) (bs : List Byte) (bad : Bool) : State :=
  let s := { s with mem := s.mem.setBytes (128 * line) ((bs ++ List.replicate 128 0).take 128)
                    poison := if bad then insertNat s.poison line else s.poison.filter (· ≠ line)
                    dev := { s.dev with hostShared := insertNat s.dev.hostShared line } }
  wakeCommands (enterLine s line)

/-- The host's answer to one access: a value, or an acknowledgement; a lost write is acknowledged all the same. -/
def hostAnswer (s : State) (core : Nat) (a : Acc) (r : HostAnswer) : State :=
  let send := fun (m : Msg) => { s with net := s.net ++ [m] }
  if !a.kind.returns then send (.ack core (some a.id) a.blk a.who)
  else match r with
    | .data bs => send (.value core a (BitVec.ofNat 1024 (withOwnStage s a (leValue (bs.take a.size)))) false)
    | _ => send (.value core a 0 true)

/-- What the host answers a request to own a line with; one that is held already keeps its data (R284). -/
def ownAnswer (s : State) (line : Nat) (r : HostAnswer) : State :=
  let s := if lineReady s line then s else match r with
    | .data bs => holdHost s line bs false
    | _ => holdHost s line [] true
  wakeCommands { s with dev := { s.dev with hostOwned := insertNat s.dev.hostOwned line
                                            hostShared := s.dev.hostShared.filter (· ≠ line) } }

/-- HOST_LINE_RESPONSE. -/
def execHostLineResponse (n : Nat) (r : HostAnswer) (s : State) : Result :=
  .next (match s.net[n]? with
    | some (.hostLine line none) =>
      let s := takeMsg s n
      (match r with
       | .data bs => holdHost s line bs false
       | _ => holdHost s line [] true)
    | some (.hostLine _ (some (core, a))) => hostAnswer (takeMsg s n) core a r
    | some (.hostOwn line) => ownAnswer (takeMsg s n) line r
    | _ => s)

end Sys2Proof.Machine
end

