-- ==== Sys2Proof/Machine/Proc.lean ====
section
/-! DEFINITION. Procedural ranges (R308 to R319): their definition, the fills of their blocks by dyers, eviction, and the
instructions and events that act on them. -/

namespace Sys2Proof.Machine

/-! ## Ranges and blocks -/

def State.range (s : State) (ctx rid : Nat) : Option ProcRange := (tget s.ctxs ctx).bind fun c => tget c.ranges rid

/-- Whether a block counts against the budget (R316). -/
def FillBlock.held (b : FillBlock) : Bool :=
  match b.fill with
  | .steeping => true
  | .filled => true
  | _ => false

/-- The ancestor list of the block that holds an address (R313). -/
def ancestorsAt (s : State) (ctx va : Nat) : List Nat :=
  match rangeOf s ctx va with
  | some (rid, base) => (getFill s ctx rid base).ancestors
  | none => []

/-- The bytes of a memory within a range. -/
def Memory.within (m : Memory) (lo hi : Nat) : Memory := m.filter fun c => lo ≤ c.1 && c.1 < hi

/-- A FILLED or POISONED block returns to UNFILLED; one that is STEEPING does so when its fill ends (R316, R317). -/
def evictFill (s : State) (ctx rid base : Nat) : State :=
  let fb := getFill s ctx rid base
  match fb.fill with
  | .filled => modFill (discardBlock s ctx rid base) ctx rid base fun b => { b with fill := .unfilled, backing := [] }
  | .poisoned _ _ => modFill s ctx rid base fun b => { b with fill := .unfilled }
  | .steeping => modFill s ctx rid base fun b => { b with evict := true }
  | .unfilled => s

/-! ## Fills -/

/-- The dyer of a block is launched; a record that the check refuses poisons the block (R313). -/
def launchDyer (s : State) (ctx rid base depth : Nat) : State :=
  match s.range ctx rid with
  | none => s
  | some r =>
    let d : Dyer := { ctx := ctx, rid := rid, base := base, depth := depth, die := homeDie s (getFill s ctx rid base).pa }
    submit s (dyerRecord s ctx r) none (some d)

/-- Dyer slots in use on a die at a depth (R313). -/
def dyersAt (s : State) (die depth : Nat) : Nat :=
  (s.launches.filter fun p => p.2.done = 0 && (match p.2.dyer with
    | some d => d.die = die && d.depth = depth
    | none => false)).length

/-- Every block of every range, as (context, range, base, block). -/
def allFills (s : State) : List (Nat × Nat × Nat × FillBlock) :=
  s.ctxs.flatMap fun c => c.2.ranges.flatMap fun r => r.2.blocks.map fun b => (c.1, r.1, b.1, b.2)

/-- The queued block of the earliest arrival among those that a test picks. -/
def firstQueued (s : State) (p : Nat × Nat × Nat × FillBlock → Bool) : Option (Nat × Nat × Nat × FillBlock) :=
  (allFills s).foldl (fun b x =>
    if !p x then b
    else match x.2.2.2.queued, b with
      | none, _ => b
      | some _, none => some x
      | some q, some y => if q < (y.2.2.2.queued.getD 0) then some x else b) none

/-- Free dyer slots of a die and depth go to the blocks that wait, first in, first out (R313). -/
def grantSlots : Nat → State → Nat → Nat → State
  | 0, s, _, _ => s
  | n + 1, s, die, depth =>
    if 4 ≤ dyersAt s die depth then s
    else match firstQueued s fun x =>
        x.2.2.2.fill = .steeping && homeDie s x.2.2.2.pa = die && 1 + x.2.2.2.ancestors.length = depth with
      | none => s
      | some (ctx, rid, base, _) =>
        grantSlots n (launchDyer (modFill s ctx rid base fun b => { b with queued := none }) ctx rid base depth) die depth

/-- The FILLED block of a range with the oldest fill time (R316). -/
def oldestFilled (r : ProcRange) : Option Nat :=
  ((r.blocks.filter fun b => b.2.fill = .filled).foldl (fun m b => match m with
    | none => some b
    | some x => if b.2.time < x.2.time then some b else m) none).map Prod.fst

/-- Whether a queued block may become STEEPING under its budget, and the block that is evicted first (R316). -/
def admission (r : ProcRange) (byDyer : Bool) : Option (Option Nat) :=
  let n := (r.blocks.filter fun b => b.2.held).length
  if n < r.budget then some none
  else match oldestFilled r with
    | some v => some (some v)
    | none => if byDyer && n < r.budget + 4 then some none else none

/-- The queued UNFILLED blocks of a context become STEEPING as their budgets allow, in order of arrival. -/
def admitFills : Nat → State → Nat → State
  | 0, s, _ => s
  | n + 1, s, seen =>
    match firstQueued s fun x => x.2.2.2.fill = .unfilled && seen ≤ x.2.2.2.queued.getD 0 with
    | none => s
    | some (ctx, rid, base, fb) =>
      let go := fun (s : State) =>
        let top := fb.pa + ((s.range ctx rid).map fun r => 2 ^ r.blksh).getD 0
        let s := modFill { s with nextAcc := s.nextAcc + 1 } ctx rid base fun b =>
          { b with fill := .steeping, backing := Memory.within s.mem fb.pa top, queued := some s.nextAcc }
        grantSlots 4 s (homeDie s fb.pa) (1 + fb.ancestors.length)
      let s := match (s.range ctx rid).bind fun r => admission r (!fb.ancestors.isEmpty) with
        | some none => go s
        | some (some v) => go (evictFill s ctx rid v)
        | none => s
      admitFills n s (fb.queued.getD 0 + 1)

/-- All that can be admitted is. -/
def admitAll (s : State) : State := admitFills (allFills s).length s 0

/-! ## Requests (R311) -/

/-- Whether a waiter belongs to the dyer that fills a block. -/
def waiterOf (s : State) (base : Nat) (w : Waiter) : Bool :=
  let blk : Option Nat := match w with
    | .acc _ a => some a.blk
    | .cmd core id _ => ((s.core core).cmds.find? fun (c : Cmd) => c.id = id).map Cmd.blk
    | .staged _ _ _ => none
  ((blk.bind s.block).bind Block.dyer).any fun d => d.base = base && !d.filled

/-- A block gains ancestors, and so does every block that its dyer waits on (R314). -/
def addAncestors : Nat → State → Nat → Nat → List Nat → State
  | 0, s, _, _, _ => s
  | n + 1, s, ctx, base, anc =>
    match rangeOf s ctx base with
    | none => s
    | some (rid, base) =>
      let s := modFill s ctx rid base fun b => { b with ancestors := anc.foldl insertNat b.ancestors }
      ((allFills s).filter fun x => x.1 = ctx && x.2.2.2.waiters.any (waiterOf s base)).foldl
        (fun s x => addAncestors n s ctx x.2.2.1 (insertNat anc base)) s

/-- Whether some ancestor list is longer than 3 (R314). -/
def tooDeep (s : State) : Bool := (allFills s).any fun x => 3 < x.2.2.2.ancestors.length

/-- A request that goes on: `f` is what becomes of an access. -/
def serveWaiter (f : Acc → Acc) (s : State) (w : Waiter) : State :=
  match w with
  | .acc core a =>
    let g := fun (x : Acc) => if x.id = a.id then f { x with pass := true, sent := false } else x
    progress (s.modCore core fun c => { c with pend := c.pend.map g }) core
  | .cmd core id _ => s.modCore core fun c => { c with cmds := c.cmds.map fun x =>
      if x.id = id then { x with blocked := false } else x }
  | .staged _ _ _ => s

/-- A request that goes on at once (R311). -/
def passWaiter (s : State) (w : Waiter) : State := serveWaiter id s w

/-- A waiter that a fill has served (R312): its read acts as an acquire at device scope. An access of a block that is not the
head of its launch acquires nothing before it is (R293). -/
def wakeWaiter (s : State) (w : Waiter) : State :=
  serveWaiter (fun a =>
    if a.kind.reads && !(s.block a.blk).any (notHead s) then
      { a with acq := true, scope := if a.kind.writes then a.scope else max a.scope 3 }
    else a) s w

/-- What takes one entry of a waiter store (R281, R311): the request of a core for a line, in which its later accesses to the line
merge (R219), or a command at an address. -/
def Waiter.key : Waiter → Nat × Nat × Nat
  | .acc core a => (0, core, a.line)
  | .cmd core id va => (1 + va, core, id)
  | .staged k _ seq => (0, 160 + k, seq)

/-- The entries of the waiter store of a home slice. -/
def waitersAt (s : State) (slice : Nat × Nat) : List (Nat × Nat × Nat) :=
  (((allFills s).filter fun x => (homeDie s x.2.2.2.pa, homeSlice x.2.2.2.pa) = slice).flatMap fun x =>
    x.2.2.2.waiters.map Waiter.key).eraseDups

/-- A requester joins the waiters of a block; one of a block that nothing fills starts the fill. -/
def joinFill (s : State) (ctx rid base pa : Nat) (w : Waiter) (anc : List Nat) : State :=
  let s := modFill s ctx rid base fun b =>
    { b with waiters := b.waiters ++ [w], pa := pa
             ancestors := if b.fill = .unfilled then anc.foldl insertNat b.ancestors else b.ancestors
             queued := if b.fill = .unfilled && b.queued.isNone then some s.nextAcc else b.queued }
  admitAll { s with nextAcc := s.nextAcc + 1 }

/-- The dyer of a block takes PRFILL with a subcode (R314). -/
def failDyer (s : State) (ctx base sub : Nat) : State :=
  match rangeOf s ctx base with
  | some (rid, base) => poisonFill 16 s ctx rid base sub causePrfill
  | none => s

/-- A request reaches the home of a procedural block (R311, R314, R319). One that would wait while the waiter store of the
home is full goes back, and is sent again. DESIGN CHOICE (log 97): a dyer that meets a POISONED block poisons its own block with
that block's subcode, as R312 gives for waiters, where R314's row for any trap has 1. -/
def prHandle (s : State) (ctx rid base : Nat) (w : Waiter) (write : Bool) (dyer : Option Nat) (pa : Nat) (coh : BitVec 2) :
    State :=
  let fb := getFill s ctx rid base
  let join := fun (t : State) (anc : List Nat) =>
    let held := waitersAt s (homeDie s pa, homeSlice pa)
    if 128 ≤ held.length && !held.contains w.key then
      { s with net := s.net ++ [.prRequest ctx rid base w write dyer pa coh] }
    else joinFill t ctx rid base pa w anc
  match fb.fill, dyer with
  | .filled, _ => passWaiter s w
  | .poisoned sub _, _ => failWaiter (fun s d => poisonFill 16 s d.ctx d.rid d.base sub causePrfill) s sub w
  | .unfilled, _ =>
    if coh = 1 || coh = 3 then
      failWaiter (fun s d => poisonFill 16 s d.ctx d.rid d.base 1 causePrfill)
        (modFill s ctx rid base fun b => { b with fill := .poisoned 1 causeProtect, pa := pa }) 1 w
    else
      (match dyer with
       | none => join s []
       | some x =>
         let anc := (insertNat (ancestorsAt s ctx x) x).foldl insertNat fb.ancestors
         if 3 < anc.length then failDyer s ctx x 2 else join s anc)
  | .steeping, none => join s []
  | .steeping, some x =>
    if base = x && write then passWaiter s w
    else if !write && (base = x || (ancestorsAt s ctx x).contains base) then failDyer s ctx x 3
    else
      let s' := addAncestors 4 s ctx base (insertNat (ancestorsAt s ctx x) x)
      if tooDeep s' then failDyer s ctx x 2 else join s' []

/-- Whether a request's agent is there still: a thread of a stopped block is not, and its engine commands go on to their
ends (R314, R430). -/
def requesterLives (s : State) (w : Waiter) : Bool :=
  match w with
  | .acc _ a => !s.isStopped a.blk
  | .cmd _ _ _ => true
  | .staged _ _ _ => true

/-- PR_REQUEST (R311). -/
def execPrRequest (n : Nat) (s : State) : Result :=
  .next (match s.net[n]? with
    | some (.prRequest ctx rid base w write dyer pa coh) =>
      let s := { s with net := ldel s.net n }
      if requesterLives s w then prHandle s ctx rid base w write dyer pa coh else s
    | _ => s)

/-- DYER_SLOT_GRANT (R313). -/
def execDyerSlotGrant (die depth : Nat) (s : State) : Result := .next (grantSlots 4 s die depth)

/-- FILL_COMPLETE (R312, R315): once the dyer's writes are performed, the block is FILLED and its waiters are woken. -/
def execFillComplete (ctx : Nat) (va : BitVec 64) (s : State) : Result :=
  .next (match rangeOf s ctx va.toNat with
    | none => s
    | some (rid, base) =>
      let fb := getFill s ctx rid base
      let open_ := s.blocks.any fun p => (match p.2.dyer with
          | some d => d.ctx = ctx && d.base = base && d.rid = rid && !d.filled && p.2.state ≠ .stopped
          | none => false) && (writing s p.1 || !releasable s p.1 s.nextAcc)
      if fb.fill ≠ .steeping || !fb.ending || open_ then s
      else
        let s := modFill s ctx rid base fun b =>
          { b with fill := .filled, waiters := [], ancestors := [], time := s.now, evict := false, ending := false }
        let s := { s with blocks := tmap (fun _ (b : Block) => { b with dyer := b.dyer.map fun d =>
          if d.ctx = ctx && d.rid = rid && d.base = base then { d with filled := true } else d }) s.blocks }
        let s := fb.waiters.foldl wakeWaiter s
        admitAll (if fb.evict then evictFill s ctx rid base else s))

/-! ## Instructions -/

/-- The blocks of a context that overlap [lo, hi), as (range, base, block). -/
def fillsIn (s : State) (ctx lo hi : Nat) : List (Nat × Nat × FillBlock) :=
  (((tget s.ctxs ctx).map Ctx.ranges).getD []).flatMap fun r =>
    (r.2.blocks.filter fun b => b.1 < hi && lo < b.1 + 2 ^ r.2.blksh).map fun b => (r.1, b.1, b.2)

/-- The address that an instruction's pair names. -/
def procAddr (a : BitVec 8) (s : State) (is : Issue) (m : Member) : Quad := (is.thread s m.tlin).pair a.toNat

/-- PRDEF (R309): the descriptor is read, and the definition then travels to every slice. -/
def execPrdef (a : BitVec 8) (d : BitVec 6) (s : State) : Result :=
  issue s (.prdef a d)
    (eachMember fun s is m =>
      let va := procAddr a s is m
      let x := { memberAcc s is m .prdef va 64 with dest := some ⟨d.toNat, 1, false⟩, scope := 3 }
      laneAccess false s is m x 64 none is.next .next fun s a v =>
        (setPending (takeDef s a v) a, .next)) noFront

/-- PRDONE (R315). -/
def execPrdone (a : BitVec 8) (s : State) : Result :=
  issue s (.prdone a)
    (eachMember fun s is m =>
      match (is.block s).dyer with
      | none => (s, .trap causeIllopnd 0 0 none)
      | some d =>
        if (procAddr a s is m).toNat ≠ d.base then (s, .trap causeIllopnd 0 0 none)
        else if d.done then (s, .next)
        else
          let s := s.modBlock is.blk fun b => { b with dyer := some { d with done := true } }
          (modFill s d.ctx d.rid d.base fun b => { b with ending := true }, .next)) noFront

/-- PREVICT (R317, R295). -/
def execPrevict (b a : BitVec 8) (s : State) : Result :=
  issue s (.previct b a)
    (eachMember fun s is m =>
      let ctx := (is.block s).ctx
      let lo := (procAddr a s is m).toNat
      let hi := lo + m.v.b.toNat % 2 ^ 32
      if notHead s (is.block s) then (s, .leave (.waiting .head) is.g.start)
      else if hi = lo then (s, .next)
      else
        let xs := fillsIn s ctx lo hi
        let s := admitAll (xs.foldl (fun s x => evictFill s ctx x.1 x.2.1) s)
        if xs.any fun x => x.2.2.fill = .steeping then (s, .leave (.waiting (.range lo hi)) is.next) else (s, .next)) noFront

/-- The word of PRQ (R318). -/
def prqWord (s : State) (ctx va : Nat) : Nat :=
  match rangeOf s ctx va with
  | none => 0
  | some (rid, base) =>
    2 ^ 31 + rid * 2 ^ 24 + (match (getFill s ctx rid base).fill with
      | .unfilled => 0
      | .steeping => 1
      | .filled => 2
      | .poisoned sub cause => cause.toNat * 2 ^ 16 + sub * 2 ^ 8 + 3)

/-- PRQ. -/
def execPrq (a : BitVec 8) (d : BitVec 6) (s : State) : Result :=
  issue s (.prq a d)
    (allMembers fun s is _ m => .done (BitVec.ofNat 64 (prqWord s (is.block s).ctx (procAddr a s is m).toNat))) noFront

/-! ## Definitions (R308, R309) -/

/-- Bytes of a descriptor. -/
def descBytes {n : Nat} (d : BitVec n) (off k : Nat) : Nat := (d.toNat >>> (8 * off)) % 2 ^ (8 * k)

/-- The limits of R308. -/
def rangeLimits (d : BitVec 512) : Bool :=
  let sh := descBytes d 0x20 1
  let dx := descBytes d 0x22 2
  12 ≤ sh && sh ≤ 16 && descBytes d 8 8 % 2 ^ sh = 0 && descBytes d 8 8 ≤ 2 ^ 40 && descBytes d 0 8 % 2 ^ sh = 0
  && 32 ≤ dx && dx ≤ 1024 && dx % 32 = 0 && 5 ≤ descBytes d 0x24 4

/-- Whether [lo, hi) meets another range or the heap window, which HWL = 0 disables (R432). -/
def rangeClash (c : Ctx) (lo hi : Nat) : Bool :=
  (c.ranges.any fun r => lo < r.2.base + r.2.size && r.2.base < hi) || (c.hwl ≠ 0 && lo < c.hwb + c.hwl && c.hwb < hi)

/-- What a definition comes to: its result, or a wait. -/
inductive DefResult where
  | error (code : Nat)
  | remove (rid : Nat)
  | define (rid : Nat) (r : ProcRange)
  deriving DecidableEq, Repr

/-- A definition, judged in the order of R309. -/
def judgeDef (c : Ctx) (d : BitVec 512) : DefResult :=
  let base := descBytes d 0 8
  let size := descBytes d 8 8
  if descBytes d 0x21 1 ≠ 0 || descBytes d 0x28 24 ≠ 0 then .error 0x80000002
  else if size = 0 then
    match c.ranges.find? fun r => r.2.base = base with
    | some r => .remove r.1
    | none => .error 0x80000004
  else if !rangeLimits d then .error 0x80000002
  else if rangeClash c base (base + size) then .error 0x80000003
  else match (List.range 16).find? fun i => (tget c.ranges i).isNone with
    | none => .error 0x80000001
    | some i => .define i
        { base := base, size := size, kimg := BitVec.ofNat 64 (descBytes d 0x10 8), arg := BitVec.ofNat 64 (descBytes d 0x18 8),
          blksh := descBytes d 0x20 1, dx := descBytes d 0x22 2, budget := descBytes d 0x24 4 }

/-- Copies of the lines of [pa, pa + size) leave every cache, their dirty bytes written back (R310). -/
def flushLines (s : State) (pa size : Nat) : State :=
  let inside := fun (line : Nat) => pa ≤ 128 * line && 128 * line < pa + size
  let held := (s.home.map Prod.fst).filter inside
  let s := held.foldl dropCopies s
  { s with cores := tmap (fun _ c => { c with l1 := c.l1.filter fun l => !inside l.1 }) s.cores
           home := s.home.filter fun h => !inside h.1 }

/-- Nothing in the blocks of a range that is defined is cached anywhere (R310): `n` blocks from an address. -/
def flushBlocks (ctx size : Nat) : Nat → Nat → State → State
  | _, 0, s => s
  | va, n + 1, s =>
    flushBlocks ctx size (va + size) n (match translate s ctx .read va with
      | .ok pa _ => flushLines s pa size
      | _ => s)

/-- Whether definition message `n` is the first of its block: a sender's definitions are handled in the order in which it issued
them (R330). -/
def prdefFirst (s : State) (n blk : Nat) : Bool := !(s.net.take n).any fun m => match m with
  | .prdef b _ _ => b = blk
  | _ => false

/-- PRDEF_PROPAGATED: every slice holds the definition; a removal waits while a block of the range is STEEPING. -/
def execPrdefPropagated (n : Nat) (s : State) : Result :=
  .next (match s.net[n]? with
    | some (.prdef blk a desc) =>
      if !prdefFirst s n blk then s else
      let ctx := ((s.block blk).map Block.ctx).getD 0
      let answer := fun (s : State) (v : Nat) => (
        match a.dest with
        | some d => { s with net := ldel s.net n }.deliver blk a.who d v
        | none => { s with net := ldel s.net n } : State)
      (match tget s.ctxs ctx with
       | none => { s with net := ldel s.net n }
       | some c =>
         match judgeDef c desc with
         | .error code => answer s code
         | .define i r =>
           answer ((flushBlocks ctx (2 ^ r.blksh) r.base (r.size / 2 ^ r.blksh) s).modCtx ctx fun c =>
             { c with ranges := tset c.ranges i r }) i
         | .remove i =>
           let blocks := ((s.range ctx i).map ProcRange.blocks).getD []
           if blocks.any fun b => b.2.fill = .steeping || b.2.queued.isSome then s
           else
             let s := blocks.foldl (fun s b => evictFill s ctx i b.1) s
             answer (s.modCtx ctx fun c => { c with ranges := tdel c.ranges i }) i)
    | _ => s)

end Sys2Proof.Machine
end

