-- ==== Sys2Proof/Machine/Command.lean ====
section
/-! DEFINITION. What the engines share: the descriptor read and the acceptance of a command (R26, R352, R366), the global
bytes that an engine reaches (R271, R369), and the tiles that it reads and writes. -/

namespace Sys2Proof.Machine

/-! ## Descriptors -/

/-- The descriptor of a group, read once in program order (R352): the value, or what the group does while it is read. -/
def frontDesc (s : State) (is : FrontIssue) (va : Quad) (n : Nat) : State × (FrontFate ⊕ Nat) :=
  let have_ := fun (s : State) (v : Nat) => (s.modFront is.blk fun f => { f with latched := none }, Sum.inr v)
  match (is.front s).latched with
  | some v => have_ s v
  | none =>
    let (s, f) := frontAccess s is { frontAcc s is .desc va n with scope := 3 } n
    match (is.front s).latched with
    | some v => have_ s v
    | none => (s, .inl f)

/-! ## Acceptance (R26, R366) -/

/-- Whether a command's ranges meet an accepted entry: its destination any range, its source a destination. -/
def cmdConflicts (x c : Cmd) : Bool :=
  x.accepted && ((c.dsts.any fun r => (x.srcs ++ x.dsts).any (Range.overlaps r))
    || c.srcs.any fun r => x.dsts.any (Range.overlaps r))

/-- Entries in use in a core's Lashing table. -/
def entriesHeld (c : Core) : List Nat := (c.cmds.filter Cmd.accepted).map Cmd.entry

/-- Whether a core's table takes a command now. -/
def tableTakes (c : Core) (x : Cmd) : Bool := (entriesHeld c).length < 32 && !c.cmds.any fun y => cmdConflicts y x

/-- The lowest free entry. -/
def freeEntry (c : Core) : Nat := ((List.range 32).find? fun e => !(entriesHeld c).contains e).getD 0

/-- Commands that an engine path holds accepted. -/
def heldOn (c : Core) (p : Nat → Bool) : Nat := (c.cmds.filter fun x => x.accepted && p x.path).length

/-- The path number of the entry that an MCAST takes in a peer's table (R364): no path of DRAIN. -/
def peerPath : Nat := 9

/-- A command enters a core's list; with an entry if it is accepted. -/
def addCommand (s : State) (core : Nat) (c : Cmd) : State :=
  s.modCore core fun k => { k with cmds := k.cmds ++ [c] }

/-- Taking an entry. -/
def takeEntry (s : State) (core : Nat) (c : Cmd) : State :=
  addCommand s core { c with accepted := true, entry := freeEntry (s.core core) }

/-! ## Global bytes (R271, R369) -/

/-- Why a command cannot reach its bytes: it fails, or it waits for the host or for a fill. -/
inductive Reach where
  | fail (cause : BitVec 8) (taddr : Nat) (detail : Nat)
  | page (va cause level : Nat) (write : Bool)
  | fill (rid base pa : Nat) (coh : BitVec 2) (va : Nat) (write : Bool)
  | host (line : Nat)
  | dead
  deriving DecidableEq, Repr

/-- Virtual ranges cut at 4 KiB, the smallest unit that a page or a procedural block ends at. -/
def chunks : Nat → Nat → Nat → List (Nat × Nat)
  | 0, _, _ => []
  | f + 1, va, n =>
    if n = 0 then []
    else
      let k := min n (4096 - va % 4096)
      (va, k) :: chunks f (va + k) (n - k)

/-- The lines of physical bytes. -/
def linesOf (pa n : Nat) : List Nat := if n = 0 then [] else (List.range (lineOf (pa + n - 1) - lineOf pa + 1)).map (lineOf pa + ·)

/-- A translation for a command of a block: through its core's data TLB, then by a walk (R437). -/
def engineTranslate (s : State) (blk ctx : Nat) (m : AccessMode) (va : Nat) : Translation :=
  match (s.block blk).bind Block.place with
  | none => translate s ctx m va
  | some p =>
    match translateTlb s (s.core p.core).dtlb ctx m va with
    | .miss => translate s ctx m va
    | t => t

/-- One chunk as physical bytes (R369, R439). -/
def reachChunk (s : State) (blk ctx : Nat) (write : Bool) (va n : Nat) : Except Reach (Nat × Nat) :=
  if 2 ^ 57 ≤ va then .error (.fail causeProtect va 3)
  else match engineTranslate s blk ctx (if write then .write else .read) va with
    | .protect d => .error (.fail causeProtect va d)
    | .fault cause level => .error (.page va cause level write)
    | .miss => .error .dead
    | .ok pa coh =>
      let away := (linesOf pa n).find? fun l => !lineReady s l && region s pa = .host
      let go : Except Reach (Nat × Nat) :=
        if away.isSome then .error (.host (away.getD 0))
        else if !write then
          match (List.range n).find? fun i => s.poison.contains (lineOf (pa + i)) with
          | some i => .error (.fail causeEccdata (va + i) 0)
          | none => .ok (pa, n)
        else .ok (pa, n)
      match rangeOf s ctx va with
      | none => go
      | some (rid, base) =>
        match (getFill s ctx rid base).fill with
        | .filled => go
        | .poisoned sub _ => .error (.fail causePrfill va sub)
        | _ => if write && dyerOf s blk = some base then go else .error (.fill rid base (pa - (va - base)) coh va write)

/-- Chunks, all of them reached or the first that is not. -/
def reachAll (s : State) (blk ctx : Nat) (write : Bool) : List (Nat × Nat) → Except Reach (List (Nat × Nat))
  | [] => .ok []
  | c :: cs =>
    match reachChunk s blk ctx write c.1 c.2, reachAll s blk ctx write cs with
    | .ok p, .ok ps => .ok (p :: ps)
    | .error e, _ => .error e
    | _, .error e => .error e

/-- A virtual range as physical pieces. -/
def reach (s : State) (blk ctx : Nat) (write : Bool) (va n : Nat) : Except Reach (List (Nat × Nat)) :=
  reachAll s blk ctx write (chunks (n / 4096 + 2) va n)

/-- The bytes of physical pieces, from their homes. -/
def pieceBytes (s : State) (ps : List (Nat × Nat)) : List Byte := ps.flatMap fun p => homeBytes s p.1 p.2

/-- Bytes of a virtual range, those that a command has read before as they were then. -/
def heldBytes (c : Cmd) (va : Nat) (bs : List Byte) : List Byte :=
  if c.got.isEmpty then bs else bs.mapIdx fun i b => (tget c.got (va + i)).getD b

/-- The bytes of a virtual range that a command reads. -/
def engineRead (s : State) (c : Cmd) (ctx va n : Nat) : Except Reach (List Byte) :=
  (reach s c.blk ctx false va n).map fun ps => heldBytes c va (pieceBytes s ps)

/-- Some source bytes of a command are read now (R274), and some words of its index list, each of them whole (R363). -/
def capture (s : State) (ctx : Nat) (c : Cmd) (index : List Nat) (sel : Nat → Bool) : Cmd :=
  let word := fun (c : Cmd) (va : Nat) =>
    if !sel va || (tget c.got va).isSome then c
    else match reach s c.blk ctx false va 4 with
      | .ok ps => { c with got := ((pieceBytes s ps).mapIdx fun i x => (va + i, x)).foldl (fun t x => tset t x.1 x.2) c.got }
      | .error _ => c
  let take := fun (c : Cmd) (va : Nat) =>
    if !sel va || (tget c.got va).isSome then c
    else match reachChunk s c.blk ctx false va 1 with
      | .ok p => { c with got := tset c.got va (homeByte s p.1) }
      | .error _ => c
  c.srcs.foldl (fun c r => match r with
    | .global _ lo hi => ((List.range (hi - lo)).map (lo + ·)).foldl take c
    | _ => c) (index.foldl word c)

/-- Bytes written at their homes, line by line. -/
def homeWriteAll : Nat → State → Nat → List Byte → State
  | 0, s, _, _ => s
  | f + 1, s, pa, bs =>
    if bs.isEmpty then s
    else
      let k := 128 - pa % 128
      homeWriteAll f (homeWrite s pa (bs.take k)) (pa + k) (bs.drop k)

/-- Bytes of a block's engine write: into its stage in a deterministic launch, else to their homes (R291, R369). -/
def engineWrite (s : State) (core blk va pa : Nat) (bs : List Byte) : State :=
  match s.block blk with
  | none => s
  | some b =>
    if notHead s b then
      let s := s.modBlock blk fun b =>
        { b with stage := b.stage ++ [{ seq := b.wseq, die := coreDie core, pa := pa, va := BitVec.ofNat 64 va, op := .store bs, id := s.nextAcc }], wseq := b.wseq + 1 }
      let lines := (List.range (bs.length / 128 + 2)).filter fun i => lineOf pa + i ≤ lineOf (pa + bs.length - 1)
      let note := fun (t : List (Nat × Nat)) (i : Nat) =>
        if t.contains (lineOf pa + i, b.b) then t else t ++ [(lineOf pa + i, b.b)]
      s.modLaunch b.launch fun l => { l with staged := lines.foldl note l.staged }
    else
      homeWriteAll (bs.length / 128 + 2) (writeAtHome s b.launch b.b pa (BitVec.ofNat 64 va) (List.range bs.length)) pa bs

/-- Writing the bytes of a virtual range that was reached as these pieces. -/
def enginePieces (s : State) (core blk : Nat) : Nat → List (Nat × Nat) → List Byte → State
  | _, [], _ => s
  | va, p :: ps, bs => enginePieces (engineWrite s core blk va p.1 (bs.take p.2)) core blk (va + p.2) ps (bs.drop p.2)

/-- A command that waits on the host or on a fill (R369); one whose slice has no entry free for its line looks again. -/
def blockCommand (s₀ : State) (core : Nat) (c : Cmd) (ctx : Nat) (r : Reach) : State :=
  let s := s₀.modCore core fun k => { k with cmds := k.cmds.map fun x => if x.id = c.id then { x with blocked := true } else x }
  match r with
  | .page va cause level write => raiseFault s ctx va (if write then 10 else 9) cause level (.cmd core c.id va)
  | .fill rid base pa coh va write => prHandle s ctx rid base (.cmd core c.id va) write (dyerOf s c.blk) pa coh
  | .host line => if canFetch s line then fetchLine s line else if asked s line then s else s₀
  | _ => s

/-! ## Tiles -/

/-- Element bytes, and the byte of element (r, c) of a tile (R224). -/
def Tile.eb (t : Tile) : Nat := shapeEb t.shape
def Tile.at (t : Tile) (r c : Nat) : Nat := (r * shapeCols t.shape + c) * t.eb

/-- An element as a number, and storing one. -/
def Tile.elem (t : Tile) (r c : Nat) : Nat := t.bytes.num (t.at r c) t.eb
def Tile.setElem (t : Tile) (r c v : Nat) : Tile := { t with bytes := t.bytes.setNum (t.at r c) t.eb v }

/-! ## What a command does -/

/-- What a TCE or COL command comes to, given what it has read: elements for tiles, each with its place in the command's order and
its row, column and value; bytes for virtual ranges, in physical pieces, `none` where a source byte was not read; why it stops,
or the fault with which it ends; or that it waits for something else. -/
structure CmdPlan where
  wait  : Bool := false
  /-- The virtual ranges that it reads. -/
  reads : List (Nat × Nat) := []
  tiles : List ((Nat × Nat) × List (Nat × Nat × Nat × Nat)) := []
  rows  : List (Nat × List (Nat × Nat) × List (Option Byte)) := []
  stop  : Option Reach := none
  fault : Option (BitVec 8 × Nat × Nat) := none
  deriving DecidableEq, Repr

/-- The numbers of elementary writes: an element of the j-th tile, and a byte. -/
def tileKey (j n : Nat) : Nat := 64 * n + j
def byteKey (va : Nat) : Nat := 64 * va + 63

/-- The elementary writes of a plan. -/
def CmdPlan.keys (p : CmdPlan) : List Nat :=
  (p.tiles.mapIdx fun j x => x.2.map fun e => tileKey j e.1).flatMap id
  ++ p.rows.flatMap fun r => (List.range r.2.2.length).map fun i => byteKey (r.1 + i)

/-- Elements written into a tile. -/
def putElems (t : Tile) (es : List (Nat × Nat × Nat × Nat)) : Tile := es.foldl (fun t e => t.setElem e.2.1 e.2.2.1 e.2.2.2) t

/-- Whether a selection, if there is one, takes a write. -/
def picks (sel : Option (Nat → Bool)) (k : Nat) : Bool :=
  match sel with
  | some f => f k
  | none => true

/-- Selected bytes of physical pieces. -/
def putSelected (s : State) (core blk : Nat) (sel : Option (Nat → Bool)) : Nat → List (Nat × Nat) → List (Option Byte) → State
  | _, [], _ => s
  | va, p :: ps, bs =>
    let here := ((bs.take p.2).mapIdx fun i b => (i, b)).filterMap fun x =>
      x.2.bind fun b => if picks sel (byteKey (va + x.1)) then some (x.1, b) else none
    putSelected (here.foldl (fun s x => engineWrite s core blk (va + x.1) (p.1 + x.1) [x.2]) s) core blk sel (va + p.2) ps
      (bs.drop p.2)

/-- The writes of a plan, or those of them that a selection takes. -/
def performPlan (s : State) (core blk : Nat) (sel : Option (Nat → Bool)) (p : CmdPlan) : State :=
  let s := (p.tiles.mapIdx fun j x => (j, x)).foldl (fun s x =>
    s.modTile x.2.1.1 x.2.1.2 fun t => putElems t (x.2.2.filter fun e => picks sel (tileKey x.1 e.1))) s
  p.rows.foldl (fun s r =>
    if sel.isNone && r.2.2.all Option.isSome then enginePieces s core blk r.1 r.2.1 (r.2.2.map fun b => b.getD 0)
    else putSelected s core blk sel r.1 r.2.1 r.2.2) s

/-- Whether a reach means that the command waits. -/
def Reach.waits : Reach → Bool
  | .page _ _ _ _ => true
  | .fill _ _ _ _ _ _ => true
  | .host _ => true
  | _ => false

/-- The fault of a reach that does not wait. -/
def Reach.fault : Reach → BitVec 8 × Nat × Nat
  | .fail cause taddr detail => (cause, taddr, detail)
  | _ => (causeProtect, 0, 7)

/-- The first fault of a list of results, a wait only where nothing fails. -/
def firstStop {α : Type} (rs : List (Except Reach α)) : Option Reach :=
  let es := rs.filterMap fun r => match r with
    | .error e => some e
    | .ok _ => none
  match es.find? fun e => !e.waits with
  | some e => some e
  | none => es.head?

/-- A command that ends: its entries are released, and a fault is recorded (R368, R371). -/
def endCommand (s : State) (core : Nat) (c : Cmd) (f : Option (BitVec 8 × Nat × Nat)) : State :=
  match f with
  | some (cause, taddr, detail) => failCommand s core c.id cause (BitVec.ofNat 64 taddr) detail
  | none => dropCommand s c.id

/-- The translations of a command's pages enter its core's data TLB (R437). -/
def fillPages (s : State) (core ctx : Nat) (p : CmdPlan) : State :=
  let fill := fun (m : AccessMode) (s : State) (r : Nat × Nat) => (chunks (r.2 / 4096 + 2) r.1 r.2).foldl (fun s c =>
    match translateTlb s (s.core core).dtlb ctx m c.1, translate s ctx m c.1 with
    | .miss, .ok _ _ => fillDataTlb s core ctx c.1
    | _, _ => s) s
  (p.rows.map fun r => (r.1, r.2.2.length)).foldl (fill .write) (p.reads.foldl (fill .read) s)

/-- A command completes, faults with some of its writes made (log 12), or waits. -/
def runPlan (s : State) (core : Nat) (c : Cmd) (ctx : Nat) (p : CmdPlan) : State :=
  if p.wait then s
  else
    let s := fillPages s core ctx p
    match p.stop with
    | some e =>
      if e.waits then blockCommand s core c ctx e
      else endCommand (performPlan s core c.blk (some fun i => Config.wroteBefore c.id i && !c.wrote.contains i) p) core c (some e.fault)
    | none =>
      endCommand (performPlan s core c.blk (if c.wrote.isEmpty then none else some fun i => !c.wrote.contains i) p) core c p.fault

/-- A command that has not completed reads some of its source, or, all of it read, makes some of its writes (R274); a block that
is not the head of its launch writes at completion (R369). What it has read of its index list it keeps: no write goes by one
value of an index and a later one by another. -/
def advancePlan (s : State) (core : Nat) (c : Cmd) (ctx : Nat) (index : List Nat) (plan : Cmd → CmdPlan) : State :=
  let keep := fun (s : State) (c : Cmd) => s.modCore core fun k => { k with cmds := k.cmds.map fun x => if x.id = c.id then c else x }
  let staged := (s.block c.blk).any (notHead s)
  if !Config.engineWrites s.now c.id || staged then keep s (capture s ctx c index (Config.engineMoves s.now c.id))
  else
    let c := capture s ctx c index fun _ => true
    let p := plan c
    if p.wait || p.stop.isSome || p.fault.isSome then s
    else
      let now := p.keys.filter fun i => Config.engineMoves s.now c.id i && !c.wrote.contains i
      keep (performPlan s core c.blk (some now.contains) p) { c with wrote := c.wrote ++ now }

end Sys2Proof.Machine
end

