-- ==== Sys2Proof/Machine/Tce.lean ====
section
/-! DEFINITION. The Tensor Copy Engine (R351 to R371): descriptors, storage formats, conversions, SLICE, the checks and
footprints at issue, and the completion of a command. -/

namespace Sys2Proof.Machine

/-! ## Descriptors (R352) -/

/-- The fields of a descriptor. -/
structure TceDesc where
  handle : Nat
  high   : Nat
  sfmt   : Nat
  cl     : Nat
  mode   : Nat
  gs     : Nat
  slc    : Nat
  pmask  : Nat
  slot   : Nat
  row0   : Nat
  col0   : Nat
  nrow   : Nat
  ncol   : Nat
  rstr   : Int
  auxa   : Nat
  szstr  : Nat
  ixb    : Nat
  rest   : Nat
  deriving DecidableEq, Repr

/-- Reading a descriptor. -/
def tceDesc (d : BitVec 512) : TceDesc :=
  { handle := descBytes d 0 1 % 64, high := descBytes d 0 1 / 64, sfmt := descBytes d 1 1, cl := descBytes d 2 1
    mode := descBytes d 3 1, gs := descBytes d 4 1, slc := descBytes d 5 1, pmask := descBytes d 6 1
    slot := descBytes d 7 1, row0 := descBytes d 8 2, col0 := descBytes d 10 2, nrow := descBytes d 12 2 + 1
    ncol := descBytes d 14 2 + 1, rstr := (BitVec.ofNat 64 (descBytes d 16 8)).toInt, auxa := descBytes d 24 8
    szstr := descBytes d 32 8, ixb := descBytes d 40 4, rest := descBytes d 44 20 }

namespace TceDesc

def tr (d : TceDesc) : Bool := d.mode % 2 = 1
def sat (d : TceDesc) : Bool := d.mode / 2 % 2 = 1
def expd (d : TceDesc) : Bool := d.mode / 4 % 2 = 1
def group (d : TceDesc) : Nat := 32 * 2 ^ d.gs

/-- Storage rows and their length (R353). -/
def rows (d : TceDesc) : Nat := if d.tr then d.ncol else d.nrow
def len (d : TceDesc) : Nat := if d.tr then d.nrow else d.ncol

/-- The tile position of element k of storage row r. -/
def posn (d : TceDesc) (r k : Nat) : Nat × Nat := if d.tr then (d.row0 + k, d.col0 + r) else (d.row0 + r, d.col0 + k)

/-- The tile line across K of storage row r, and the K coordinate of element k (R359). -/
def line (d : TceDesc) (r : Nat) : Nat := if d.tr then d.col0 + r else d.row0 + r
def kpos (d : TceDesc) (k : Nat) : Nat := if d.tr then d.row0 + k else d.col0 + k

/-- Grouped integer formats. -/
def grouped (d : TceDesc) : Bool := d.sfmt = 8 || d.sfmt = 9

/-- Alignment of GA and RSTR (R354); `eb` is the tile's element size for RAW. -/
def align (d : TceDesc) (eb : Nat) : Nat :=
  match d.sfmt with
  | 0 => eb
  | 1 => 4
  | 2 => 2
  | 3 => 2
  | 6 => 32
  | 10 => 8
  | _ => 1

/-- What L must be a multiple of. -/
def lenUnit (d : TceDesc) : Nat := if d.sfmt = 6 then 32 else if d.grouped then d.group else 1

/-- Element bytes in storage, and the bytes of a storage row. -/
def rowBytes (d : TceDesc) (eb : Nat) : Nat :=
  match d.sfmt with
  | 0 => d.len * eb
  | 1 => d.len * 4
  | 2 => d.len * 2
  | 3 => d.len * 2
  | 9 => (d.len + 1) / 2
  | 10 => d.len * 8
  | _ => d.len

/-- The address of a storage row (R353), and through an index (R363). -/
def rowAddr (d : TceDesc) (ga : Nat) (i : Nat) : Nat := (((ga : Int) + i * d.rstr) % 2 ^ 64).toNat

end TceDesc

/-- The sub-operations of R351. -/
def isIndexed (sub : Nat) : Bool := sub = 4 || sub = 5
def isWrite (sub : Nat) : Bool := sub = 1 || sub = 5

/-- The path of a sub-operation (R368). -/
def tcePath (sub : Nat) : Nat := if isWrite sub then 1 else 0

/-- Whether an MCAST's mask names the issuing core, or a peer (R364). -/
def ownBit (d : TceDesc) (core : Nat) : Bool := d.pmask / 2 ^ (core % 4) % 2 = 1
def peerBits (d : TceDesc) (core : Nat) : List Nat := (List.range 4).filter fun i => i ≠ core % 4 && d.pmask / 2 ^ i % 2 = 1

/-- Whether HANDLE names a tile of the issuing block. -/
def usesHandle (sub : Nat) (d : TceDesc) (core : Nat) : Bool := sub ≠ 2 || ownBit d core

/-! ## Checks at issue (R370) -/

/-- The pairings of R358 for reading and writing, of R363 and of SLICE and FILL. -/
def pairOk (sub sfmt cl : Nat) : Bool :=
  match sub with
  | 3 => sfmt = 10 && cl = 2
  | 6 => sfmt = 0 && cl = 0
  | _ =>
    (!isIndexed sub || sfmt ≤ 5 || sfmt = 7) &&
      (if isWrite sub then
        (match sfmt with
         | 0 => cl = 0
         | 1 => cl = 3 || cl = 4
         | 2 => cl = 4
         | 3 => cl = 3
         | 4 => cl = 3 || cl = 4
         | 5 => cl = 3 || cl = 4
         | 6 => cl = 3
         | 7 => cl = 2
         | _ => false)
       else
        (match sfmt with
         | 0 => cl = 0
         | 1 => cl = 3 || cl = 4
         | 2 => cl = 4 || cl = 3
         | 3 => cl = 3
         | 4 => cl = 3 || cl = 4
         | 5 => cl = 3 || cl = 4
         | 6 => cl = 3
         | 7 => cl = 2 || cl = 1
         | 8 => cl = 1
         | 9 => cl = 1
         | _ => false))

/-- Whether a descriptor is valid (R370, step 4). -/
def descOk (sub : Nat) (d : TceDesc) (core : Nat) : Bool :=
  let c8 := d.cl = 1
  d.high = 0 && d.rest = 0 && d.mode < 8 && (!d.sat || isWrite sub) && (!d.expd || sub = 3)
  && d.sfmt ≤ 10 && d.cl ≤ 4 && pairOk sub d.sfmt d.cl
  && (if c8 then d.gs ≤ 2 else d.gs = 0)
  && (if sub = 3 then 1 ≤ d.slc && d.slc ≤ 8 && d.handle + d.slc ≤ 63 else d.slc = 0)
  && (if sub = 2 then 1 ≤ d.pmask && d.pmask < 16 && d.slot ≤ 63 else d.pmask = 0 && d.slot = 0)
  && (d.grouped || d.szstr = 0) && (d.grouped || isIndexed sub || d.auxa = 0) && (isIndexed sub || d.ixb = 0)
  && (!isIndexed sub || 0 < d.rstr) && (sub ≠ 6 || (d.mode = 0 && d.rstr = 0))
  && (!c8 || !usesHandle sub d core || d.handle ≤ 62)
  && d.len % d.lenUnit = 0 && (!c8 || d.kpos 0 % d.group = 0)
  && !(sub = 2 && c8 && !(peerBits d core).isEmpty && 62 < d.slot)

/-- The handles that a command needs, HANDLE first (R357, R362). -/
def neededHandles (sub : Nat) (d : TceDesc) (core : Nat) : List Nat :=
  if !usesHandle sub d core then []
  else if sub = 3 then (List.range (min d.slc 8 + 1)).map (d.handle + ·)
  else if d.cl = 1 then [d.handle, d.handle + 1] else [d.handle]

/-- Whether the window lies in a tile of the right level and element size (R353, R357). -/
def windowOk (d : TceDesc) (t : Tile) : Bool :=
  !t.ac && d.row0 + d.nrow ≤ shapeRows t.shape && d.col0 + d.ncol ≤ shapeCols t.shape
  && (match d.cl with
      | 0 => true
      | 1 => t.eb = 1
      | 2 => t.eb = 1
      | _ => t.eb = 2)

/-- Whether a tile takes the sidecar of a C8 window (R359). -/
def sidecarOk (d : TceDesc) (t : Tile) : Bool :=
  !t.ac && t.eb = 2 && d.line (d.rows - 1) < shapeRows t.shape && 2 * (d.kpos (d.len - 1) / d.group) + 1 < shapeCols t.shape

/-- The line of SLICE on which an element falls (R362). -/
def sliceLine (d : TceDesc) (r k : Nat) : Nat := if d.expd then d.kpos k else d.line r

/-- Whether a tile takes the exponents of a SLICE. -/
def expOk (d : TceDesc) (t : Tile) : Bool :=
  !t.ac && t.eb = 2 && sliceLine d (d.rows - 1) (d.len - 1) < shapeCols t.shape

/-- The tiles of the issuing block against R357. -/
def tilesOk (sub : Nat) (d : TceDesc) (core : Nat) (tile : Nat → Option Tile) : Bool :=
  (neededHandles sub d core).all fun h =>
    match tile h with
    | none => true
    | some t =>
      if sub = 3 then (if h = d.handle + d.slc then expOk d t else windowOk d t)
      else if h = d.handle then windowOk d t else sidecarOk d t

/-- The element size of RAW: of HANDLE's tile, or for an MCAST without its own bit of the lowest named peer's. -/
def rawEb (s : State) (core blk sub : Nat) (d : TceDesc) : Nat :=
  if usesHandle sub d core then ((s.tile blk d.handle).map Tile.eb).getD 1
  else
    (((peerBits d core).head?.bind fun i => tget (s.core (core / 4 * 4 + i)).exports d.slot).bind fun e =>
      (s.tile e.1 e.2).map Tile.eb).getD 1

/-- The checks of R370 after the descriptor's address, with R456: cause, TADDR and DETAIL. -/
def tceCheck (s : State) (core blk sub : Nat) (d : TceDesc) (ga : Nat) : Option (BitVec 8 × Nat × Nat) :=
  let al := d.align (rawEb s core blk sub d)
  if sub = 3 && s.dev.svcl < 2 then some (causeProtect, ga, 32)
  else if sub ≠ 6 && ga % al ≠ 0 then some (causeMisalign, ga, 0)
  else if d.rstr % al ≠ 0 then some (causeMisalign, (d.rstr % 2 ^ 64).toNat, 0)
  else if d.auxa % 4 ≠ 0 then some (causeMisalign, d.auxa, 0)
  else if d.szstr % 4 ≠ 0 then some (causeMisalign, d.szstr, 0)
  else if sub ≠ 6 && 2 ^ 57 ≤ ga then some (causeProtect, ga, 3)
  else if 2 ^ 57 ≤ d.auxa then some (causeProtect, d.auxa, 3)
  else match (neededHandles sub d core).find? fun h => h ≤ 63 && (s.tile blk h).isNone with
    | some h => some (causeTile, h, 1)
    | none =>
      if !descOk sub d core then some (causeTile, d.handle, 13)
      else if !tilesOk sub d core (s.tile blk) then some (causeTile, d.handle, 12)
      else none

/-! ## Footprints (R367) -/

/-- The least and the largest of addresses, as a range. -/
def hull (xs : List (Nat × Nat)) : Nat × Nat :=
  match xs with
  | [] => (0, 0)
  | x :: xs => xs.foldl (fun a b => (min a.1 b.1, max a.2 b.2)) x

/-- The global ranges of a command. -/
def globalRanges (sub ctx ga eb : Nat) (d : TceDesc) : List Range :=
  if sub = 6 then []
  else if isIndexed sub then [.global ctx ga (ga + d.ixb * d.rstr.toNat)]
  else
    let ends := [d.rowAddr ga 0, d.rowAddr ga (d.rows - 1)]
    let h := hull (ends.map fun a => (a, a + d.rowBytes eb))
    .global ctx h.1 h.2 ::
      (if d.grouped then [.global ctx d.auxa (d.auxa + (d.rows - 1) * d.szstr + 4 * (d.len / d.group))] else [])

/-- The bytes of the window in a tile. -/
def windowRange (d : TceDesc) (blk h : Nat) (t : Tile) : Range :=
  .tile blk h (t.at d.row0 d.col0) (t.at (d.row0 + d.nrow - 1) (d.col0 + d.ncol - 1) + t.eb)

/-- The bytes of a C8 sidecar in a tile. -/
def sidecarRange (d : TceDesc) (blk h : Nat) (t : Tile) : Range :=
  .tile blk h (t.at (d.line 0) (2 * (d.kpos 0 / d.group)))
    (t.at (d.line (d.rows - 1)) (2 * (d.kpos (d.len - 1) / d.group) + 1) + t.eb)

/-- The bytes of a SLICE's exponents. -/
def expRange (d : TceDesc) (blk h : Nat) (t : Tile) : Range :=
  .tile blk h (t.at 0 (sliceLine d 0 0)) (t.at 0 (sliceLine d (d.rows - 1) (d.len - 1)) + t.eb)

/-- The scratchpad ranges of the issuing block. -/
def tileRanges (s : State) (core blk sub : Nat) (d : TceDesc) : List Range :=
  (neededHandles sub d core).filterMap fun h => (s.tile blk h).map fun t =>
    if sub = 3 && h = d.handle + d.slc then expRange d blk h t
    else if sub ≠ 3 && h ≠ d.handle then sidecarRange d blk h t
    else windowRange d blk h t

/-- The tile in a peer's export slot. -/
def slotTile (s : State) (core slot : Nat) : Option (Nat × Nat × Tile) :=
  (tget (s.core core).exports slot).bind fun e => (s.tile e.1 e.2).map fun t => (e.1, e.2, t)

/-- The ranges of a receiving peer (R364). -/
def peerRanges (s : State) (core : Nat) (d : TceDesc) : List Range :=
  ((slotTile s core d.slot).map fun e => windowRange d e.1 e.2.1 e.2.2).toList
  ++ (if d.cl = 1 then ((slotTile s core (d.slot + 1)).map fun e => sidecarRange d e.1 e.2.1 e.2.2).toList else [])

/-- The command of a group, with its footprint. -/
def tceCommand (s : State) (core blk sub : Nat) (desc : BitVec 512) (ga : Quad) : Cmd :=
  let d := tceDesc desc
  let ctx := ((s.block blk).map Block.ctx).getD 0
  let glob := globalRanges sub ctx ga.toNat (rawEb s core blk sub d) d
  let tiles := tileRanges s core blk sub d
  { id := s.nextAcc, blk := blk, path := tcePath sub, kind := .tce sub desc ga
    srcs := if isWrite sub then tiles else glob, dsts := if isWrite sub then glob else tiles }

/-- The entries that an MCAST takes in its peers' tables: the core and the entry. -/
def peerEntries (s : State) (core : Nat) (c : Cmd) : List (Nat × Cmd) :=
  match c.kind with
  | .tce 2 desc _ =>
    let d := tceDesc desc
    (peerBits d core).map fun i =>
      (core / 4 * 4 + i, { c with path := peerPath, srcs := [], dsts := peerRanges s (core / 4 * 4 + i) d })
  | _ => []

/-- Whether a TCE command can be accepted (R27, R366): the writes before it come first, the engine holds at
most 8 commands, and every table it needs takes it. -/
def tceReady (s : State) (core : Nat) (c : Cmd) : Bool :=
  heldOn (s.core core) (fun p => p ≤ 1) < 8 && tableTakes (s.core core) c && !behindWrites s c
  && (peerEntries s core c).all fun e => tableTakes (s.core e.1) e.2

/-- A TCE command is accepted. -/
def acceptTce (s : State) (core : Nat) (c : Cmd) : State :=
  (peerEntries s core c).foldl (fun s e => takeEntry s e.1 e.2) (takeEntry s core c)

/-- A command that must wait stalls its front thread (R366). -/
def issueTce (s : State) (is : FrontIssue) (c : Cmd) : State × FrontFate :=
  let s := { s with nextAcc := s.nextAcc + 1 }
  if tceReady s is.core c then (acceptTce s is.core c, .next) else (addCommand s is.core c, .stall .command)

/-- A TCE group (R351, R366, R370, R371). -/
def tceOp (sub : Nat) (b a : BitVec 6) (i : Instr) (s : State) : Result :=
  issue s i noLane fun s is =>
    match takeRecord (is.block s) (fun p => p ≤ 1) with
    | some f => (clearRecord s is.blk f, .trap f.cause f.taddr f.detail.toNat none)
    | none =>
      let va := (is.front s).reg a.toNat
      let ga := (is.front s).reg b.toNat
      if va.toNat % 64 ≠ 0 then (s, .trap causeMisalign va 0 none)
      else match frontDesc s is va 64 with
        | (s, .inl f) => (s, f)
        | (s, .inr v) =>
          match tceCheck s is.core is.blk sub (tceDesc (BitVec.ofNat 512 v)) ga.toNat with
          | some (cause, taddr, detail) => (s, .trap cause (BitVec.ofNat 64 taddr) detail none)
          | none => issueTce s is (tceCommand s is.core is.blk sub (BitVec.ofNat 512 v) ga)

def execTceLoad (b a : BitVec 6) (s : State) : Result := tceOp 0 b a (.tceLoad b a) s
def execTceStore (b a : BitVec 6) (s : State) : Result := tceOp 1 b a (.tceStore b a) s
def execTceMcast (b a : BitVec 6) (s : State) : Result := tceOp 2 b a (.tceMcast b a) s
def execTceSlice (b a : BitVec 6) (s : State) : Result := tceOp 3 b a (.tceSlice b a) s
def execTceGather (b a : BitVec 6) (s : State) : Result := tceOp 4 b a (.tceGather b a) s
def execTceScatter (b a : BitVec 6) (s : State) : Result := tceOp 5 b a (.tceScatter b a) s
def execTceFill (b a : BitVec 6) (s : State) : Result := tceOp 6 b a (.tceFill b a) s

/-! ## Conversions (R358 to R361) -/

/-- A storage element as the layout holds it. -/
def loadConv (sfmt cl x : Nat) : Nat :=
  let g := if cl = 4 then fp16 else bf16
  match sfmt with
  | 1 => (convert fp32 g 1 x).val
  | 2 => if cl = 4 then x else (convert fp16 bf16 1 x).val
  | 4 => (convert e4m3 g 1 x).val
  | 5 => (convert e5m2 g 1 x).val
  | 8 => (x + 128) % 256
  | 9 => (x + 248) % 256
  | _ => x

/-- An element of a layout as storage holds it (E2M1 apart). -/
def storeConv (sfmt cl : Nat) (sat : Bool) (x : Nat) : Nat :=
  let f := if cl = 4 then fp16 else bf16
  match sfmt with
  | 1 => (convert f fp32 1 x).val
  | 4 => (toF8 false sat 1 (convert f fp32 1 x).val).val
  | 5 => (toF8 true sat 1 (convert f fp32 1 x).val).val
  | _ => x

/-- An E2M1 block expanded (R360), or none at a fifth escape. -/
def expandBlock (bs : List Byte) : Option (List Nat) :=
  let byte := fun i => (bs.getD i 0).toNat
  let e := byte 24
  let go := (List.range 32).foldl (fun (r : Option (List Nat × Nat)) k =>
    r.bind fun (out, n) =>
      let c := byte (k / 2) / (if k % 2 = 0 then 1 else 16) % 16
      if c = 8 then (if n = 4 then none else some (out ++ [byte (16 + 2 * n) + 256 * byte (17 + 2 * n)], n + 1))
      else if e = 255 then some (out ++ [0x7FC0], n)
      else
        let a := e2m1.parts c
        some (out ++ [(roundTo bf16 1 (e2m1.neg? c) a.1 (a.2 + e - 127)).val], n)) (some ([], 0))
  go.map Prod.fst

/-- Inserting by descending magnitude, ties to the lower index. -/
def insertMag : List (Nat × Nat) → Nat × Nat → List (Nat × Nat)
  | [], x => [x]
  | y :: ys, x => if bf16.mag y.2 < bf16.mag x.2 then x :: y :: ys else y :: insertMag ys x

/-- 32 elements encoded as an E2M1 block (R361). R361 takes the exponent from the largest finite magnitude; of a block with no
finite element that is here 0, so that e = 127 (log 99: DESIGN CHOICE). -/
def encodeBlock (xs : List Nat) : List Byte :=
  let ix := xs.mapIdx fun i x => (i, x)
  let special := fun x => bf16.isNaN x || bf16.isInf x
  let finite := ix.filter fun p => !special p.2
  let amax := finite.foldl (fun m p => max m (bf16.mag p.2)) 0
  let a := bf16.parts amax
  let e : Nat := if amax = 0 then 127 else (min (max ((bitLen a.1 : Int) + a.2 - 1 + 125) 0) 254).toNat
  let big := finite.filter fun p =>
    let b := bf16.parts p.2
    let d : Int := b.2 - ((e : Int) - 127)
    if 0 ≤ d then 7 ≤ b.1 * 2 ^ d.toNat else 7 * 2 ^ (-d).toNat ≤ b.1
  let esc := (((ix.filter fun p => special p.2) ++ big.foldl insertMag []).take 4).map Prod.fst
  let code := fun (p : Nat × Nat) =>
    if esc.contains p.1 then 8
    else if bf16.isNaN p.2 then 0
    else if bf16.isInf p.2 then e2m1.withSign (bf16.neg? p.2) 7
    else
      let b := bf16.parts p.2
      let r := roundTo e2m1 1 (bf16.neg? p.2) b.1 (b.2 - ((e : Int) - 127))
      if r.flags &&& flagOF ≠ 0 then e2m1.withSign (bf16.neg? p.2) 7
      else if e2m1.mag r.val = 0 then 0 else r.val
  let codes := ix.map code
  let pair := fun i => BitVec.ofNat 8 (codes.getD (2 * i) 0 + 16 * codes.getD (2 * i + 1) 0)
  let side := (ix.filter fun p => esc.contains p.1).flatMap fun p => leBytes 2 p.2
  (List.range 16).map pair ++ side ++ List.replicate (8 - side.length) 0 ++ [BitVec.ofNat 8 e] ++ List.replicate 7 0

/-! ## Running a command -/

/-- Bytes to be written to a tile: row, column, value; and to a sidecar likewise. -/
structure TileWrites where
  main : List (Nat × Nat × Nat) := []
  side : List (Nat × Nat × Nat) := []
  deriving DecidableEq, Repr

/-- The elements of a storage row, or the byte offset of the block at fault. -/
def rowElems (d : TceDesc) (eb : Nat) (bs : List Byte) : Except Nat (List Nat) :=
  let at_ := fun (n k : Nat) => leValue ((bs.drop (n * k)).take n)
  match d.sfmt with
  | 0 => .ok ((List.range d.len).map (at_ eb))
  | 1 => .ok ((List.range d.len).map (at_ 4))
  | 2 => .ok ((List.range d.len).map (at_ 2))
  | 3 => .ok ((List.range d.len).map (at_ 2))
  | 6 =>
    (List.range (d.len / 32)).foldl (fun r b => match r with
      | .error e => .error e
      | .ok xs => match expandBlock ((bs.drop (32 * b)).take 32) with
        | none => .error (32 * b)
        | some ys => .ok (xs ++ ys)) (.ok [])
  | 9 => .ok ((List.range d.len).map fun k => (bs.getD (k / 2) 0).toNat / (if k % 2 = 0 then 1 else 16) % 16)
  | 10 => .ok ((List.range d.len).map (at_ 8))
  | _ => .ok ((List.range d.len).map (at_ 1))

/-- The sidecar values of a row: σ and ζ by group (R358, R359). -/
def sidePairs (d : TceDesc) (r : Nat) (scale : List Byte) : List (Nat × Nat × Nat) :=
  (List.range (ceilDiv (d.kpos (d.len - 1) + 1 - d.kpos 0) d.group)).flatMap fun g =>
    let w := leValue ((scale.drop (4 * g)).take 4)
    let (sg, z) :=
      if d.sfmt = 8 then (w % 65536, (w / 65536 % 256 + 65536 - 128) % 65536)
      else if d.sfmt = 9 then (w % 65536, (w / 65536 % 16 + 65536 - 8) % 65536)
      else (0x3C00, 0)
    let c := 2 * (d.kpos 0 / d.group + g)
    [(d.line r, c, sg), (d.line r, c + 1, z)]

/-- What one storage row comes to: its writes, or why it stops. -/
abbrev RowResult := Except Reach TileWrites

/-- The index of a storage row (R363): none for no indexing, an error at the bound. -/
def rowIndex (s : State) (c : Cmd) (ctx : Nat) (d : TceDesc) (r : Nat) : Except Reach Nat :=
  match engineRead s c ctx (d.auxa + 4 * r) 4 with
  | .error e => .error e
  | .ok bs =>
    let i := leValue bs
    if i ≠ 0xFFFFFFFF && d.ixb ≤ i then .error (.fail causeTile (d.auxa + 4 * r) 15) else .ok i

/-- A storage row that is read at an address: its writes (R358). -/
def loadRow (s : State) (c : Cmd) (ctx eb : Nat) (d : TceDesc) (va r : Nat) : RowResult :=
  match engineRead s c ctx va (d.rowBytes eb) with
  | .error e => .error e
  | .ok bs =>
    match rowElems d eb bs with
    | .error off => .error (.fail causeTile (va + off) 11)
    | .ok xs =>
      let main := xs.mapIdx fun k x => ((d.posn r k).1, (d.posn r k).2, loadConv d.sfmt d.cl x)
      if d.cl ≠ 1 then .ok { main := main }
      else if d.grouped then
        match engineRead s c ctx (d.auxa + r * d.szstr) (4 * (d.len / d.group)) with
        | .error e => .error e
        | .ok sc => .ok { main := main, side := sidePairs d r sc }
      else .ok { main := main, side := sidePairs d r [] }

/-- A row of LOAD, MCAST or GATHER. -/
def readRow (s : State) (c : Cmd) (ctx sub eb : Nat) (d : TceDesc) (ga r : Nat) : RowResult :=
  if sub ≠ 4 then loadRow s c ctx eb d (d.rowAddr ga r) r
  else match rowIndex s c ctx d r with
    | .error e => .error e
    | .ok i =>
      if i = 0xFFFFFFFF then
        .ok { main := (List.range d.len).map fun k => ((d.posn r k).1, (d.posn r k).2, 0)
              side := if d.cl = 1 then sidePairs { d with sfmt := 7 } r [] else [] }
      else loadRow s c ctx eb d (d.rowAddr ga i) r

/-- Whether a receiver's block is swapped out (R364). -/
def peerAway (s : State) (core slot : Nat) : Bool :=
  match tget (s.core core).exports slot with
  | some e => ((s.block e.1).bind Block.place).isNone
  | none => false

/-- The elements that rows have for a window and for its sidecar, each with its place in the command's order. -/
def rowWrites (rs : List RowResult) (side : Bool) : List (Nat × Nat × Nat × Nat) :=
  (rs.mapIdx fun r x => match x with
    | .ok w => (if side then w.side else w.main).mapIdx fun k e => (r * 8192 + k, e)
    | .error _ => []).flatMap id

/-- The tiles of a receiver of an MCAST, by block and handle, or a peer fault's TADDR (R364, R371). -/
def peerTiles (s : State) (core : Nat) (d : TceDesc) : Except Nat (List ((Nat × Nat) × Bool)) :=
  let i := core % 4 * 2 ^ 32
  match slotTile s core d.slot with
  | none => .error (i + 0xFFFFFFFF)
  | some (b, h, t) =>
    if !windowOk d t then .error (i + t.at d.row0 d.col0)
    else if d.cl ≠ 1 then .ok [((b, h), false)]
    else match slotTile s core (d.slot + 1) with
      | none => .error (i + t.at d.row0 d.col0)
      | some (b', k, t') =>
        if sidecarOk d t' then .ok [((b, h), false), ((b', k), true)] else .error (i + t.at d.row0 d.col0)

/-- LOAD, MCAST and GATHER. A RAW MCAST reads elements of the size of the tile that `rawEb` names (log 31); a receiver of other
element bytes takes each with zeros above it or its low bytes alone, which R364 leaves open (log 100: DESIGN CHOICE). -/
def loadPlan (s : State) (core : Nat) (c : Cmd) (ctx sub : Nat) (d : TceDesc) (ga : Nat) : CmdPlan :=
  let eb := rawEb s core c.blk sub d
  let rs := (List.range d.rows).map fun r => readRow s c ctx sub eb d ga r
  let peers := (peerBits d core).map fun i => core / 4 * 4 + i
  let own : List ((Nat × Nat) × Bool) :=
    if usesHandle sub d core then ((c.blk, d.handle), false) :: (if d.cl = 1 then [((c.blk, d.handle + 1), true)] else []) else []
  let found := peers.map fun i => peerTiles s i d
  let tiles := own ++ found.flatMap fun x => match x with
    | .ok l => l
    | .error _ => []
  { wait := peers.any fun i => peerAway s i d.slot || (d.cl = 1 && peerAway s i (d.slot + 1))
    reads := (List.range d.rows).flatMap fun r =>
      (if sub ≠ 4 then [(d.rowAddr ga r, d.rowBytes eb)]
       else (d.auxa + 4 * r, 4) :: (match rowIndex s c ctx d r with
         | .ok i => if i = 0xFFFFFFFF then [] else [(d.rowAddr ga i, d.rowBytes eb)]
         | .error _ => []))
      ++ if d.grouped then [(d.auxa + r * d.szstr, 4 * (d.len / d.group))] else []
    tiles := tiles.map fun x => (x.1, rowWrites rs x.2)
    stop := firstStop rs
    fault := (found.findSome? fun x => match x with
      | .error t => some t
      | .ok _ => none).map fun t => (causeTile, t, 14) }

/-- The storage bytes of a row of a tile (R358, R361). -/
def storeRow (d : TceDesc) (t : Tile) (r : Nat) : List Byte :=
  let xs := (List.range d.len).map fun k => t.elem (d.posn r k).1 (d.posn r k).2
  if d.sfmt = 6 then (List.range (d.len / 32)).flatMap fun b => encodeBlock ((xs.drop (32 * b)).take 32)
  else
    let n := match d.sfmt with
      | 0 => t.eb
      | 1 => 4
      | 2 => 2
      | 3 => 2
      | _ => 1
    xs.flatMap fun x => leBytes n (storeConv d.sfmt d.cl d.sat x)

/-- The global row of each storage row of STORE or SCATTER; skipped rows and, of duplicates, all but the last, are
none. -/
def storeTargets (s : State) (c : Cmd) (ctx sub : Nat) (d : TceDesc) (ga : Nat) : List (Except Reach (Option Nat)) :=
  if sub ≠ 5 then (List.range d.rows).map fun r => .ok (some (d.rowAddr ga r))
  else
    let ix := (List.range d.rows).map fun r => rowIndex s c ctx d r
    let val := fun (x : Except Reach Nat) => match x with
      | .ok i => some i
      | .error _ => none
    ix.mapIdx fun r x => match x with
      | .error e => .error e
      | .ok i => .ok (if i = 0xFFFFFFFF || (ix.drop (r + 1)).any (fun y => val y = some i) then none else some (d.rowAddr ga i))

/-- STORE and SCATTER. In a deterministic launch they wait for staging space (R293). -/
def storePlan (s : State) (core : Nat) (c : Cmd) (ctx sub : Nat) (d : TceDesc) (ga : Nat) : CmdPlan :=
  match s.tile c.blk d.handle with
  | none => {}
  | some t =>
    let n := d.rowBytes t.eb
    let rows : List (Except Reach (Option (Nat × List (Nat × Nat) × List (Option Byte)))) :=
      (storeTargets s c ctx sub d ga).mapIdx fun r x => match x with
        | .error e => .error e
        | .ok none => .ok none
        | .ok (some va) => match reach s c.blk ctx true va n with
          | .error e => .error e
          | .ok ps => .ok (some (va, ps, (storeRow d t r).map some))
    { reads := if sub = 5 then (List.range d.rows).map fun r => (d.auxa + 4 * r, 4) else []
      wait := (s.block c.blk).any (notHead s) && 2 ^ 22 < stagingUsed s (coreDie core) + d.rows * n
      rows := rows.filterMap fun x => match x with
        | .ok w => w
        | .error _ => none
      stop := firstStop rows }

/-- FILL (R365). -/
def fillPlan (s : State) (c : Cmd) (d : TceDesc) (v : Nat) : CmdPlan :=
  match s.tile c.blk d.handle with
  | none => {}
  | some t =>
    { tiles := [((c.blk, d.handle), ((List.range d.nrow).flatMap fun i => (List.range d.ncol).map fun j =>
        (i * 8192 + j, d.row0 + i, d.col0 + j, v % 2 ^ (8 * t.eb))))] }

/-- The digits of an element (R362): slice k of s, from the exponent of its line. -/
def sliceDigit (sl k : Nat) (e : Int) (x : Nat) : Nat :=
  let a := fp64.parts x
  let sh : Int := a.2 + 7 * sl - e
  let t := if 0 ≤ sh then a.1 * 2 ^ sh.toNat else a.1 / 2 ^ (-sh).toNat
  let dg := t / 2 ^ (7 * (sl - k)) % 128
  if fp64.neg? x then (256 - dg) % 256 else dg

/-- The exponent of a line. -/
def lineExp (xs : List Nat) : Int :=
  let nz := xs.filter fun x => !fp64.isZero x
  match nz with
  | [] => 0
  | y :: ys =>
    let ex := fun x => (bitLen (fp64.parts x).1 : Int) + (fp64.parts x).2
    ys.foldl (fun m x => max m (ex x)) (ex y)

/-- SLICE (R362): where exponents go by column, nothing is written before every row has been read. -/
def slicePlan (s : State) (c : Cmd) (ctx : Nat) (d : TceDesc) (ga : Nat) : CmdPlan :=
  let rows : List (Except Reach (List Nat)) := (List.range d.rows).map fun r =>
    match engineRead s c ctx (d.rowAddr ga r) (8 * d.len) with
    | .error e => .error e
    | .ok bs => match rowElems d 8 bs with
      | .error _ => .error .dead
      | .ok xs => match (xs.mapIdx fun k x => (k, x)).find? fun p => fp64.isNaN p.2 || fp64.isInf p.2 with
        | some p => .error (.fail causeTile (d.rowAddr ga r + 8 * p.1) 11)
        | none => .ok xs
  let m := rows.map fun r => match r with
    | .ok xs => xs
    | .error _ => []
  let expOf := fun (r k : Nat) => lineExp (if d.expd then m.map fun xs => xs.getD k 0 else m.getD r [])
  let cells := (m.mapIdx fun r xs => (r, xs)).flatMap fun p => p.2.mapIdx fun k x => (p.1, k, x)
  let digits := fun (k : Nat) => cells.map fun q =>
    (q.1 * 8192 + q.2.1, (d.posn q.1 q.2.1).1, (d.posn q.1 q.2.1).2, sliceDigit d.slc k (expOf q.1 q.2.1) q.2.2)
  let exps := cells.map fun q =>
    (q.1 * 8192 + q.2.1, 0, sliceLine d q.1 q.2.1, (expOf q.1 q.2.1 % 65536).toNat)
  let stop := firstStop rows
  { reads := (List.range d.rows).map fun r => (d.rowAddr ga r, 8 * d.len)
    tiles := if stop.isSome && d.expd then []
      else ((List.range d.slc).map fun k => ((c.blk, d.handle + k), digits (k + 1))) ++ [((c.blk, d.handle + d.slc), exps)]
    stop := stop }

/-- The words of a command's index list (R363), which is no part of its footprint (R367). -/
def indexWords (sub : Nat) (desc : BitVec 512) : List Nat :=
  let d := tceDesc desc
  if sub = 4 || sub = 5 then (List.range d.rows).map fun r => d.auxa + 4 * r else []

/-- What a TCE command comes to. -/
def tcePlan (s : State) (core sub : Nat) (desc : BitVec 512) (ga : Quad) (c : Cmd) : CmdPlan :=
  let d := tceDesc desc
  let ctx := ((s.block c.blk).map Block.ctx).getD 0
  if sub = 6 then fillPlan s c d ga.toNat
  else if sub = 3 then slicePlan s c ctx d ga.toNat
  else if isWrite sub then storePlan s core c ctx sub d ga.toNat
  else loadPlan s core c ctx sub d ga.toNat

/-- TCE_COMPLETE (R368): an accepted command that nothing holds back does its work and ends. -/
def execTceComplete (core id : Nat) (s : State) : Result :=
  .next (match (s.core core).cmds.find? fun c => c.id = id && c.accepted && !c.blocked && c.path ≤ 1 with
    | some c =>
      (match c.kind with
       | .tce sub desc ga => runPlan s core c (((s.block c.blk).map Block.ctx).getD 0) (tcePlan s core sub desc ga c)
       | _ => s)
    | none => s)

end Sys2Proof.Machine
end

