-- ==== Sys2Proof/Machine/Collective.lean ====
section
/-! DEFINITION. The Collective Engine and the Sidin fabric (R399 to R413): the COL words, the join, the fixed reduction
tree, completion, and the requests of other devices. -/

namespace Sys2Proof.Machine

/-! ## Descriptors (R403) -/

/-- The fields of a descriptor. -/
structure ColDesc where
  setmap : Nat
  colid  : Nat
  count  : Nat
  op     : Nat
  type   : Nat
  root   : Nat
  nl     : Nat
  rest   : Nat
  src    : Nat
  lstr   : Nat
  deriving DecidableEq, Repr

/-- Reading a descriptor. -/
def colDesc (d : BitVec 512) : ColDesc :=
  { setmap := descBytes d 0 32, colid := descBytes d 0x20 4, count := descBytes d 0x24 4, op := descBytes d 0x28 1
    type := descBytes d 0x29 1, root := descBytes d 0x2A 1, nl := descBytes d 0x2C 2
    rest := descBytes d 0x2B 1 + descBytes d 0x2E 2, src := descBytes d 0x30 8, lstr := descBytes d 0x38 8 }

namespace ColDesc

/-- Element bytes: 8 for i64, n64 and f64. -/
def es (d : ColDesc) : Nat := if d.type = 2 || d.type = 3 || d.type = 5 then 8 else 4

/-- The members, and a device's rank. -/
def members (d : ColDesc) : List Nat := (List.range 256).filter fun i => d.setmap.testBit i
def n (d : ColDesc) : Nat := d.members.length
def rank (d : ColDesc) (dev : Nat) : Nat := (d.members.filter fun i => i < dev).length

end ColDesc

/-- Whether a sub-operation uses DST on a member (R406): REDUCE at its root only, CBAR nowhere. -/
def usesDst (sub : Nat) (d : ColDesc) (dev : Nat) : Bool :=
  match sub with
  | 0 => d.rank dev = d.root
  | 5 => false
  | _ => true

/-- The fields against R403 and R404. -/
def colOk (s : State) (sub : Nat) (d : ColDesc) : Bool :=
  let own := d.rank (ownDev s)
  d.setmap.testBit (ownDev s) && d.setmap < 2 ^ domainSize s && d.rest = 0 && d.type ≤ 7 && d.op ≤ 2
  && (d.op = 0 || sub ≠ 2 && sub ≠ 3 && sub ≠ 5) && d.root < d.n && (d.root = 0 || sub = 0 || sub = 2)
  && (match sub with
      | 5 => d.nl = 0 && d.src = 0 && d.lstr = 0 && d.count = 0
      | 2 => 1 ≤ d.count && d.count ≤ 2 ^ 24 && (if own = d.root then d.nl = 1 else d.nl = 0 && d.src = 0)
      | _ => 1 ≤ d.count && d.count ≤ 2 ^ 24 && 1 ≤ d.nl && d.nl ≤ 4096)
  && (sub ≠ 4 || d.count % d.n = 0)

/-- Whether a command is a collective of the same SETMAP. -/
def sameSet (d : ColDesc) (c : Cmd) : Bool :=
  match c.kind with
  | .col _ e _ => (colDesc e).setmap = d.setmap
  | _ => false

/-- Whether the device holds an incomplete command with the same SETMAP and COLID (R405). -/
def colClash (s : State) (d : ColDesc) : Bool :=
  let hit := fun (c : Cmd) => sameSet d c && (match c.kind with
    | .col _ e _ => decide ((colDesc e).colid = d.colid)
    | _ => false)
  (s.cores.any fun c => c.2.cmds.any hit) || s.blocks.any fun b => b.2.cols.any hit

/-- The checks at issue after the descriptor's address, in the order of R404: cause, TADDR and DETAIL. -/
def colCheck (s : State) (sub : Nat) (d : ColDesc) (dst : Nat) : Option (BitVec 8 × Nat × Nat) :=
  let w := usesDst sub d (ownDev s)
  if d.src % d.es ≠ 0 then some (causeMisalign, d.src, 0)
  else if d.lstr % d.es ≠ 0 then some (causeMisalign, d.lstr, 0)
  else if w && dst % d.es ≠ 0 then some (causeMisalign, dst, 0)
  else if 2 ^ 57 ≤ d.src then some (causeProtect, d.src, 3)
  else if w && 2 ^ 57 ≤ dst then some (causeProtect, dst, 3)
  else if !colOk s sub d then some (causeIllopnd, 0, 0)
  else if s.dev.svcl < 2 && 1 < d.n then some (causeProtect, dst, 32)
  else if colClash s d then some (causeProtect, d.colid, 34)
  else none

/-! ## Issue (R409) -/

/-- The bytes that a sub-operation writes on this device, an AGATHER's given the leaves of all members. -/
def dstBytes (sub : Nat) (d : ColDesc) (leaves : Nat) : Nat :=
  match sub with
  | 3 => leaves * d.count * d.es
  | 4 => d.count / d.n * d.es
  | 5 => 0
  | _ => d.count * d.es

/-- The command of a group, with its footprint: an AGATHER registers its source only. -/
def colCommand (s : State) (blk sub : Nat) (desc : BitVec 512) (dst : Quad) : Cmd :=
  let d := colDesc desc
  let ctx := ((s.block blk).map Block.ctx).getD 0
  { id := s.nextAcc, blk := blk, path := 3, kind := .col sub desc dst
    srcs := if d.nl = 0 then [] else [.global ctx d.src (d.src + (d.nl - 1) * d.lstr + d.count * d.es)]
    dsts := if sub = 3 || !usesDst sub d (ownDev s) then []
            else [.global ctx dst.toNat (dst.toNat + dstBytes sub d 0)] }

/-- Accepted commands of a die's engine. -/
def colHeld (s : State) (core : Nat) : Nat :=
  s.cores.foldl (fun n c => if coreDie c.1 = coreDie core then n + heldOn c.2 (fun p => p = 3) else n) 0

/-- Whether a COL command can be accepted: after the writes before it (R27); a CBAR waits as a release (R411). -/
def colReady (s : State) (core : Nat) (c : Cmd) : Bool :=
  colHeld s core < 8 && tableTakes (s.core core) c && !behindWrites s c && (match c.kind with
    | .col 5 _ _ => released s c.blk c.id
    | _ => true)

/-- A command that must wait stalls its front thread. -/
def issueCol (s : State) (is : FrontIssue) (c : Cmd) : State × FrontFate :=
  let s := { s with nextAcc := s.nextAcc + 1 }
  if colReady s is.core c then (takeEntry s is.core c, .next) else (addCommand s is.core c, .stall .command)

/-- A COL group (R402, R404, R413, R295): in a deterministic launch it waits until its block is the head. -/
def colOp (sub : Nat) (b : Option (BitVec 6)) (a : BitVec 6) (i : Instr) (s : State) : Result :=
  issue s i noLane fun s is =>
    match takeRecord (is.block s) (fun p => p = 3) with
    | some f => (clearRecord s is.blk f, .trap f.cause f.taddr f.detail.toNat none)
    | none =>
      let va := (is.front s).reg a.toNat
      let dst := (b.map fun b => (is.front s).reg b.toNat).getD 0
      if va.toNat % 64 ≠ 0 then (s, .trap causeMisalign va 0 none)
      else if notHead s (is.block s) then (s, .again .head)
      else match frontDesc s is va 64 with
        | (s, .inl f) => (s, f)
        | (s, .inr v) =>
          match colCheck s sub (colDesc (BitVec.ofNat 512 v)) dst.toNat with
          | some (cause, taddr, detail) => (s, .trap cause (BitVec.ofNat 64 taddr) detail none)
          | none => issueCol s is (colCommand s is.blk sub (BitVec.ofNat 512 v) dst)

def execColReduce (b a : BitVec 6) (s : State) : Result := colOp 0 (some b) a (.colReduce b a) s
def execColAllred (b a : BitVec 6) (s : State) : Result := colOp 1 (some b) a (.colAllred b a) s
def execColBcast (b a : BitVec 6) (s : State) : Result := colOp 2 (some b) a (.colBcast b a) s
def execColAgather (b a : BitVec 6) (s : State) : Result := colOp 3 (some b) a (.colAgather b a) s
def execColRscat (b a : BitVec 6) (s : State) : Result := colOp 4 (some b) a (.colRscat b a) s
def execColCbar (a : BitVec 6) (s : State) : Result := colOp 5 none a (.colCbar a) s

/-! ## The join (R405) -/

/-- An accepted COL command of a core, by its number. -/
def colFind (s : State) (core id : Nat) : Option (Cmd × Nat × BitVec 512 × Quad) :=
  ((s.core core).cmds.find? fun c => c.id = id && c.accepted).bind fun c =>
    match c.kind with
    | .col sub desc dst => some (c, sub, desc, dst)
    | _ => none

/-- Whether the peers' commands are those of the other members. -/
def peersFit (s : State) (d : ColDesc) (ps : List PeerCmd) : Bool :=
  ps.map PeerCmd.dev = d.members.filter (· ≠ ownDev s) && ps.all fun p => p.colid.toNat = d.colid

/-- Whether the members' commands agree. -/
def peersAgree (sub : Nat) (d : ColDesc) (ps : List PeerCmd) : Bool :=
  ps.all fun p => p.sub = sub && p.count = d.count && p.op = d.op && p.type = d.type && p.root = d.root

/-- COL_JOIN: a disagreement faults the command, else it has joined, and an AGATHER registers its destination. For a CBAR that has
joined, the members report again, as their earlier commands complete (R411). -/
def execColJoin (core id : Nat) (peers : List PeerCmd) (s : State) : Result :=
  .next (match colFind s core id with
    | some (c, sub, desc, dst) =>
      let d := colDesc desc
      if !peersFit s d peers then s
      else if c.started then
        if sub = 5 then s.modCore core fun k => { k with cmds := k.cmds.map fun x =>
          if x.id = id then { x with peers := peers } else x } else s
      else if !peersAgree sub d peers then failCommand s core id causeProtect (BitVec.ofNat 64 d.colid) 33
      else
        let ctx := ((s.block c.blk).map Block.ctx).getD 0
        let leaves := d.nl + peers.foldl (fun n p => n + p.leaves.length) 0
        let dsts : List Range := if sub = 3 then [.global ctx dst.toNat (dst.toNat + dstBytes 3 d leaves)] else c.dsts
        s.modCore core fun k => { k with cmds := k.cmds.map fun x =>
          if x.id = id then { x with started := true, peers := peers, dsts := dsts } else x }
    | none => s)

/-! ## The reduction (R407, R408) -/

/-- x ⊕ y on elements of a type. -/
def colOperator (op ty x y : Nat) : Nat :=
  let fl := fun (f : Fmt) (x y : Nat) => if op = 0 then (fadd f 1 x y).val else (fminmax f (op = 2) x y).val
  let two := fun (f : Fmt) => fl f (x % 65536) (y % 65536) + 65536 * fl f (x / 65536) (y / 65536)
  match ty with
  | 4 => fl fp32 x y
  | 5 => fl fp64 x y
  | 6 => two fp16
  | 7 => two bf16
  | _ => atomicNew op ty x y 0

/-- One level of the tree: neighbours pair, the lower rank left, and an odd one passes up. -/
def pairUp (f : Nat → Nat → Nat) : List Nat → List Nat
  | x :: y :: t => f x y :: pairUp f t
  | t => t

/-- The tree. -/
def treeUp (f : Nat → Nat → Nat) : Nat → List Nat → Nat
  | 0, l => l.headD 0
  | n + 1, l => if l.length ≤ 1 then l.headD 0 else treeUp f n (pairUp f l)

/-- R(e) from the members' leaves of element e, in rank order (R408). -/
def reduceElem (op ty : Nat) (ranks : List (List Nat)) : Nat :=
  treeUp (colOperator op ty) 9 (ranks.map fun l => l.tail.foldl (colOperator op ty) (l.headD 0))

/-! ## Completion (R406, R409, R413) -/

/-- A leaf's bytes, those that can be read, and why a chunk cannot. -/
def leafBytes (s : State) (c : Cmd) (ctx va n : Nat) : List (Option Byte) × List (Except Reach Unit) :=
  let cs := (chunks (n / 4096 + 2) va n).map fun k => (k.2, k.1, reachChunk s c.blk ctx false k.1 k.2)
  (cs.flatMap fun k => match k.2.2 with
     | .ok p => (heldBytes c k.2.1 (homeBytes s p.1 p.2)).map some
     | .error _ => List.replicate k.1 none,
   cs.map fun k => k.2.2.map fun _ => ())

/-- Elements of a leaf: none where a byte could not be read. -/
def leafElems (es n : Nat) (bs : List (Option Byte)) : List (Option Nat) :=
  (List.range n).map fun e =>
    let w := (bs.drop (e * es)).take es
    if w.all Option.isSome then some (leValue (w.map fun b => b.getD 0)) else none

/-- Every member's leaves in rank order. -/
def allLeaves (s : State) (d : ColDesc) (own : List (List (Option Nat))) (ps : List PeerCmd) : List (List (List (Option Nat))) :=
  d.members.map fun m =>
    if m = ownDev s then own
    else match ps.find? fun p => p.dev = m with
      | some p => p.leaves.map fun l => l.map fun x => some x.toNat
      | none => []

/-- An element of each leaf, if all are there. -/
def elemOf (ranks : List (List (List (Option Nat)))) (e : Nat) : Option (List (List Nat)) :=
  ranks.mapM fun r => r.mapM fun l => (l[e]?).bind id

/-- The elements that a sub-operation writes on this device (R406). -/
def colElems (s : State) (sub : Nat) (d : ColDesc) (ranks : List (List (List (Option Nat)))) : List (Option Nat) :=
  let red := fun (lo n : Nat) => (List.range n).map fun i => (elemOf ranks (lo + i)).map (reduceElem d.op d.type)
  match sub with
  | 2 => ((ranks.getD d.root []).headD [])
  | 3 => ranks.flatMap fun r => r.flatMap id
  | 4 => red (d.rank (ownDev s) * (d.count / d.n)) (d.count / d.n)
  | _ => red 0 d.count

/-- The bytes of elements. -/
def elemBytes (es : Nat) (xs : List (Option Nat)) : List (Option Byte) :=
  xs.flatMap fun x => match x with
    | some v => (leBytes es v).map some
    | none => List.replicate es none

/-- What a joined command comes to: its sources are read and its destination is written at the homes. -/
def colPlan (s : State) (sub : Nat) (desc : BitVec 512) (dst : Quad) (c : Cmd) : CmdPlan :=
  let d := colDesc desc
  let ctx := ((s.block c.blk).map Block.ctx).getD 0
  let own := (List.range d.nl).map fun l => leafBytes s c ctx ((d.src + l * d.lstr) % 2 ^ 64) (d.count * d.es)
  let ranks := allLeaves s d (own.map fun l => leafElems d.es d.count l.1) c.peers
  let bytes := if usesDst sub d (ownDev s) then elemBytes d.es (colElems s sub d ranks) else []
  let cs := (chunks (bytes.length / 4096 + 2) dst.toNat bytes.length).map fun k => (k.1, reachChunk s c.blk ctx true k.1 k.2)
  let stop := firstStop (own.flatMap Prod.snd ++ cs.map fun k => k.2.map fun _ => ())
  { reads := (List.range d.nl).map fun l => ((d.src + l * d.lstr) % 2 ^ 64, d.count * d.es)
    rows := cs.filterMap fun k => match k.2 with
      | .ok p => some (k.1, [p], (bytes.drop (k.1 - dst.toNat)).take p.2)
      | .error _ => none
    stop := stop.or (if c.peers.any PeerCmd.faults then some (.fail causeProtect d.colid 35) else none) }

/-- COL_COMPLETE (R409). -/
def execColComplete (core id : Nat) (s : State) : Result :=
  .next (match colFind s core id with
    | some (c, sub, desc, dst) => if sub = 5 || !c.started || c.blocked then s
      else runPlan s core c (((s.block c.blk).map Block.ctx).getD 0) (colPlan s sub desc dst c)
    | none => s)

/-- Commands that have not completed move some of their bytes (R274). -/
def advanceCommands (s : State) : State :=
  s.cores.foldl (fun s k => k.2.cmds.foldl (fun s c =>
    let ctx := ((s.block c.blk).map Block.ctx).getD 0
    if !c.accepted || c.blocked then s
    else match c.kind with
      | .tce sub desc ga => if c.path ≤ 1 then advancePlan s k.1 c ctx (indexWords sub desc) (tcePlan s k.1 sub desc ga) else s
      | .col sub desc dst => if c.started && sub ≠ 5 then advancePlan s k.1 c ctx [] (colPlan s sub desc dst) else s
      | _ => s) s) s

/-- Whether a member other than this device issued its command of a collective before its command of a second one. -/
def peerFirst (ps qs : List PeerCmd) : Bool := ps.any fun p => qs.any fun q => p.dev = q.dev && p.seq < q.seq

/-- Whether a collective of the same members that this device, or another member, issued before a CBAR is still incomplete on this
device (R411). One that has not joined here is incomplete on the other members too, which say so. -/
def earlierCol (s : State) (d : ColDesc) (id : Nat) (peers : List PeerCmd) : Bool :=
  let hit := fun (c : Cmd) => c.id ≠ id && sameSet d c && (c.id < id || peerFirst c.peers peers)
  (s.cores.any fun c => c.2.cmds.any hit) || s.blocks.any fun b => b.2.cols.any hit

/-- CBAR_COMPLETE (R411): every command of the same SETMAP that a member issued before its CBAR is complete on every member. -/
def execCbarComplete (core id : Nat) (s : State) : Result :=
  .next (match colFind s core id with
    | some (c, sub, desc, _) =>
      if sub ≠ 5 || !c.started || earlierCol s (colDesc desc) id c.peers || c.peers.any PeerCmd.earlier then s
      else dropCommand s id
    | none => s)

/-! ## Requests of other devices (R400, R401) -/

/-- Whether a request is one of another device of the domain, for bytes of this device, or for bytes of another device's HBM, of
which this one may hold copies. -/
def sidinOk (s : State) (r : SidinReq) (n : Nat) : Bool :=
  s.dev.svcl = 2 && r.dev < domainSize s && r.dev ≠ ownDev s && r.pa % 128 + n ≤ 128 && (match region s r.pa with
    | .localHbm => r.pa < 2 ^ 39
    | .fabric d => d < domainSize s
    | _ => false)

/-- A device that has read a line of this one holds a copy of it (R400). -/
def addDevice (s : State) (line dev : Nat) : State :=
  modLine s line fun h => { h with dir := if h.dir = .invalid then .shared else h.dir, devs := insertNat h.devs dev }

/-- SIDIN_REQUEST: served at the line's home. For a line of another device it is what that device's home does on a request of
`dev`: it recalls or invalidates this device's copies, and its bytes change (R400, R401). -/
def execSidinRequest (r : SidinReq) (s : State) : Result :=
  let line := lineOf r.pa
  let atHome := fun (n : Nat) (k : State → State) =>
    if !sidinOk s r n then s
    else if !lineReady s line then fetchLine s line
    else if region s r.pa = .localHbm then k (enterLine s line) else k s
  .next (match r.op with
    | .read len => atHome len fun s =>
        let s := addDevice (recallOwner s line) line r.dev
        { s with reply := homeBytes s r.pa len, replyBad := lineBad s line }
    | .write bs => atHome bs.length fun s => { homeWrite s r.pa bs with reply := [], replyBad := false }
    | .atomic op ty x y =>
      let n := if Sig.atomWide ty.toNat then 8 else 4
      if r.pa % n ≠ 0 then s
      else atHome n fun s =>
        let s := dropCopies s line
        let old := homeNum s r.pa n
        let k := 2 ^ (8 * n)
        if lineBad s line then { s with reply := [], replyBad := true }
        else { dirtyHome s line (byteMask (r.pa % 128) n) with
          mem := s.mem.setNum r.pa n (atomicNew op.toNat ty.toNat old (x.toNat % k) (y.toNat % k))
          reply := leBytes n old, replyBad := false })

end Sys2Proof.Machine
end

