-- ==== Sys2Proof/Machine/Matrix.lean ====
section
/-! DEFINITION. The Matrix Engine (R372 to R394, R464): tokens, MMA, MXZERO, MXSCALE, MXRECOMB, MXLD and MXST, their
checks at issue, the exact order of the sums, and the engine's events. -/

namespace Sys2Proof.Machine

/-! ## What a matrix group comes to (R377) -/

/-- The outcome of a group for its participants. -/
inductive MxOut where
  | go
  | trap (cause : BitVec 8) (taddr detail : Nat)
  /-- An MX-path command that waits at issue: every member retries (R26, R382). -/
  | wait
  | each (f : Member → Fate)

/-- A group with its participants; without one it does nothing. -/
def mxBody (f : State → Issue → List Member → State × MxOut) : Body := fun s is ms =>
  let on := ms.filter Member.on
  if on.isEmpty then (s, ms.map fun m => (m, .next))
  else match f s is on with
    | (s, .go) => (s, ms.map fun m => (m, .next))
    | (s, .trap cause taddr detail) =>
      (s, ms.map fun m => (m, if m.on then .trap cause (BitVec.ofNat 64 taddr) detail none else .next))
    | (s, .wait) => (s, ms.map fun m => (m, .leave (.waiting (.rejected (s.now + 8))) is.g.start))
    | (s, .each g) => (s, ms.map fun m => (m, if m.on then g m else .next))

/-- An accumulator tile that a group names (R374). -/
def accTile (s : State) (is : Issue) (h : Nat) : Except MxOut Tile :=
  match s.tile is.blk h with
  | none => .error (.trap causeTile h 1)
  | some t => if t.ac then .ok t else .error (.trap causeTile h 16)

/-- A group on accumulator tile `h`. -/
def onTile (s : State) (is : Issue) (h : Nat) (f : Tile → State × MxOut) : State × MxOut :=
  match accTile s is h with
  | .error e => (s, e)
  | .ok t => f t

/-! ## Token and valid-count (R378, R380) -/

/-- MXACQ. -/
def execMxacq (d : BitVec 6) (s : State) : Result :=
  issue s (.mxacq d) (mxBody fun s is _ => onTile s is d.toNat fun t =>
    if t.threads then (s, .go)
    else if t.infl = 0 then (s.modTile is.blk d.toNat fun t => { t with threads := true }, .go)
    else (s, .each fun _ => .leave (.waiting (.token d.toNat)) is.next)) noFront

/-- MXREL. -/
def execMxrel (d : BitVec 6) (s : State) : Result :=
  issue s (.mxrel d) (mxBody fun s is _ => onTile s is d.toNat fun _ =>
    (s.modTile is.blk d.toNat fun t => { t with threads := false }, .go)) noFront

/-- The participant with the lowest home lane (R377). -/
def firstValue (f : Vals → Quad) (ms : List Member) : Nat := ((ms.head?.map fun m => (f m.v).toNat).getD 0) % 2 ^ 32

/-- MXVC. -/
def execMxvc (a : BitVec 8) (d : BitVec 6) (s : State) : Result :=
  issue s (.mxvc a d) (mxBody fun s is ms => onTile s is d.toNat fun _ =>
    (s.modTile is.blk d.toNat fun t => { t with vc := min (firstValue Vals.a ms) 32 }, .go)) noFront

/-! ## Commands -/

/-- All bytes of a tile. -/
def wholeTile (blk h : Nat) (t : Tile) : Range := .tile blk h 0 t.size

/-- An operand tile that a descriptor names (R226, R375): a literal handle or a peer's slot. -/
def mmaSpot (s : State) (is : Issue) (x k : Nat) : Option Spot :=
  if 63 < x % 64 + k then none else spotOf s is.core is.blk (x % 64 + k) (x / 64)

/-- Accepting an MX command, or waiting (R26, R382): the accumulator tiles whose INFL rises, and the peers' sources, one entry
on each peer core (R385). -/
def issueMx (s : State) (is : Issue) (c : Cmd) (accs : List Nat) (peers : List Spot) (kacc : Nat) : State × MxOut :=
  let shadows := (peers.foldl (fun l p => insertNat l p.core) []).map fun k =>
    (k, { c with path := peerPath, dsts := []
                 srcs := (peers.filter fun p => p.core = k).map fun p => wholeTile p.blk p.h p.tile })
  if heldOn (s.core is.core) (fun p => p = 2) < 16 && tableTakes (s.core is.core) c
      && shadows.all fun x => tableTakes (s.core x.1) x.2 then
    let s := shadows.foldl (fun s x => takeEntry s x.1 x.2) (takeEntry { s with nextAcc := s.nextAcc + 1 } is.core c)
    let s := accs.foldl (fun s h => s.modTile is.blk h fun t => { t with infl := t.infl + 1 }) s
    ((match accs with
      | h :: _ => s.modTile is.blk h fun t => { t with kacc := t.kacc + kacc }
      | [] => s), .go)
  else (s, .wait)

/-- An MX command of a group on destination tile `h`. -/
def mxCmd (s : State) (is : Issue) (h : Nat) (t : Tile) (srcs : List Range) (k : CmdKind) : Cmd :=
  { id := s.nextAcc, blk := is.blk, path := 2, kind := k, srcs := srcs, dsts := [wholeTile is.blk h t] }

/-- The home lanes of participants. -/
def laneRows (ms : List Member) : List Nat := ms.map Member.lane

/-- MXZERO (R379). -/
def execMxzero (d : BitVec 6) (s : State) : Result :=
  issue s (.mxzero d) (mxBody fun s is _ => onTile s is d.toNat fun t =>
    if t.threads then (s, .trap causeToken d.toNat 2)
    else issueMx s is (mxCmd s is d.toNat t [] (.mxzero d.toNat)) [d.toNat] [] 0) noFront

/-- The scale of a participant (R390). -/
def scaleOf (s : State) (is : Issue) (a : BitVec 8) (wide : Bool) (m : Member) : Quad :=
  if !wide then m.v.a
  else match laneSource s (is.block s) m.tlin m.lane (is.thread s m.tlin) (a, .f64) with
    | .val v => v
    | _ => m.v.a

/-- MXSCALE (R390). -/
def execMxscale (a : BitVec 8) (d : BitVec 6) (s : State) : Result :=
  issue s (.mxscale a d) (mxBody fun s is ms => onTile s is d.toNat fun t =>
    let wide := t.eb = 8
    if wide && a.toNat < 64 && a.toNat % 2 = 1 then (s, .trap causeIllopnd 0 0)
    else if t.threads then (s, .trap causeToken d.toNat 2)
    else
      let rows := ms.map fun m => (m.lane, scaleOf s is a wide m)
      issueMx s is (mxCmd s is d.toNat t [] (.mxscale d.toNat rows t.vc)) [d.toNat] [] 0) noFront

/-! ## MMA (R381, R382) -/

/-- Element bytes of the operands of a type: 0 C8, 1 X8, 2 C16, 3 C16H. -/
def mmaEb (ty : Nat) : Nat := if ty ≤ 1 then 1 else 2

/-- The limits on K that a tile decides (R381): for C8 a multiple of the least group. -/
def mmaK (ty k : Nat) : Bool := match ty with
  | 0 => k % 32 = 0
  | 1 => k ≤ 8192
  | _ => k % 16 = 0

/-- The shapes of A, B and D in the order of R382, step 4: the handle of the first that breaks R381. -/
def mmaShapes (ty : Nat) (xa xb xd : Nat) (a b d : Tile) : Option Nat :=
  let rows := fun (t : Tile) => shapeRows t.shape
  let cols := fun (t : Tile) => shapeCols t.shape
  if a.eb ≠ mmaEb ty || 32 < rows a || !mmaK ty (cols a) then some xa
  else if b.eb ≠ mmaEb ty || 64 < rows b || cols b ≠ cols a then some xb
  else if d.eb ≠ 4 || rows d ≠ rows a || cols d ≠ rows b then some xd
  else none

/-- The group size that a C8 sidecar fixes, or none for a wrong shape (R381). -/
def sidecarGs (t sc : Tile) : Option Nat :=
  let k := shapeCols t.shape
  let c := shapeCols sc.shape
  if sc.eb ≠ 2 || shapeRows sc.shape < shapeRows t.shape || 2 * k % c ≠ 0 then none
  else
    let g := 2 * k / c
    if (g = 32 || g = 64 || g = 128) && k % g = 0 then some g else none

/-- The SP tiles of an MMA (R382, steps 2 and 3): A, B and for C8 their sidecars. -/
def mmaSpots (s : State) (is : Issue) (ty : Nat) (a b : Nat) : Except MxOut (List Spot) :=
  let names := [(a, 0), (b, 0)] ++ (if ty = 0 then [(a, 1), (b, 1)] else [])
  let spots := names.map fun n => (n.1 % 64 + n.2, mmaSpot s is n.1 n.2)
  match spots.find? fun x => x.2.isNone with
  | some x => .error (.trap causeTile x.1 1)
  | none =>
    match spots.find? fun x => (x.2.map fun p => p.tile.ac).getD false with
    | some x => .error (.trap causeTile x.1 16)
    | none => .ok (spots.filterMap Prod.snd)

/-- MMA of a type on its spots, once they are found (R382, steps 4 to 7). -/
def mmaIssue (s : State) (is : Issue) (ms : List Member) (ty xd xa xb : Nat) (d : Tile) (sp : List Spot) : State × MxOut :=
  match sp with
  | a :: b :: sc =>
    (match mmaShapes ty (xa % 64) (xb % 64) xd a.tile b.tile d with
     | some h => (s, .trap causeTile h 17)
     | none =>
       let gs := match sc with
         | [x, y] => (match sidecarGs a.tile x.tile, sidecarGs b.tile y.tile with
           | none, _ => some (xa % 64 + 1)
           | some _, none => some (xb % 64 + 1)
           | some g, some h => if g = h then none else some (xb % 64 + 1))
         | _ => none
       match gs with
       | some h => (s, .trap causeTile h 18)
       | none =>
         let k := shapeCols a.tile.shape
         if d.threads then (s, .trap causeToken xd 2)
         else if ty = 1 && 131072 < d.kacc + k then (s, .trap causeTile xd 19)
         else
           let at_ := fun (i : Nat) => ((sp[i]?).map fun p => (p.blk, p.h)).getD (a.blk, a.h)
           let own := sp.filter fun p => p.core = is.core
           let c := mxCmd s is xd d (own.map fun p => wholeTile p.blk p.h p.tile)
             (.mma ty xd (at_ 0) (at_ 1) (at_ 2) (at_ 3) (laneRows ms) d.vc)
           issueMx s is c [xd] (sp.filter fun p => p.core ≠ is.core) (if ty = 1 then k else 0))
  | _ => (s, .go)

/-- An MMA group. -/
def mmaOp (ty : Nat) (b a : BitVec 8) (d : BitVec 6) (i : Instr) (s : State) : Result :=
  issue s i (mxBody fun s is ms => onTile s is d.toNat fun t =>
    match mmaSpots s is ty a.toNat b.toNat with
    | .error e => (s, e)
    | .ok sp => mmaIssue s is ms ty d.toNat a.toNat b.toNat t sp) noFront

def execMmaC8 (b a : BitVec 8) (d : BitVec 6) (s : State) : Result := mmaOp 0 b a d (.mmaC8 b a d) s
def execMmaX8 (b a : BitVec 8) (d : BitVec 6) (s : State) : Result := mmaOp 1 b a d (.mmaX8 b a d) s
def execMmaC16 (b a : BitVec 8) (d : BitVec 6) (s : State) : Result := mmaOp 2 b a d (.mmaC16 b a d) s
def execMmaC16h (b a : BitVec 8) (d : BitVec 6) (s : State) : Result := mmaOp 3 b a d (.mmaC16h b a d) s

/-! ## MXLD and MXST (R389) -/

/-- The checks of R464 for an element access, and each participant's own. -/
def elemAccess (x d : Nat) (act : State → Issue → Tile → Nat → Member → State) (s : State) (is : Issue) (ms : List Member) :
    State × MxOut :=
  onTile s is x fun t =>
    if t.eb = 8 && d % 2 = 1 then (s, .trap causeIllopnd 0 0)
    else if !t.threads then (s, .trap causeToken x 1)
    else
      let col := fun (m : Member) => m.v.b.toNat % 2 ^ 32
      let bad := fun (m : Member) => shapeRows t.shape ≤ m.lane || shapeCols t.shape ≤ col m
      let s := (ms.filter fun m => !bad m).foldl (fun s m => act s is t (col m) m) s
      (s, .each fun m => if bad m then .trap causeTile (BitVec.ofNat 64 (col m)) 20 none else .next)

/-- MXLD. -/
def execMxld (b : BitVec 8) (a d : BitVec 6) (s : State) : Result :=
  issue s (.mxld b a d)
    (mxBody (elemAccess a.toNat d.toNat fun s is t c m =>
      let s := is.modThread s m.tlin fun th => th.setRegs d.toNat (t.eb / 4) (t.elem m.lane c)
      lateRegs s is d.toNat (t.eb / 4) 16)) noFront

/-- MXST. -/
def execMxst (b : BitVec 8) (a d : BitVec 6) (s : State) : Result :=
  issue s (.mxst b a d)
    (mxBody (elemAccess a.toNat d.toNat fun s is t c m =>
      s.modTile is.blk a.toNat fun x => x.setElem m.lane c ((is.thread s m.tlin).regsNum d.toNat (t.eb / 4)))) noFront

/-! ## MXRECOMB (R391) -/

/-- The handles of the weight word. -/
def weightA (w : Nat) : Nat := w / 256 % 64
def weightB (w : Nat) : Nat := w / 65536 % 64

/-- A sidecar of MXRECOMB: an SP tile. -/
def recombTile (s : State) (is : Issue) (h : Nat) : Except MxOut Tile :=
  match s.tile is.blk h with
  | none => .error (.trap causeTile h 1)
  | some t => if t.ac then .error (.trap causeTile h 16) else .ok t

/-- Whether T, F and the sidecars fit (R391). -/
def recombOk (f t ha hb : Tile) : Bool :=
  f.eb = 8 && t.eb = 4 && shapeRows f.shape = shapeRows t.shape && shapeCols f.shape = shapeCols t.shape
  && ha.eb = 2 && hb.eb = 2 && shapeRows t.shape ≤ shapeCols ha.shape && shapeCols t.shape ≤ shapeCols hb.shape

/-- MXRECOMB. -/
def execMxrecomb (b : BitVec 8) (a d : BitVec 6) (s : State) : Result :=
  issue s (.mxrecomb b a d) (mxBody fun s is ms =>
    let w := firstValue Vals.b ms
    if w / 2 ^ 22 ≠ 0 || w / 2 ^ 14 % 4 ≠ 0 || w / 32 % 8 ≠ 0 then (s, .trap causeIllopnd 0 0)
    else onTile s is d.toNat fun f => onTile s is a.toNat fun t =>
      match recombTile s is (weightA w), recombTile s is (weightB w) with
      | .error e, _ => (s, e)
      | _, .error e => (s, e)
      | .ok ha, .ok hb =>
        if !recombOk f t ha hb then (s, .trap causeTile d.toNat 21)
        else if f.threads then (s, .trap causeToken d.toNat 2)
        else if t.threads then (s, .trap causeToken a.toNat 2)
        else
          let c := mxCmd s is d.toNat f
            [wholeTile is.blk a.toNat t, wholeTile is.blk (weightA w) ha, wholeTile is.blk (weightB w) hb]
            (.mxrecomb d.toNat a.toNat (weightA w) (weightB w) (w % 32) (laneRows ms) f.vc)
          issueMx s is c [d.toNat, a.toNat] [] 0) noFront

/-! ## The sums (R383) -/

/-- A NaN becomes the default NaN. -/
def plainNaN (f : Fmt) (x : Nat) : Nat := if f.isNaN x then f.defNaN else x

/-- A group sum: not a number, an infinity, or an exact value i × 2^e. -/
inductive GroupSum where
  | nan
  | inf (neg : Bool)
  | fin (i : Int) (e : Int)
  deriving DecidableEq, Repr

/-- A group sum rounded to FP32. -/
def GroupSum.round : GroupSum → Nat
  | .nan => fp32.defNaN
  | .inf n => fp32.withSign n fp32.inf
  | .fin i e => if i = 0 then 0 else (roundTo fp32 1 (i < 0) i.natAbs e).val

/-- A product of two elements of a 16-bit format. -/
def prodSum (f : Fmt) (x y : Nat) : GroupSum :=
  let n := f.neg? x != f.neg? y
  if f.isNaN x || f.isNaN y then .nan
  else if f.isInf x then (if f.isZero y then .nan else .inf n)
  else if f.isInf y then (if f.isZero x then .nan else .inf n)
  else
    let a := f.parts x
    let b := f.parts y
    .fin ((if n then -1 else 1) * (a.1 * b.1 : Nat)) (a.2 + b.2)

/-- Exact addition. -/
def GroupSum.plus : GroupSum → GroupSum → GroupSum
  | .nan, _ => .nan
  | _, .nan => .nan
  | .inf m, .inf n => if m = n then .inf m else .nan
  | .inf m, _ => .inf m
  | _, .inf n => .inf n
  | .fin i e, .fin j k =>
    if e ≤ k then .fin (i + j * 2 ^ (k - e).toNat) e else .fin (i * 2 ^ (e - k).toNat + j) k

/-- A signed byte. -/
def int8 (x : Nat) : Int := if x % 256 < 128 then x % 256 else (x % 256 : Int) - 256

/-- A signed halfword. -/
def int16 (x : Nat) : Int := if x % 65536 < 32768 then x % 65536 else (x % 65536 : Int) - 65536

/-- σa × σb × S (R383). -/
def scaledSum (sa sb : Nat) (sum : Int) : GroupSum :=
  match prodSum fp16 sa sb with
  | .nan => .nan
  | .inf n => if sum = 0 then .nan else .inf (n != decide (sum < 0))
  | .fin i e => .fin (i * sum) e

/-- One step of an accumulation in FP32. -/
def accStep (acc : Nat) (p : GroupSum) : Nat := plainNaN fp32 (fadd fp32 1 acc p.round).val

/-- Element (i, j) after an MMA. -/
def mmaElem (ty : Nat) (a b sa sb : Tile) (i j acc : Nat) : Nat :=
  let k := shapeCols a.shape
  match ty with
  | 1 =>
    let sum := (List.range k).foldl (fun r x => r + int8 (a.elem i x) * int8 (b.elem j x)) (0 : Int)
    (((acc : Int) + sum) % 2 ^ 32).toNat
  | 0 =>
    let gs := (sidecarGs a sa).getD 32
    (List.range (k / gs)).foldl (fun acc g =>
      let za := int16 (sa.elem i (2 * g + 1))
      let zb := int16 (sb.elem j (2 * g + 1))
      let sum := (List.range gs).foldl (fun r x =>
        r + (int8 (a.elem i (g * gs + x)) - za) * (int8 (b.elem j (g * gs + x)) - zb)) (0 : Int)
      accStep acc (scaledSum (sa.elem i (2 * g)) (sb.elem j (2 * g)) sum)) acc
  | _ =>
    let f := if ty = 2 then bf16 else fp16
    (List.range (k / 16)).foldl (fun acc g =>
      accStep acc ((List.range 16).foldl (fun r x =>
        r.plus (prodSum f (a.elem i (16 * g + x)) (b.elem j (16 * g + x)))) (.fin 0 0))) acc

/-- F + T × 2^(Ea + Eb − 7W), rounded once (R391). -/
def recombElem (x t : Nat) (ea eb : Int) (w : Nat) : Nat :=
  if fp64.isNaN x then fp64.defNaN
  else if fp64.isInf x then x
  else
    let a := fp64.parts x
    let i : Int := if t < 2 ^ 31 then t else (t : Int) - 2 ^ 32
    (addFin fp64 1 (fp64.neg? x) a.1 a.2 (i < 0) i.natAbs (ea + eb - 7 * w)).val

/-- The update of every element of some rows. -/
def updateRows (t : Tile) (rows : List Nat) (f : Nat → Nat → Nat → Nat) : Tile :=
  rows.foldl (fun t i => (List.range (shapeCols t.shape)).foldl (fun t j => t.setElem i j (f i j (t.elem i j))) t) t

/-- The rows that a command updates (R377, R383). -/
def liveRows (t : Tile) (rows : List Nat) (vc : Nat) : List Nat := rows.filter fun i => i < shapeRows t.shape && i < vc

/-! ## The engine (R386) -/

/-- A tile of a command, or an empty one. -/
def cmdTile (s : State) (x : Nat × Nat) : Tile := (s.tile x.1 x.2).getD { shape := 0 }

/-- What an MX command does when it executes. -/
def runMx (s : State) (c : Cmd) : State :=
  match c.kind with
  | .mma ty d a b sa sb rows vc =>
    s.modTile c.blk d fun t =>
      updateRows t (liveRows t rows vc) (mmaElem ty (cmdTile s a) (cmdTile s b) (cmdTile s sa) (cmdTile s sb))
  | .mxzero d => s.modTile c.blk d fun t => { t with bytes := [], kacc := 0 }
  | .mxscale d rows vc =>
    s.modTile c.blk d fun t => updateRows t (liveRows t (rows.map Prod.fst) vc) fun i _ x =>
      let f := if t.eb = 8 then fp64 else fp32
      let m := (((rows.find? fun r => r.1 = i).map fun r => r.2.toNat).getD 0) % 2 ^ (8 * t.eb)
      plainNaN f (fmul f 1 x m).val
  | .mxrecomb f t ha hb w rows vc =>
    let tt := cmdTile s (c.blk, t)
    s.modTile c.blk f fun x => updateRows x (liveRows x rows vc) fun i j v =>
      recombElem v (tt.elem i j) (int16 ((cmdTile s (c.blk, ha)).elem 0 i)) (int16 ((cmdTile s (c.blk, hb)).elem 0 j)) w
  | _ => s

/-- The tiles of another block that a command reads (R385). -/
def cmdPeers (c : Cmd) : List Nat :=
  match c.kind with
  | .mma _ _ a b sa sb _ _ => [a.1, b.1, sa.1, sb.1]
  | _ => []

/-- The cycles for which a command occupies the engine (R386). -/
def mxCycles (s : State) (c : Cmd) : Nat :=
  let area := fun (h : Nat) =>
    let t := cmdTile s (c.blk, h)
    ceilDiv (shapeRows t.shape * shapeCols t.shape) 64
  match c.kind with
  | .mma ty _ a b _ _ _ _ =>
    ceilDiv (shapeRows (cmdTile s b).shape) 16 * ceilDiv (shapeCols (cmdTile s a).shape) (if ty ≤ 1 then 32 else 16)
  | .mxzero _ => 16
  | .mxscale d _ _ => area d
  | .mxrecomb f _ _ _ _ _ _ => area f
  | _ => 0

/-- Whether the engine of a core is free. -/
def mxFree (c : Core) : Bool := !c.cmds.any fun x => x.path = 2 && x.started && c.cycle < x.ends

/-- The oldest accepted command that has not started. -/
def mxNext (c : Core) : Option Cmd := c.cmds.find? fun x => x.path = 2 && x.accepted && !x.started

/-- The oldest command whose results are there: 24 cycles after its time has ended. -/
def mxDone (c : Core) : Option Cmd := c.cmds.find? fun x => x.path = 2 && x.started && x.ends + 24 ≤ c.cycle

/-- MX_COMMAND_START: the oldest accepted command executes, once nothing runs and no peer's block is swapped out. -/
def execMxCommandStart (core : Nat) (s : State) : Result :=
  .next (match mxNext (s.core core) with
    | some c =>
      if !mxFree (s.core core) || (cmdPeers c).any fun b => ((s.block b).bind Block.place).isNone then s
      else
        let ends := (s.core core).cycle + mxCycles s c
        (runMx s c).modCore core fun k => { k with cmds := k.cmds.map fun x =>
          if x.id = c.id then { x with started := true, ends := ends } else x }
    | none => s)

/-- The accumulator tiles whose INFL a command holds. -/
def cmdAccs (c : Cmd) : List Nat :=
  match c.kind with
  | .mma _ d _ _ _ _ _ _ => [d]
  | .mxzero d => [d]
  | .mxscale d _ _ => [d]
  | .mxrecomb f t _ _ _ _ _ => [f, t]
  | _ => []

/-- MX_COMMAND_COMPLETE, 24 cycles after the command's time: INFL falls, and the entries are released. -/
def execMxCommandComplete (core : Nat) (s : State) : Result :=
  .next (match mxDone (s.core core) with
    | some c =>
      (cmdAccs c).foldl (fun s h => s.modTile c.blk h fun t => { t with infl := t.infl - 1 }) (dropCommand s c.id)
    | none => s)

/-- A thread whose token wait has ended. -/
def Thread.takeToken (t : Thread) (free : Nat → Bool) : Thread :=
  match t.status with
  | .waiting (.token h) => if free h then t.ready t.pc else t
  | _ => t

/-- The end of a token wait (R378): once INFL is 0 the threads have the token, and the waiting members go on. -/
def grantTokens (s : State) (blk : Nat) : State :=
  s.modBlock blk fun b =>
    let free := fun h => ((tget b.tiles h).map fun t => decide (t.infl = 0)).getD true
    let waits := fun (h : Nat) => b.threads.any fun p => p.2.status = .waiting (.token h)
    { b with
      tiles := tmap (fun h (t : Tile) => if t.infl = 0 && waits h then { t with threads := true } else t) b.tiles
      threads := tmap (fun _ th => th.takeToken free) b.threads }

end Sys2Proof.Machine
end

