-- ==== Sys2Proof/Machine/Skein.lean ====
section
/-! DEFINITION. Skeins: bounded counters split into a pool at a home and hanks in the L1s (R298 to R307), with their
instructions and the events at the home and at the L1. -/

namespace Sys2Proof.Machine

/-! ## Pools -/

/-- The skein k of a context; FREE where none is held. -/
def State.skein (s : State) (ctx k : Nat) : Skein := ((tget s.ctxs ctx).bind fun c => tget c.skeins k).getD {}

def State.modSkein (s : State) (ctx k : Nat) (f : Skein → Skein) : State :=
  s.modCtx ctx fun c => { c with skeins := tset c.skeins k (f ((tget c.skeins k).getD {})) }

/-- The home of a skein (R298): its die, which is die 0 below service level 2 (R457), and the slice of that die. -/
def skeinHome (s : State) (ctx k : Nat) : Nat × Nat := (if s.dev.svcl < 2 then 0 else k % 4, (7 * (k / 4) + 3 * ctx) % 384)

/-- The largest value (R299, R304). -/
def skeinMax : Nat := 0xFFFFFFFE

/-- An amount reaches the pool (R304): the excess is discarded. -/
def Skein.add (x : Skein) (n : Nat) : Skein :=
  { x with pool := min (x.pool + n) skeinMax, ovf := x.ovf || skeinMax < x.pool + n }

/-- Leaving the scarce mode (R303). DEDUCED (log 83): with no holder the threshold is that of one, since a refusal before
any grant leaves the skein scarce in every run of R327. -/
def Skein.relax (x : Skein) : Skein :=
  { x with scarce := x.scarce && x.pool ≤ 4 * max 1 x.holders.length * x.recent.foldl max 0 }

/-- An amount decided (R298). -/
def Skein.note (x : Skein) (n : Nat) : Skein := { x with recent := (n :: x.recent).take 16 }

/-- The status word of SKREADX (R305). -/
def Skein.status (x : Skein) : Nat :=
  if x.live then 2 ^ 31 + 2 ^ 30 * boolBit x.scarce + 2 ^ 29 * boolBit x.ovf + min x.holders.length 255 else 0

/-- What SKREADX reads: the value, and the status above it. -/
def Skein.read (x : Skein) : Nat := (if x.live then x.pool else 0xFFFFFFFF) + 2 ^ 32 * x.status

/-- What a round's end or a pool that covers it grants to a request for `n` (R302). -/
def Skein.share (x : Skein) (n : Nat) : Nat := min x.pool (max n (x.pool / (2 * x.holders.length)))

/-! ## Hanks -/

def Hank.is (h : Hank) (ctx k : Nat) : Bool := h.ctx = ctx && h.k = k

def Core.hank (c : Core) (ctx k : Nat) : Option Hank := c.hanks.find? fun h => h.is ctx k

/-- Changing an entry, which becomes the most recently used. -/
def Core.useHank (c : Core) (ctx k : Nat) (f : Hank → Hank) : Core :=
  match c.hank ctx k with
  | some h => { c with hanks := f h :: c.hanks.filter fun h => !h.is ctx k }
  | none => c

/-- Changing every core's entry of a skein. -/
def allHanks (s : State) (ctx k : Nat) (f : Hank → Hank) : State :=
  { s with cores := tmap (fun _ c => { c with hanks := c.hanks.map fun h => if h.is ctx k then f h else h }) s.cores }

/-- The mode of a pool that has changed, and the scarce bits that follow it (R303). -/
def settleSkein (s : State) (ctx k : Nat) : State :=
  let s := s.modSkein ctx k Skein.relax
  allHanks s ctx k fun h => { h with scarce := (s.skein ctx k).scarce }

/-- An amount returns to a pool. -/
def poolAdd (s : State) (ctx k n : Nat) : State :=
  if (s.skein ctx k).live then settleSkein (s.modSkein ctx k fun x => x.add n) ctx k else s

/-- Whether a grant is on its way to a core. -/
def granted (s : State) (ctx k core : Nat) : Bool := s.net.any fun m => match m with
  | .skeinGrant ctx' k' r (some _) => ctx' = ctx && k' = k && r.core = core
  | _ => false

/-- An entry leaves a core (R299): its hank returns, and HOLDERS falls by 1. A round in progress still awaits the core if it
has answered or a grant is on its way to it, so that POOL is exact when the round ends (R303). -/
def dropHank (s : State) (core : Nat) (h : Hank) : State :=
  let s := s.modCore core fun c => { c with hanks := c.hanks.filter fun g => !g.is h.ctx h.k }
  let awaited := h.answered || granted s h.ctx h.k core
  let s := s.modSkein h.ctx h.k fun x =>
    { x with holders := x.holders.filter (· ≠ core)
             round := if awaited then x.round else x.round.map fun l => l.filter (· ≠ core) }
  poolAdd s h.ctx h.k h.hank

/-- Room for an entry that a grant needs (R299). -/
def makeHank (s : State) (core ctx k : Nat) : State :=
  if ((s.core core).hank ctx k).isSome then s
  else
    let s := if (s.core core).hanks.length < 16 then s
      else match (s.core core).hanks.getLast? with
        | some h => dropHank s core h
        | none => s
    let s := s.modSkein ctx k fun x => { x with holders := insertNat x.holders core }
    s.modCore core fun c => { c with hanks := { ctx := ctx, k := k, scarce := (s.skein ctx k).scarce } :: c.hanks }

/-- The part of a hank above 2^16 returns at once (R302, R304). -/
def trimHank (s : State) (core ctx k : Nat) : State :=
  match (s.core core).hank ctx k with
  | some h =>
    if h.hank ≤ 65536 then s
    else poolAdd (s.modCore core fun c => c.useHank ctx k fun h => { h with hank := 65536 }) ctx k (h.hank - 65536)
  | none => s

/-! ## The order of one core on one skein (R301) -/

/-- What trying an operation at the L1 comes to. -/
inductive SkeinTry where
  | done (v : Nat)
  | home
  | hold
  deriving DecidableEq, Repr

/-- An operation at the L1 (R302, R304, R305). -/
def trySkein (s : State) (core ctx k : Nat) (op : SkeinOp) : State × SkeinTry :=
  let entry := (s.core core).hank ctx k
  match op, entry with
  | .take n, some h =>
    if n = 0 then (s, .done 1)
    else if n ≤ h.hank then (s.modCore core fun c => c.useHank ctx k fun h => { h with hank := h.hank - n }, .done 1)
    else (s, .home)
  | .take n, none => if n = 0 then (s, .done (boolBit (s.skein ctx k).live)) else (s, .home)
  | .give n, some h =>
    if n = 0 then (s, .done 0)
    else if h.scarce then (s, .home)
    else if h.answered then (s, .hold)
    else (trimHank (s.modCore core fun c => c.useHank ctx k fun h => { h with hank := h.hank + n }) core ctx k, .done 0)
  | .give n, none => (s, if n = 0 then .done 0 else .home)
  | _, _ => (s, .home)

/-- An operation leaves for the home: a take joins its queue, the others travel. -/
def sendSkein (s : State) (ctx k : Nat) (r : SkeinReq) : State :=
  match r.op with
  | .take _ => s.modSkein ctx k fun x => { x with queue := x.queue ++ [r] }
  | _ => { s with net := s.net ++ [.skeinOp ctx k r] }

/-- What an operation gives its member when it has been decided. -/
def answerSkein (s : State) (r : SkeinReq) (v : Nat) : State :=
  match r.op with
  | .take _ => s.deliver r.blk (some r.who) { reg := r.dest, count := 1 } v
  | .readx => s.deliver r.blk (some r.who) { reg := r.dest, count := 2 } v
  | .init _ => s.modThread r.blk r.who fun t => if t.status = .waiting .skein then t.ready t.pc else t
  | .give _ => s

/-- The first operation of a core on a skein that is not yet decided leaves its queue. -/
def popSkein : List SkeinItem → Nat → Nat → List SkeinItem
  | [], _, _ => []
  | i :: is, ctx, k => if i.ctx = ctx && i.k = k then is else i :: popSkein is ctx k

/-- Marking it as sent. -/
def markSkein : List SkeinItem → Nat → Nat → List SkeinItem
  | [], _, _ => []
  | i :: is, ctx, k => if i.ctx = ctx && i.k = k then { i with sent := true } :: is else i :: markSkein is ctx k

/-- Performing the operations of a core on a skein, one at a time, until one must wait. -/
def pumpSkein : Nat → State → Nat → Nat → Nat → State
  | 0, s, _, _, _ => s
  | n + 1, s, core, ctx, k =>
    match (s.core core).skeinQ.find? fun i => i.ctx = ctx && i.k = k with
    | none => s
    | some i =>
      if i.sent then s
      else match trySkein s core ctx k i.req.op with
        | (s, .done v) =>
          let s := s.modCore core fun c => { c with skeinQ := popSkein c.skeinQ ctx k }
          pumpSkein n (answerSkein s i.req v) core ctx k
        | (s, .home) => sendSkein (s.modCore core fun c => { c with skeinQ := markSkein c.skeinQ ctx k }) ctx k i.req
        | (s, .hold) => s

/-- An operation that waited has been decided. -/
def endSkein (s : State) (ctx k : Nat) (r : SkeinReq) (v : Nat) : State :=
  let s := answerSkein (s.modCore r.core fun c => { c with skeinQ := popSkein c.skeinQ ctx k }) r v
  pumpSkein ((s.core r.core).skeinQ.length) s r.core ctx k

/-- A skein operation of a member (R301). -/
def skeinMember (op : Nat → SkeinOp) (dest : Nat) (s : State) (is : Issue) (m : Member) : State × Fate :=
  let k := m.v.a.toNat % 2 ^ 32
  let ctx := (is.block s).ctx
  let r : SkeinReq := { core := is.core, blk := is.blk, who := m.tlin, dest := dest, op := op (m.v.b.toNat % 2 ^ 32) }
  let pend := fun (s : State) (d : Dest) =>
    (is.modThread s m.tlin fun t => { t with pending := t.pending ||| d.mask }, Fate.leave (.waiting (.regs d.mask)) is.next)
  let wait := fun (s : State) (sent : Bool) =>
    let s := s.modCore is.core fun c => { c with skeinQ := c.skeinQ ++ [⟨ctx, k, r, sent⟩] }
    let s := if sent then sendSkein s ctx k r else s
    match r.op with
    | .take _ => pend s { reg := dest, count := 1 }
    | .readx => pend s { reg := dest, count := 2 }
    | .init _ => (s, .leave (.waiting .skein) is.next)
    | .give _ => (s, .next)
  if 256 ≤ k then (s, .trap causeSkein (BitVec.ofNat 64 k) 1 none)
  else if (s.core is.core).skeinQ.any fun i => i.ctx = ctx && i.k = k then wait s false
  else match trySkein s is.core ctx k r.op with
    | (s, .done v) => (s, match r.op with
        | .take _ => .done (BitVec.ofNat 64 v)
        | _ => .next)
    | (s, .home) => wait s true
    | (s, .hold) => wait s false

/-- SKTAKE (R302). -/
def execSktake (b a : BitVec 8) (d : BitVec 6) (s : State) : Result :=
  issue s (.sktake b a d) (eachMember (skeinMember .take d.toNat)) noFront

/-- SKGIVE (R304). -/
def execSkgive (b a : BitVec 8) (s : State) : Result :=
  issue s (.skgive b a) (eachMember (skeinMember .give 0)) noFront

/-- SKREADX (R305). -/
def execSkreadx (a : BitVec 8) (d : BitVec 6) (s : State) : Result :=
  issue s (.skreadx a d) (eachMember (skeinMember (fun _ => .readx) d.toNat)) noFront

/-- SKINIT (R306). -/
def execSkinit (b a : BitVec 8) (s : State) : Result :=
  issue s (.skinit b a) (eachMember (skeinMember .init 0)) noFront

/-! ## The home -/

/-- A refusal (R302, R303): the skein becomes scarce. -/
def refuseTake (s : State) (ctx k : Nat) (r : SkeinReq) : State :=
  let s := settleSkein (s.modSkein ctx k fun x => { x with scarce := x.live }) ctx k
  { s with net := s.net ++ [.skeinGrant ctx k r none] }

/-- A grant of `g`. -/
def grantTake (s : State) (ctx k g : Nat) (r : SkeinReq) : State :=
  let s := settleSkein (s.modSkein ctx k fun x => { x with pool := x.pool - g }) ctx k
  { s with net := s.net ++ [.skeinGrant ctx k r (some g)] }

/-- A take that the pool covers (R302): the requester's core counts as a holder. -/
def coveredTake (s : State) (ctx k n : Nat) (r : SkeinReq) : State :=
  let s := makeHank s r.core ctx k
  let x := s.skein ctx k
  grantTake s ctx k (if x.scarce then n else x.share n) r

/-- A core's answer to a round (R303): its whole hank. -/
def answerRound (s : State) (ctx k core : Nat) : State :=
  let amount := (((s.core core).hank ctx k).map Hank.hank).getD 0
  let s := s.modCore core fun c =>
    { c with hanks := c.hanks.map fun h => if h.is ctx k then { h with hank := 0, answered := true } else h }
  { s with net := s.net ++ [.hank core ctx k amount true] }

/-- The amount that a request names. -/
def SkeinReq.amount (r : SkeinReq) : Nat :=
  match r.op with
  | .take n => n
  | .give n => n
  | .readx => 0
  | .init v => v

def SkeinReq.isTake (r : SkeinReq) : Bool :=
  match r.op with
  | .take _ => true
  | _ => false

/-- The skein is freed (R306): every queued request is refused, and every entry is dropped. -/
def freeSkein (s : State) (ctx k : Nat) : State :=
  let q := (s.skein ctx k).queue
  let s := { s with cores := tmap (fun _ c => { c with hanks := c.hanks.filter fun h => !h.is ctx k }) s.cores }
  let s := s.modSkein ctx k fun x => { queue := x.queue.filter fun r => !r.isTake }
  { s with net := s.net ++ (q.filter SkeinReq.isTake).map fun r => .skeinGrant ctx k r none }

/-- SKREADX and SKINIT once the pool is exact (R305, R306), and SKGIVE. -/
def applySkein (s : State) (ctx k : Nat) (r : SkeinReq) : State :=
  let x := s.skein ctx k
  match r.op with
  | .take _ => s
  | .give n => endSkein (poolAdd s ctx k n) ctx k r 0
  | .readx => endSkein s ctx k r x.read
  | .init v =>
    let s :=
      if v = 0xFFFFFFFF then (if x.live then freeSkein s ctx k else s)
      else if x.live then settleSkein (s.modSkein ctx k fun x => { x with pool := v, scarce := false, ovf := false }) ctx k
      else s.modSkein ctx k fun x => { live := true, pool := v, queue := x.queue }
    endSkein s ctx k r 0

/-- The cores that a round asks: every holder, and every core to which a grant is on its way. -/
def roundCores (s : State) (ctx k : Nat) : List Nat :=
  s.net.foldl (fun l m => match m with
    | .skeinGrant ctx' k' r (some _) => if ctx' = ctx && k' = k then insertNat l r.core else l
    | _ => l) (s.skein ctx k).holders

/-- A recall round begins (R303): every holder is asked; one with a grant on its way answers after it. -/
def beginRound (s : State) (ctx k : Nat) (forTake : Bool) : State :=
  let hs := roundCores s ctx k
  let s := s.modSkein ctx k fun x => { x with round := some hs, forTake := forTake }
  (hs.filter fun c => !granted s ctx k c).foldl (fun s c => answerRound s ctx k c) s

/-- A take that POOL covers, or against which it is exact, is decided (R302). -/
def decideTake (s : State) (ctx k : Nat) (r : SkeinReq) : State :=
  if r.amount ≤ (s.skein ctx k).pool then coveredTake s ctx k r.amount r else refuseTake s ctx k r

/-- The oldest queued take has its turn (R302): it is decided, or a recall round runs for it. -/
def turnTake (s : State) (ctx k : Nat) : State :=
  let x := s.skein ctx k
  match x.round, x.queue with
  | none, r :: rs =>
    let popped := fun (f : Skein → Skein) => s.modSkein ctx k fun x => f { x with queue := rs }
    if !x.live then { popped id with net := s.net ++ [.skeinGrant ctx k r none] }
    else if r.amount ≤ x.pool || x.scarce || (roundCores s ctx k).isEmpty then
      decideTake (popped fun x => x.note r.amount) ctx k r
    else beginRound s ctx k true
  | _, _ => s

/-- The queued takes have their turns until one runs a round: no later round comes before them (R307; log 85). -/
def turnTakes : Nat → State → Nat → Nat → State
  | 0, s, _, _ => s
  | n + 1, s, ctx, k => turnTakes n (turnTake s ctx k) ctx k

/-- The grants that a round's end has made, and that have not left, are cut to what was asked: POOL is the exact value again. -/
def trimGrants (s : State) (ctx k : Nat) : State :=
  let mine := fun (m : Msg) => match m with
    | .skeinGrant c j r (some g) => if c = ctx && j = k then some (r, g) else none
    | _ => none
  let extra := (s.net.filterMap mine).foldl (fun n x => n + (x.2 - x.1.amount)) 0
  { (s.modSkein ctx k fun x => { x with pool := x.pool + extra }) with
    net := s.net.map fun m => match mine m with
      | some (r, g) => .skeinGrant ctx k r (some (min g r.amount))
      | none => m }

/-- The takes that have waited for an earlier round are decided at the end of this one (R307; log 85). -/
def decideWaited : Nat → State → Nat → Nat → State
  | 0, s, _, _ => s
  | n + 1, s, ctx, k =>
    match (s.skein ctx k).queue with
    | r :: rs =>
      if !r.waited || !r.isTake || !(s.skein ctx k).live then s
      else
        let s := if r.amount ≤ (s.skein ctx k).pool then s else trimGrants s ctx k
        decideWaited n (decideTake (s.modSkein ctx k fun x => { x with queue := rs }.note r.amount) ctx k r) ctx k
    | [] => s

/-- The end of a round (R303): what waited for it is applied, then the take it was run for and those behind it are decided, and
the cores go on. -/
def endRound (s : State) (ctx k : Nat) : State :=
  let x := s.skein ctx k
  let s := allHanks (s.modSkein ctx k fun x =>
    { x with round := none, forTake := false, queue := x.queue.filter SkeinReq.isTake }) ctx k fun h => { h with answered := false }
  let s := (x.queue.filter fun r => !r.isTake).foldl (fun s r => applySkein s ctx k r) s
  let s := match x.forTake, (s.skein ctx k).queue with
    | true, r :: rs => decideTake (s.modSkein ctx k fun x => { x with queue := rs }.note r.amount) ctx k r
    | _, _ => s
  let s := decideWaited (s.skein ctx k).queue.length s ctx k
  let s := s.modSkein ctx k fun x => { x with queue := x.queue.map fun r => { r with waited := true } }
  let s := turnTakes (s.skein ctx k).queue.length s ctx k
  s.cores.foldl (fun s c => pumpSkein c.2.skeinQ.length s c.1 ctx k) s

/-- A recall round for SKREADX or SKINIT: with nobody to ask, it ends at once. -/
def startRound (s : State) (ctx k : Nat) : State :=
  if (roundCores s ctx k).isEmpty then endRound (beginRound s ctx k false) ctx k else beginRound s ctx k false

/-- SKEIN_REFILL_REQUEST: the oldest queued take has its turn (R302). -/
def execSkeinRefillRequest (ctx k : Nat) (s : State) : Result := .next (turnTake s ctx k)

/-- HANK_RETURN: a hank reaches the pool, and the last one ends the round (R303). -/
def execHankReturn (n : Nat) (s : State) : Result :=
  .next (match s.net[n]? with
    | some (.hank core ctx k amount true) =>
      let s := { s with net := ldel s.net n }
      let s : State := s.modSkein ctx k fun x =>
        { x with pool := min (x.pool + amount) skeinMax, ovf := x.ovf || skeinMax < x.pool + amount
                 round := x.round.map fun l => l.filter (· ≠ core) }
      if ((s.skein ctx k).round.map List.isEmpty).getD false then endRound s ctx k else s
    | some (.hank _ ctx k amount false) => poolAdd { s with net := ldel s.net n } ctx k amount
    | _ => s)

/-- SKEIN_GRANT: the answer reaches the requesting L1 (R302). -/
def execSkeinGrant (n : Nat) (s : State) : Result :=
  .next (match s.net[n]? with
    | some (.skeinGrant ctx k r g) =>
      let s := { s with net := ldel s.net n }
      (match g with
       | none => endSkein s ctx k r 0
       | some g =>
         let s := makeHank s r.core ctx k
         let s := s.modCore r.core fun c => c.useHank ctx k fun h => { h with hank := h.hank + g - r.amount }
         let s := endSkein (trimHank s r.core ctx k) ctx k r 1
         match (s.skein ctx k).round with
         | some l =>
           if l.contains r.core && !(((s.core r.core).hank ctx k).map Hank.answered).getD true then answerRound s ctx k r.core
           else s
         | none => s)
    | _ => s)

/-- SKEIN_HOME_OPERATION: a give, read or init is applied at the home, after a round where it needs one (R304 to
R306). -/
def execSkeinHomeOperation (n : Nat) (s : State) : Result :=
  .next (match s.net[n]? with
    | some (.skeinOp ctx k r) =>
      let s := { s with net := ldel s.net n }
      let x := s.skein ctx k
      let now := match r.op with
        | .readx => !x.live || x.scarce
        | .init _ => !x.live
        | _ => true
      if now then applySkein s ctx k r
      else
        let s := s.modSkein ctx k fun x => { x with queue := x.queue ++ [r] }
        if x.round.isSome then s else startRound s ctx k
    | _ => s)

end Sys2Proof.Machine
end

