-- ==== Sys2Proof/Machine/Waits.lean ====
section
/-! DEFINITION. How waits end: rejected accesses and the aged queue (R221), SLEEP (R203), FENCE and DRAIN (R233, R234),
knots (R183, R184) and barriers (R188, R192). -/

namespace Sys2Proof.Machine

/-! ## Accesses made after a wait -/

/-- The thread of a walk goes on after its access; its group has executed, so a DQ entry that it popped is gone (R39). -/
def Thread.accessed (t : Thread) (w : Walk) : Thread :=
  { t.ready w.next with rejects := 0, csp := w.csp.getD t.csp, rp := if w.pop then t.rp + 1 else t.rp }

/-- A value that an access found at once. -/
def servedLane (s : State) (w : Walk) (t v : Nat) : State :=
  let a := w.acc
  let next := fun (s : State) => s.modThread a.blk t fun th => th.accessed w
  match a.kind with
  | .pop => popValue ((sawRead s a).modThread a.blk t fun th => { th with rejects := 0 }) a t v
  | .prdef => next (setPending (takeDef s a v) a)
  | .store => next s
  | .reduce _ _ => next s
  | _ => takeRead (next s) a v

/-- A translated access of a lane thread is made (R220, R221): none where the L1 rejects it. -/
def resumeLane (s : State) (w : Walk) (t : Nat) : Option State :=
  let a := w.acc
  match issueAccess s w.core a with
  | (s, .value v) => some (servedLane s w t v)
  | (s, .pending) => some (match a.kind with
      | .pop => s.modThread a.blk t fun th => { th.waitAt a.grp .pop with rejects := 0 }
      | _ => (setPending s a).modThread a.blk t fun th => th.accessed w)
  | (s, .stageFull) => some (s.modThread a.blk t fun th => th.waitAt a.grp .stage)
  | (s, .bad) => some (takeTraps s a.blk [⟨t, causeEccdata, a.grp, a.va, 0, none⟩])
  | (_, .rejected) => none

/-- A translated access of a front thread is made. -/
def resumeFront (s : State) (w : Walk) : Option State :=
  let a := w.acc
  let next := fun (s : State) => s.modFront a.blk fun f => { f.resume with pc := w.next, rejects := 0 }
  match issueAccess s w.core a with
  | (s, .value v) => some (match a.kind with
      | .record => submitRead (sawRead (next s) a) a.blk v
      | .desc => (sawRead s a).modFront a.blk fun f => { f.resume with latched := some v, rejects := 0 }
      | _ => takeRead (next s) a v)
  | (s, .pending) => some (match a.kind with
      | .record => (next s).modFront a.blk fun f => { f with status := .stalled .launch }
      | .desc => s.modFront a.blk fun f => { f with status := .stalled .load, rejects := 0 }
      | _ => if a.dest.isSome then (next s).modFront a.blk fun f => { f with status := .stalled .load } else next s)
  | (s, .stageFull) => some (s.modFront a.blk fun f => { f with status := .stalled .stage })
  | (s, .bad) => some (takeFrontTrap s a.blk ⟨0, causeEccdata, a.grp, a.va, 0, none⟩)
  | (_, .rejected) => none

/-- The value that an access finds whose thread has gone on. -/
def servedLate (s : State) (a : Acc) (v : Nat) : State :=
  match a.kind, a.who with
  | .pop, some t => popValue (sawRead s a) a t v
  | .prdef, _ => takeDef s a v
  | .record, _ => submitRead (sawRead s a) a.blk v
  | .desc, _ => (sawRead s a).modFront a.blk fun f => { f.resume with latched := some v }
  | .store, _ => s
  | .reduce _ _, _ => s
  | .wbr _, _ => s
  | _, _ => takeRead s a v

/-- A translated access is made whose thread has gone on: none where the L1 rejects it. -/
def resumeLate (s : State) (core : Nat) (a : Acc) : Option State :=
  match issueAccess s core a with
  | (s, .value v) => some (servedLate s a v)
  | (s, .pending) => some s
  | (s, .stageFull) => some (s.modCore core fun c => { c with pend := c.pend ++ [{ a with sent := false }] })
  | (s, .bad) => some (failEcc s a)
  | (_, .rejected) => none

/-- A translated access is made, by whichever agent it is of. -/
def resumeAccess (s : State) (w : Walk) : Option State :=
  if w.on then resumeLate s w.core w.acc
  else match w.acc.who with
    | some t => resumeLane s w t
    | none => resumeFront s w

/-- REJECTION_RETRY: the member retries its whole group (R221). -/
def execRejectionRetry (blk tlin : Nat) (s : State) : Result :=
  .next (s.modThread blk tlin fun t => match t.status with
    | .waiting (.rejected n) => if n ≤ s.now then t.ready t.pc else t
    | _ => t)

/-- Whether an aged entry is free (R217). -/
def agedFree (c : Core) : Bool := (c.entries.filter MissEntry.aged).length < 8

/-- AGED_ENTRY_GRANT: the head of the aged queue proceeds as a miss (R221). -/
def execAgedEntryGrant (core : Nat) (s : State) : Result :=
  let c := s.core core
  .next (match c.aged with
    | [] => s
    | w :: ws =>
      if !agedFree c && !hasEntry c w.acc.line then s
      else
        let es := if hasEntry c w.acc.line then c.entries else c.entries ++ [{ line := w.acc.line, aged := true }]
        (resumeAccess (s.setCore core { c with aged := ws, entries := es }) w).getD s)

/-- SLEEP_EXPIRY (R203): the count is of cycles in which the block was resident. -/
def execSleepExpiry (blk : Nat) (who : Option Nat) (s : State) : Result :=
  .next (s.modBlock blk fun b => match who with
    | some t => b.modThread t fun th => match th.status with
        | .waiting (.sleep n) => if n ≤ b.cycles then th.ready th.pc else th
        | _ => th
    | none => match b.front.status with
        | .stalled (.sleep n) => if n ≤ b.cycles then { b with front := b.front.resume } else b
        | _ => b)

/-! ## FENCE and DRAIN -/

/-- A waiting FENCE of a warp is accepted once the conditions hold for every member (R233). -/
def acceptFence (s : State) (core quad slot : Nat) (w : Warp) : State :=
  match w.fencing with
  | none => s
  | some (ord, scope, upto) =>
    if w.members.all fun m => fenceOk s w.blk (some m.1) ord scope upto then
      (w.members.foldl (fun s m => fenceDone s w.blk (some m.1) ord scope) s).modQuad core quad fun q =>
        { q with slots := tmod q.slots slot fun w => { w with fencing := none } }
    else s

/-- FENCE_ACCEPT. -/
def execFenceAccept (ag : Agent) (s : State) : Result :=
  .next (match ag with
    | .lane core quad slot =>
      (match tget ((s.core core).quad quad).slots slot with
       | some w => acceptFence s core quad slot w
       | none => s)
    | .front core fcx =>
      match (frontBlock s core fcx).bind fun k => (s.block k).map fun b => (k, b) with
      | some (k, b) =>
        (match b.front.status with
         | .stalled (.fence ord scope upto) =>
           if fenceOk s k none ord scope upto then (fenceDone s k none ord scope).modFront k Front.resume else s
         | _ => s)
      | none => s)

/-- DRAIN_ACCEPT: a front thread's DRAIN delivers a fault recorded on its path, at the DRAIN (R234, R371). -/
def execDrainAccept (ag : Agent) (s : State) : Result :=
  .next (match ag with
    | .lane core quad slot =>
      (match (tget ((s.core core).quad quad).slots slot).bind Warp.draining with
       | some (p, ids) =>
         if !idsDone s ids then s
         else (drainDone s core p).modQuad core quad fun q => { q with slots := tmod q.slots slot fun w => { w with draining := none } }
       | none => s)
    | .front core fcx =>
      match (frontBlock s core fcx).bind fun k => (s.block k).map fun b => (k, b) with
      | some (k, b) =>
        (match b.front.status with
         | .stalled (.drain p start ids) =>
           if !idsDone s ids then s
           else match takeRecord b (fun q => q = p) with
             | some f => takeFrontTrap (clearRecord s k f) k ⟨0, f.cause, start, f.taddr, f.detail.toNat, none⟩
             | none => (drainDone s core p).modFront k Front.resume
         | _ => s)
      | none => s)

/-! ## Knots -/

/-- Whether an unarrived thread does not hold a knot up (R183, condition 2). -/
def Thread.blockedAt (t : Thread) : Bool :=
  match t.status with
  | .knotted _ => true
  | .barred _ => true
  | .converging => true
  | .waiting (.fullEmpty _ _ _) => true
  | .waiting .dq => true
  | _ => false

/-- Whether every expected thread of a knot has arrived, has exited, or is blocked as `p` says (R183). -/
def knotHolds (p : Thread → Bool) (b : Block) (x : Knot) : Bool :=
  !x.arrived.isEmpty &&
    (x.expected.all fun t => x.arrived.contains t || (match b.thread t with
      | some th => th.status = .exited || p th
      | none => true))

/-- Whether a knot releases for its threads at the end of the cycle (R183, conditions 1 and 2). -/
def knotDue (b : Block) (x : Knot) : Bool := knotHolds Thread.blockedAt b x

/-- Whether KNOTTMO has passed. -/
def knotLate (b : Block) (x : Knot) : Bool :=
  !x.arrived.isEmpty && b.knottmo ≠ 0 && x.t0 + b.knottmo.toNat ≤ b.cycles

/-- KNOT_RELEASE (R184): all knots of a cycle are judged on the statuses at its end, so a thread that another of them has just
released still counts as blocked (R183). -/
def execKnotRelease (blk k : Nat) (s : State) : Result :=
  .next (s.modBlock blk fun b =>
    if knotHolds (fun t => t.blockedAt || t.released) b (b.knot k) then b.releaseKnot k else b)

/-- KNOT_TIMEOUT (R183, condition 3). -/
def execKnotTimeout (blk k : Nat) (s : State) : Result :=
  .next (s.modBlock blk fun b => if knotLate b (b.knot k) then b.releaseKnot k else b)

/-! ## Barriers -/

/-- The path of DRAIN for a bit of a barrier's path mask (R191): bit 0 is the lanes. -/
def barPath (p : BitVec 5) (path : Nat) : Bool := bit p (path + 1)

/-- Whether the paths of a phase hold: the commands that were issued before the count held have completed (R188), on whichever
core they are by now. -/
def pathsHold (s : State) (x : Barrier) : Bool :=
  let waits := fun (ids : List Nat) (c : Cmd) => ids.contains c.id && c.path < 4 && barPath x.path c.path
  match x.needs with
  | none => false
  | some ids => !(s.cores.any fun c => c.2.cmds.any (waits ids)) && !s.blocks.any fun p => p.2.cols.any (waits ids)

/-- A phase that completes releases what its threads did before they arrived to later accesses of the block, and to later
commands of its paths (R191). -/
def completePhase (s : State) (blk k : Nat) (b : Block) : State :=
  let x := b.bar k
  let y : Sync := ⟨x.ids, s.nextAcc, x.path⟩
  let b := b.completeBar k
  s.setBlock blk (if x.path ≠ 0 && y.holds s blk then { b with syncs := b.syncs ++ [y] } else b)

/-- BARRIER_COMPLETE (R188). -/
def execBarrierComplete (blk k : Nat) (s : State) : Result :=
  .next (match s.block blk with
    | some b =>
      if b.place.isSome && countHolds b k (b.bar k) && pathsHold s (b.bar k) then completePhase s blk k b else s
    | none => s)

/-- Whether a phase has reached BARLIM (R192). -/
def barLate (b : Block) (x : Barrier) : Bool := x.count ≠ 0 && b.barlim ≠ 0 && x.t0 + b.barlim.toNat ≤ b.cycles

/-- BARRIER_TIMEOUT: every waiter takes BARTMO at its barrier group, and the phase flips (R192). -/
def execBarrierTimeout (blk k : Nat) (s : State) : Result :=
  .next (match s.block blk with
    | some b =>
      let x := b.bar k
      if !barLate b x then s
      else
        let s := s.setBlock blk (b.modBar k Barrier.flip)
        takeTrapsCount s blk (min x.waiters.length 32) (x.waiters.map fun t =>
          ⟨t, causeBartmo, ((b.thread t).map Thread.pc).getD 0, BitVec.ofNat 64 k, x.waiters.length % 2048, none⟩)
    | none => s)

end Sys2Proof.Machine
end

