-- ==== Sys2Proof/Machine/Splicer.lean ====
section
/-! DEFINITION. The Splicer (R91, R92, R97 to R102, R109, R112) and the Front Engine's choice (R335): which warps form,
which slot issues, ageing, pre-emption. -/

namespace Sys2Proof.Machine

/-! ## The quadrant's blocks -/

/-- Whether a block issues: resident, not being swapped out. -/
def Block.runs (b : Block) : Bool := b.state = .resident && !b.leaving

/-- The blocks that run in a quadrant. -/
def quadBlocks (s : State) (core quad : Nat) : List (Nat × Block) :=
  s.blocks.filter fun p => p.2.runs && (match p.2.place with
    | some q => q.core = core && q.quad = quad
    | none => false)

/-- A block's slot index. -/
def Block.slotIdx (b : Block) : Nat := (b.place.map Place.bslot).getD 0

/-! ## Candidates (R99, R109) -/

/-- READY threads that may form one warp: a PC group, or at a home-bound group one complete set of home warp `hw`. -/
structure Cohort where
  blk     : Nat
  bslot   : Nat
  pc      : Pc
  hw      : Option Nat
  members : List (Nat × Thread)
  deriving DecidableEq, Repr

/-- The age from which a thread is aged (R101). -/
def agedAt : Nat := 64

/-- The oldest thread of some, ties to the lower tlin. -/
def oldest (ts : List (Nat × Thread)) : Option (Nat × Thread) :=
  ts.foldl (fun r t => match r with
    | none => some t
    | some u => if u.2.age < t.2.age then some t else r) none

def Cohort.age (c : Cohort) : Nat := ((oldest c.members).map fun t => t.2.age).getD 0
def Cohort.size (c : Cohort) : Nat := min 32 c.members.length
def Cohort.aged (c : Cohort) : Bool := agedAt ≤ c.age
def Cohort.first (c : Cohort) : Nat := ((oldest c.members).map Prod.fst).getD 0
def Cohort.released (c : Cohort) : Bool := c.members.any fun t => t.2.released

/-- The READY threads of a block as cohorts: a thread joins the cohort of its PC, home warp and mask. -/
def cohorts (k : Nat) (b : Block) : List Cohort :=
  (b.threads.filter fun p => p.2.status = .ready).foldl (fun cs p =>
    let hw := p.2.mask.map fun _ => p.1 / 32
    let same := fun (c : Cohort) => c.pc = p.2.pc && c.hw = hw
      && (c.members.head?.map fun t => t.2.mask) = some p.2.mask
    if cs.any same then cs.map fun c => if same c then { c with members := c.members ++ [p] } else c
    else cs ++ [⟨k, b.slotIdx, p.2.pc, hw, [p]⟩]) []

/-- Of the complete sets at one PC, the one that is formed first (R109), unless another holds an aged thread (R101): the
lower home warp's. DESIGN CHOICE (log 74): of two sets of one home warp, the one with the lowest tlin. -/
def Cohort.leads (c : Cohort) (cs : List Cohort) : Bool :=
  c.aged || c.hw.isNone || !cs.any fun d => d.pc = c.pc && match d.hw, c.hw with
    | some x, some y => x < y || (x = y && ((d.members.head?.map Prod.fst).getD 0) < ((c.members.head?.map Prod.fst).getD 0))
    | _, _ => false

/-- The first rule of R99 that tells two candidates apart: whether the second is preferred. -/
def Cohort.beats (c d : Cohort) : Bool :=
  if c.aged != d.aged then d.aged
  else if c.aged && c.age ≠ d.age then c.age < d.age
  else if c.aged && (c.bslot, c.first) ≠ (d.bslot, d.first) then
    d.bslot < c.bslot || (d.bslot = c.bslot && d.first < c.first)
  else if c.released != d.released then d.released
  else if c.size ≠ d.size then c.size < d.size
  else if c.age ≠ d.age then c.age < d.age
  else if c.bslot ≠ d.bslot then d.bslot < c.bslot
  else d.pc.toNat < c.pc.toNat

/-- The candidate that is formed first. -/
def bestCohort (s : State) (core quad : Nat) : Option Cohort :=
  ((quadBlocks s core quad).flatMap fun p => (cohorts p.1 p.2).filter fun c => c.leads (cohorts p.1 p.2)).foldl (fun r c => match r with
    | none => some c
    | some d => if Cohort.beats d c then some c else r) none

/-- Inserting by descending age, ties in the order met. -/
def insertAge : List (Nat × Thread) → Nat × Thread → List (Nat × Thread)
  | [], t => [t]
  | u :: us, t => if u.2.age < t.2.age then t :: u :: us else u :: insertAge us t

/-- The threads that are taken (R99), in ascending tlin: aged ones first, oldest first, then ascending tlin. -/
def Cohort.take (c : Cohort) : List Nat :=
  let aged := (c.members.filter fun t => agedAt ≤ t.2.age).foldl insertAge []
  let rest := c.members.filter fun t => t.2.age < agedAt
  (((aged ++ rest).take 32).map Prod.fst).foldl insertNat []

/-- Forming a warp in a free slot; it may issue from cycle `from_`. DESIGN CHOICE (log 75): for the choice of a victim (R101)
a warp that has not issued counts as having issued when it formed. -/
def formWarp (s : State) (core quad slot from_ : Nat) (c : Cohort) : State :=
  let ts := c.take
  let ms := if c.hw.isSome then ts.map fun t => (t, t % 32) else placeLanes (List.range 32) ts
  let w : Warp := { blk := c.blk, members := ms, lastIssue := (s.core core).cycle, from_ := from_ }
  activate (s.modQuad core quad fun q => { q with slots := tset q.slots slot w }) c.blk slot ms

/-- Slots that are free, rising. -/
def freeSlots (s : State) (core quad : Nat) : List Nat :=
  (List.range 8).filter fun i => (tget ((s.core core).quad quad).slots i).isNone

/-- The group at an address, as far as it decodes. -/
def peekGroup (s : State) (core ctx : Nat) : Nat → Group → Option (Group × Instr)
  | 0, _ => none
  | n + 1, g =>
    match fetchWord s core ctx g.next with
    | .word (some (.guard inv p)) _ =>
      peekGroup s core ctx n { g with guard := some (p.toNat, inv = 1), next := g.next + 2 }
    | .word (some (.extI i)) _ => peekGroup s core ctx n { g.withExt (.i i) with next := g.next + 4 }
    | .word (some (.extC sc na t r c)) _ =>
      peekGroup s core ctx n { g.withExt (.c (sc ++ na ++ t ++ r ++ c)) with next := g.next + 4 }
    | .word (some i) _ => some (g, i)
    | .badPrefix k => peekGroup s core ctx n { g with bad := true, next := g.next + BitVec.ofNat 57 k }
    | _ => none

/-- Whether a word of the group at an address lies in a line that the host has been asked for (R462). -/
def groupAsked (s : State) (core ctx : Nat) : Nat → Pc → Bool
  | 0, _ => false
  | n + 1, pc =>
    match fetchWord s core ctx pc with
    | .word (some (.guard _ _)) _ => groupAsked s core ctx n (pc + 2)
    | .word (some (.extI _)) _ => groupAsked s core ctx n (pc + 4)
    | .word (some (.extC _ _ _ _ _)) _ => groupAsked s core ctx n (pc + 4)
    | .badPrefix k => groupAsked s core ctx n (pc + BitVec.ofNat 57 k)
    | .away line => asked s line
    | _ => false

/-- The group at which an agent stands. -/
def nextGroup (s : State) (core ctx : Nat) (pc : Pc) : Option (Group × Instr) :=
  peekGroup s core ctx 4 { start := pc, next := pc }

/-! ## Arrivals from the pool, and pops (R106, R177) -/

/-- The issue that a group at a pc would be, for threads of the pool. -/
def poolIssue (core quad blk : Nat) (pc : Pc) (g : Group) (i : Instr) : Issue :=
  { core := core, quad := quad, slot := 8, blk := blk, next := pc, g := g, i := i, q := shape i }

/-- READY threads of a block that stand at a home-bound group arrive there: only complete sets are candidates (R99).
DESIGN CHOICE (log 73): the traps of threads that so arrive at one PC in one cycle form one collection. -/
def arriveAt (s : State) (core quad blk : Nat) (b : Block) (pc : Pc) : State :=
  match nextGroup s core b.ctx pc with
  | none => s
  | some (g, i) =>
    if (shape i).cls ≠ .home || (decodeTrap false (s.launchOf b).regsPer g i (shape i)).isSome then s
    else
      let is := poolIssue core quad blk pc g i
      let ms := (readyAt (is.block s) pc).map fun t => (t, t % 32)
      let held := heldOut s is ms
      match arriveAll s is (ms.filter fun m => !held.any fun f => f.1 = m.1) with
      | (s, fs) => homeLeave s is ms (fs ++ held)

/-- The pcs of READY threads that have read no mask. -/
def readyPcs (b : Block) : List Pc :=
  (b.threads.filter fun p => p.2.status = .ready && p.2.mask.isNone).foldl (fun l p => if l.contains p.2.pc then l else l ++ [p.2.pc]) []

/-- Arrivals from the pool, and the sets that are complete now. -/
def arrivePool (s : State) (core quad : Nat) : State :=
  (quadBlocks s core quad).foldl (fun s p =>
    ((readyPcs p.2).foldl (fun s pc => arriveAt s core quad p.1 p.2 pc) s).modBlock p.1 settle) s

/-- The pops of a RET that were in the L1 arrive 24 cycles after it: the warp splits by target as if the RET had issued with
these members alone; an odd target raises MISALIGN (R33, R177). DESIGN CHOICE (log 76): bits [63:57] of a popped address
are dropped; (log 78) members that the guard turns off split with the others, at the next group. -/
def settlePops (s : State) (core quad slot : Nat) : State :=
  let c := s.core core
  let q := c.quad quad
  match tget q.slots slot with
  | none => s
  | some w =>
    if w.pops.isEmpty || c.cycle < w.from_ then s
    else
      let pc := warpPc s w
      let is : Issue := { poolIssue core quad w.blk pc { start := pc, next := pc } .ret with slot := slot }
      let fs := w.members.filterMap fun m => (w.pops.find? fun p => p.1 = m.1).map fun p =>
        (({ tlin := m.1, lane := m.2, on := p.2.1 } : Member),
          if p.2.1 && bit p.2.2 0 then Fate.trap causeMisalign p.2.2 0 none else .goto (p.2.2.truncate 57))
      let s := fs.foldl (fun s x => match x.2 with
        | .goto _ => if x.1.on then is.modThread s x.1.tlin fun t => { t with csp := t.csp + 8 } else s
        | _ => s) (is.modWarp s fun w => { w with pops := [] })
      let s := is.modWarp (finish s is fs) fun v => { v with lastIssue := w.lastIssue }
      s.modQuad core quad fun k => { k with lastSlot := q.lastSlot, busy := q.busy }

/-- WARP_FORMATION: free slots are filled in ascending order (R99, R100). A warp whose pops arrive in this cycle splits after
that: its other sides are candidates from the next cycle on (R176). -/
def execWarpFormation (core quad : Nat) (s : State) : Result :=
  let s := arrivePool s core quad
  let s := (freeSlots s core quad).foldl (fun s slot => match bestCohort s core quad with
    | some c => formWarp s core quad slot ((s.core core).cycle + 1) c
    | none => s) s
  let s := (quadBlocks s core quad).foldl (fun s p => s.modBlock p.1 fun b =>
    { b with threads := tmap (fun _ (t : Thread) => { t with released := false }) b.threads }) s
  .next ((List.range 8).foldl (fun s slot => settlePops s core quad slot) s)

/-! ## Readiness (R92, R93) -/

/-- Predicates that a word reads. -/
def predReads : Instr → List Nat
  | .br _ _ p => [p.toNat]
  | .bruAny _ _ p => [p.toNat]
  | .bruAll _ _ p => [p.toNat]
  | .bruNone _ _ p => [p.toNat]
  | .bruUni _ _ p => [p.toNat]
  | .plop _ _ y _ x _ => [x.toNat, y.toNat]
  | .ballot _ p _ => [p.toNat]
  | .voteAny _ p _ => [p.toNat]
  | .voteAll _ p _ => [p.toNat]
  | .voteEq _ p _ => [p.toNat]
  | _ => []

/-- The hazard keys of a group: registers, 64 + predicates, 200 + latches. -/
def groupKeys (front : Bool) (g : Group) (i : Instr) (also : Quad) : List Nat :=
  let q := shape i
  let regs := groupRegs front q g ||| also
  ((List.range 64).filter fun r => bit regs r)
  ++ ((g.guard.map Prod.fst).toList ++ predReads i ++ q.pd.toList).map (64 + ·)
  ++ ((operands q g).filter fun x => 0x80 ≤ x.1.toNat && x.1.toNat < 0x84).map fun x => x.1.toNat + 72

/-- Whether a word is a memory group, which the Load-Store Engine must take (R220, R238). -/
def memoryGroup (i : Instr) : Bool :=
  let q := shape i
  q.base.isSome || (match i with
    | .lds _ _ _ _ => true
    | .sts _ _ _ _ => true
    | .atoms _ _ _ _ => true
    | .ldf _ _ _ _ => true
    | .lde _ _ _ _ => true
    | .stf _ _ _ _ => true
    | .stx _ _ _ _ => true
    | .feset _ _ _ => true
    | _ => false)

/-- Whether a result that the group needs is late (R93, R335). -/
def hazardFree (hs : List (Nat × Nat)) (now : Nat) (keys : List Nat) : Bool :=
  hs.all fun h => h.2 ≤ now || !keys.contains h.1

/-- Whether a slot's warp can issue this cycle. DESIGN CHOICE (log 92): the warp that R109 disperses at a home-bound group does
so in an issue opportunity of its slot, which issues nothing else. -/
def slotReady (s : State) (core quad slot : Nat) : Bool :=
  let c := s.core core
  match tget (c.quad quad).slots slot with
  | none => false
  | some w =>
    match s.block w.blk with
    | none => false
    | some b =>
      b.runs && w.from_ ≤ c.cycle && w.fencing.isNone && w.draining.isNone && w.pops.isEmpty &&
        (match nextGroup s core b.ctx (warpPc s w) with
         | none => !groupAsked s core b.ctx 4 (warpPc s w)
         | some (g, i) =>
           hazardFree w.hazards c.cycle (groupKeys false g i (pairRegs s w.blk i)) && (!memoryGroup i || c.lsBusy ≤ c.cycle))

/-- A warp whose every member holds a pending register of its next group dissolves (R92, R97). -/
def dissolve (s : State) (core quad slot : Nat) : State :=
  match tget ((s.core core).quad quad).slots slot with
  | none => s
  | some w =>
    match s.block w.blk with
    | none => s
    | some b =>
      match nextGroup s core b.ctx (warpPc s w) with
      | none => s
      | some (g, i) =>
        let is : Issue := { core := core, quad := quad, slot := slot, blk := w.blk, next := g.next, g := g, i := i, q := shape i
                            also := pairRegs s w.blk i }
        let held := fun (t : Nat) => (is.thread s t).pending &&& is.regs ≠ 0
        if !b.runs || w.members.isEmpty || !w.members.all (fun m => held m.1) then s
        else
          let s := w.members.foldl (fun s m => match pendingFate is (is.thread s m.1) with
            | some (.leave st pc) => s.modThread w.blk m.1 fun t => { t with status := st, pc := pc, age := 0, ring := [] }
            | _ => s) s
          s.modQuad core quad fun q => { q with slots := tdel q.slots slot }

/-! ## Ageing (R101) -/

/-- A thread that could issue now: READY, or ACTIVE in a slot that is ready. -/
def couldIssue (ready : List Nat) (t : Thread) : Bool :=
  match t.status with
  | .ready => true
  | .active slot _ => ready.contains slot
  | _ => false

/-- The oldest aged thread of a quadrant: its block, block slot and tlin. -/
def oldestAged (s : State) (core quad : Nat) (ready : List Nat) : Option (Nat × Nat × Nat × Thread) :=
  ((quadBlocks s core quad).flatMap fun p =>
    (p.2.threads.filter fun t => agedAt ≤ t.2.age && couldIssue ready t.2).map fun t => (p.1, p.2.slotIdx, t.1, t.2)).foldl
    (fun r x => match r with
      | none => some x
      | some y => if y.2.2.2.age < x.2.2.2.age || (y.2.2.2.age = x.2.2.2.age &&
          (x.2.1 < y.2.1 || (x.2.1 = y.2.1 && x.2.2.1 < y.2.2.1))) then some x else r) none

/-- Where a member that is pre-empted or swapped out resumes (R112): no chain restarts at a group that is not pure, a
swap-out excepted (R111). -/
def resumePc (restart : Bool) (t : Thread) : Pc := if restart then (chainHead t.ring).getD t.pc else t.pc

/-- Whether a later group of a warp may read what its rings hold: its next group does not empty them, or cannot be read. DESIGN
CHOICE (log 21): NOP16 is not pure, and yet a departure just before it restarts at the chain head, as R111's reason fails. -/
def nextPure (s : State) (core : Nat) (w : Warp) : Bool :=
  match (s.block w.blk).bind fun b => nextGroup s core b.ctx (warpPc s w) with
  | some (g, i) => keepsRing (shape i) g
  | none => true

/-- Every member of a slot's warp goes to the pool as READY (R101, R111, R112), at a swap-out or to make room. -/
def preempt (s : State) (core quad slot : Nat) (swap : Bool) : State :=
  match tget ((s.core core).quad quad).slots slot with
  | none => s
  | some w =>
    let pure := swap || nextPure s core w
    let s := w.members.foldl (fun s m => s.modThread w.blk m.1 fun t => t.ready (resumePc pure t)) s
    s.modQuad core quad fun q => { q with slots := tdel q.slots slot }

/-- Whether a warp holds an aged thread. -/
def warpAged (s : State) (w : Warp) : Bool :=
  w.members.any fun m => (((s.block w.blk).bind fun b => b.thread m.1).map fun t => decide (agedAt ≤ t.age)).getD false

/-- Whether a warp waits at a FENCE or a DRAIN, at which its members do not leave (R233, R234). -/
def Warp.holds (w : Warp) : Bool := w.fencing.isSome || w.draining.isSome

/-- The warp that is pre-empted: none of its threads aged, its last issue the oldest, the lower slot on a tie. -/
def victimSlot (s : State) (core quad : Nat) : Option Nat :=
  (((s.core core).quad quad).slots.filter fun p => !warpAged s p.2 && !p.2.holds).foldl (fun r p => match r with
    | none => some p
    | some x => if p.2.lastIssue < x.2.lastIssue then some p else r) none |>.map Prod.fst

/-- The oldest aged thread among the slots. -/
def agedSlot (s : State) (core quad : Nat) (ready : List Nat) : Option Nat :=
  let inSlot := fun (t : Thread) => t.status.isActive
  ((quadBlocks s core quad).flatMap fun p =>
    (p.2.threads.filter fun t => inSlot t.2 && couldIssue ready t.2).map fun t => (p.2.slotIdx, t.1, t.2)).foldl
    (fun (r : Option (Nat × Nat × Thread)) x => match r with
      | none => some x
      | some y => if y.2.2.age < x.2.2.age || (y.2.2.age = x.2.2.age &&
          (x.1 < y.1 || (x.1 = y.1 && x.2.1 < y.2.1))) then some x else r) none
  |>.bind fun x => match x.2.2.status with
    | .active slot _ => some slot
    | _ => none

/-- Serving the oldest aged thread: the slot that then issues. -/
def serveAged (s : State) (core quad : Nat) (ready : List Nat) : State × Option Nat :=
  match oldestAged s core quad ready with
  | none => (s, none)
  | some (_, _, _, t) =>
    match t.status with
    | .active slot _ => (s, some slot)
    | _ =>
      let form := fun (s : State) (slot : Nat) => match bestCohort s core quad with
        | some c => (formWarp s core quad slot (s.core core).cycle c, some slot)
        | none => (s, none)
      match freeSlots s core quad with
      | slot :: _ => form s slot
      | [] => match victimSlot s core quad with
        | some slot => form (preempt s core quad slot false) slot
        | none => (s, agedSlot s core quad ready)

/-- AGED_THREAD (R101). -/
def execAgedThread (core quad : Nat) (s : State) : Result :=
  .next (serveAged s core quad ((List.range 8).filter (slotReady s core quad))).1

/-- Every thread that could issue ages by one; the group that issues sets its own members' ages back. DESIGN CHOICE (log 92):
the 7-bit age of R101 stays at 127. -/
def ageThreads (s : State) (core quad : Nat) (ready : List Nat) : State :=
  (quadBlocks s core quad).foldl (fun s p => s.modBlock p.1 fun b =>
    { b with threads := tmap (fun _ t => if couldIssue ready t then { t with age := min (t.age + 1) 127 } else t) b.threads }) s

/-! ## Issue opportunities (R91, R335, R459) -/

/-- Whether a core's island allows its quadrants an issue opportunity in this cycle. -/
def dutyAllows (s : State) (core : Nat) : Bool :=
  let i := s.island (coreIsland core)
  i.vfs ≠ 0 && (!i.ovb || (s.core core).cycle % 8 ≤ i.duty)

/-- One issue opportunity: the slot that issues. -/
def arbitrate (s : State) (core quad : Nat) : State × Option Nat :=
  let c := s.core core
  let q := c.quad quad
  if c.cycle < q.busy || !dutyAllows s core then (s, none)
  else
    let s := (List.range 8).foldl (fun s slot => dissolve s core quad slot) s
    let ready := (List.range 8).filter (slotReady s core quad)
    let aged := serveAged s core quad ready
    match aged.2 with
    | some slot => (ageThreads aged.1 core quad ready, some slot)
    | none =>
      let order := (List.range 8).map fun i => (q.lastSlot + 1 + i) % 8
      (ageThreads s core quad ready, order.find? fun i => ready.contains i)

/-- The front context that issues: in RUN, its hazards past, in cyclic order (R335). -/
def arbitrateFront (s : State) (core : Nat) : Option Nat :=
  let c := s.core core
  let ready := fun (fcx : Nat) => match (frontBlock s core fcx).bind s.block with
    | none => false
    | some b =>
      b.runs && b.front.status = .run && b.front.from_ ≤ c.cycle &&
        (match nextGroup s core b.ctx b.front.pc with
         | none => !groupAsked s core b.ctx 4 b.front.pc
         | some (g, i) => hazardFree b.front.hazards c.cycle (groupKeys true g i 0))
  if c.cycle < c.frontBusy || (s.island (coreIsland core)).vfs = 0 then none
  else ((List.range 32).map fun i => (c.lastFcx + 1 + i) % 32).find? ready

end Sys2Proof.Machine
end

