-- ==== Sys2Proof/Machine/Replay.lean ====
section
/-! DEFINITION. The Translation Engine's events (R437 to R447, R463): walks, the operand log, the host's answers to fault
records, TLB invalidation, and contexts. -/

namespace Sys2Proof.Machine

/-! ## Walks -/

/-- A thread is no longer held to the limits of R442. -/
def releaseHeld (s : State) (a : Acc) : State :=
  match a.who with
  | some t => s.modThread a.blk t fun th => { th with held := false }
  | none => s

/-- An access whose thread has gone on is made, in its place among those that wait; one that the L1 rejects joins the aged queue
(R221). -/
def madeLate (s : State) (core : Nat) (a : Acc) : State :=
  let a := { a with walking := false }
  if (s.core core).pend.any fun x => x.id = a.id then progress (putAcc s core a) core
  else (resumeLate s core a).getD (ageAcc s core a)

/-- An access whose thread has gone on cannot be translated (R444): its trap comes at the next group that R442 does not let the
thread issue. -/
def failHeld (s : State) (core : Nat) (a : Acc) (cause : BitVec 8) (detail : Nat) : State :=
  lateFault (dropAcc s core a.id) a.blk a.who (some (a.dest.getD { reg := 0, count := 0 }))
    { cause := cause, tpc := a.grp, taddr := BitVec.ofNat 64 a.faultAt, detail := BitVec.ofNat 16 detail, soon := false
      regs := (a.dest.map Dest.mask).getD 0 }

/-- Whether a fault of an access finds no place in the log (R442): it is full, or its thread has an access there. -/
def logBlocked (s : State) (w : Walk) : Bool :=
  64 ≤ ((s.core w.core).quad w.quad).log.length
    || ((s.block w.acc.blk).bind fun b => w.acc.who.bind fun t => b.thread t).any Thread.held

/-- A thread is held to the limits of R442. -/
def setHeld (s : State) (a : Acc) : State :=
  match a.who with
  | some t => s.modThread a.blk t fun th => { th with held := true }
  | none => s

/-- What a walk gives the access that waits for it (R439, R442): without a place in the log, a fault waits with its walk. -/
def finishWalk (s : State) (n : Nat) (w : Walk) : State :=
  let a := w.acc
  let ctx := ((s.block a.blk).map Block.ctx).getD 0
  let done := fillWalkCache { s with walks := ldel s.walks n } ctx a.va.toNat
  match translate s ctx a.kind.accessMode a.va.toNat with
  | .ok pa coh => madeLate (fillDataTlb done w.core ctx a.va.toNat) w.core { a with pa := pa, coh := coh }
  | .protect d => failHeld done w.core a causeProtect d
  | .fault cause level =>
    if logBlocked s w then s
    else raiseFault ((setHeld done a).modQuad w.core w.quad fun q => { q with log := q.log ++ [a] }) ctx a.va.toNat a.kind.kindBits
      cause level (.acc w.core w.quad a)
  | .miss => done

/-- WALK_RESULT (R439). -/
def execWalkResult (n : Nat) (s : State) : Result :=
  .next (match s.walks[n]? with
    | some w => finishWalk s n w
    | none => s)

/-! ## The host's answers (R441, R443, R444, R445) -/

/-- A log entry frees. -/
def freeLog (s : State) (core quad : Nat) (a : Acc) : State :=
  s.modQuad core quad fun q => { q with log := q.log.filter fun x => x.id ≠ a.id }

/-- An unrecoverable fault of a logged access (R444). -/
def failLogged (s : State) (core quad : Nat) (a : Acc) (cause : BitVec 8) (detail : Nat) : State :=
  failHeld (releaseHeld (freeLog s core quad a) a) core a cause detail

/-- Whether a replayed access still waits for its turn or for an entry. -/
def unsent (s : State) (core id : Nat) : Bool :=
  (s.core core).aged.any (fun w => w.acc.id = id) || (s.core core).pend.any fun a => a.id = id && !a.sent

/-- A replayed access that has been sent gives its log entry back, and its member goes on without the limits of R442 (R443). -/
def settleLog (s : State) (core quad : Nat) (a : Acc) : State :=
  if unsent s core a.id then s else releaseHeld (freeLog s core quad a) a

/-- A logged WBR or INVR is replayed (R247): the whole range again. A fault at another page is a new one, whose address the log
then holds (R443). -/
def replayRange (s : State) (core quad ctx : Nat) (a : Acc) : State :=
  match rangeOp s core ctx a.va a.size a.scope with
  | .ready s rs =>
    if rs.isEmpty then releaseHeld (freeLog s core quad a) a
    else settleLog (madeLate s core { a with ranges := rs, coh := 1, pa := (rs.head?.map Prod.fst).getD 0 }) core quad a
  | .trap cause va detail => failLogged s core quad { a with pa := va.toNat } cause detail
  | .fault va cause level =>
    let a := { a with pa := va }
    raiseFault (s.modQuad core quad fun q => { q with log := q.log.map fun x => if x.id = a.id then a else x }) ctx va 2 cause level
      (.acc core quad a)

/-- A logged access is replayed with its logged values (R443): it walks in full (R439), a new fault posts a new record, and one
that the L1 rejects joins the aged queue. -/
def replayAcc (s : State) (core quad : Nat) (a : Acc) : State :=
  let ctx := ((s.block a.blk).map Block.ctx).getD 0
  let s := match a.kind with
    | .wbr _ => s
    | _ => fillWalkCache s ctx a.va.toNat
  match a.kind, translate s ctx a.kind.accessMode a.va.toNat with
  | .wbr _, _ => replayRange s core quad ctx a
  | _, .ok pa coh =>
    settleLog (madeLate (fillDataTlb s core ctx a.va.toNat) core { a with pa := pa, coh := coh }) core quad a
  | _, .protect d => failLogged s core quad a causeProtect d
  | _, .fault cause level => raiseFault s ctx a.va.toNat a.kind.kindBits cause level (.acc core quad a)
  | _, .miss => s

/-- Whether a logged access still waits for the host. -/
def awaitsHost (s : State) (a : Acc) : Bool := s.frecs.any fun f => f.joined.any fun j => match j with
  | .acc _ _ x => x.id = a.id
  | _ => false

/-- Log entries of accesses that have been sent since are free. -/
def settleLogs (s : State) : State :=
  s.cores.foldl (fun s c => c.2.quads.foldl (fun s q => q.2.log.foldl (fun s a =>
    if awaitsHost s a then s else settleLog s c.1 q.1 a) s) s) s

/-- A thread that waits for a fetch goes on, or its front thread does. -/
def wakeFetch (s : State) (blk : Nat) (who : Option Nat) : State :=
  match who with
  | some t => s.modThread blk t fun th => if th.status = .waiting .fetch then th.ready th.pc else th
  | none => s.modFront blk fun f => if f.status = .stalled .fetch then f.resume else f

/-- A command that waited looks again. -/
def wakeCommand (s : State) (core id : Nat) : State :=
  s.modCore core fun c => { c with cmds := c.cmds.map fun x => if x.id = id then { x with blocked := false } else x }

/-- RETRY for one that joined a record. -/
def retryJoined (s : State) (j : Joined) : State :=
  match j with
  | .acc core quad a => replayAcc s core quad a
  | .fetch blk who _ _ => wakeFetch s blk who
  | .cmd core id _ => wakeCommand s core id
  | .completion k => writeCompletion s k
  | .staging k => if ((tget s.launches k).map Launch.judged).getD true then startStaging s k else judgeAgain s k

/-- The trap of a failed record (R441): its cause and DETAIL. -/
def failCause (f : FaultRec) (late : Bool) : BitVec 8 × Nat :=
  let t := if late then 2 ^ 15 else 0
  if f.cause = 1 then (causePagefault, f.level + t) else if f.cause = 2 then (causeProtect, 4 + t) else (causeProtect, 5 + t)

/-- FAIL for one that joined a record. -/
def failJoined (cause : BitVec 8) (detail : Nat) (s : State) (j : Joined) : State :=
  match j with
  | .acc core quad a => failLogged s core quad a cause detail
  | .fetch blk (some t) va grp =>
    (match ((s.block blk).bind fun b => b.thread t) with
     | some th =>
       if th.status = .waiting .fetch then
         takeTraps s blk [⟨t, cause, grp, BitVec.ofNat 64 va, detail, if th.pc = grp then none else some th.pc⟩]
       else s
     | none => s)
  | .fetch blk none va grp =>
    (match s.block blk with
     | some b =>
       if b.front.status = .stalled .fetch then takeFrontTrap s blk ⟨0, cause, grp, BitVec.ofNat 64 va, detail, none⟩ else s
     | none => s)
  | .cmd core id va => failCommand s core id cause (BitVec.ofNat 64 va) detail
  | .completion _ => s
  | .staging k =>
    if ((tget s.launches k).map Launch.judged).getD true then s.modLaunch k fun l => { l with staging := false, stages := some [] }
    else if ((tget s.launches k).map Launch.done).getD 1 = 0 then refuse s k 2 else s

/-- The record of a number, if the host may answer it: it has been written. -/
def recordOf (s : State) (seq : BitVec 32) : Option FaultRec :=
  s.frecs.find? fun f => f.seq = seq.toNat && f.posted.isSome

/-- A record leaves those outstanding. -/
def dropRecord (s : State) (f : FaultRec) : State := { s with frecs := s.frecs.filter (· ≠ f) }

/-- A record fails: every access joined to it becomes unrecoverable. -/
def failRecord (s : State) (f : FaultRec) (late : Bool) : State :=
  f.joined.foldl (failJoined (failCause f late).1 (failCause f late).2) (dropRecord s f)

/-- FAULT_RETRY (R441). -/
def execFaultRetry (seq : BitVec 32) (s : State) : Result :=
  .next (match recordOf s seq with
    | some f => f.joined.foldl retryJoined (dropRecord s f)
    | none => s)

/-- FAULT_FAIL (R441). -/
def execFaultFail (seq : BitVec 32) (s : State) : Result :=
  .next (match recordOf s seq with
    | some f => failRecord s f false
    | none => s)

/-- Whether a record's time has passed. -/
def recordLate (s : State) (f : FaultRec) : Bool :=
  s.dev.ftmo ≠ 0 && (match f.posted with
    | some t => t + s.dev.ftmo.toNat * cyclesPerUs ≤ s.now
    | none => false)

/-- FAULT_TIMEOUT (R441). -/
def execFaultTimeout (seq : BitVec 32) (s : State) : Result :=
  .next (match recordOf s seq with
    | some f => if recordLate s f then failRecord s f true else s
    | none => s)

/-! ## The fault queue (R463) -/

/-- FQHEAD_WRITE: records that waited for room are then written. -/
def execFqheadWrite (v : BitVec 32) (s : State) : Result :=
  .next (if s.dev.fqsize < s.dev.fqtail - v then s
    else postFaults s.frecs.length { s with dev := { s.dev with fqhead := v } })

/-- FQSIZE_WRITE. -/
def execFqsizeWrite (v : BitVec 32) (s : State) : Result :=
  .next (if 16 ≤ v.toNat && v.toNat ≤ 65536 && v.toNat &&& (v.toNat - 1) = 0 then
      postFaults s.frecs.length { s with dev := { s.dev with fqsize := v } }
    else s)

/-! ## TLB invalidation (R438) -/

/-- Fields of TLBINV. -/
def tlbBusy (v : Quad) : Bool := bit v 63
def tlbAll (v : Quad) : Bool := bit v 62
def tlbCtx (v : Quad) : Nat := field v 61 56
def tlbPages (v : Quad) : Nat := field v 15 0

/-- A write to TLBINV while none is in progress; the reserved bits read 0. DEDUCED (log 41): one that names no page does nothing,
so BUSY stays 0. -/
def startTlb (s : State) (v : Quad) (hit : TlbEntry → Bool) : State :=
  let r : Nat := field v 62 62 * 2 ^ 62 + tlbCtx v * 2 ^ 56 + tlbPages v
  if tlbBusy s.dev.tlbinv then s
  else if !tlbAll v && tlbPages v = 0 then { s with dev := { s.dev with tlbinv := BitVec.ofNat 64 r } }
  else
    let keep := fun (t : List TlbEntry) => t.filter fun e => !hit e
    { s with
      cores := tmap (fun _ c => { c with dtlb := keep c.dtlb, ftlb := keep c.ftlb }) s.cores
      dev := { s.dev with tlbFrom := s.nextAcc, tlbinv := BitVec.ofNat 64 (2 ^ 63 + r) } }

/-- The virtual addresses that a range write names: no range wraps. -/
def tlbRange (s : State) (v : Quad) : Nat × Nat :=
  let lo := field s.dev.tlbva 56 16 * 65536
  (lo, min (lo + tlbPages v * 65536) (2 ^ 57))

/-- TLB_INVALIDATE_RANGE: entries of the context that hold a named page. -/
def execTlbInvalidateRange (v : BitVec 64) (s : State) : Result :=
  let r := tlbRange s v
  .next (if tlbAll v then s
    else startTlb s v fun e => e.ctx = tlbCtx v && e.vpn * 2 ^ e.shift < r.2 && r.1 < (e.vpn + 1) * 2 ^ e.shift)

/-- TLB_INVALIDATE_ALL: the context's entries, and the walk caches as a whole. -/
def execTlbInvalidateAll (v : BitVec 64) (s : State) : Result :=
  .next (if tlbAll v then startTlb { s with walkCache := if tlbBusy s.dev.tlbinv then s.walkCache else [] } v fun e => e.ctx = tlbCtx v
    else s)

/-- Whether an access that had translated before the invalidation began, the write-back of a WBR or INVR of the context, or a
write that a stage holds for it, has not been performed. -/
def tlbWaits (s : State) : Bool :=
  let ctx := tlbCtx s.dev.tlbinv
  let mine := fun (blk : Nat) => decide (((s.block blk).map Block.ctx) = some ctx)
  let old := fun (a : Acc) => a.id < s.dev.tlbFrom && mine a.blk
  let staged := fun (l : List Staged) => l.any fun w => w.id < s.dev.tlbFrom
  (s.cores.any fun c => (c.2.pend.any fun a => old a && !a.walking) || (c.2.aged.any fun w => old w.acc) || c.2.stores.any fun e => old e.acc)
  || (s.net.any fun m => match m.back with
    | some (_, some (blk, _)) => mine blk
    | _ => false)
  || (s.blocks.any fun p => p.2.ctx = ctx && staged p.2.stage)
  || s.launches.any fun p => p.2.ctxIdx = ctx && p.2.kept.any fun k => staged k.2

/-- TLB_INVALIDATE_DONE. -/
def execTlbInvalidateDone (s : State) : Result :=
  .next (if tlbBusy s.dev.tlbinv && !tlbWaits s then
      { s with dev := { s.dev with tlbinv := withBit s.dev.tlbinv 63 false } } else s)

/-! ## Contexts (R447, R465) -/

/-- Fields of CTXCMD. -/
def ctxOp (v : Quad) : Nat := field v 7 6
def ctxIndex (v : Quad) : Nat := field v 5 0

/-- A context descriptor at a physical address, with whether it obeys R432 and R447. -/
def readCtx (s : State) (pa : Nat) : Ctx × Bool :=
  let d := BitVec.ofNat 512 (homeNum s pa 64)
  let attr := descBytes d 0x28 4
  ({ root := descBytes d 0 8, hwb := descBytes d 0x10 8, hwl := descBytes d 0x18 8, hwo := descBytes d 0x20 8
     hwcoh := BitVec.ofNat 2 (attr / 4), hwx := attr / 2 % 2 = 1, hww := attr % 2 = 1
     tvec := BitVec.ofNat 64 (descBytes d 0x30 8), ftvec := BitVec.ofNat 64 (descBytes d 0x38 8) },
   descBytes d 0x08 8 = 0 && descBytes d 0x2C 4 = 0 && attr < 16
   && descBytes d 0 8 % 2 ^ 17 = 0 && descBytes d 0 8 < 2 ^ 39
   && descBytes d 0x10 8 < 2 ^ 57 && descBytes d 0x18 8 < 2 ^ 57 && descBytes d 0x20 8 < 2 ^ 52
   && descBytes d 0x10 8 % 65536 = 0 && descBytes d 0x18 8 % 65536 = 0 && descBytes d 0x20 8 % 65536 = 0)

/-- Whether a context is live. -/
def ctxLive (s : State) (k : Nat) : Bool := ((tget s.ctxs k).map Ctx.live).getD false

/-- A context command is refused (R447). -/
def refuseCtx (s : State) : State := { s with dev := { s.dev with fqerr := true } }

/-- A context command has started. -/
def startCtx (s : State) (v : Quad) : State := { s with dev := { s.dev with fqerr := false, fqbusy := true, ctxcmd := some v } }

/-- CTX_CREATE: the descriptor is read and checked; the context is live when the command is done. -/
def execCtxCreate (v : BitVec 64) (s : State) : Result :=
  let r := readCtx s (field v 63 8 * 256)
  .next (if s.dev.fqbusy || ctxOp v ≠ 1 then s
    else if ctxLive s (ctxIndex v) || !r.2 then refuseCtx s
    else startCtx { s with ctxs := tset s.ctxs (ctxIndex v) r.1 } v)

/-- Records of a context are answered as FAIL (R447, step 2). -/
def failContext (s : State) (k : Nat) : State :=
  (s.frecs.filter fun f => f.ctx = k).foldl (fun s f => failRecord s f false) s

/-- CTX_DESTROY: the launches of the context stop (R430), and it is live no more (R465). -/
def execCtxDestroy (v : BitVec 64) (s : State) : Result :=
  let k := ctxIndex v
  .next (if s.dev.fqbusy || ctxOp v ≠ 2 then s
    else if !ctxLive s k then refuseCtx s
    else startCtx ((fatalStop s k s.nextLaunch { done := 3 }).modCtx k fun c => { c with live := false, ending := true }) v)

/-- Whether a context still has an engine command, or a completion record to be written (R465). -/
def ctxBusy (s : State) (k : Nat) : Bool :=
  (s.cores.any fun c => c.2.cmds.any fun x => ((s.block x.blk).map Block.ctx) = some k)
  || s.frecs.any fun f => f.ctx = k && f.joined.any fun j => match j with
    | .completion _ => true
    | _ => false

/-- The end of a destroy: records fail, then translations, skeins and ranges go (R447, steps 2 to 4). -/
def endContext (s : State) (k : Nat) : State :=
  let s := failContext s k
  let s := (List.range 256).foldl (fun s i => if (s.skein k i).live then freeSkein s k i else s) s
  { s with
    ctxs := tset s.ctxs k {}
    walkCache := s.walkCache.filter fun e => e.ctx ≠ k
    cores := tmap (fun _ c => { c with dtlb := c.dtlb.filter fun e => e.ctx ≠ k, ftlb := c.ftlb.filter fun e => e.ctx ≠ k
                                       hanks := c.hanks.filter fun h => h.ctx ≠ k }) s.cores }

/-- CTX_COMMAND_DONE. -/
def execCtxCommandDone (s : State) : Result :=
  let ended := fun (s : State) => { s with dev := { s.dev with fqbusy := false, ctxcmd := none } }
  .next (match s.dev.ctxcmd with
    | none => s
    | some v =>
      let k := ctxIndex v
      if ctxOp v = 1 then ended (s.modCtx k fun c => { c with live := true })
      else if ctxBusy s k then s else ended (endContext s k))

end Sys2Proof.Machine
end

