-- ==== Sys2Proof/Machine/Dispatcher.lean ====
section
/-! DEFINITION. The Block Dispatcher (R414 to R430): the Launch Port, placement, quanta, swap-out and swap-in, retirement,
and the head of a deterministic launch (R291, R297). -/

namespace Sys2Proof.Machine

/-! ## The Launch Port (R417) and staging (R416) -/

/-- DEDUCED (log 6). The mesh cycle of a core cycle, at the clocks of R3. -/
def meshCycle (n : Nat) : Nat := n * 16 / 21

/-- LAUNCH_PORT_WRITE: a half is kept, and a slot whose two halves are there waits to be taken. -/
def execLaunchPortWrite (off len : Nat) (data : BitVec 512) (s : State) : Result :=
  .next (if s.dev.svcl = 0 || len ≠ 64 || off % 64 ≠ 0 || 65536 ≤ off then s
    else
      let port := tset s.dev.port (off / 64) data
      let slot := off / 128
      let full := (tget port (2 * slot)).isSome && (tget port (2 * slot + 1)).isSome
        && !s.dev.portFull.any fun x => x.1 = slot
      { s with dev := { s.dev with port := port
                                   portFull := if full then s.dev.portFull ++ [(slot, s.now)] else s.dev.portFull } })

/-- A record leaves its slot in the mesh cycle after its second half came (R417). -/
def takeRecordAt (s : State) (x : Nat × Nat) : State :=
  if meshCycle s.now ≤ meshCycle x.2 then s
  else
    let s' := { s with dev := { s.dev with
      port := tdel (tdel s.dev.port (2 * x.1)) (2 * x.1 + 1), portFull := s.dev.portFull.filter (· ≠ x) } }
    match tget s.dev.port (2 * x.1), tget s.dev.port (2 * x.1 + 1) with
    | some a, some b => submit s' (b ++ a) none none
    | _, _ => s'

/-- The records of the Launch Port that are taken now, in the order in which they were completed. -/
def takeRecords (s : State) : State := s.dev.portFull.foldl takeRecordAt s

/-- What a read of `len` bytes of the Launch Port gives (R417). -/
def launchPortRead (len : Nat) : List Byte := List.replicate len 0

/-- 10 µs in core cycles. -/
def stagingTime : Nat := 10 * cyclesPerUs

/-- Whether a staged line is in its home slice, or is skipped. -/
def lineStaged (s : State) (ctx va : Nat) : Bool :=
  match stagedLine s ctx va with
  | some l => lineReady s l
  | none => true

/-- The lines of a launch's staging list. -/
def stagingLines (l : Launch) : List Nat := (l.stages.getD []).flatMap fun e => regionLines e.1 e.2

/-- Whether every staged line of a launch has arrived. -/
def stagingArrived (s : State) (l : Launch) : Bool := (stagingLines l).all fun va => lineStaged s l.ctxIdx va

/-- STAGING_TIMEOUT: the lines have arrived or 10 µs have passed; lines for which a slice had no room are asked for again. A header or
a list that waits for the host holds the launch, and one that waits for a line is looked for again. -/
def execStagingTimeout (launch : Nat) (s : State) : Result :=
  .next (match tget s.launches launch with
    | some l =>
      if !l.staging || (s.frecs.any fun f => f.joined.contains (.staging launch)) then s
      else if !l.judged then judgeAgain s launch
      else if l.stages.isNone then startStaging s launch
      else if l.accepted + stagingTime ≤ s.now || stagingArrived s l then
        s.modLaunch launch fun l => { l with staging := false }
      else (stagingLines l).foldl (fun s va => stageLine s l.ctxIdx va) s
    | none => s)

/-! ## What fits where (R420) -/

/-- The blocks of a list that stand in a quadrant. -/
def inQuad (bs : List (Nat × Block)) (quad : Nat) : List (Nat × Block) :=
  bs.filter fun p => (p.2.place.map Place.quad) = some quad

/-- The AC tiles and tile-table entries that a block takes with it (R225). DEDUCED (log 91): a block that returns needs all
that it holds, where R420 names the reservation. -/
def tileNeeds (s : State) (l : Launch) (cand : Cand) : Nat × Nat :=
  match cand with
  | .fresh _ _ => (l.acct, 8)
  | .again k => ((s.block k).map fun b => (max l.acct (acHeld b), max 8 b.tiles.length)).getD (l.acct, 8)

/-- Whether a block of a launch that needs `needs` fits a quadrant of a core whose blocks are `bs`, where `owed` AC tiles are
kept for others (R394). -/
def fitsAmong (s : State) (l : Launch) (needs : Nat × Nat) (owed : Nat) (bs : List (Nat × Block)) (quad : Nat) : Bool :=
  let q := inQuad bs quad
  let sum := fun (xs : List (Nat × Block)) (f : Block → Nat) => xs.foldl (fun n p => n + f p.2) 0
  ceilDiv l.ntid 32 + sum q (fun b => ceilDiv (s.launchOf b).ntid 32) ≤ 32 && q.length < 8 && bs.length < 32
  && l.scrb + sum bs (fun b => (s.launchOf b).scrb) ≤ 786432
  && needs.1 + owed + sum bs (fun b => max (s.launchOf b).acct (acHeld b)) ≤ 64
  && needs.2 + sum bs (fun b => max 8 b.tiles.length) ≤ 256

/-- The empty handle for which a thread waits on a core for an AC tile, or is about to take one (R394). -/
def allocDue (s : State) (core : Nat) (b : Block) (t : Thread) : Option Nat :=
  let takes := match nextGroup s core b.ctx t.pc with
    | some (_, .talloc h _ _) => some h.toNat
    | _ => none
  let due := match t.status with
    | .waiting (.alloc h) => some h
    | .ready => takes
    | .active _ _ => takes
    | _ => none
  due.filter fun h => (tget b.tiles h).isNone

/-- Whether a thread of a block placed before `blk` waits on a core for an AC tile, or is about to take one. -/
def olderAlloc (s : State) (core blk : Nat) : Bool :=
  (blocksOn s core).any fun p => p.1 < blk && p.2.runs && p.2.threads.any fun t => (allocDue s core p.2 t.2).isSome

/-- Tiles are kept only for allocations that some thread still wants. -/
def pruneOwed (s : State) : State :=
  s.cores.foldl (fun s c =>
    if c.2.owed.isEmpty then s
    else s.modCore c.1 fun k => { k with owed := k.owed.filter fun x => match s.block x.1 with
      | some b => b.runs && (b.place.map Place.core) = some c.1 && b.threads.any fun t => allocDue s c.1 b t.2 = some x.2
      | none => false }) s

/-- Whether an island may take blocks at all: powered, and commanded so, with a budget (R420, R459). -/
def islandOn (s : State) (core : Nat) : Bool :=
  let i := s.island (coreIsland core)
  i.vfs ≠ 0 && field i.cmd 2 0 ≠ 0 && i.budget ≠ 0

/-- Whether a core may receive a block now: on die 0 alone below service level 2 (R456), nowhere at level 0. -/
def coreOpen (s : State) (core : Nat) : Bool :=
  islandOn s core && !(s.island (coreIsland core)).ovb && s.dev.svcl ≠ 0 && (s.dev.svcl = 2 || core < 40)

/-! ## Candidates and their rank (R421) -/

/-- A block that waits: its launch, the moment its wait began, and when it was last resident. -/
structure Want where
  cand  : Cand
  key   : Nat
  l     : Launch
  b     : Nat
  since : Nat
  out   : Option Nat
  deriving DecidableEq, Repr

/-- The first `k` indices, of `n` from `i`, that a test takes. -/
def firstIndices (p : Nat → Bool) : Nat → Nat → Nat → List Nat
  | 0, _, _ => []
  | n + 1, k, i => if k = 0 then [] else if p i then i :: firstIndices p n (k - 1) (i + 1) else firstIndices p n k (i + 1)

/-- Whether a wavefront block waits for no block of its launch. -/
def readyAtOnce (l : Launch) (b : Nat) : Bool :=
  (stencilOffsets l.stencil).all fun o => b % l.nbx < o.1 || b / l.nbx % l.nby < o.2

/-- The blocks of a launch that have never been placed and that may be chosen next (R427): the lowest of those that were
ready at acceptance, as many as the package has cores, and the wavefront blocks that a retirement made ready. More could
neither be placed in a cycle, nor reserve a core, nor displace a block of one core. -/
def freshWants (k : Nat) (l : Launch) : List Want :=
  let free := fun b => decide (l.next ≤ b) && !l.taken.contains b
  let want := fun (x : Nat × Nat) => Want.mk (.fresh k x.1) k l x.1 x.2 none
  if l.done ≠ 0 || l.staging then []
  else
    let first := firstIndices (fun b => free b && (l.mode ≠ 3 || readyAtOnce l b)) (l.nblocks - l.next) 160 l.next
    (first.map fun b => want (b, l.accepted)) ++ if l.mode = 3 then (l.readyAt.filter fun x => free x.1).map want else []

/-- Every block that waits for a place. -/
def wants (s : State) : List Want :=
  (s.launches.flatMap fun p => freshWants p.1 p.2)
  ++ (s.blocks.filter fun p => p.2.state = .swapped).map fun p =>
    ⟨.again p.1, p.2.launch, s.launchOf p.2, p.2.b, p.2.since, some p.2.since⟩

/-- A quantum in core cycles (R423). -/
def quantum (s : State) : Nat := s.dev.qnt.toNat * cyclesPerUs

/-- Whether a block has waited 15 quanta. -/
def Want.aged (s : State) (w : Want) : Bool := w.since + 15 * quantum s ≤ s.now

/-- The rank of a waiting block: the smaller list, from the first entry on, is preferred. -/
def Want.rank (s : State) (w : Want) : List Nat :=
  [boolBit w.l.dyer.isNone, boolBit (!w.aged s), (if w.aged s then w.since else 0), 3 - w.l.prio,
   (match w.out with
    | none => 0
    | some t => t + 1), w.key, w.b]

/-- The rank of a resident block: the longer its residency, the lower it stands (R423). -/
def residentRank (s : State) (b : Block) : List Nat :=
  let l := s.launchOf b
  [boolBit l.dyer.isNone, 1, 0, 3 - l.prio, s.now + 2 + (s.now - b.since), b.launch, b.b]

/-- Whether the first rank is the better. -/
def rankLt : List Nat → List Nat → Bool
  | x :: xs, y :: ys => x < y || (x = y && rankLt xs ys)
  | _, _ => false

/-- Inserting by rank. -/
def insertRank (s : State) : List Want → Want → List Want
  | [], w => [w]
  | v :: vs, w => if rankLt (w.rank s) (v.rank s) then w :: v :: vs else v :: insertRank s vs w

/-- The waiting blocks in the order of R421. -/
def ranked (s : State) : List Want := (wants s).foldl (insertRank s) []

/-! ## Where a chosen block goes -/

/-- Whether a core may take a given block: a dyer stays on its die (R313), and a reserved core is kept for its block. -/
def mayGo (s : State) (w : Want) (core : Nat) : Bool :=
  coreOpen s core
  && (match w.l.dyer with
      | some d => coreDie core = d.die
      | none => true)
  && s.reserve.all fun r => r.1 ≠ core || r.2 = w.cand

/-- The quadrants that a block fits. -/
def eligible (s : State) (w : Want) : List (Nat × Nat) :=
  ((List.range 160).filter (mayGo s w)).flatMap fun c =>
    ((List.range 4).filter fun q => fitsAmong s w.l (tileNeeds s w.l w.cand) (acOwed s c none) (blocksOn s c) q).map fun q => (c, q)

/-- Threads resident in a quadrant. -/
def quadThreads (s : State) (core quad : Nat) : Nat :=
  (inQuad (blocksOn s core) quad).foldl (fun n p => n + p.2.threads.length) 0

/-- The rank of a quadrant for a chosen block. -/
def quadRank (s : State) (x : Nat × Nat) : List Nat :=
  [(s.island (coreIsland x.1)).tband.toNat, quadThreads s x.1 x.2, 4 * x.1 + x.2]

/-- The best quadrant. -/
def bestQuad (s : State) (xs : List (Nat × Nat)) : Option (Nat × Nat) :=
  xs.foldl (fun r x => match r with
    | none => some x
    | some y => if rankLt (quadRank s x) (quadRank s y) then some x else some y) none

/-- The place in a quadrant: the lowest free block slot and front context (R420). -/
def placeIn (s : State) (core quad : Nat) : Place :=
  let bs := blocksOn s core
  let low := fun (n : Nat) (used : List Nat) => ((List.range n).find? fun i => !used.contains i).getD 0
  { core := core, quad := quad
    bslot := low 8 ((inQuad bs quad).map fun p => p.2.slotIdx)
    fcx := low 32 (bs.map fun p => (p.2.place.map Place.fcx).getD 0) }

/-! ## Swap-in (R426) -/

/-- A block's exports on another core than the one it left. -/
def moveExports (s : State) (blk : Nat) (b : Block) (core : Nat) : State :=
  let mine := (s.core b.lastCore).exports.filter fun e => e.2.1 = blk
  let s := s.modCore b.lastCore fun c => { c with exports := c.exports.filter fun e => e.2.1 ≠ blk }
  mine.foldl (fun s e =>
    if (tget (s.core core).exports e.1).isSome then s.modTile blk e.2.2 fun t => { t with slot := none }
    else s.modCore core fun c => { c with exports := tset c.exports e.1 e.2 }) s

/-- Copies of a die whose invalidation is on its way go now: a block that comes to the die has read nothing older (R252). -/
def settleDie (s : State) (die : Nat) : State :=
  let due := s.net.filterMap fun m => match m with
    | .proxyInv d l _ => if d = die then some l else none
    | _ => none
  let s := due.foldl (fun s l => dropProxy s die l fun c => !ownsLine s c l) s
  { s with net := s.net.filter fun m => match m with
    | .proxyInv d _ _ => d ≠ die
    | _ => true }

/-- A block returns: its ages restart, no result is late any more, and its COL commands that have not joined are issued again (R412). On
another core than the one it left, no COH 01 byte older than what it has read stays or comes in (R426). -/
def placeAgain (s : State) (blk : Nat) (b : Block) (p : Place) : State :=
  let s := if b.lastCore = p.core then s
    else settleDie (moveExports (refill (writeBackAll s p.core true) p.core fun _ => true) blk b p.core) (coreDie p.core)
  let turn := takesTurn s p.core
  let s := (takeRoom s p.core).modCore p.core fun c => { c with cmds := c.cmds ++ b.cols }
  s.modBlock blk fun b =>
    { b with place := some p, state := .resident, leaving := false, flushed := false, since := s.now, turn := turn, lastCore := p.core,
             saved := 0, cols := [], threads := tmap (fun _ (t : Thread) => { t with age := 0 }) b.threads,
             front := { b.front with hazards := [], from_ := 0 } }

/-- A block is placed. -/
def placeWant (s : State) (w : Want) (x : Nat × Nat) : State :=
  let s := { s with reserve := s.reserve.filter fun r => r.2 ≠ w.cand }
  let p := placeIn s x.1 x.2
  match w.cand with
  | .fresh k b => placeNew s k b p
  | .again blk =>
    match s.block blk with
    | some b => placeAgain s blk b p
    | none => s

/-! ## Reservation (R421) -/

/-- The core with the fewest resident blocks among those on islands with budget that no other block reserves. -/
def emptiestCore (s : State) : Option Nat :=
  ((List.range 160).filter fun c => islandOn s c && (s.dev.svcl = 2 || c < 40) && s.reserve.all (·.1 ≠ c)).foldl
    (fun r c => match r with
      | none => some c
      | some d => if (blocksOn s c).length < (blocksOn s d).length then some c else some d) none

/-- A reservation whose block no longer waits, or whose island no longer takes blocks, ends. -/
def checkReserve (s : State) : State :=
  { s with reserve := s.reserve.filter fun r => islandOn s r.1 && (wants s).any (fun w => w.cand = r.2) }

/-- An aged block that fits nowhere reserves a core, unless it has one. -/
def reserveFor (s : State) (w : Want) : State :=
  if w.aged s && w.l.dyer.isNone && s.reserve.all (·.2 ≠ w.cand) then
    match emptiestCore s with
    | some c => { s with reserve := s.reserve ++ [(c, w.cand)] }
    | none => s
  else s

/-- The first-ranked block that fits goes to its quadrant. -/
def placeFirst : List Want → State → State
  | [], s => s
  | w :: ws, s =>
    match bestQuad s (eligible s w) with
    | some x => placeWant s w x
    | none => placeFirst ws (reserveFor s w)

/-- BLOCK_PLACEMENT. -/
def execBlockPlacement (s : State) : Result :=
  let s := checkReserve s
  .next (placeFirst (ranked s) s)

/-! ## Swap-out (R424, R425) -/

/-- A section's size, rounded to its alignment. -/
def section256 (n : Nat) : Nat := ceilDiv n 256 * 256

/-- Commands of a block that have not joined their collective. -/
def unjoined (s : State) (core blk : Nat) : List Cmd :=
  (s.core core).cmds.filter fun c => c.blk = blk && c.path = 3 && !c.started

/-- The size of a block's save area (R425). -/
def saveSize (s : State) (blk : Nat) (b : Block) : Nat :=
  let l := s.launchOf b
  let cols := (unjoined s ((b.place.map Place.core).getD 0) blk).length
  256 + 1024 + section256 (16 * 264 + 16 * 264) + 512 + section256 (l.ntid * (256 + 4 * l.regsPer)) + 1024
    + section256 (l.scrb + l.scrb / 32) + section256 (8256 * acHeld b) + section256 (64 * cols)

/-- Room left in the save pool. -/
def poolFree (s : State) : Nat := s.dev.spsize.toNat - s.blocks.foldl (fun n p => n + p.2.saved) 0

/-- Whether an access of a block is in the operand log or in translation (R446). -/
def logHeld (s : State) (blk : Nat) : Bool :=
  (s.cores.any fun c => c.2.quads.any fun q => q.2.log.any fun a => a.blk = blk) || s.walks.any fun w => w.acc.blk = blk

/-- A block's warps go to the pool, but for those that wait at a FENCE or a DRAIN (R233, R234). -/
def stopWarps (s : State) (blk : Nat) : State :=
  match (s.block blk).bind Block.place with
  | none => s
  | some p =>
    (((s.core p.core).quad p.quad).slots.filter fun x => x.2.blk = blk && !x.2.holds).foldl
      (fun s x => preempt s p.core p.quad x.1 true) s

/-- A swap-out of a block begins, unless it is postponed: whether it did. -/
def beginSwap (s : State) (blk : Nat) : State × Bool :=
  match s.block blk with
  | none => (s, false)
  | some b =>
    if logHeld s blk || poolFree s < saveSize s blk b then (s, false)
    else (stopWarps (s.setBlock blk { b with leaving := true, saved := saveSize s blk b, since := s.now, turn := false }) blk, true)

/-- Whether a command of a block must complete before its swap-out. -/
def mustEnd (blk : Nat) (c : Cmd) : Bool := c.blk = blk && !(c.path = 3 && !c.started)

/-- Whether a block still waits for its stores, reductions or write-backs (R424). -/
def blockUnacked (s : State) (blk : Nat) : Bool :=
  (s.cores.any fun c => c.2.accs.any fun a => a.blk = blk && !a.kind.reads) || carrying s blk s.nextAcc

/-- Whether a block's commands, writes, fences and logged accesses are over. -/
def swapClear (s : State) (blk : Nat) (p : Place) : Bool :=
  !(s.cores.any fun c => c.2.cmds.any (mustEnd blk)) && !blockUnacked s blk && !logHeld s blk
  && !((s.core p.core).quad p.quad).slots.any fun x => x.2.blk = blk

/-- The core writes back the dirty bytes of its COH 01 lines, as the block's write-backs. -/
def flushCore (s : State) (core blk : Nat) : State :=
  (selfLines (s.core core) fun _ => true).foldl (fun s l => writeBackLine s core l (some (blk, none))) s

/-- SWAP_OUT: the write-backs of step 3, and, once they are acknowledged, the save. -/
def execSwapOut (blk : Nat) (s : State) : Result :=
  let s := match s.block blk with
    | some b => if b.leaving then stopWarps s blk else s
    | none => s
  .next (match s.block blk with
    | none => s
    | some b =>
      match b.place with
      | none => s
      | some p =>
        if !b.leaving || b.state ≠ .resident || !swapClear s blk p then s
        else if !b.flushed then (flushCore s p.core blk).modBlock blk fun b => { b with flushed := true }
        else
          let cols := (unjoined s p.core blk).map fun c => { c with accepted := false }
          let s := s.modCore p.core fun c => { c with cmds := c.cmds.filter (fun x => x.blk ≠ blk), room := c.room + boolBit b.turn }
          s.setBlock blk { b with place := none, state := .swapped, leaving := false, flushed := false, cols := cols })

/-! ## The end of a quantum (R423, R30) -/

/-- Blocks that issue on a core, or in the package. -/
def running (s : State) : List (Nat × Block) := s.blocks.filter fun p => p.2.runs && p.2.place.isSome

/-- Whether a waiting block waits for a fill or for a FETCHW withdrawal. -/
def awaits (s : State) (w : Want) : Bool :=
  match w.cand with
  | .fresh _ _ => w.l.mode = 2
  | .again blk =>
    ((allFills s).any fun f => f.2.2.2.waiters.any fun x => match x with
      | .acc _ a => a.blk = blk
      | .cmd _ _ _ => false
      | .staged _ _ _ => false)
    || s.net.any fun m => match m with
      | .fetchw k _ _ => k = blk
      | _ => false

/-- Whether a resident block keeps its place against a waiting one. -/
def exempt (s : State) (b : Block) (w : Want) : Bool :=
  let l := s.launchOf b
  l.dyer.isSome || (l.det && b.b = l.head) || (w.key = b.launch && awaits s w)

/-- The lowest-ranked of some resident blocks. -/
def lowest (s : State) (bs : List (Nat × Block)) : Option Nat :=
  (bs.foldl (fun (r : Option (Nat × Block)) p => match r with
    | none => some p
    | some q => if rankLt (residentRank s q.2) (residentRank s p.2) then some p else some q) none).map Prod.fst

/-- Blocks of islands that lose their budget or their power leave in every case. -/
def clearIslands (s : State) : State :=
  ((running s).filter fun p => !islandOn s ((p.2.place.map Place.core).getD 0)).foldl (fun s p => (beginSwap s p.1).1) s

/-- Room for a reserved block: blocks of its core leave, lowest first, until it fits. -/
def leaveFor (core : Nat) (w : Want) : Nat → State → State
  | 0, s => s
  | n + 1, s =>
    let stay := (blocksOn s core).filter fun p => !p.2.leaving
    if (List.range 4).any fun q => fitsAmong s w.l (tileNeeds s w.l w.cand) (acOwed s core none) stay q then s
    else match lowest s (stay.filter fun p => p.2.runs && !exempt s p.2 w) with
      | some blk =>
        (match beginSwap s blk with
         | (s, true) => leaveFor core w n s
         | (s, false) => s)
      | none => s

/-- Room on every reserved core. -/
def clearReserved (s : State) : State :=
  s.reserve.foldl (fun s r => match (wants s).find? fun w => w.cand = r.2 with
    | some w => leaveFor r.1 w 32 s
    | none => s) s

/-- Whether a resident block has had its quantum at the end of one that began at `from_`. DEDUCED (log 37): a block has had it too
where it took room that the last end made, after a swap-out of at most half a quantum; R29's bounds could not hold otherwise. -/
def hadQuantum (s : State) (from_ : Nat) (b : Block) : Bool :=
  b.since + quantum s ≤ s.now || b.turn && 2 * (b.since - from_) ≤ quantum s

/-- For a waiting block, the lowest-ranked resident block of a core that it outranks and that has had its quantum leaves. -/
def swapFor (core from_ : Nat) (s : State) (w : Want) : State :=
  let outranked := (running s).filter fun p =>
    (p.2.place.map Place.core) = some core && rankLt (w.rank s) (residentRank s p.2) && hadQuantum s from_ p.2 && !exempt s p.2 w
  match lowest s outranked with
  | some blk =>
    (match beginSwap s blk with
     | (s, true) => s.modBlock blk fun b => { b with turn := true }
     | (s, false) => s)
  | none => s

/-- Whether a core is one that a waiting block could go to once it has room: a dyer stays on its die, and a reserved core is
kept. -/
def couldGo (s : State) (core : Nat) (w : Want) : Bool :=
  (match w.l.dyer with
   | some d => coreDie core = d.die
   | none => true) && s.reserve.all fun r => r.1 ≠ core || r.2 = w.cand

/-- What the end of a quantum does on one core (R423): a resident block leaves for each waiting block that outranks it. -/
def coreQuantum (from_ : Nat) (ws : List Want) (s : State) (core : Nat) : State :=
  (ws.filter (couldGo s core)).foldl (swapFor core from_) (s.modCore core fun c => { c with room := 0 })

/-- QUANTUM_END. -/
def execQuantumEnd (s₀ : State) : Result :=
  .next (if s₀.now < s₀.dev.qfrom + quantum s₀ then s₀
    else
      let s := checkReserve { s₀ with dev := { s₀.dev with qfrom := s₀.now } }
      let ws := ranked s
      let cores := (running s).foldl (fun l p => insertNat l ((p.2.place.map Place.core).getD 0)) []
      cores.foldl (coreQuantum s₀.dev.qfrom ws) (clearReserved (clearIslands s)))

/-! ## Accumulator deadlock (R394) -/

/-- The handle of a TALLOC in which a thread waits. -/
def Thread.allocs (t : Thread) : Option Nat :=
  match t.status with
  | .waiting (.alloc h) => some h
  | _ => none

/-- Whether a thread does not count against a block that is blocked in an AC allocation. -/
def Thread.acStuck (t : Thread) : Bool := t.status = .exited || t.allocs.isSome || t.blockedAt

/-- Whether a block is blocked in an AC allocation. -/
def acBlocked (b : Block) : Bool :=
  (b.threads.any fun t => t.2.allocs.isSome) && (b.threads.all fun t => t.2.acStuck)
  && (match b.front.status with
      | .done => true
      | .stalled (.dqRoom _) => true
      | .stalled (.event _ _ _ _) => true
      | _ => false)

/-- A block's launch stops because its swap-out cannot be made (R425). -/
def stopLaunch (s : State) (k : Nat) : State :=
  let bs := s.blocks.filter fun p => p.2.launch = k && (p.2.state = .resident || p.2.state = .swapped)
  finishLaunch (bs.foldl (fun s p => stopBlock s p.1) s) k { done := 3, fcause := 0x18, tinfo := 9 }

/-- The resident blocks of a core, if all of them are blocked in an AC allocation. -/
def acDeadlock (s : State) (core : Nat) : Option (List (Nat × Block)) :=
  let bs := (blocksOn s core).filter fun p => p.2.state = .resident
  if bs.isEmpty || !bs.all (fun p => acBlocked p.2 && p.2.runs) then none else some bs

/-- The allocations that the tiles of a leaving block are to meet, in ascending launch sequence number (R394): one for each handle
on which threads of a block wait, which the first of them allocates for all (R244). -/
def oweTiles (s : State) (core blk : Nat) : State :=
  let stay := (blocksOn s core).filter fun p => p.1 ≠ blk
  let used := stay.foldl (fun n p => n + max (s.launchOf p.2).acct (acHeld p.2)) 0
  let due := stay.flatMap fun p => (p.2.threads.filterMap fun t => t.2.allocs).eraseDups.map fun h => (p.1, h)
  s.modCore core fun c => { c with owed := due.take (64 - used) }

/-- AC_DEADLOCK_SWAPOUT: the youngest block leaves, one that has left before only when no older one is there. -/
def execAcDeadlockSwapout (core : Nat) (s : State) : Result :=
  .next (match acDeadlock s core with
    | none => s
    | some bs =>
      let first := (bs.head?.map Prod.fst).getD 0
      match (bs.filter fun p => !p.2.acOut || p.1 = first).getLast? with
      | none => s
      | some (blk, b) =>
        if logHeld s blk then s
        else match beginSwap s blk with
          | (s, true) => oweTiles (s.modBlock blk fun b => { b with acOut := true }) core blk
          | (s, false) => stopLaunch s b.launch)

/-! ## Retirement (R343, R291, R314) -/

/-- Whether a block may retire. -/
def mayRetire (s : State) (blk : Nat) (b : Block) : Bool :=
  b.state = .resident && b.place.isSome && (b.threads.all fun t => t.2.status = .exited) && b.front.status = .done
  && !hasCommands s blk && !blockUnacked s blk && !b.faults.any EngineFault.fatal

/-- BLOCK_RETIRE. -/
def execBlockRetire (blk : Nat) (s : State) : Result :=
  .next (match s.block blk with
    | none => s
    | some b =>
      if !mayRetire s blk b then s
      else
        let s := s.modLaunch b.launch fun l =>
          if l.det && !b.stage.isEmpty then { l with kept := tset l.kept b.b b.stage } else l
        let s := releaseBlock (s.modBlock blk fun b => { b with state := .retired, stage := [], leaving := false, saved := 0 }) blk
        let s := noteRetired s b.launch b.b
        match b.dyer with
        | some d => if d.done then s else poisonFill 16 s d.ctx d.rid d.base 1 0
        | none => s)

/-! ## The head of a deterministic launch (R291, R297) -/

/-- Staged marks of a write that has been released clear, but for bytes that another block has staged (R295). -/
def clearStaged (s : State) (w : Staged) : State :=
  let other := fun (i : Nat) => s.blocks.any fun p => (stagedByte p.2.stage (w.pa + i)).isSome
  let mask := ((List.range w.size).filter fun i => !other i).map fun i => w.pa + i
  { s with cores := tmap (fun _ c =>
      { c with l1 := tmap (fun line (l : L1Line) =>
          { l with staged := mask.foldl (fun m a => if a / 128 = line then withBit m (a % 128) false else m) l.staged }) c.l1 }) s.cores }

/-- A released write leaves the stage and is performed at its home (R291); a reduction on poisoned bytes takes ECCDATA (R286). -/
def releaseWrite (k b : Nat) (s : State) (w : Staged) : State :=
  let s := dropStaged s k b w.seq
  match w.op with
  | .store bs => clearStaged (homeWriteAll (bs.length / 128 + 2) (writeAtHome s k b w.pa w.va (List.range bs.length)) w.pa bs) w
  | .reduce op type v =>
    let n := if Sig.atomWide type then 8 else 4
    let s := dropCopies s (lineOf w.pa)
    if lineBad s (lineOf w.pa) then failStaged s k b w (some { reg := 0, count := 0 }) causeEccdata 0
    else
      let v := atomicNew op type (homeNum s w.pa n) (v.toNat % 2 ^ (8 * n)) 0
      ownHost (dirtyHome { s with mem := s.mem.setNum w.pa n v } (lineOf w.pa) (byteMask (w.pa % 128) n)) (lineOf w.pa)

/-- The procedural block that a released write meets, unless it is FILLED (R311). -/
def unfilledFor (s : State) (ctx : Nat) (w : Staged) : Option (Nat × Nat) :=
  (rangeOf s ctx w.va.toNat).filter fun r => (getFill s ctx r.1 r.2).fill ≠ .filled

/-- A released write waits at the home of its procedural block, where it starts the fill (R311, R319). -/
def askStaged (s : State) (ctx rid base k b : Nat) (w : Staged) : State :=
  let x := Waiter.staged k b w.seq
  if (getFill s ctx rid base).waiters.contains x || s.net.any (fun m => match m with
    | .prRequest _ _ _ y _ _ _ _ => y = x
    | _ => false) then s
  else prHandle s ctx rid base x true none (w.pa - (w.va.toNat - base)) w.coh

/-- The stage of a block is released in order, up to a write that waits for its procedural block (R291, R319); on a POISONED one
its thread takes PRFILL (R311). -/
def releaseStage (k b ctx : Nat) : Nat → State → State
  | 0, s => s
  | n + 1, s =>
    match (stageOf s k b).head? with
    | none => s
    | some w =>
      match unfilledFor s ctx w with
      | none => releaseStage k b ctx n (releaseWrite k b s w)
      | some (rid, base) =>
        match (getFill s ctx rid base).fill with
        | .poisoned sub _ => releaseStage k b ctx n (failStaged s k b w none causePrfill sub)
        | _ => askStaged s ctx rid base k b w

/-- The L1 lines that hold bytes of a launch's head that have not left for their homes (R294): by core and line. -/
def notedLines (s : State) (launch : Nat) : List (Nat × Nat) :=
  s.cores.flatMap fun c => (c.2.l1.filter fun l => l.2.notes.any fun x => x.launch = launch).map fun l => (c.1, l.1)

/-- Whether bytes of a launch's head are on their way to their homes. -/
def notedMessage (s : State) (launch : Nat) : Bool := s.net.any fun m => match m with
  | .writeback _ _ _ _ _ ns => ns.any fun x => x.launch = launch
  | .rest _ _ _ _ _ ns => ns.any fun x => x.launch = launch
  | _ => false

/-- NEW_HEAD: what the head wrote under COH 01 reaches its homes first (R294); then the next block's stage is released, and when
all of it has been performed, that block becomes the head. -/
def execNewHead (launch : Nat) (s : State) : Result :=
  .next (match tget s.launches launch with
    | none => s
    | some l =>
      if !l.det || !l.retired.contains l.head || l.nblocks ≤ l.head + 1 then s
      else if !(notedLines s launch).isEmpty || notedMessage s launch then
        (notedLines s launch).foldl (fun s x => writeBackLine s x.1 x.2 none) s
      else
        let n := l.head + 1
        let s := releaseStage launch n l.ctxIdx (stageOf s launch n).length s
        if !(stageOf s launch n).isEmpty then s
        else
          let from_ := ((blockOf s launch n).map fun p => p.2.cycles).getD 0
          checkLaunch (s.modLaunch launch fun l => { l with kept := tdel l.kept n, head := n, headFrom := from_ }) launch)

/-- The Belay limit (R297). -/
def belayLimit (l : Launch) : Nat := if l.blim = 0 then 2 ^ 26 else l.blim

/-- The higher blocks of a launch that hold staged writes, rising. -/
def stagedAbove (s : State) (k : Nat) (l : Launch) : List (Nat × List Staged) :=
  let held := (s.blocks.filter fun p => p.2.launch = k && l.head < p.2.b && !p.2.stage.isEmpty).map fun p => (p.2.b, p.2.stage)
  held.foldl (fun t x => tset t x.1 x.2) (l.kept.filter fun x => l.head < x.1)

/-- Whether a thread takes BELAYTMO. -/
def Thread.belays (t : Thread) : Bool :=
  match t.status with
  | .active _ _ => true
  | .ready => true
  | .waiting (.sleep _) => true
  | _ => false

/-- Whether the limit of a head block has passed. -/
def belayLate (l : Launch) (b : Block) : Bool :=
  l.det && b.state = .resident && l.headFrom + belayLimit l ≤ b.cycles

/-- BELAY_LIMIT_EXPIRY. -/
def execBelayLimitExpiry (launch : Nat) (s : State) : Result :=
  .next (match tget s.launches launch with
    | none => s
    | some l =>
      match blockOf s launch l.head, stagedAbove s launch l with
      | some (blk, b), (_, w :: _) :: rest =>
        let ts := b.threads.filter fun t => t.2.belays
        if !belayLate l b || !b.runs || ts.isEmpty then s
        else
          let s := s.modLaunch launch fun l => { l with headFrom := b.cycles }
          takeTrapsCount s blk (min ts.length 32) (ts.map fun t =>
            ⟨t.1, causeBelaytmo, t.2.pc, w.va, min (rest.length + 1) 0xFFFF, none⟩)
      | _, _ => s)

/-! ## Commands that wait (R366, R412) -/

/-- COMMAND_ACCEPTANCE: a command takes its entry, and its front thread goes on. -/
def execCommandAcceptance (core n : Nat) (s : State) : Result :=
  .next (match (s.core core).cmds.find? fun c => c.id = n && !c.accepted with
    | none => s
    | some c =>
      let s' := s.modCore core fun k => { k with cmds := k.cmds.filter fun x => x.id ≠ n }
      let last := !s'.cores.any fun k => k.2.cmds.any fun x => x.blk = c.blk && !x.accepted && c.id < x.id
      let wake := fun (s : State) => s.modFront c.blk fun f => if last && f.status = .stalled .command then f.resume else f
      match c.kind with
      | .tce _ _ _ => if tceReady s' core c then wake (acceptTce s' core c) else s
      | .col _ _ _ => if colReady s' core c then wake (takeEntry s' core c) else s
      | _ => s)

end Sys2Proof.Machine
end

