-- ==== Sys2Proof/Machine/Device.lean ====
section
/-! DEFINITION. The host link, resets, HBM housekeeping, service levels, power islands, attestation and the management
window (R449 to R461). -/

namespace Sys2Proof.Machine

/-- Changing the device's registers. -/
def State.modDev (s : State) (f : Dev → Dev) : State := { s with dev := f s.dev }

/-- Raising an MSI-X vector (R449). -/
def Dev.raise (d : Dev) (v : Nat) : Dev := { d with msix := d.msix ++ [v] }

/-! ## The management window (R461) -/

/-- RSTAT.DOMERR (R458). -/
def domErr (s : State) : Bool := decide (field s.dev.domcfg 7 0 < field s.dev.domcfg 15 8)

/-- ISLSTAT (R459). -/
def islstat (i : Island) : Nat :=
  i.energy.toNat * 2 ^ 32 + i.tband.toNat * 2 ^ 13 + boolBit i.rej * 2 ^ 5 + boolBit (i.budget = 0) * 2 ^ 4 + boolBit i.ovb * 2 ^ 3
    + i.vfs.toNat

/-- CELOG (R454). -/
def celog (d : Dev) : Nat := d.cethr.toNat * 2 ^ 48 + d.celast.toNat * 2 ^ 32 + d.cecount.toNat

/-- Whether the firmware is verified: the three stages of R460, none of which has failed. -/
def Dev.verified (d : Dev) : Bool := d.stages = 3 && !d.atterr

/-- Byte `i` of ATTREP (R460): 0 at reset (R461), the certificate from the verification of the firmware on (log 11). -/
def attByte (d : Dev) (i : Nat) : Byte :=
  if i < 0x140 then BitVec.ofNat 8 (d.report.toNat >>> (8 * i))
  else if i < 0x1B2 then (if !d.attdone then 0 else BitVec.ofNat 8 ((Config.signature d.report).toNat >>> (8 * (i - 0x140))))
  else if d.verified && 0x200 ≤ i && i < 0x800 then Config.certificate (i - 0x200)
  else 0

/-- What reading a register of BAR2 gives; write-only registers and every other offset read 0. -/
def bar2 (s : State) (off : Nat) : Nat :=
  let d := s.dev
  match off with
  | 0x0000 => d.svcl
  | 0x0004 => boolBit d.flushed + 2 * boolBit (domErr s)
  | 0x0008 => d.domcfg.toNat
  | 0x0010 => d.qnt.toNat
  | 0x0018 => d.spbase.toNat
  | 0x0020 => d.spsize.toNat
  | 0x0040 => d.fqbase.toNat
  | 0x0048 => d.fqsize.toNat
  | 0x004C => d.fqhead.toNat
  | 0x0050 => d.fqtail.toNat
  | 0x0054 => boolBit d.fqbusy + 2 * boolBit d.fqerr
  | 0x0060 => d.ftmo.toNat
  | 0x0068 => d.tlbinv.toNat
  | 0x0078 => d.tlbva.toNat
  | 0x0100 => d.rht.toNat
  | 0x0108 => celog d
  | 0x0228 => boolBit d.attbusy + 2 * boolBit d.attdone + 4 * boolBit d.atterr
  | _ =>
    if 0x400 ≤ off && off < 0xC00 then leValue ((List.range 8).map fun i => attByte d (off - 0x400 + i))
    else if 0x1000 ≤ off && off < 0x1800 && off % 8 = 0 then (s.island ((off - 0x1000) / 8)).cmd.toNat
    else if 0x1800 ≤ off && off < 0x2000 && off % 8 = 0 then islstat (s.island ((off - 0x1800) / 8))
    else 0

/-- A read of the window is answered with eight bytes. -/
def answer (s : State) (v : Nat) : State := { s with reply := leBytes 8 v, replyBad := false }

/-- A 64-bit part of ATTNONCE. -/
def setNonce (n : BitVec 256) (i : Nat) (v : Quad) : BitVec 256 :=
  BitVec.ofNat 256 (n.toNat % 2 ^ (64 * i) + v.toNat * 2 ^ (64 * i) + n.toNat / 2 ^ (64 * i + 64) * 2 ^ (64 * i + 64))

/-- REGISTER_WRITE: the registers that only hold a value. -/
def execRegisterWrite (off : Nat) (v : BitVec 64) (s : State) : Result :=
  let w : Word := v.truncate 32
  .next (s.modDev fun d => match off with
    | 0x0010 => { d with qnt := w }
    | 0x0018 => { d with spbase := v }
    | 0x0020 => { d with spsize := v }
    | 0x0040 => { d with fqbase := v }
    | 0x0060 => { d with ftmo := w }
    | 0x0078 => if tlbBusy d.tlbinv then d else { d with tlbva := BitVec.ofNat 64 (field v 56 16 * 65536) }
    | 0x0108 => { d with cethr := BitVec.ofNat 16 (field v 63 48) }
    | 0x0200 => { d with nonce := setNonce d.nonce 0 v }
    | 0x0208 => { d with nonce := setNonce d.nonce 1 v }
    | 0x0210 => { d with nonce := setNonce d.nonce 2 v }
    | 0x0218 => { d with nonce := setNonce d.nonce 3 v }
    | _ => d)

/-! ## The host and device memory (R450, R451) -/

/-- Whether an address lies in the save pool (R425). -/
def inPool (d : Dev) (pa : Nat) : Bool := d.spbase.toNat ≤ pa && pa < d.spbase.toNat + d.spsize.toNat

/-- What the host reads in local HBM: a byte of the save pool is free (log 15). -/
def hostBytes (s : State) (pa n : Nat) : List Byte :=
  (homeBytes s pa n).mapIdx fun i v => if inPool s.dev (pa + i) then Config.poolByte s.now (pa + i) else v

/-- CXL_MEM_ACCESS: served at the line's home, an L1 owner recalled first; during the move of R457 it waits at the link. -/
def execCxlMemAccess (pa : Nat) (wr : Option (List Byte)) (len : Nat) (s : State) : Result :=
  let line := lineOf pa
  let n := (wr.map List.length).getD len
  .next (if s.dev.svcl = 0 || s.dev.moving || region s pa ≠ .localHbm || 128 < pa % 128 + n then s
    else if !lineReady s line then fetchLine s line
    else
      let s := enterLine s line
      match wr with
      | some bs => { homeWrite s pa bs with reply := [], replyBad := false }
      | none =>
        let s := recallOwner s line
        { s with reply := hostBytes s pa len, replyBad := lineBad s line })

/-- The host takes a line from the device, or only its sole ownership. -/
def dropHost (s : State) (line : Nat) (inval : Bool) : State :=
  let s := if inval then { dropCopies s line with home := tdel (dropCopies s line).home line } else recallOwner s line
  s.modDev fun d =>
    { d with hostOwned := d.hostOwned.filter (· ≠ line)
             hostShared := if inval then d.hostShared.filter (· ≠ line) else insertNat d.hostShared line }

/-- HOST_SNOOP (R451): a line held M or O is supplied, one held E or S goes without data. -/
def execHostSnoop (line : Nat) (inval : Bool) (s : State) : Result :=
  .next (if s.dev.poisoned.contains line then { s with reply := [], replyBad := true }
    else if s.dev.hostOwned.contains line then
      let s := recallOwner s line
      dropHost { s with reply := homeBytes s (128 * line) 128, replyBad := lineBad s line } line inval
    else if s.dev.hostShared.contains line then dropHost { s with reply := [], replyBad := false } line inval
    else { s with reply := [], replyBad := false })

/-- LINK_UP (R449). -/
def execLinkUp (width gts : Nat) (s : State) : Result :=
  .next (if (width = 16 || width = 8) && (gts = 128 || gts = 64 || gts = 32) then
      s.modDev fun d => { d with linkUp := true, linkWidth := width, linkSpeed := gts }
    else s)

/-! ## Resets (R452, R455) -/

/-- The machine after a reset of a powered device: reset values, but for what stands outside the reset: HBM, the link, and
the record of lost host lines and the vectors that have been raised; a service level that falls raises vector 1 (R455). -/
def resetState (s : State) (lost : List Nat) : State :=
  { State.reset with
    mem := s.mem
    poison := s.poison
    nfree := s.nfree
    dev := { State.reset.dev with
      poisoned := lost.foldl insertNat s.dev.poisoned
      msix := s.dev.msix ++ if s.dev.svcl = 0 then [] else [1]
      linkUp := s.dev.linkUp
      linkWidth := s.dev.linkWidth
      linkSpeed := s.dev.linkSpeed } }

/-- A planned reset: every host line is written back and dropped, FLUSHED reports it, and the reset comes next. -/
def flushHost (s : State) : State :=
  let s := (s.dev.hostOwned ++ s.dev.hostShared).foldl dropCopies s
  { s.modDev (fun d => { d with hostOwned := [], hostShared := [], flushed := true, resetting := true }) with agenda := [] }

/-- The lines that an unplanned reset loses. -/
def loseHost (s : State) : State := resetState s s.dev.hostOwned

/-- PLANNED_RESET: a write of 0x0A5E to RESET. -/
def execPlannedReset (v : BitVec 32) (s : State) : Result := .next (if v = 0x0A5E then flushHost s else s)

/-- CXL_RESET. -/
def execCxlReset (s : State) : Result := .next (flushHost s)

/-- LINK_DOWN. -/
def execLinkDown (s : State) : Result :=
  .next ((loseHost s).modDev fun d => { d with linkUp := false, linkWidth := 0, linkSpeed := 0 })

/-- WATCHDOG_RESET. -/
def execWatchdogReset (s : State) : Result := .next (loseHost s)

/-- THERMAL_TRIP: the package halts (R459). -/
def execThermalTrip (s : State) : Result := .next ((loseHost s).modDev fun d => { d with halted := true })

/-- POWER_ON_RESET: from cold. -/
def execPowerOnReset (s : State) : Result := .next { State.reset with nfree := s.nfree }

/-- CLRPOISON: bit 2 of a write to RSTAT. -/
def execClrpoison (v : BitVec 32) (s : State) : Result :=
  .next (if bit v 2 then s.modDev fun d => { d with poisoned := [] } else s)

/-! ## HBM housekeeping (R453, R454) -/

/-- ROW_REFRESH: a periodic refresh keeps the row's data and its counter. -/
def execRowRefresh (_ : Nat) (s : State) : Result := .next s

/-- PATROL_SCRUB. -/
def execPatrolScrub (line : Nat) (err : EccOutcome) (s : State) : Result :=
  .next (if s.dev.svcl ≠ 0 && region s (128 * line) = .localHbm then hbmCheck s line err else s)

/-- ACTIVATION_THRESHOLD: the neighbours are refreshed and the counter is cleared; a counter below RHT that counts as having
reached it has failed its check, which is logged. -/
def execActivationThreshold (row : Nat) (s : State) : Result :=
  .next (s.modDev fun d =>
    let d' := { d with acts := tdel d.acts row }
    if actCount s row < d.rht.toNat then logCorrectable d' 3 else d')

/-- RHT_WRITE. -/
def execRhtWrite (v : BitVec 32) (s : State) : Result :=
  .next (if 256 ≤ v.toNat && v.toNat ≤ 65535 then s.modDev fun d => { d with rht := v } else s)

/-- CELOG_READ: LAST and COUNT clear. -/
def execCelogRead (s : State) : Result :=
  .next ((answer s (bar2 s 0x108)).modDev fun d => { d with celast := 0, cecount := 0 })

/-! ## Power islands (R459, R456) -/

def State.modIsland (s : State) (n : Nat) (f : Island → Island) : State :=
  s.modDev fun d => { d with islands := tset d.islands n (f (s.island n)) }

/-- Whether an island takes a commanded state now: below service level 2 a core island of die 0 runs at 0 or 2 (R455, R456). DESIGN
CHOICE (log 101): an island that is no core's takes state 0 once every core of its die has been commanded to it, and goes down
with the die; a core island does not come up on a die that is down. -/
def vfsAllowed (s : State) (n vfs : Nat) : Bool :=
  if n % 64 < 40 then vfs = 0 || (s.dev.svcl = 2 || 64 ≤ n || vfs = 2) && !dieOff s (n / 64)
  else 5 ≤ vfs || vfs = 0 && coresOff s (n / 64)

/-- ISLCMD_WRITE: an island refuses a state, not the budget and duty beside it. -/
def execIslcmdWrite (n : Nat) (v : BitVec 64) (s : State) : Result :=
  .next (if 256 ≤ n then s
    else s.modIsland n fun i =>
      let rest := field v 47 32 * 2 ^ 32 + field v 10 8 * 2 ^ 8
      if vfsAllowed s n (field v 2 0) then { i with cmd := BitVec.ofNat 64 (rest + field v 2 0) }
      else { i with cmd := BitVec.ofNat 64 (rest + field i.cmd 2 0), rej := true })

/-- ISLSTAT_READ: REJ clears. -/
def execIslstatRead (n : Nat) (s : State) : Result :=
  .next (if 256 ≤ n then s else (answer s (bar2 s (0x1800 + 8 * n))).modIsland n fun i => { i with rej := false })

/-- VFS_CHANGE_COMPLETE; a core island reaches state 0 by gating. -/
def execVfsChangeComplete (n : Nat) (s : State) : Result :=
  .next (if 256 ≤ n || field (s.island n).cmd 2 0 = 0 then s
    else s.modIsland n fun i => { i with vfs := BitVec.ofNat 3 (field i.cmd 2 0) })

/-- The core of a core island. -/
def islandCore (n : Nat) : Nat := n / 64 * 40 + n % 64

/-- Whether a core island has nothing left to do. -/
def coreIdle (s : State) (core : Nat) : Bool :=
  let c := s.core core
  (blocksOn s core).isEmpty && c.pend.isEmpty && c.stores.isEmpty && c.aged.isEmpty && c.skeinQ.isEmpty

/-- A core's L1 is written back and invalidated, and its hanks return to their pools (R299). -/
def clearCore (s : State) (core : Nat) : State :=
  let s := ((s.core core).l1.map Prod.fst).foldl (fun s l => evictLine s core l) s
  (s.core core).hanks.foldl (fun s h => dropHank s core h) s

/-- Whether a die can be powered down: all of it is commanded so, its cores are gated, and no request of it to the host is open. -/
def dieIdle (s : State) (die : Nat) : Bool :=
  dieStops s die && ((List.range 40).all fun i => (s.island (64 * die + i)).vfs = 0) && s.net.all fun m => match m with
    | .hostLine l _ => lineDie s l ≠ die
    | .hostOwn l => lineDie s l ≠ die
    | _ => true

/-- What R452 does before a die's L2-group islands are powered down: the host lines of its slices go back to the host, what its
slices hold of other lines to their homes, and FLUSHED reports it. -/
def flushDie (s : State) (die : Nat) : State :=
  let mine := fun (l : Nat) => decide (lineDie s l = die)
  let s' := ((s.home.map Prod.fst ++ s.dev.hostOwned ++ s.dev.hostShared).filter mine).foldl dropCopies s
  { s' with
    home := s'.home.filter fun h => !mine h.1
    proxies := s'.proxies.filter fun p => p.1 / 2 ^ 45 ≠ die
    dev := { s'.dev with hostOwned := s'.dev.hostOwned.filter (fun l => !mine l), flushed := true
                         hostShared := s'.dev.hostShared.filter fun l => !mine l } }

/-- ISLAND_GATE: a core island; or, with all of its other islands, a die (log 101). -/
def execIslandGate (n : Nat) (s : State) : Result :=
  let i := s.island n
  .next (if 256 ≤ n || field i.cmd 2 0 ≠ 0 || i.vfs = 0 then s
    else if n % 64 < 40 then
      if !coreIdle s (islandCore n) then s else (clearCore s (islandCore n)).modIsland n fun i => { i with vfs := 0 }
    else if !dieIdle s (n / 64) then s
    else (dieIslands (n / 64)).foldl (fun s k => s.modIsland k fun i => { i with vfs := 0 }) (flushDie s (n / 64)))

/-- ENERGY_WINDOW: a window ends; its energy is reported, and OVB clears as the next begins. -/
def execEnergyWindow (n : Nat) (mj : BitVec 32) (s : State) : Result :=
  .next (if 256 ≤ n then s else s.modIsland n fun i => { i with energy := mj, ovb := false })

/-- TEMPERATURE_BAND_CHANGE: vector 3 when a band reaches 7. -/
def execTemperatureBandChange (n : Nat) (band : BitVec 3) (s : State) : Result :=
  .next (if 256 ≤ n then s
    else
      let hot := band = 7 && (s.island n).tband ≠ 7
      (s.modIsland n fun i => { i with tband := band }).modDev fun d => if hot then d.raise 3 else d)

/-! ## Service levels (R455, R457, R458) -/

/-- Service level 1, once the firmware is verified and die 0 is trained (R455). -/
def Dev.rise (d : Dev) : Dev := if d.svcl = 0 && d.verified && d.trained then { d with svcl := 1 }.raise 1 else d

/-- FIRMWARE_VERIFY (R460): the next of the three stages; one that fails leaves the device at level 0 with ERR set. -/
def execFirmwareVerify (ok : Bool) (s : State) : Result :=
  .next (if s.dev.svcl ≠ 0 || s.dev.atterr || s.dev.stages = 3 then s
    else s.modDev fun d => if ok then { d with stages := d.stages + 1 }.rise else { d with atterr := true })

/-- DIE0_TRAINED. -/
def execDie0Trained (s : State) : Result := .next (s.modDev fun d => { d with trained := true }.rise)

/-- DOMCFG_WRITE (R458). -/
def execDomcfgWrite (v : BitVec 64) (s : State) : Result :=
  .next (if s.dev.svcl < 2 then s.modDev fun d => { d with domcfg := v &&& 0xFFFF } else s)

/-- Whether a command of an engine will still move by itself: one that waits on the host, on a fill, on another device or for a
block that is swapped out does not. -/
def cmdMoves (s : State) (core : Nat) (c : Cmd) : Bool :=
  c.accepted && !c.blocked && (match c.kind with
    | .tce sub desc ga => c.path ≤ 1 && !(tcePlan s core sub desc ga c).wait
    | .col _ _ _ => c.started
    | _ => c.path = 2 && (c.started || !(mxNext (s.core core)).any fun x =>
        (cmdPeers x).any fun b => ((s.block b).bind Block.place).isNone))

/-- Whether the head of an aged queue can proceed: else all that it waits for is held by misses on the host or on a fill. -/
def agedMoves (c : Core) : Bool := c.aged.head?.any fun w => agedFree c || hasEntry c w.acc.line

/-- Whether what has been issued is over, but for what waits on the host or on a fill (R457, step 1). -/
def quiet (s : State) : Bool :=
  s.walks.isEmpty && (s.net.all fun m => match m with
    | .hostLine _ _ => true
    | .hostOwn _ => true
    | _ => false)
  && s.cores.all fun c => !agedMoves c.2 && !c.2.cmds.any (cmdMoves s c.1)

/-- A line of local HBM leaves every cache, its dirty bytes to its home (R457, step 2). -/
def recallLocal (s : State) : State :=
  let here := fun (line : Nat) => decide (line < 2 ^ 32)
  let s := s.cores.foldl (fun s p => p.2.l1.foldl (fun s x =>
    if here x.1 then mergeHome (x.2.notes.foldl (fun s n => noteHome s x.1 n) s) x.1 (x.2.dirty &&& ~~~x.2.staged) x.2.data
    else s) s) s
  { s with
    cores := tmap (fun _ c => { c with l1 := c.l1.filter fun x => !here x.1 }) s.cores
    clusters := tmap (fun _ ls => ls.filter fun l => !here l) s.clusters
    proxies := s.proxies.filter fun p => !here (p.1 % 2 ^ 45)
    home := s.home.filter fun h => !here h.1 }

/-- Every hank returns to its pool. -/
def recallHanks (s : State) : State :=
  s.cores.foldl (fun s c => c.2.hanks.foldl (fun s h =>
    poolAdd (allHanksOf s c.1 h) h.ctx h.k h.hank) s) s
where
  /-- One core's hank becomes 0. -/
  allHanksOf (s : State) (core : Nat) (h : Hank) : State :=
    s.modCore core fun c => { c with hanks := c.hanks.map fun g => if g.is h.ctx h.k then { g with hank := 0 } else g }

/-- HBM_LAYOUT_MOVE: with every die trained issue pauses, and when what was issued is over the full-service layout takes
effect. -/
def execHbmLayoutMove (s : State) : Result :=
  .next (if s.dev.svcl ≠ 1 || domErr s then s
    else if !s.dev.moving then s.modDev fun d => { d with moving := true }
    else if !quiet s then s
    else
      let s := (recallHanks (recallLocal s)).modDev fun d => { d with svcl := 2, moving := false }.raise 1
      { s with hbm := s.hbm.map fun h => { h with slice := lineSlice s h.line, issued := false } })

/-! ## Attestation (R460) -/

/-- ATTESTATION_REQUEST: a write of 1 to ATTCMD, ignored while BUSY. -/
def execAttestationRequest (v : BitVec 32) (s : State) : Result :=
  .next (if s.dev.attbusy || v ≠ 1 then s else s.modDev fun d => { d with attbusy := true, attdone := false })

/-- The signed bytes of a report: nonce, service level, fuse revision, measurements. -/
def attReport (d : Dev) : BitVec 2560 :=
  let m := fun (i : Nat) => (Config.measurement i).toNat <<< (8 * (0x40 + 64 * i))
  BitVec.ofNat 2560 (d.nonce.toNat + d.svcl <<< (8 * 0x20) + Config.fuseRevision.toNat <<< (8 * 0x24) + m 0 + m 1 + m 2 + m 3)

/-- ATTESTATION_DONE. -/
def execAttestationDone (s : State) : Result :=
  .next (if s.dev.attbusy then
      s.modDev fun d => { d with attbusy := false, attdone := true, report := attReport d }
    else s)

end Sys2Proof.Machine
end

