-- ==== Sys2Proof/Machine/FloatOps.lean ====
section
/-! DEFINITION. Floating-point instructions (R141 to R171): the operations of Float over the source values, with the
rounding mode of the group, sat and the FPE rule. All are lane-only. -/

namespace Sys2Proof.Machine

/-- A floating-point instruction whose result is in format `fm`, clamped where sat asks for it (R152). -/
def floatOp (fm : Fmt) (f : RMode → Vals → FRes) (i : Instr) (s : State) : Result :=
  issue s i (eachMember (floatMember fun t g v => withSat fm g.sat (f (modeOf t g) v))) noFront

/-- An instruction whose result is no floating-point value: sat has no effect (R152). -/
def testOp (f : RMode → Vals → FRes) (i : Instr) (s : State) : Result :=
  issue s i (eachMember (floatMember fun t g v => f (modeOf t g) v)) noFront

/-- A two-source operation and the fused multiply-add on the source values. -/
def bin (f : Fmt → RMode → Nat → Nat → FRes) (fm : Fmt) (m : RMode) (v : Vals) : FRes := f fm m v.a.toNat v.b.toNat
def fma (fm : Fmt) (m : RMode) (v : Vals) : FRes := ffma fm m v.a.toNat v.b.toNat v.c.toNat

/-- A packed instruction: each element by itself (R142, R149). -/
def packedOp (fm : Fmt) (f : RMode → Nat → Nat → Nat → FRes) (i : Instr) (s : State) : Result :=
  issue s i (eachMember (floatMember fun t g v =>
    let lo := fun x : Quad => x.toNat % 2 ^ 16
    let hi := fun x : Quad => x.toNat / 2 ^ 16 % 2 ^ 16
    packed (withSat fm g.sat (f (modeOf t g) (lo v.a) (lo v.b) (lo v.c)))
      (withSat fm g.sat (f (modeOf t g) (hi v.a) (hi v.b) (hi v.c))))) noFront

/-- CVT.F8.F32, with the thread's format and saturation (R145, R170). -/
def f8Op (i : Instr) (s : State) : Result :=
  issue s i (eachMember (floatMember fun t g v =>
    withSat (if t.e5m2 then e5m2 else e4m3) g.sat (toF8 t.e5m2 t.f8sat (modeOf t g) v.a.toNat))) noFront

/-- CVT.F32.F8 (R169). -/
def fromF8Op (i : Instr) (s : State) : Result :=
  issue s i (eachMember (floatMember fun t g v => withSat fp32 g.sat (fromF8 t.e5m2 (v.a.toNat % 256)))) noFront

/-! ## The instructions -/

/-- FADD (R156). -/
def execFadd (b a : BitVec 8) (n : BitVec 1) (d : BitVec 6) (s : State) : Result :=
  floatOp fp32 (bin fadd fp32) (.fadd b a n d) s

/-- FSUB (R156). -/
def execFsub (b a : BitVec 8) (n : BitVec 1) (d : BitVec 6) (s : State) : Result :=
  floatOp fp32 (bin fsub fp32) (.fsub b a n d) s

/-- FMUL (R156). -/
def execFmul (b a : BitVec 8) (n : BitVec 1) (d : BitVec 6) (s : State) : Result :=
  floatOp fp32 (bin fmul fp32) (.fmul b a n d) s

/-- FFMA (R156). -/
def execFfma (b a : BitVec 8) (n : BitVec 1) (d : BitVec 6) (s : State) : Result :=
  floatOp fp32 (fma fp32) (.ffma b a n d) s

/-- FMIN (R157). -/
def execFmin (b a : BitVec 8) (n : BitVec 1) (d : BitVec 6) (s : State) : Result :=
  floatOp fp32 (fun _ v => fminmax fp32 false v.a.toNat v.b.toNat) (.fmin b a n d) s

/-- FMAX (R157). -/
def execFmax (b a : BitVec 8) (n : BitVec 1) (d : BitVec 6) (s : State) : Result :=
  floatOp fp32 (fun _ v => fminmax fp32 true v.a.toNat v.b.toNat) (.fmax b a n d) s

/-- FMINN (R157). -/
def execFminn (b a : BitVec 8) (n : BitVec 1) (d : BitVec 6) (s : State) : Result :=
  floatOp fp32 (fun _ v => fminmaxNum fp32 false v.a.toNat v.b.toNat) (.fminn b a n d) s

/-- FMAXN (R157). -/
def execFmaxn (b a : BitVec 8) (n : BitVec 1) (d : BitVec 6) (s : State) : Result :=
  floatOp fp32 (fun _ v => fminmaxNum fp32 true v.a.toNat v.b.toNat) (.fmaxn b a n d) s

/-- FDIV (R156). -/
def execFdiv (b a : BitVec 8) (n : BitVec 1) (d : BitVec 6) (s : State) : Result :=
  floatOp fp32 (bin fdiv fp32) (.fdiv b a n d) s

/-- FSQRT (R156). -/
def execFsqrt (a : BitVec 8) (n : BitVec 1) (d : BitVec 6) (s : State) : Result :=
  floatOp fp32 (fun m v => fsqrt fp32 m v.a.toNat) (.fsqrt a n d) s

/-- FABS (R161). -/
def execFabs (a : BitVec 8) (n : BitVec 1) (d : BitVec 6) (s : State) : Result :=
  floatOp fp32 (fun _ v => ⟨fp32.mag v.a.toNat, 0, false⟩) (.fabs a n d) s

/-- FNEG (R161). -/
def execFneg (a : BitVec 8) (n : BitVec 1) (d : BitVec 6) (s : State) : Result :=
  floatOp fp32 (fun _ v => ⟨flipSign fp32 v.a.toNat, 0, false⟩) (.fneg a n d) s

/-- FRND (R163). -/
def execFrnd (a : BitVec 8) (n : BitVec 1) (d : BitVec 6) (s : State) : Result :=
  floatOp fp32 (fun m v => frnd fp32 m v.a.toNat) (.frnd a n d) s

/-- FSCALE (R164). -/
def execFscale (b a : BitVec 8) (n : BitVec 1) (d : BitVec 6) (s : State) : Result :=
  floatOp fp32 (fun m v => fscale fp32 m v.a.toNat (v.b.truncate 32 : Word).toInt) (.fscale b a n d) s

/-- FCLASS (R162). -/
def execFclass (a : BitVec 8) (n : BitVec 1) (d : BitVec 6) (s : State) : Result :=
  testOp (fun _ v => ⟨fclass fp32 v.a.toNat, 0, false⟩) (.fclass a n d) s

/-- DADD (R156). -/
def execDadd (b a : BitVec 8) (n : BitVec 1) (d : BitVec 6) (s : State) : Result :=
  floatOp fp64 (bin fadd fp64) (.dadd b a n d) s

/-- DSUB (R156). -/
def execDsub (b a : BitVec 8) (n : BitVec 1) (d : BitVec 6) (s : State) : Result :=
  floatOp fp64 (bin fsub fp64) (.dsub b a n d) s

/-- DMUL (R156). -/
def execDmul (b a : BitVec 8) (n : BitVec 1) (d : BitVec 6) (s : State) : Result :=
  floatOp fp64 (bin fmul fp64) (.dmul b a n d) s

/-- DFMA (R156). -/
def execDfma (b a : BitVec 8) (n : BitVec 1) (d : BitVec 6) (s : State) : Result :=
  floatOp fp64 (fma fp64) (.dfma b a n d) s

/-- DMIN (R157). -/
def execDmin (b a : BitVec 8) (n : BitVec 1) (d : BitVec 6) (s : State) : Result :=
  floatOp fp64 (fun _ v => fminmax fp64 false v.a.toNat v.b.toNat) (.dmin b a n d) s

/-- DMAX (R157). -/
def execDmax (b a : BitVec 8) (n : BitVec 1) (d : BitVec 6) (s : State) : Result :=
  floatOp fp64 (fun _ v => fminmax fp64 true v.a.toNat v.b.toNat) (.dmax b a n d) s

/-- DMINN (R157). -/
def execDminn (b a : BitVec 8) (n : BitVec 1) (d : BitVec 6) (s : State) : Result :=
  floatOp fp64 (fun _ v => fminmaxNum fp64 false v.a.toNat v.b.toNat) (.dminn b a n d) s

/-- DMAXN (R157). -/
def execDmaxn (b a : BitVec 8) (n : BitVec 1) (d : BitVec 6) (s : State) : Result :=
  floatOp fp64 (fun _ v => fminmaxNum fp64 true v.a.toNat v.b.toNat) (.dmaxn b a n d) s

/-- DDIV (R156). -/
def execDdiv (b a : BitVec 8) (n : BitVec 1) (d : BitVec 6) (s : State) : Result :=
  floatOp fp64 (bin fdiv fp64) (.ddiv b a n d) s

/-- DSQRT (R156). -/
def execDsqrt (a : BitVec 8) (n : BitVec 1) (d : BitVec 6) (s : State) : Result :=
  floatOp fp64 (fun m v => fsqrt fp64 m v.a.toNat) (.dsqrt a n d) s

/-- DABS (R161). -/
def execDabs (a : BitVec 8) (n : BitVec 1) (d : BitVec 6) (s : State) : Result :=
  floatOp fp64 (fun _ v => ⟨fp64.mag v.a.toNat, 0, false⟩) (.dabs a n d) s

/-- DNEG (R161). -/
def execDneg (a : BitVec 8) (n : BitVec 1) (d : BitVec 6) (s : State) : Result :=
  floatOp fp64 (fun _ v => ⟨flipSign fp64 v.a.toNat, 0, false⟩) (.dneg a n d) s

/-- DRND (R163). -/
def execDrnd (a : BitVec 8) (n : BitVec 1) (d : BitVec 6) (s : State) : Result :=
  floatOp fp64 (fun m v => frnd fp64 m v.a.toNat) (.drnd a n d) s

/-- DSCALE (R164). -/
def execDscale (b a : BitVec 8) (n : BitVec 1) (d : BitVec 6) (s : State) : Result :=
  floatOp fp64 (fun m v => fscale fp64 m v.a.toNat (v.b.truncate 32 : Word).toInt) (.dscale b a n d) s

/-- DCLASS (R162). -/
def execDclass (a : BitVec 8) (n : BitVec 1) (d : BitVec 6) (s : State) : Result :=
  testOp (fun _ v => ⟨fclass fp64 v.a.toNat, 0, false⟩) (.dclass a n d) s

/-- FRCP (R159, R160). -/
def execFrcp (a : BitVec 8) (n : BitVec 1) (d : BitVec 6) (s : State) : Result :=
  floatOp fp32 (fun _ v => frcp 0 fp32 v.a.toNat) (.frcp a n d) s

/-- FRSQ (R159, R160). -/
def execFrsq (a : BitVec 8) (n : BitVec 1) (d : BitVec 6) (s : State) : Result :=
  floatOp fp32 (fun _ v => frsq 1 fp32 v.a.toNat) (.frsq a n d) s

/-- FEX2 (R159, R160). -/
def execFex2 (a : BitVec 8) (n : BitVec 1) (d : BitVec 6) (s : State) : Result :=
  floatOp fp32 (fun _ v => fex2 v.a.toNat) (.fex2 a n d) s

/-- FLG2 (R159, R160). -/
def execFlg2 (a : BitVec 8) (n : BitVec 1) (d : BitVec 6) (s : State) : Result :=
  floatOp fp32 (fun _ v => flg2 v.a.toNat) (.flg2 a n d) s

/-- FSIN (R159, R160). -/
def execFsin (a : BitVec 8) (n : BitVec 1) (d : BitVec 6) (s : State) : Result :=
  floatOp fp32 (fun _ v => fsincos false v.a.toNat) (.fsin a n d) s

/-- FCOS (R159, R160). -/
def execFcos (a : BitVec 8) (n : BitVec 1) (d : BitVec 6) (s : State) : Result :=
  floatOp fp32 (fun _ v => fsincos true v.a.toNat) (.fcos a n d) s

/-- DRCP (R159, R160). -/
def execDrcp (a : BitVec 8) (n : BitVec 1) (d : BitVec 6) (s : State) : Result :=
  floatOp fp64 (fun _ v => frcp 6 fp64 v.a.toNat) (.drcp a n d) s

/-- DRSQ (R159, R160). -/
def execDrsq (a : BitVec 8) (n : BitVec 1) (d : BitVec 6) (s : State) : Result :=
  floatOp fp64 (fun _ v => frsq 7 fp64 v.a.toNat) (.drsq a n d) s

/-- FCPYS (R161). -/
def execFcpys (b a : BitVec 8) (n : BitVec 1) (d : BitVec 6) (s : State) : Result :=
  floatOp fp32 (fun _ v => ⟨fp32.withSign (fp32.neg? v.b.toNat) (fp32.mag v.a.toNat), 0, false⟩) (.fcpys b a n d) s

/-- FEXPO (R165). -/
def execFexpo (a : BitVec 8) (n : BitVec 1) (d : BitVec 6) (s : State) : Result :=
  testOp (fun _ v => fexpo fp32 v.a.toNat) (.fexpo a n d) s

/-- FSETP (R158). -/
def execFsetp (b a : BitVec 8) (c p : BitVec 3) (s : State) : Result :=
  testOp (fun _ v => fcompare fp32 false c.toNat v.a.toNat v.b.toNat) (.fsetp b a c p) s

/-- FSETP_SIG (R158). -/
def execFsetpSig (b a : BitVec 8) (c p : BitVec 3) (s : State) : Result :=
  testOp (fun _ v => fcompare fp32 true c.toNat v.a.toNat v.b.toNat) (.fsetpSig b a c p) s

/-- DSETP (R158). -/
def execDsetp (b a : BitVec 8) (sc : BitVec 1) (c p : BitVec 3) (s : State) : Result :=
  testOp (fun _ v => fcompare fp64 (sc = 1) c.toNat v.a.toNat v.b.toNat) (.dsetp b a sc c p) s

/-- HADD2 (R156). -/
def execHadd2 (b a : BitVec 8) (n : BitVec 1) (d : BitVec 6) (s : State) : Result :=
  packedOp fp16 (fun m x y _ => fadd fp16 m x y) (.hadd2 b a n d) s

/-- HMUL2 (R156). -/
def execHmul2 (b a : BitVec 8) (n : BitVec 1) (d : BitVec 6) (s : State) : Result :=
  packedOp fp16 (fun m x y _ => fmul fp16 m x y) (.hmul2 b a n d) s

/-- HFMA2 (R156). -/
def execHfma2 (b a : BitVec 8) (n : BitVec 1) (d : BitVec 6) (s : State) : Result :=
  packedOp fp16 (fun m x y z => ffma fp16 m x y z) (.hfma2 b a n d) s

/-- HMAX2 (R157). -/
def execHmax2 (b a : BitVec 8) (n : BitVec 1) (d : BitVec 6) (s : State) : Result :=
  packedOp fp16 (fun _ x y _ => fminmax fp16 true x y) (.hmax2 b a n d) s

/-- BADD2 (R156). -/
def execBadd2 (b a : BitVec 8) (n : BitVec 1) (d : BitVec 6) (s : State) : Result :=
  packedOp bf16 (fun m x y _ => fadd bf16 m x y) (.badd2 b a n d) s

/-- BMUL2 (R156). -/
def execBmul2 (b a : BitVec 8) (n : BitVec 1) (d : BitVec 6) (s : State) : Result :=
  packedOp bf16 (fun m x y _ => fmul bf16 m x y) (.bmul2 b a n d) s

/-- BFMA2 (R156). -/
def execBfma2 (b a : BitVec 8) (n : BitVec 1) (d : BitVec 6) (s : State) : Result :=
  packedOp bf16 (fun m x y z => ffma bf16 m x y z) (.bfma2 b a n d) s

/-- BMAX2 (R157). -/
def execBmax2 (b a : BitVec 8) (n : BitVec 1) (d : BitVec 6) (s : State) : Result :=
  packedOp bf16 (fun _ x y _ => fminmax bf16 true x y) (.bmax2 b a n d) s

/-- CVT_F32_I32 (R166). -/
def execCvtF32I32 (a : BitVec 8) (n : BitVec 1) (d : BitVec 6) (s : State) : Result :=
  floatOp fp32 (fun m v => fromInt fp32 m (v.a.truncate 32 : Word).toInt) (.cvtF32I32 a n d) s

/-- CVT_F32_N32 (R166). -/
def execCvtF32N32 (a : BitVec 8) (n : BitVec 1) (d : BitVec 6) (s : State) : Result :=
  floatOp fp32 (fun m v => fromInt fp32 m (v.a.truncate 32 : Word).toNat) (.cvtF32N32 a n d) s

/-- CVT_I32_F32 (R168). -/
def execCvtI32F32 (a : BitVec 8) (n : BitVec 1) (d : BitVec 6) (s : State) : Result :=
  testOp (fun m v => toInt fp32 m 32 (-2 ^ 31) (2 ^ 31 - 1) v.a.toNat) (.cvtI32F32 a n d) s

/-- CVT_N32_F32 (R168). -/
def execCvtN32F32 (a : BitVec 8) (n : BitVec 1) (d : BitVec 6) (s : State) : Result :=
  testOp (fun m v => toInt fp32 m 32 0 (2 ^ 32 - 1) v.a.toNat) (.cvtN32F32 a n d) s

/-- CVT_F64_F32 (R169). -/
def execCvtF64F32 (a : BitVec 8) (n : BitVec 1) (d : BitVec 6) (s : State) : Result :=
  floatOp fp64 (fun m v => convert fp32 fp64 m v.a.toNat) (.cvtF64F32 a n d) s

/-- CVT_F32_F64 (R167). -/
def execCvtF32F64 (a : BitVec 8) (n : BitVec 1) (d : BitVec 6) (s : State) : Result :=
  floatOp fp32 (fun m v => convert fp64 fp32 m v.a.toNat) (.cvtF32F64 a n d) s

/-- CVT_F64_I64 (R166). -/
def execCvtF64I64 (a : BitVec 8) (n : BitVec 1) (d : BitVec 6) (s : State) : Result :=
  floatOp fp64 (fun m v => fromInt fp64 m v.a.toInt) (.cvtF64I64 a n d) s

/-- CVT_I64_F64 (R168). -/
def execCvtI64F64 (a : BitVec 8) (n : BitVec 1) (d : BitVec 6) (s : State) : Result :=
  testOp (fun m v => toInt fp64 m 64 (-2 ^ 63) (2 ^ 63 - 1) v.a.toNat) (.cvtI64F64 a n d) s

/-- CVT_F16_F32 (R167). -/
def execCvtF16F32 (a : BitVec 8) (n : BitVec 1) (d : BitVec 6) (s : State) : Result :=
  floatOp fp16 (fun m v => convert fp32 fp16 m v.a.toNat) (.cvtF16F32 a n d) s

/-- CVT_F32_F16 (R169). -/
def execCvtF32F16 (a : BitVec 8) (n : BitVec 1) (d : BitVec 6) (s : State) : Result :=
  floatOp fp32 (fun m v => convert fp16 fp32 m (v.a.toNat % 2 ^ 16)) (.cvtF32F16 a n d) s

/-- CVT_BF16_F32 (R167). -/
def execCvtBf16F32 (a : BitVec 8) (n : BitVec 1) (d : BitVec 6) (s : State) : Result :=
  floatOp bf16 (fun m v => convert fp32 bf16 m v.a.toNat) (.cvtBf16F32 a n d) s

/-- CVT_F32_BF16 (R169). -/
def execCvtF32Bf16 (a : BitVec 8) (n : BitVec 1) (d : BitVec 6) (s : State) : Result :=
  floatOp fp32 (fun m v => convert bf16 fp32 m (v.a.toNat % 2 ^ 16)) (.cvtF32Bf16 a n d) s

/-- CVT_F8_F32 (R170): the format is FCTL.F8FMT. -/
def execCvtF8F32 (a : BitVec 8) (n : BitVec 1) (d : BitVec 6) (s : State) : Result :=
  f8Op (.cvtF8F32 a n d) s

/-- CVT_F32_F8 (R169, R170). -/
def execCvtF32F8 (a : BitVec 8) (n : BitVec 1) (d : BitVec 6) (s : State) : Result :=
  fromF8Op (.cvtF32F8 a n d) s

/-- CVT_E2M1_F32 (R171). -/
def execCvtE2m1F32 (a : BitVec 8) (n : BitVec 1) (d : BitVec 6) (s : State) : Result :=
  floatOp e2m1 (fun m v => toE2M1 m v.a.toNat) (.cvtE2m1F32 a n d) s

/-- CVT_F32_E2M1 (R171). -/
def execCvtF32E2m1 (a : BitVec 8) (n : BitVec 1) (d : BitVec 6) (s : State) : Result :=
  floatOp fp32 (fun _ v => fromE2M1 (v.a.toNat % 16)) (.cvtF32E2m1 a n d) s

/-- FADD16 (R52). -/
def execFadd16 (sc d : BitVec 5) (s : State) : Result :=
  floatOp fp32 (bin fadd fp32) (.fadd16 sc d) s

/-- FSUB16 (R52). -/
def execFsub16 (sc d : BitVec 5) (s : State) : Result :=
  floatOp fp32 (bin fsub fp32) (.fsub16 sc d) s

/-- FMUL16 (R52). -/
def execFmul16 (sc d : BitVec 5) (s : State) : Result :=
  floatOp fp32 (bin fmul fp32) (.fmul16 sc d) s

/-- FMAX16 (R52). -/
def execFmax16 (sc d : BitVec 5) (s : State) : Result :=
  floatOp fp32 (fun _ v => fminmax fp32 true v.a.toNat v.b.toNat) (.fmax16 sc d) s

end Sys2Proof.Machine
end

