-- ==== Sys2Proof/Machine/Integer.lean ====
section
/-! DEFINITION. Integer, logic, bit-field, compare and predicate instructions and their 16-bit words (R117 to R140, R52,
R53). An operation is given once for the width W of the agent: 32 or 64 in lanes, 64 in front code. -/

namespace Sys2Proof.Machine

/-- An operation on three sources of width W. -/
abbrev IntFn := {w : Nat} → BitVec w → BitVec w → BitVec w → BitVec w

/-- The operation on a member's source values, at width `w`. -/
def applyInt (w : Nat) (f : IntFn) (v : Vals) : Quad :=
  (f (v.a.truncate w) (v.b.truncate w) (v.c.truncate w)).zeroExtend 64

/-- An integer instruction of lane width `w` (R122, R123). -/
def intOp (w : Nat) (f : IntFn) (i : Instr) (s : State) : Result :=
  issue s i (eachMember (intMember fun _ _ v => some (applyInt w f v)))
    fun s is => (s, .done (f is.v.a is.v.b is.v.c))

/-- The high word of the signed product (R126). -/
def mulHigh : IntFn := fun {w} A B _ => BitVec.ofInt w (A.toInt * B.toInt / 2 ^ w)

/-- The high word of the unsigned product (R126). -/
def mulHighN : IntFn := fun {w} A B _ => BitVec.ofNat w (A.toNat * B.toNat / 2 ^ w)

/-- IMULX in lanes: the signed product of two 32-bit sources. -/
def mulWide (_ : Thread) (_ : Group) (v : Vals) : Option Quad :=
  some (BitVec.ofInt 64 ((v.a.truncate 32 : Word).toInt * (v.b.truncate 32 : Word).toInt))

/-- IMULX in front code: the 128-bit signed product in two registers (R123). -/
def frontMulWide (s : State) (is : FrontIssue) : State × FrontFate :=
  let p := BitVec.ofInt 128 (is.v.a.toInt * is.v.b.toInt)
  (s, .done2 (p.truncate 64) ((p >>> 64).truncate 64))

/-- Shifts with a saturated count (R133). -/
def shiftLeft : IntFn := fun {w} A B _ => if B.toNat < w then A <<< B.toNat else 0
def shiftRight : IntFn := fun {w} A B _ => if B.toNat < w then A >>> B.toNat else 0
def shiftArith : IntFn := fun {w} A B _ => A.sshiftRight (min B.toNat (w - 1))

/-- Rotation by the count modulo W (R133). -/
def rotateL : IntFn := fun {w} A B _ => A.rotateLeft (B.toNat % w)

/-- Position and length of a bit field, clamped to the word (R135). -/
def fieldPos {w : Nat} (B : BitVec w) : Nat := min (field B 7 0) w
def fieldLen {w : Nat} (B : BitVec w) : Nat := min (field B 15 8) (w - fieldPos B)

/-- BFXN, BFX and BFI (R135). -/
def fieldPlain : IntFn := fun {w} A B _ => BitVec.ofNat w (A.toNat / 2 ^ fieldPos B % 2 ^ fieldLen B)
def fieldSigned : IntFn := fun {w} A B _ =>
  let len := fieldLen B
  let x := A.toNat / 2 ^ fieldPos B % 2 ^ len
  BitVec.ofNat w (if len ≠ 0 && x / 2 ^ (len - 1) = 1 then x + 2 ^ w - 2 ^ len else x)
def fieldInsert : IntFn := fun {w} A B C =>
  let m : BitVec w := BitVec.ofNat w ((2 ^ fieldLen B - 1) * 2 ^ fieldPos B)
  (C &&& ~~~m) ||| ((A <<< fieldPos B) &&& m)

/-- Byte `i` of a number. -/
def byteAt (x i : Nat) : Nat := x / 2 ^ (8 * i) % 256

/-- The bytes of PRMT's result: selectors from `c`, low first; `rep` allows sign replication (R136). -/
def permuteBytes (rep : Bool) (x : Nat) : Nat → Nat → Nat
  | 0, _ => 0
  | n + 1, c =>
    let sel := c % 16
    let b := if rep then (if sel < 8 then byteAt x sel else if 128 ≤ byteAt x (sel - 8) then 255 else 0) else byteAt x sel
    b + 256 * permuteBytes rep x n (c / 16)

/-- PRMT (R136): with 32-bit words four bytes of eight, with 64-bit words eight of sixteen. -/
def permute : IntFn := fun {w} A B C =>
  BitVec.ofNat w (permuteBytes (w = 32) (B.toNat * 2 ^ w + A.toNat) (w / 8) C.toNat)

/-- CLZ (R137). -/
def leadingZeros : IntFn := fun {w} A _ _ => BitVec.ofNat w (if A = 0 then w else w - 1 - A.toNat.log2)

/-- MOVH (R138): the low half of a in the high half. -/
def moveHigh : IntFn := fun {w} A _ _ => A <<< (w / 2)

/-- Clamping to the signed and unsigned ranges (R125). -/
def clampS {w : Nat} (x : Int) : BitVec w := BitVec.ofInt w (min (max x (-2 ^ (w - 1))) (2 ^ (w - 1) - 1))
def clampN {w : Nat} (x : Int) : BitVec w := BitVec.ofInt w (min (max x 0) (2 ^ w - 1))

/-- FSHL and FSHR (R134). -/
def funnelLeft : IntFn := fun {w} A B C =>
  BitVec.ofNat w ((A.toNat * 2 ^ w + B.toNat) * 2 ^ (C.toNat % w) / 2 ^ w)
def funnelRight : IntFn := fun {w} A B C => BitVec.ofNat w ((A.toNat * 2 ^ w + B.toNat) / 2 ^ (C.toNat % w))

/-- Division (R127, R129): a zero divisor traps. -/
def divide {w : Nat} (f : BitVec w → BitVec w → BitVec w) (A B : BitVec w) : Option Quad :=
  if B = 0 then none else some ((f A B).zeroExtend 64)

/-- A division instruction. -/
def divOp (f : {w : Nat} → BitVec w → BitVec w → BitVec w) (i : Instr) (s : State) : Result :=
  issue s i (eachMember (intMember fun _ _ v => divide f (v.a.truncate 32 : Word) (v.b.truncate 32)))
    fun s is => (s, match divide f is.v.a is.v.b with
      | some v => .done v
      | none => .trap causeIdivz 0 0 none)

/-- A condition on two integers (R139). -/
def intCond (c : Nat) (x y : Int) : Bool :=
  match c with
  | 0 => x = y
  | 1 => x ≠ y
  | 2 => x < y
  | 3 => x ≤ y
  | 4 => y < x
  | _ => y ≤ x

/-- The signed and unsigned readings of the low `w` bits of a source (R139). -/
def compareS (w : Nat) (v : Quad) : Int := (v.truncate w).toInt
def compareN (w : Nat) (v : Quad) : Int := (v.truncate w).toNat

/-- An ISETP: `rd` reads a source (R139). -/
def compareOp (rd : Quad → Int) (c : Nat) (i : Instr) (s : State) : Result :=
  let r := fun v : Vals => BitVec.ofNat 64 (boolBit (intCond c (rd v.a) (rd v.b)))
  issue s i (eachMember (intMember fun _ _ v => some (r v))) fun s is => (s, .done (r is.v))

/-- The bit of PLOP's truth table (R140). -/
def plopValue (t : Nat) (x xi y yi : Bool) : Quad :=
  BitVec.ofNat 64 (t / 2 ^ (2 * boolBit (x != xi) + boolBit (y != yi)) % 2)

/-- PLOP on predicates x and y (R140). -/
def plopOp (t x : Nat) (xi : Bool) (y : Nat) (yi : Bool) (i : Instr) (s : State) : Result :=
  issue s i (eachMember (intMember fun th _ _ => some (plopValue t (th.pred x) xi (th.pred y) yi)))
    fun s is => (s, .done (plopValue t ((is.front s).pred x) xi ((is.front s).pred y) yi))

/-- LOGT bit by bit (R132). -/
def logtBits (t : Nat) : Nat → Nat → Nat → Nat → Nat
  | 0, _, _, _ => 0
  | n + 1, a, b, c => t / 2 ^ (4 * (a % 2) + 2 * (b % 2) + c % 2) % 2 + 2 * logtBits t n (a / 2) (b / 2) (c / 2)

/-- LOGT (R132): the table stands in EXT.C. -/
def logtOp (i : Instr) (s : State) : Result :=
  let f := fun (w : Nat) (g : Group) (v : Vals) => BitVec.ofNat 64 (logtBits g.table w v.a.toNat v.b.toNat v.c.toNat)
  issue s i (eachMember (intMember fun _ g v => some (f 32 g v))) fun s is => (s, .done (f 64 is.g is.v))

/-! ## The instructions -/

/-- IADD (R124). -/
def execIadd (b a : BitVec 8) (n : BitVec 1) (d : BitVec 6) (s : State) : Result :=
  intOp 32 (fun A B _ => A + B) (.iadd b a n d) s

/-- ISUB (R124). -/
def execIsub (b a : BitVec 8) (n : BitVec 1) (d : BitVec 6) (s : State) : Result :=
  intOp 32 (fun A B _ => A - B) (.isub b a n d) s

/-- IRSUB (R124). -/
def execIrsub (b a : BitVec 8) (n : BitVec 1) (d : BitVec 6) (s : State) : Result :=
  intOp 32 (fun A B _ => B - A) (.irsub b a n d) s

/-- IADDC (R124). -/
def execIaddc (b a : BitVec 8) (n : BitVec 1) (d : BitVec 6) (s : State) : Result :=
  intOp 32 (fun A B C => A + B + (C &&& 1)) (.iaddc b a n d) s

/-- IMUL (R126). -/
def execImul (b a : BitVec 8) (n : BitVec 1) (d : BitVec 6) (s : State) : Result :=
  intOp 32 (fun A B _ => A * B) (.imul b a n d) s

/-- IMULH (R126). -/
def execImulh (b a : BitVec 8) (n : BitVec 1) (d : BitVec 6) (s : State) : Result :=
  intOp 32 mulHigh (.imulh b a n d) s

/-- NMULH (R126). -/
def execNmulh (b a : BitVec 8) (n : BitVec 1) (d : BitVec 6) (s : State) : Result :=
  intOp 32 mulHighN (.nmulh b a n d) s

/-- IMAD (R126). -/
def execImad (b a : BitVec 8) (n : BitVec 1) (d : BitVec 6) (s : State) : Result :=
  intOp 32 (fun A B C => A * B + C) (.imad b a n d) s

/-- IMIN (R130). -/
def execImin (b a : BitVec 8) (n : BitVec 1) (d : BitVec 6) (s : State) : Result :=
  intOp 32 (fun A B _ => if A.toInt ≤ B.toInt then A else B) (.imin b a n d) s

/-- IMAX (R130). -/
def execImax (b a : BitVec 8) (n : BitVec 1) (d : BitVec 6) (s : State) : Result :=
  intOp 32 (fun A B _ => if B.toInt ≤ A.toInt then A else B) (.imax b a n d) s

/-- NMIN (R130). -/
def execNmin (b a : BitVec 8) (n : BitVec 1) (d : BitVec 6) (s : State) : Result :=
  intOp 32 (fun A B _ => if A ≤ B then A else B) (.nmin b a n d) s

/-- NMAX (R130). -/
def execNmax (b a : BitVec 8) (n : BitVec 1) (d : BitVec 6) (s : State) : Result :=
  intOp 32 (fun A B _ => if B ≤ A then A else B) (.nmax b a n d) s

/-- AND (R131). -/
def execAnd32 (b a : BitVec 8) (n : BitVec 1) (d : BitVec 6) (s : State) : Result :=
  intOp 32 (fun A B _ => A &&& B) (.and32 b a n d) s

/-- OR (R131). -/
def execOr32 (b a : BitVec 8) (n : BitVec 1) (d : BitVec 6) (s : State) : Result :=
  intOp 32 (fun A B _ => A ||| B) (.or32 b a n d) s

/-- XOR (R131). -/
def execXor32 (b a : BitVec 8) (n : BitVec 1) (d : BitVec 6) (s : State) : Result :=
  intOp 32 (fun A B _ => A ^^^ B) (.xor32 b a n d) s

/-- ANDN (R131). -/
def execAndn (b a : BitVec 8) (n : BitVec 1) (d : BitVec 6) (s : State) : Result :=
  intOp 32 (fun A B _ => A &&& ~~~B) (.andn b a n d) s

/-- SHL (R133). -/
def execShl (b a : BitVec 8) (n : BitVec 1) (d : BitVec 6) (s : State) : Result :=
  intOp 32 shiftLeft (.shl b a n d) s

/-- SHR (R133). -/
def execShr (b a : BitVec 8) (n : BitVec 1) (d : BitVec 6) (s : State) : Result :=
  intOp 32 shiftRight (.shr b a n d) s

/-- SAR (R133). -/
def execSar (b a : BitVec 8) (n : BitVec 1) (d : BitVec 6) (s : State) : Result :=
  intOp 32 shiftArith (.sar b a n d) s

/-- ROTL (R133). -/
def execRotl (b a : BitVec 8) (n : BitVec 1) (d : BitVec 6) (s : State) : Result :=
  intOp 32 rotateL (.rotl b a n d) s

/-- BFX (R135). -/
def execBfx (b a : BitVec 8) (n : BitVec 1) (d : BitVec 6) (s : State) : Result :=
  intOp 32 fieldSigned (.bfx b a n d) s

/-- BFXN (R135). -/
def execBfxn (b a : BitVec 8) (n : BitVec 1) (d : BitVec 6) (s : State) : Result :=
  intOp 32 fieldPlain (.bfxn b a n d) s

/-- BFI (R135). -/
def execBfi (b a : BitVec 8) (n : BitVec 1) (d : BitVec 6) (s : State) : Result :=
  intOp 32 fieldInsert (.bfi b a n d) s

/-- PRMT (R136). -/
def execPrmt (b a : BitVec 8) (n : BitVec 1) (d : BitVec 6) (s : State) : Result :=
  intOp 32 permute (.prmt b a n d) s

/-- POPC (R137). -/
def execPopc (a : BitVec 8) (n : BitVec 1) (d : BitVec 6) (s : State) : Result :=
  intOp 32 (fun A _ _ => BitVec.ofNat _ (popCount 64 A.toNat)) (.popc a n d) s

/-- CLZ (R137). -/
def execClz (a : BitVec 8) (n : BitVec 1) (d : BitVec 6) (s : State) : Result :=
  intOp 32 leadingZeros (.clz a n d) s

/-- BREV (R137). -/
def execBrev (a : BitVec 8) (n : BitVec 1) (d : BitVec 6) (s : State) : Result :=
  intOp 32 (fun A _ _ => A.reverse) (.brev a n d) s

/-- IABS (R137). -/
def execIabs (a : BitVec 8) (n : BitVec 1) (d : BitVec 6) (s : State) : Result :=
  intOp 32 (fun A _ _ => if A.toInt < 0 then -A else A) (.iabs a n d) s

/-- ISETP_I32 (R139). -/
def execIsetpI32 (b a : BitVec 8) (c p : BitVec 3) (s : State) : Result :=
  compareOp (compareS 32) c.toNat (.isetpI32 b a c p) s

/-- ISETP_N32 (R139). -/
def execIsetpN32 (b a : BitVec 8) (c p : BitVec 3) (s : State) : Result :=
  compareOp (compareN 32) c.toNat (.isetpN32 b a c p) s

/-- ISETP_I64 (R139). -/
def execIsetpI64 (b a : BitVec 8) (c p : BitVec 3) (s : State) : Result :=
  compareOp (compareS 64) c.toNat (.isetpI64 b a c p) s

/-- ISETP_N64 (R139). -/
def execIsetpN64 (b a : BitVec 8) (c p : BitVec 3) (s : State) : Result :=
  compareOp (compareN 64) c.toNat (.isetpN64 b a c p) s

/-- MOV (R138). -/
def execMov (a : BitVec 8) (n : BitVec 1) (d : BitVec 6) (s : State) : Result :=
  intOp 32 (fun A _ _ => A) (.mov a n d) s

/-- SEL (R138). -/
def execSel (b a : BitVec 8) (n : BitVec 1) (d : BitVec 6) (s : State) : Result :=
  intOp 32 (fun A B C => if C = 0 then B else A) (.sel b a n d) s

/-- MOVH (R138). -/
def execMovh (a : BitVec 8) (n : BitVec 1) (d : BitVec 6) (s : State) : Result :=
  intOp 32 moveHigh (.movh a n d) s

/-- PLOP (R140). -/
def execPlop (t : BitVec 4) (j : BitVec 1) (y : BitVec 3) (i : BitVec 1) (x p : BitVec 3) (s : State) : Result :=
  plopOp t.toNat x.toNat (i = 1) y.toNat (j = 1) (.plop t j y i x p) s

/-- IADD_W (R124). -/
def execIaddW (b a : BitVec 8) (n : BitVec 1) (d : BitVec 6) (s : State) : Result :=
  intOp 64 (fun A B _ => A + B) (.iaddW b a n d) s

/-- ISUB_W (R124). -/
def execIsubW (b a : BitVec 8) (n : BitVec 1) (d : BitVec 6) (s : State) : Result :=
  intOp 64 (fun A B _ => A - B) (.isubW b a n d) s

/-- IMUL_W (R126). -/
def execImulW (b a : BitVec 8) (n : BitVec 1) (d : BitVec 6) (s : State) : Result :=
  intOp 64 (fun A B _ => A * B) (.imulW b a n d) s

/-- IMAD_W (R126). -/
def execImadW (b a : BitVec 8) (n : BitVec 1) (d : BitVec 6) (s : State) : Result :=
  intOp 64 (fun A B C => A * B + C) (.imadW b a n d) s

/-- SHL_W (R133). -/
def execShlW (b a : BitVec 8) (n : BitVec 1) (d : BitVec 6) (s : State) : Result :=
  intOp 64 shiftLeft (.shlW b a n d) s

/-- SHR_W (R133). -/
def execShrW (b a : BitVec 8) (n : BitVec 1) (d : BitVec 6) (s : State) : Result :=
  intOp 64 shiftRight (.shrW b a n d) s

/-- SAR_W (R133). -/
def execSarW (b a : BitVec 8) (n : BitVec 1) (d : BitVec 6) (s : State) : Result :=
  intOp 64 shiftArith (.sarW b a n d) s

/-- IMULX (R126, R123). -/
def execImulx (b a : BitVec 8) (n : BitVec 1) (d : BitVec 6) (s : State) : Result :=
  issue s (.imulx b a n d) (eachMember (intMember mulWide)) frontMulWide

/-- IDIV (R127 to R129). -/
def execIdiv (b a : BitVec 8) (n : BitVec 1) (d : BitVec 6) (s : State) : Result :=
  divOp BitVec.sdiv (.idiv b a n d) s

/-- NDIV (R127 to R129). -/
def execNdiv (b a : BitVec 8) (n : BitVec 1) (d : BitVec 6) (s : State) : Result :=
  divOp BitVec.udiv (.ndiv b a n d) s

/-- IREM (R127 to R129). -/
def execIrem (b a : BitVec 8) (n : BitVec 1) (d : BitVec 6) (s : State) : Result :=
  divOp BitVec.srem (.irem b a n d) s

/-- NREM (R127 to R129). -/
def execNrem (b a : BitVec 8) (n : BitVec 1) (d : BitVec 6) (s : State) : Result :=
  divOp BitVec.umod (.nrem b a n d) s

/-- IADDS (R125). -/
def execIadds (b a : BitVec 8) (n : BitVec 1) (d : BitVec 6) (s : State) : Result :=
  intOp 32 (fun A B _ => clampS (A.toInt + B.toInt)) (.iadds b a n d) s

/-- ISUBS (R125). -/
def execIsubs (b a : BitVec 8) (n : BitVec 1) (d : BitVec 6) (s : State) : Result :=
  intOp 32 (fun A B _ => clampS (A.toInt - B.toInt)) (.isubs b a n d) s

/-- NADDS (R125). -/
def execNadds (b a : BitVec 8) (n : BitVec 1) (d : BitVec 6) (s : State) : Result :=
  intOp 32 (fun A B _ => clampN (A.toNat + B.toNat)) (.nadds b a n d) s

/-- NSUBS (R125). -/
def execNsubs (b a : BitVec 8) (n : BitVec 1) (d : BitVec 6) (s : State) : Result :=
  intOp 32 (fun A B _ => clampN ((A.toNat : Int) - B.toNat)) (.nsubs b a n d) s

/-- LOGT (R132). -/
def execLogt (b a : BitVec 8) (n : BitVec 1) (d : BitVec 6) (s : State) : Result :=
  logtOp (.logt b a n d) s

/-- BMRG (R131). -/
def execBmrg (b a : BitVec 8) (n : BitVec 1) (d : BitVec 6) (s : State) : Result :=
  intOp 32 (fun A B C => (A &&& C) ||| (B &&& ~~~C)) (.bmrg b a n d) s

/-- FSHL (R134). -/
def execFshl (b a : BitVec 8) (n : BitVec 1) (d : BitVec 6) (s : State) : Result :=
  intOp 32 funnelLeft (.fshl b a n d) s

/-- FSHR (R134). -/
def execFshr (b a : BitVec 8) (n : BitVec 1) (d : BitVec 6) (s : State) : Result :=
  intOp 32 funnelRight (.fshr b a n d) s

/-- MOV16 (R52, R53). -/
def execMov16 (sc d : BitVec 5) (s : State) : Result :=
  intOp 32 (fun A _ _ => A) (.mov16 sc d) s

/-- IADD16 (R52, R53). -/
def execIadd16 (sc d : BitVec 5) (s : State) : Result :=
  intOp 32 (fun A B _ => A + B) (.iadd16 sc d) s

/-- ISUB16 (R52, R53). -/
def execIsub16 (sc d : BitVec 5) (s : State) : Result :=
  intOp 32 (fun A B _ => A - B) (.isub16 sc d) s

/-- IMUL16 (R52, R53). -/
def execImul16 (sc d : BitVec 5) (s : State) : Result :=
  intOp 32 (fun A B _ => A * B) (.imul16 sc d) s

/-- AND16 (R52, R53). -/
def execAnd16 (sc d : BitVec 5) (s : State) : Result :=
  intOp 32 (fun A B _ => A &&& B) (.and16 sc d) s

/-- OR16 (R52, R53). -/
def execOr16 (sc d : BitVec 5) (s : State) : Result :=
  intOp 32 (fun A B _ => A ||| B) (.or16 sc d) s

/-- XOR16 (R52, R53). -/
def execXor16 (sc d : BitVec 5) (s : State) : Result :=
  intOp 32 (fun A B _ => A ^^^ B) (.xor16 sc d) s

/-- SHL16 (R52, R53). -/
def execShl16 (sc d : BitVec 5) (s : State) : Result :=
  intOp 32 shiftLeft (.shl16 sc d) s

/-- SHR16 (R52, R53). -/
def execShr16 (sc d : BitVec 5) (s : State) : Result :=
  intOp 32 shiftRight (.shr16 sc d) s

/-- SAR16 (R52, R53). -/
def execSar16 (sc d : BitVec 5) (s : State) : Result :=
  intOp 32 shiftArith (.sar16 sc d) s

/-- IMIN16 (R52, R53). -/
def execImin16 (sc d : BitVec 5) (s : State) : Result :=
  intOp 32 (fun A B _ => if A.toInt ≤ B.toInt then A else B) (.imin16 sc d) s

/-- IMAX16 (R52, R53). -/
def execImax16 (sc d : BitVec 5) (s : State) : Result :=
  intOp 32 (fun A B _ => if B.toInt ≤ A.toInt then A else B) (.imax16 sc d) s

/-- NOP16 (R53): no effect, and the ring stays. -/
def execNop16 (sc d : BitVec 5) (s : State) : Result :=
  issue s (.nop16 sc d) (eachMember fun s _ _ => (s, .next)) fun s _ => (s, .next)

end Sys2Proof.Machine
end

