-- ==== Sys2Proof/Machine/LaneGroup.lean ====
section
/-! DEFINITION. Lane-group instructions (R193 to R198): they issue as one complete convergence set in home lanes, and see
the participants and the guarded-off lanes. -/

namespace Sys2Proof.Machine

/-- A predicate of a member, inverted where asked. -/
def voteOf (s : State) (is : Issue) (p : Nat) (inv : Bool) (m : Member) : Bool := (is.thread s m.tlin).pred p != inv

/-- BALLOT (R194). -/
def ballotValue (s : State) (is : Issue) (p : Nat) (inv : Bool) (ms : List Member) : Nat :=
  ms.foldl (fun d m => if m.on && voteOf s is p inv m then d + 2 ^ m.lane else d) 0

def execBallot (i : BitVec 1) (p : BitVec 3) (d : BitVec 6) (s : State) : Result :=
  issue s (.ballot i p d)
    (allMembers fun s is ms _ => .done (BitVec.ofNat 64 (ballotValue s is p.toNat (i = 1) ms))) noFront

/-- The values that VOTE counts: a guarded-off lane gives false (R195). -/
def votes (s : State) (is : Issue) (p : Nat) (inv : Bool) (ms : List Member) : List Bool :=
  ms.map fun m => m.on && voteOf s is p inv m

/-- A VOTE with its function of the values. -/
def voteOp (f : List Bool → Bool) (p : Nat) (inv : Bool) (i : Instr) (s : State) : Result :=
  issue s i (allMembers fun s is ms _ => .done (BitVec.ofNat 64 (boolBit (f (votes s is p inv ms))))) noFront

def execVoteAny (i : BitVec 1) (p q : BitVec 3) (s : State) : Result :=
  voteOp (fun v => v.any id) p.toNat (i = 1) (.voteAny i p q) s

def execVoteAll (i : BitVec 1) (p q : BitVec 3) (s : State) : Result :=
  voteOp (fun v => v.all id) p.toNat (i = 1) (.voteAll i p q) s

def execVoteEq (i : BitVec 1) (p q : BitVec 3) (s : State) : Result :=
  voteOp (fun v => v.all id || !v.any id) p.toNat (i = 1) (.voteEq i p q) s

/-- LXCH (R196): `src` gives the source lane, if it is in range. -/
def lxchOp (src : Nat → Nat → Option Nat) (i : Instr) (s : State) : Result :=
  issue s i (allMembers fun _ _ ms m =>
    .done (match (src m.lane (m.v.b.toNat % 2 ^ 32)).bind fun j => ms.find? fun x => x.lane = j with
      | some x => if x.on then x.v.a else 0
      | none => m.v.a)) noFront

def execLxchAt (b a : BitVec 8) (d : BitVec 6) (s : State) : Result :=
  lxchOp (fun _ b => some (b % 32)) (.lxchAt b a d) s

def execLxchBack (b a : BitVec 8) (d : BitVec 6) (s : State) : Result :=
  lxchOp (fun i b => if i < b then none else some (i - b)) (.lxchBack b a d) s

def execLxchFwd (b a : BitVec 8) (d : BitVec 6) (s : State) : Result :=
  lxchOp (fun i b => if 31 < i + b then none else some (i + b)) (.lxchFwd b a d) s

def execLxchXor (b a : BitVec 8) (d : BitVec 6) (s : State) : Result :=
  lxchOp (fun i b => some (i ^^^ b % 32)) (.lxchXor b a d) s

/-- The value that a lane gives to REDUX: 0 where it is guarded off (R197). -/
def reduxValue (m : Member) : Word := if m.on then m.v.a.truncate 32 else 0

/-- A REDUX with its function of two values. -/
def reduxOp (f : Word → Word → Word) (i : Instr) (s : State) : Result :=
  issue s i (allMembers fun _ _ ms m =>
    .done ((ms.foldl (fun r x => f r (reduxValue x)) (match ms with
      | x :: _ => reduxValue x
      | [] => reduxValue m)).zeroExtend 64)) noFront

def execReduxAdd (a : BitVec 8) (d : BitVec 6) (s : State) : Result :=
  issue s (.reduxAdd a d) (allMembers fun _ _ ms _ =>
    .done ((ms.foldl (fun r x => r + reduxValue x) (0 : Word)).zeroExtend 64)) noFront

def execReduxMin (a : BitVec 8) (d : BitVec 6) (s : State) : Result :=
  reduxOp (fun x y => if x.toInt ≤ y.toInt then x else y) (.reduxMin a d) s

def execReduxMax (a : BitVec 8) (d : BitVec 6) (s : State) : Result :=
  reduxOp (fun x y => if y.toInt ≤ x.toInt then x else y) (.reduxMax a d) s

/-- MATCH (R198). -/
def execMatchAny (a : BitVec 8) (d : BitVec 6) (s : State) : Result :=
  issue s (.matchAny a d) (allMembers fun _ _ ms m =>
    .done (BitVec.ofNat 64 (ms.foldl (fun r x => if x.on && x.v.a = m.v.a then r + 2 ^ x.lane else r) 0))) noFront

end Sys2Proof.Machine
end

