-- ==== Sys2Proof/Machine/System.lean ====
section
/-! DEFINITION. Traps raised by instructions, the return from a handler, SLEEP, and the CSRs (R199 to R209, R337). -/

namespace Sys2Proof.Machine

/-- TRAP (R199). -/
def execTrap (a : BitVec 8) (s : State) : Result :=
  issue s (.trap a)
    (allMembers fun _ is _ m => .trap causeUser (BitVec.ofNat 64 (m.v.a.toNat % 2 ^ 32)) 0 (some is.next))
    fun s is => (s, .trap causeUser is.v.a 0 (some is.next))

/-- BKPT (R199). -/
def execBkpt (s : State) : Result :=
  issue s .bkpt (allMembers fun _ _ _ _ => .trap causeBkpt 0 0 none) fun s _ => (s, .trap causeBkpt 0 0 none)

/-- RETT in one thread's trap registers (R201): the trap it takes, or its target. -/
def rettOf (t : TrapRegs) : Except (BitVec 8 × Quad) Pc :=
  if !t.inHandler then .error (causeIllegal, 0)
  else
    let p := rettTarget t
    if bit p 0 then .error (causeMisalign, p) else .ok (p.truncate 57)

/-- RETT. -/
def execRett (s : State) : Result :=
  issue s .rett
    (eachMember fun s is m =>
      match rettOf (is.thread s m.tlin).trap with
      | .error (cause, taddr) => (s, .trap cause taddr 0 none)
      | .ok pc => (is.modThread s m.tlin fun t => { t with trap := rettRegs t.trap }, .goto pc))
    fun s is =>
      match rettOf (is.front s).trap with
      | .error (cause, taddr) => (s, .trap cause taddr 0 none)
      | .ok pc => (s.modFront is.blk fun f => { f with trap := rettRegs f.trap }, .goto pc)

/-- SLEEP (R203): cycles count while the block is resident. -/
def execSleep (a : BitVec 8) (s : State) : Result :=
  issue s (.sleep a)
    (allMembers fun s is _ m => .leave (.waiting (.sleep ((is.block s).cycles + m.v.a.toNat % 2 ^ 32))) is.next)
    fun s is => (s, .stall (.sleep ((is.block s).cycles + is.v.a.toNat % 2 ^ 32)))

/-! ## CSRs (R205, R337) -/

/-- PLACE (R422). -/
def placeCsr (p : Place) : Nat := p.fcx * 2 ^ 19 + p.bslot * 2 ^ 16 + p.quad * 2 ^ 8 + p.core

/-- The trap registers by number. -/
def trapCsr (t : TrapRegs) (c : Nat) : Nat :=
  match c with
  | 0 => t.tcause.toNat
  | 1 => t.tpc.toNat
  | 2 => t.taddr.toNat
  | 3 => t.tinfo.toNat
  | 4 => t.tstat.toNat
  | 5 => t.tchain.toNat
  | _ => (t.tlist.getD (c - 0x20) 0).toNat

/-- The CSRs that are no thread's own. -/
def sharedCsr (s : State) (b : Block) (core c : Nat) : Nat :=
  let l := s.launchOf b
  match c with
  | 0x06 => (s.ctxOf b).tvec.toNat
  | 0x07 => (s.ctxOf b).ftvec.toNat
  | 0x18 => b.knottmo.toNat
  | 0x19 => b.barlim.toNat
  | 0x30 => (s.core core).cycle % 2 ^ 64
  | 0x40 => (b.place.map placeCsr).getD 0
  | 0x48 => l.dconf.toNat
  | _ => l.dcaddr.toNat

/-- A CSR as a lane thread reads it. -/
def laneCsr (s : State) (b : Block) (core : Nat) (t : Thread) (c : Nat) : Nat :=
  match c with
  | 0x08 => t.csp.toNat
  | 0x09 => t.csplo.toNat
  | 0x0A => t.csphi.toNat
  | 0x10 => t.trapen.toNat
  | 0x11 => t.fctl.toNat
  | _ => if c < 6 || 0x20 ≤ c && c < 0x30 then trapCsr t.trap c else sharedCsr s b core c

/-- A CSR as the front thread reads it. -/
def frontCsr (s : State) (b : Block) (core c : Nat) : Nat :=
  if c < 6 then trapCsr b.front.trap c else sharedCsr s b core c

/-- A write to TPC, which cancels a restart at the chain head (R201). -/
def TrapRegs.setTpc (t : TrapRegs) (v : Quad) : TrapRegs := { t with tpc := v, tstat := withBit t.tstat 1 false }

/-- Clearing bits of DCONF (R296): write 1 to clear. -/
def clearDconf (s : State) (launch : Nat) (v : Quad) : State :=
  s.modLaunch launch fun l => { l with dconf := l.dconf &&& ~~~(v.truncate 32) }

/-- A lane's write to a CSR; a write to a read-only one is ignored. -/
def writeLaneCsr (s : State) (is : Issue) (m : Member) (c : Nat) (v : Quad) : State :=
  match c with
  | 0x01 => is.modThread s m.tlin fun t => { t with trap := t.trap.setTpc v }
  | 0x08 => is.modThread s m.tlin fun t => { t with csp := v }
  | 0x10 => is.modThread s m.tlin fun t => { t with trapen := v.truncate 6 }
  | 0x11 => is.modThread s m.tlin fun t => { t with fctl := fctlWrite t.fctl (v.truncate 32) }
  | 0x48 => clearDconf s (is.block s).launch v
  | _ => s

/-- A front thread's write to a CSR. -/
def writeFrontCsr (s : State) (is : FrontIssue) (c : Nat) (v : Quad) : State :=
  match c with
  | 0x01 => s.modFront is.blk fun f => { f with trap := f.trap.setTpc v }
  | 0x18 => s.modBlock is.blk fun b => { b with knottmo := v.truncate 32 }
  | 0x19 => s.modBlock is.blk fun b => { b with barlim := v.truncate 32 }
  | 0x48 => clearDconf s (is.block s).launch v
  | _ => s

/-- CSRR (R204). -/
def execCsrr (c : BitVec 8) (d : BitVec 6) (s : State) : Result :=
  issue s (.csrr c d)
    (allMembers fun s is _ m =>
      .done (BitVec.ofNat 64 (laneCsr s (is.block s) is.core (is.thread s m.tlin) c.toNat)))
    fun s is => (s, .done (BitVec.ofNat 64 (frontCsr s (is.block s) is.core c.toNat)))

/-- CSRW (R204). -/
def execCsrw (c a : BitVec 8) (s : State) : Result :=
  issue s (.csrw c a) (eachMember fun s is m => (writeLaneCsr s is m c.toNat m.v.a, .next))
    fun s is => (writeFrontCsr s is c.toNat is.v.a, .next)

/-- FLGR (R204). -/
def execFlgr (d : BitVec 6) (s : State) : Result :=
  issue s (.flgr d) (allMembers fun s is _ m => .done ((is.thread s m.tlin).flg.zeroExtend 64)) noFront

/-- FLGC (R204). -/
def execFlgc (a : BitVec 8) (s : State) : Result :=
  issue s (.flgc a)
    (eachMember fun s is m =>
      (is.modThread s m.tlin fun t => { t with flg := t.flg &&& ~~~(m.v.a.truncate 5) }, .next)) noFront

end Sys2Proof.Machine
end

