-- ==== Sys2Proof/Machine/Dispatch.lean ====
section
/-! DEFINITION. The dispatch: one arm for each row of the opcode table. -/

namespace Sys2Proof.Machine

/-- The meaning of an instruction or event. -/
def exec (i : Instr) (s : State) : Host.Outcome State Fault Refusal :=
  match i with
  | .iadd b a n d => Sys2Proof.Machine.execIadd b a n d s
  | .isub b a n d => Sys2Proof.Machine.execIsub b a n d s
  | .irsub b a n d => Sys2Proof.Machine.execIrsub b a n d s
  | .iaddc b a n d => Sys2Proof.Machine.execIaddc b a n d s
  | .imul b a n d => Sys2Proof.Machine.execImul b a n d s
  | .imulh b a n d => Sys2Proof.Machine.execImulh b a n d s
  | .nmulh b a n d => Sys2Proof.Machine.execNmulh b a n d s
  | .imad b a n d => Sys2Proof.Machine.execImad b a n d s
  | .imin b a n d => Sys2Proof.Machine.execImin b a n d s
  | .imax b a n d => Sys2Proof.Machine.execImax b a n d s
  | .nmin b a n d => Sys2Proof.Machine.execNmin b a n d s
  | .nmax b a n d => Sys2Proof.Machine.execNmax b a n d s
  | .and32 b a n d => Sys2Proof.Machine.execAnd32 b a n d s
  | .or32 b a n d => Sys2Proof.Machine.execOr32 b a n d s
  | .xor32 b a n d => Sys2Proof.Machine.execXor32 b a n d s
  | .andn b a n d => Sys2Proof.Machine.execAndn b a n d s
  | .shl b a n d => Sys2Proof.Machine.execShl b a n d s
  | .shr b a n d => Sys2Proof.Machine.execShr b a n d s
  | .sar b a n d => Sys2Proof.Machine.execSar b a n d s
  | .rotl b a n d => Sys2Proof.Machine.execRotl b a n d s
  | .bfx b a n d => Sys2Proof.Machine.execBfx b a n d s
  | .bfxn b a n d => Sys2Proof.Machine.execBfxn b a n d s
  | .bfi b a n d => Sys2Proof.Machine.execBfi b a n d s
  | .prmt b a n d => Sys2Proof.Machine.execPrmt b a n d s
  | .popc a n d => Sys2Proof.Machine.execPopc a n d s
  | .clz a n d => Sys2Proof.Machine.execClz a n d s
  | .brev a n d => Sys2Proof.Machine.execBrev a n d s
  | .iabs a n d => Sys2Proof.Machine.execIabs a n d s
  | .isetpI32 b a c p => Sys2Proof.Machine.execIsetpI32 b a c p s
  | .isetpN32 b a c p => Sys2Proof.Machine.execIsetpN32 b a c p s
  | .isetpI64 b a c p => Sys2Proof.Machine.execIsetpI64 b a c p s
  | .isetpN64 b a c p => Sys2Proof.Machine.execIsetpN64 b a c p s
  | .mov a n d => Sys2Proof.Machine.execMov a n d s
  | .sel b a n d => Sys2Proof.Machine.execSel b a n d s
  | .movh a n d => Sys2Proof.Machine.execMovh a n d s
  | .plop t j y v x p => Sys2Proof.Machine.execPlop t j y v x p s
  | .iaddW b a n d => Sys2Proof.Machine.execIaddW b a n d s
  | .isubW b a n d => Sys2Proof.Machine.execIsubW b a n d s
  | .imulW b a n d => Sys2Proof.Machine.execImulW b a n d s
  | .imadW b a n d => Sys2Proof.Machine.execImadW b a n d s
  | .shlW b a n d => Sys2Proof.Machine.execShlW b a n d s
  | .shrW b a n d => Sys2Proof.Machine.execShrW b a n d s
  | .sarW b a n d => Sys2Proof.Machine.execSarW b a n d s
  | .imulx b a n d => Sys2Proof.Machine.execImulx b a n d s
  | .idiv b a n d => Sys2Proof.Machine.execIdiv b a n d s
  | .ndiv b a n d => Sys2Proof.Machine.execNdiv b a n d s
  | .irem b a n d => Sys2Proof.Machine.execIrem b a n d s
  | .nrem b a n d => Sys2Proof.Machine.execNrem b a n d s
  | .iadds b a n d => Sys2Proof.Machine.execIadds b a n d s
  | .isubs b a n d => Sys2Proof.Machine.execIsubs b a n d s
  | .nadds b a n d => Sys2Proof.Machine.execNadds b a n d s
  | .nsubs b a n d => Sys2Proof.Machine.execNsubs b a n d s
  | .logt b a n d => Sys2Proof.Machine.execLogt b a n d s
  | .bmrg b a n d => Sys2Proof.Machine.execBmrg b a n d s
  | .fshl b a n d => Sys2Proof.Machine.execFshl b a n d s
  | .fshr b a n d => Sys2Proof.Machine.execFshr b a n d s
  | .fadd b a n d => Sys2Proof.Machine.execFadd b a n d s
  | .fsub b a n d => Sys2Proof.Machine.execFsub b a n d s
  | .fmul b a n d => Sys2Proof.Machine.execFmul b a n d s
  | .ffma b a n d => Sys2Proof.Machine.execFfma b a n d s
  | .fmin b a n d => Sys2Proof.Machine.execFmin b a n d s
  | .fmax b a n d => Sys2Proof.Machine.execFmax b a n d s
  | .fminn b a n d => Sys2Proof.Machine.execFminn b a n d s
  | .fmaxn b a n d => Sys2Proof.Machine.execFmaxn b a n d s
  | .fsetp b a c p => Sys2Proof.Machine.execFsetp b a c p s
  | .fsetpSig b a c p => Sys2Proof.Machine.execFsetpSig b a c p s
  | .fdiv b a n d => Sys2Proof.Machine.execFdiv b a n d s
  | .fsqrt a n d => Sys2Proof.Machine.execFsqrt a n d s
  | .frcp a n d => Sys2Proof.Machine.execFrcp a n d s
  | .frsq a n d => Sys2Proof.Machine.execFrsq a n d s
  | .fex2 a n d => Sys2Proof.Machine.execFex2 a n d s
  | .flg2 a n d => Sys2Proof.Machine.execFlg2 a n d s
  | .fsin a n d => Sys2Proof.Machine.execFsin a n d s
  | .fcos a n d => Sys2Proof.Machine.execFcos a n d s
  | .fabs a n d => Sys2Proof.Machine.execFabs a n d s
  | .fneg a n d => Sys2Proof.Machine.execFneg a n d s
  | .fcpys b a n d => Sys2Proof.Machine.execFcpys b a n d s
  | .fclass a n d => Sys2Proof.Machine.execFclass a n d s
  | .frnd a n d => Sys2Proof.Machine.execFrnd a n d s
  | .fscale b a n d => Sys2Proof.Machine.execFscale b a n d s
  | .fexpo a n d => Sys2Proof.Machine.execFexpo a n d s
  | .hadd2 b a n d => Sys2Proof.Machine.execHadd2 b a n d s
  | .hmul2 b a n d => Sys2Proof.Machine.execHmul2 b a n d s
  | .hfma2 b a n d => Sys2Proof.Machine.execHfma2 b a n d s
  | .hmax2 b a n d => Sys2Proof.Machine.execHmax2 b a n d s
  | .badd2 b a n d => Sys2Proof.Machine.execBadd2 b a n d s
  | .bmul2 b a n d => Sys2Proof.Machine.execBmul2 b a n d s
  | .bfma2 b a n d => Sys2Proof.Machine.execBfma2 b a n d s
  | .bmax2 b a n d => Sys2Proof.Machine.execBmax2 b a n d s
  | .dadd b a n d => Sys2Proof.Machine.execDadd b a n d s
  | .dsub b a n d => Sys2Proof.Machine.execDsub b a n d s
  | .dmul b a n d => Sys2Proof.Machine.execDmul b a n d s
  | .dfma b a n d => Sys2Proof.Machine.execDfma b a n d s
  | .dmin b a n d => Sys2Proof.Machine.execDmin b a n d s
  | .dmax b a n d => Sys2Proof.Machine.execDmax b a n d s
  | .dminn b a n d => Sys2Proof.Machine.execDminn b a n d s
  | .dmaxn b a n d => Sys2Proof.Machine.execDmaxn b a n d s
  | .dsetp b a sc c p => Sys2Proof.Machine.execDsetp b a sc c p s
  | .dclass a n d => Sys2Proof.Machine.execDclass a n d s
  | .dabs a n d => Sys2Proof.Machine.execDabs a n d s
  | .dneg a n d => Sys2Proof.Machine.execDneg a n d s
  | .ddiv b a n d => Sys2Proof.Machine.execDdiv b a n d s
  | .dsqrt a n d => Sys2Proof.Machine.execDsqrt a n d s
  | .drcp a n d => Sys2Proof.Machine.execDrcp a n d s
  | .drsq a n d => Sys2Proof.Machine.execDrsq a n d s
  | .drnd a n d => Sys2Proof.Machine.execDrnd a n d s
  | .dscale b a n d => Sys2Proof.Machine.execDscale b a n d s
  | .cvtF32I32 a n d => Sys2Proof.Machine.execCvtF32I32 a n d s
  | .cvtF32N32 a n d => Sys2Proof.Machine.execCvtF32N32 a n d s
  | .cvtI32F32 a n d => Sys2Proof.Machine.execCvtI32F32 a n d s
  | .cvtN32F32 a n d => Sys2Proof.Machine.execCvtN32F32 a n d s
  | .cvtF64F32 a n d => Sys2Proof.Machine.execCvtF64F32 a n d s
  | .cvtF32F64 a n d => Sys2Proof.Machine.execCvtF32F64 a n d s
  | .cvtF64I64 a n d => Sys2Proof.Machine.execCvtF64I64 a n d s
  | .cvtI64F64 a n d => Sys2Proof.Machine.execCvtI64F64 a n d s
  | .cvtF16F32 a n d => Sys2Proof.Machine.execCvtF16F32 a n d s
  | .cvtF32F16 a n d => Sys2Proof.Machine.execCvtF32F16 a n d s
  | .cvtBf16F32 a n d => Sys2Proof.Machine.execCvtBf16F32 a n d s
  | .cvtF32Bf16 a n d => Sys2Proof.Machine.execCvtF32Bf16 a n d s
  | .cvtF8F32 a n d => Sys2Proof.Machine.execCvtF8F32 a n d s
  | .cvtF32F8 a n d => Sys2Proof.Machine.execCvtF32F8 a n d s
  | .cvtE2m1F32 a n d => Sys2Proof.Machine.execCvtE2m1F32 a n d s
  | .cvtF32E2m1 a n d => Sys2Proof.Machine.execCvtF32E2m1 a n d s
  | .ballot v p d => Sys2Proof.Machine.execBallot v p d s
  | .voteAny v p q => Sys2Proof.Machine.execVoteAny v p q s
  | .voteAll v p q => Sys2Proof.Machine.execVoteAll v p q s
  | .voteEq v p q => Sys2Proof.Machine.execVoteEq v p q s
  | .lxchAt b a d => Sys2Proof.Machine.execLxchAt b a d s
  | .lxchBack b a d => Sys2Proof.Machine.execLxchBack b a d s
  | .lxchFwd b a d => Sys2Proof.Machine.execLxchFwd b a d s
  | .lxchXor b a d => Sys2Proof.Machine.execLxchXor b a d s
  | .reduxAdd a d => Sys2Proof.Machine.execReduxAdd a d s
  | .reduxMin a d => Sys2Proof.Machine.execReduxMin a d s
  | .reduxMax a d => Sys2Proof.Machine.execReduxMax a d s
  | .matchAny a d => Sys2Proof.Machine.execMatchAny a d s
  | .ld o z sc r a d => Sys2Proof.Machine.execLd o z sc r a d s
  | .st o z sc r a d => Sys2Proof.Machine.execSt o z sc r a d s
  | .pref o sc a l => Sys2Proof.Machine.execPref o sc a l s
  | .atom t o sc r a d => Sys2Proof.Machine.execAtom t o sc r a d s
  | .red t o sc r a d => Sys2Proof.Machine.execRed t o sc r a d s
  | .fence sc r => Sys2Proof.Machine.execFence sc r s
  | .drain p => Sys2Proof.Machine.execDrain p s
  | .wbr sc a d => Sys2Proof.Machine.execWbr sc a d s
  | .invr sc a d => Sys2Proof.Machine.execInvr sc a d s
  | .lds z h a d => Sys2Proof.Machine.execLds z h a d s
  | .sts z h a d => Sys2Proof.Machine.execSts z h a d s
  | .atoms z h a d => Sys2Proof.Machine.execAtoms z h a d s
  | .tinfo h a d => Sys2Proof.Machine.execTinfo h a d s
  | .ldf z h a d => Sys2Proof.Machine.execLdf z h a d s
  | .lde z h a d => Sys2Proof.Machine.execLde z h a d s
  | .stf z h a d => Sys2Proof.Machine.execStf z h a d s
  | .stx z h a d => Sys2Proof.Machine.execStx z h a d s
  | .talloc h a d => Sys2Proof.Machine.execTalloc h a d s
  | .tfree h => Sys2Proof.Machine.execTfree h s
  | .feset h a d => Sys2Proof.Machine.execFeset h a d s
  | .texport h a => Sys2Proof.Machine.execTexport h a s
  | .br d n p => Sys2Proof.Machine.execBr d n p s
  | .bruAny d n p => Sys2Proof.Machine.execBruAny d n p s
  | .bruAll d n p => Sys2Proof.Machine.execBruAll d n p s
  | .bruNone d n p => Sys2Proof.Machine.execBruNone d n p s
  | .bruUni d n p => Sys2Proof.Machine.execBruUni d n p s
  | .jmp d => Sys2Proof.Machine.execJmp d s
  | .call d => Sys2Proof.Machine.execCall d s
  | .dcall a => Sys2Proof.Machine.execDcall a s
  | .djmp a => Sys2Proof.Machine.execDjmp a s
  | .ret => Sys2Proof.Machine.execRet s
  | .exit => Sys2Proof.Machine.execExit s
  | .ktie k => Sys2Proof.Machine.execKtie k s
  | .join k => Sys2Proof.Machine.execJoin k s
  | .kreset k => Sys2Proof.Machine.execKreset k s
  | .barSync c p v => Sys2Proof.Machine.execBarSync c p v s
  | .barArrive c p v => Sys2Proof.Machine.execBarArrive c p v s
  | .barWait p v => Sys2Proof.Machine.execBarWait p v s
  | .mxacq d => Sys2Proof.Machine.execMxacq d s
  | .mxrel d => Sys2Proof.Machine.execMxrel d s
  | .mxzero d => Sys2Proof.Machine.execMxzero d s
  | .mxvc a d => Sys2Proof.Machine.execMxvc a d s
  | .mmaC8 b a d => Sys2Proof.Machine.execMmaC8 b a d s
  | .mmaX8 b a d => Sys2Proof.Machine.execMmaX8 b a d s
  | .mmaC16 b a d => Sys2Proof.Machine.execMmaC16 b a d s
  | .mmaC16h b a d => Sys2Proof.Machine.execMmaC16h b a d s
  | .mxld b a d => Sys2Proof.Machine.execMxld b a d s
  | .mxst b a d => Sys2Proof.Machine.execMxst b a d s
  | .mxrecomb b a d => Sys2Proof.Machine.execMxrecomb b a d s
  | .mxscale a d => Sys2Proof.Machine.execMxscale a d s
  | .sktake b a d => Sys2Proof.Machine.execSktake b a d s
  | .skgive b a => Sys2Proof.Machine.execSkgive b a s
  | .skreadx a d => Sys2Proof.Machine.execSkreadx a d s
  | .skinit b a => Sys2Proof.Machine.execSkinit b a s
  | .prdef a d => Sys2Proof.Machine.execPrdef a d s
  | .prdone a => Sys2Proof.Machine.execPrdone a s
  | .previct b a => Sys2Proof.Machine.execPrevict b a s
  | .prq a d => Sys2Proof.Machine.execPrq a d s
  | .trap a => Sys2Proof.Machine.execTrap a s
  | .bkpt => Sys2Proof.Machine.execBkpt s
  | .rett => Sys2Proof.Machine.execRett s
  | .sleep a => Sys2Proof.Machine.execSleep a s
  | .csrr c d => Sys2Proof.Machine.execCsrr c d s
  | .csrw c a => Sys2Proof.Machine.execCsrw c a s
  | .flgr d => Sys2Proof.Machine.execFlgr d s
  | .flgc a => Sys2Proof.Machine.execFlgc a s
  | .dqpush a => Sys2Proof.Machine.execDqpush a s
  | .launch a => Sys2Proof.Machine.execLaunch a s
  | .fexit => Sys2Proof.Machine.execFexit s
  | .fwaitev a d => Sys2Proof.Machine.execFwaitev a d s
  | .tceLoad b a => Sys2Proof.Machine.execTceLoad b a s
  | .tceStore b a => Sys2Proof.Machine.execTceStore b a s
  | .tceMcast b a => Sys2Proof.Machine.execTceMcast b a s
  | .tceSlice b a => Sys2Proof.Machine.execTceSlice b a s
  | .tceGather b a => Sys2Proof.Machine.execTceGather b a s
  | .tceScatter b a => Sys2Proof.Machine.execTceScatter b a s
  | .tceFill b a => Sys2Proof.Machine.execTceFill b a s
  | .colReduce b a => Sys2Proof.Machine.execColReduce b a s
  | .colAllred b a => Sys2Proof.Machine.execColAllred b a s
  | .colBcast b a => Sys2Proof.Machine.execColBcast b a s
  | .colAgather b a => Sys2Proof.Machine.execColAgather b a s
  | .colRscat b a => Sys2Proof.Machine.execColRscat b a s
  | .colCbar a => Sys2Proof.Machine.execColCbar a s
  | .wrange d => Sys2Proof.Machine.execWrange d s
  | .fetchw a => Sys2Proof.Machine.execFetchw a s
  | .fixup a d => Sys2Proof.Machine.execFixup a d s
  | .scret a => Sys2Proof.Machine.execScret a s
  | .powq d => Sys2Proof.Machine.execPowq d s
  | .extI v => Sys2Proof.Machine.execExtI v s
  | .extC sc n t r c => Sys2Proof.Machine.execExtC sc n t r c s
  | .guard v p => Sys2Proof.Machine.execGuard v p s
  | .nop16 sc d => Sys2Proof.Machine.execNop16 sc d s
  | .mov16 sc d => Sys2Proof.Machine.execMov16 sc d s
  | .iadd16 sc d => Sys2Proof.Machine.execIadd16 sc d s
  | .isub16 sc d => Sys2Proof.Machine.execIsub16 sc d s
  | .imul16 sc d => Sys2Proof.Machine.execImul16 sc d s
  | .and16 sc d => Sys2Proof.Machine.execAnd16 sc d s
  | .or16 sc d => Sys2Proof.Machine.execOr16 sc d s
  | .xor16 sc d => Sys2Proof.Machine.execXor16 sc d s
  | .shl16 sc d => Sys2Proof.Machine.execShl16 sc d s
  | .shr16 sc d => Sys2Proof.Machine.execShr16 sc d s
  | .sar16 sc d => Sys2Proof.Machine.execSar16 sc d s
  | .imin16 sc d => Sys2Proof.Machine.execImin16 sc d s
  | .imax16 sc d => Sys2Proof.Machine.execImax16 sc d s
  | .fadd16 sc d => Sys2Proof.Machine.execFadd16 sc d s
  | .fsub16 sc d => Sys2Proof.Machine.execFsub16 sc d s
  | .fmul16 sc d => Sys2Proof.Machine.execFmul16 sc d s
  | .fmax16 sc d => Sys2Proof.Machine.execFmax16 sc d s
  | .warpFormation core quad => Sys2Proof.Machine.execWarpFormation core quad s
  | .agedThread core quad => Sys2Proof.Machine.execAgedThread core quad s
  | .loadDataReturn n => Sys2Proof.Machine.execLoadDataReturn n s
  | .rejectionRetry blk tlin => Sys2Proof.Machine.execRejectionRetry blk tlin s
  | .agedEntryGrant core => Sys2Proof.Machine.execAgedEntryGrant core s
  | .ownershipGrant n => Sys2Proof.Machine.execOwnershipGrant n s
  | .invalidationAck n => Sys2Proof.Machine.execInvalidationAck n s
  | .fenceAccept ag => Sys2Proof.Machine.execFenceAccept ag s
  | .drainAccept ag => Sys2Proof.Machine.execDrainAccept ag s
  | .coh01RetentionEviction core line => Sys2Proof.Machine.execCoh01RetentionEviction core line s
  | .sleepExpiry blk who => Sys2Proof.Machine.execSleepExpiry blk who s
  | .knotRelease blk k => Sys2Proof.Machine.execKnotRelease blk k s
  | .knotTimeout blk k => Sys2Proof.Machine.execKnotTimeout blk k s
  | .barrierComplete blk b => Sys2Proof.Machine.execBarrierComplete blk b s
  | .barrierTimeout blk b => Sys2Proof.Machine.execBarrierTimeout blk b s
  | .blockRetire blk => Sys2Proof.Machine.execBlockRetire blk s
  | .readSharedRequest n => Sys2Proof.Machine.execReadSharedRequest n s
  | .ownershipRequest n => Sys2Proof.Machine.execOwnershipRequest n s
  | .homeWriteback n => Sys2Proof.Machine.execHomeWriteback n s
  | .homeAtomic n => Sys2Proof.Machine.execHomeAtomic n s
  | .clusterAtomic n => Sys2Proof.Machine.execClusterAtomic n s
  | .hbmRequestIssue slice => Sys2Proof.Machine.execHbmRequestIssue slice s
  | .hbmDataReturn n err => Sys2Proof.Machine.execHbmDataReturn n err s
  | .sidinRequest r => Sys2Proof.Machine.execSidinRequest r s
  | .newHead launch => Sys2Proof.Machine.execNewHead launch s
  | .belayLimitExpiry launch => Sys2Proof.Machine.execBelayLimitExpiry launch s
  | .skeinRefillRequest ctx k => Sys2Proof.Machine.execSkeinRefillRequest ctx k s
  | .hankReturn n => Sys2Proof.Machine.execHankReturn n s
  | .skeinGrant n => Sys2Proof.Machine.execSkeinGrant n s
  | .prRequest n => Sys2Proof.Machine.execPrRequest n s
  | .dyerSlotGrant die depth => Sys2Proof.Machine.execDyerSlotGrant die depth s
  | .prdefPropagated n => Sys2Proof.Machine.execPrdefPropagated n s
  | .fillComplete ctx va => Sys2Proof.Machine.execFillComplete ctx va s
  | .fwaitevComplete blk => Sys2Proof.Machine.execFwaitevComplete blk s
  | .dqRoom blk => Sys2Proof.Machine.execDqRoom blk s
  | .fetchwDelivery n => Sys2Proof.Machine.execFetchwDelivery n s
  | .commandAcceptance core n => Sys2Proof.Machine.execCommandAcceptance core n s
  | .tceComplete core id => Sys2Proof.Machine.execTceComplete core id s
  | .mxCommandStart core => Sys2Proof.Machine.execMxCommandStart core s
  | .mxCommandComplete core => Sys2Proof.Machine.execMxCommandComplete core s
  | .acDeadlockSwapout core => Sys2Proof.Machine.execAcDeadlockSwapout core s
  | .colJoin core id peers => Sys2Proof.Machine.execColJoin core id peers s
  | .colComplete core id => Sys2Proof.Machine.execColComplete core id s
  | .cbarComplete core id => Sys2Proof.Machine.execCbarComplete core id s
  | .launchPortWrite off len data => Sys2Proof.Machine.execLaunchPortWrite off len data s
  | .stagingTimeout launch => Sys2Proof.Machine.execStagingTimeout launch s
  | .blockPlacement => Sys2Proof.Machine.execBlockPlacement s
  | .quantumEnd => Sys2Proof.Machine.execQuantumEnd s
  | .swapOut blk => Sys2Proof.Machine.execSwapOut blk s
  | .walkResult n => Sys2Proof.Machine.execWalkResult n s
  | .faultRetry seq => Sys2Proof.Machine.execFaultRetry seq s
  | .faultFail seq => Sys2Proof.Machine.execFaultFail seq s
  | .faultTimeout seq => Sys2Proof.Machine.execFaultTimeout seq s
  | .fqheadWrite v => Sys2Proof.Machine.execFqheadWrite v s
  | .fqsizeWrite v => Sys2Proof.Machine.execFqsizeWrite v s
  | .tlbInvalidateRange v => Sys2Proof.Machine.execTlbInvalidateRange v s
  | .tlbInvalidateAll v => Sys2Proof.Machine.execTlbInvalidateAll v s
  | .tlbInvalidateDone => Sys2Proof.Machine.execTlbInvalidateDone s
  | .ctxCreate v => Sys2Proof.Machine.execCtxCreate v s
  | .ctxDestroy v => Sys2Proof.Machine.execCtxDestroy v s
  | .ctxCommandDone => Sys2Proof.Machine.execCtxCommandDone s
  | .cxlMemAccess pa wr len => Sys2Proof.Machine.execCxlMemAccess pa wr len s
  | .hostSnoop line inval => Sys2Proof.Machine.execHostSnoop line inval s
  | .hostLineResponse n r => Sys2Proof.Machine.execHostLineResponse n r s
  | .plannedReset v => Sys2Proof.Machine.execPlannedReset v s
  | .cxlReset => Sys2Proof.Machine.execCxlReset s
  | .linkDown => Sys2Proof.Machine.execLinkDown s
  | .watchdogReset => Sys2Proof.Machine.execWatchdogReset s
  | .thermalTrip => Sys2Proof.Machine.execThermalTrip s
  | .clrpoison v => Sys2Proof.Machine.execClrpoison v s
  | .rowRefresh row => Sys2Proof.Machine.execRowRefresh row s
  | .patrolScrub line err => Sys2Proof.Machine.execPatrolScrub line err s
  | .activationThreshold row => Sys2Proof.Machine.execActivationThreshold row s
  | .rhtWrite v => Sys2Proof.Machine.execRhtWrite v s
  | .celogRead => Sys2Proof.Machine.execCelogRead s
  | .islcmdWrite n v => Sys2Proof.Machine.execIslcmdWrite n v s
  | .islstatRead n => Sys2Proof.Machine.execIslstatRead n s
  | .vfsChangeComplete n => Sys2Proof.Machine.execVfsChangeComplete n s
  | .islandGate n => Sys2Proof.Machine.execIslandGate n s
  | .energyWindow n mj => Sys2Proof.Machine.execEnergyWindow n mj s
  | .temperatureBandChange n band => Sys2Proof.Machine.execTemperatureBandChange n band s
  | .firmwareVerify ok => Sys2Proof.Machine.execFirmwareVerify ok s
  | .die0Trained => Sys2Proof.Machine.execDie0Trained s
  | .hbmLayoutMove => Sys2Proof.Machine.execHbmLayoutMove s
  | .domcfgWrite v => Sys2Proof.Machine.execDomcfgWrite v s
  | .attestationRequest v => Sys2Proof.Machine.execAttestationRequest v s
  | .attestationDone => Sys2Proof.Machine.execAttestationDone s
  | .registerWrite off v => Sys2Proof.Machine.execRegisterWrite off v s
  | .writeAcknowledgement n => Sys2Proof.Machine.execWriteAcknowledgement n s
  | .skeinHomeOperation n => Sys2Proof.Machine.execSkeinHomeOperation n s
  | .powerOnReset => Sys2Proof.Machine.execPowerOnReset s
  | .linkUp width gts => Sys2Proof.Machine.execLinkUp width gts s

end Sys2Proof.Machine
end

