-- ==== Sys2Proof/Machine/Place.lean ====
section
/-! DEFINITION. The smallest set-up from which a step runs a given word (log 14): a live context, a launch of one block of
one thread that is resident on core 0, and the word where that thread, or the block's front thread, fetches next. -/

namespace Sys2Proof.Machine

/-- Where the word lies. -/
def placePc : Nat := 0x10100

/-- The launch record: one block of one thread with 64 registers, and the whole scratchpad of its core. -/
def placeRecord : BitVec 1024 :=
  BitVec.ofNat 1024 <|
    0x10000 + 64 <<< 0x40 + 64 <<< 0x48 + 786432 <<< 0x60 + 0x100 <<< 0x80 + 0x100 <<< 0xA0 + 0x10000 <<< 0xC0
    + 1 <<< 0x140 + 1 <<< 0x160 + 1 <<< 0x170 + 1 <<< 0x180 + 1 <<< 0x190 + 1 <<< 0x1A0 + 1 <<< 0x1D0

/-- A context whose heap window maps the low addresses to themselves, for every access. -/
def placeCtx : Ctx := { live := true, hwl := 2 ^ 39, hwx := true, hww := true }

/-- The thread and the block. -/
def placeThread : Thread :=
  { pc := BitVec.ofNat 57 placePc, regs := List.replicate 64 0, fctl := 17, status := .active 0 0 }

def placeBlock : Block :=
  { launch := 0, ctx := 0, b := 0, bx := 0, byy := 0, bz := 0, place := some { core := 0, quad := 0, bslot := 0, fcx := 0 }
    threads := [(0, placeThread)], front := { pc := BitVec.ofNat 57 placePc, regs := List.replicate 64 0 } }

/-- The agent that runs an instruction: the front thread for a class-F word, else the lane thread. -/
def placeAgent (i : Option Instr) : Agent :=
  match i with
  | some i => if (shape i).cls = .front then .front 0 0 else .lane 0 0 0
  | none => .lane 0 0 0

/-- The state in which the next step runs an instruction of `nbits` bits. -/
def placeWord (s : State) (nbits w : Nat) : State :=
  { s with
    dev := { s.dev with svcl := 2 }
    ctxs := tset s.ctxs 0 placeCtx
    launches := tset s.launches 0 { record := placeRecord, next := 1 }
    nextLaunch := max s.nextLaunch 1
    nextSeq := max s.nextSeq 1
    blocks := tset s.blocks 0 placeBlock
    cores := tset s.cores 0 { quads := [(0, { slots := [(0, { blk := 0, members := [(0, 0)] })] })] }
    mem := s.mem.setBytes placePc (leBytes 4 (w % 2 ^ nbits))
    grp := none
    agenda := .issue (placeAgent (decodeTableWord nbits w)) :: s.agenda }

end Sys2Proof.Machine
end

