-- ==== Sys2Proof/Machine/Events.lean ====
section
/-! DEFINITION. The agenda's events, each the meaning of its row of the opcode table. -/

namespace Sys2Proof.Machine

/-- The meaning of an event. -/
def runEvent (e : Event) (s : State) : Result :=
  match e with
  | .warpFormation core quad => execWarpFormation core quad s
  | .agedThread core quad => execAgedThread core quad s
  | .loadDataReturn n => execLoadDataReturn n s
  | .rejectionRetry blk tlin => execRejectionRetry blk tlin s
  | .agedEntryGrant core => execAgedEntryGrant core s
  | .ownershipGrant n => execOwnershipGrant n s
  | .invalidationAck n => execInvalidationAck n s
  | .fenceAccept ag => execFenceAccept ag s
  | .drainAccept ag => execDrainAccept ag s
  | .coh01RetentionEviction core line => execCoh01RetentionEviction core line s
  | .sleepExpiry blk who => execSleepExpiry blk who s
  | .knotRelease blk k => execKnotRelease blk k s
  | .knotTimeout blk k => execKnotTimeout blk k s
  | .barrierComplete blk b => execBarrierComplete blk b s
  | .barrierTimeout blk b => execBarrierTimeout blk b s
  | .blockRetire blk => execBlockRetire blk s
  | .readSharedRequest n => execReadSharedRequest n s
  | .ownershipRequest n => execOwnershipRequest n s
  | .homeWriteback n => execHomeWriteback n s
  | .homeAtomic n => execHomeAtomic n s
  | .clusterAtomic n => execClusterAtomic n s
  | .hbmRequestIssue slice => execHbmRequestIssue slice s
  | .hbmDataReturn n err => execHbmDataReturn n err s
  | .sidinRequest r => execSidinRequest r s
  | .newHead launch => execNewHead launch s
  | .belayLimitExpiry launch => execBelayLimitExpiry launch s
  | .skeinRefillRequest ctx k => execSkeinRefillRequest ctx k s
  | .hankReturn n => execHankReturn n s
  | .skeinGrant n => execSkeinGrant n s
  | .prRequest n => execPrRequest n s
  | .dyerSlotGrant die depth => execDyerSlotGrant die depth s
  | .prdefPropagated n => execPrdefPropagated n s
  | .fillComplete ctx va => execFillComplete ctx va s
  | .fwaitevComplete blk => execFwaitevComplete blk s
  | .dqRoom blk => execDqRoom blk s
  | .fetchwDelivery n => execFetchwDelivery n s
  | .commandAcceptance core n => execCommandAcceptance core n s
  | .tceComplete core id => execTceComplete core id s
  | .mxCommandStart core => execMxCommandStart core s
  | .mxCommandComplete core => execMxCommandComplete core s
  | .acDeadlockSwapout core => execAcDeadlockSwapout core s
  | .colJoin core id peers => execColJoin core id peers s
  | .colComplete core id => execColComplete core id s
  | .cbarComplete core id => execCbarComplete core id s
  | .launchPortWrite off len data => execLaunchPortWrite off len data s
  | .stagingTimeout launch => execStagingTimeout launch s
  | .blockPlacement => execBlockPlacement s
  | .quantumEnd => execQuantumEnd s
  | .swapOut blk => execSwapOut blk s
  | .walkResult n => execWalkResult n s
  | .faultRetry seq => execFaultRetry seq s
  | .faultFail seq => execFaultFail seq s
  | .faultTimeout seq => execFaultTimeout seq s
  | .fqheadWrite v => execFqheadWrite v s
  | .fqsizeWrite v => execFqsizeWrite v s
  | .tlbInvalidateRange v => execTlbInvalidateRange v s
  | .tlbInvalidateAll v => execTlbInvalidateAll v s
  | .tlbInvalidateDone => execTlbInvalidateDone s
  | .ctxCreate v => execCtxCreate v s
  | .ctxDestroy v => execCtxDestroy v s
  | .ctxCommandDone => execCtxCommandDone s
  | .cxlMemAccess pa wr len => execCxlMemAccess pa wr len s
  | .hostSnoop line inval => execHostSnoop line inval s
  | .hostLineResponse n r => execHostLineResponse n r s
  | .plannedReset v => execPlannedReset v s
  | .cxlReset => execCxlReset s
  | .linkDown => execLinkDown s
  | .watchdogReset => execWatchdogReset s
  | .thermalTrip => execThermalTrip s
  | .clrpoison v => execClrpoison v s
  | .rowRefresh row => execRowRefresh row s
  | .patrolScrub line err => execPatrolScrub line err s
  | .activationThreshold row => execActivationThreshold row s
  | .rhtWrite v => execRhtWrite v s
  | .celogRead => execCelogRead s
  | .islcmdWrite n v => execIslcmdWrite n v s
  | .islstatRead n => execIslstatRead n s
  | .vfsChangeComplete n => execVfsChangeComplete n s
  | .islandGate n => execIslandGate n s
  | .energyWindow n mj => execEnergyWindow n mj s
  | .temperatureBandChange n band => execTemperatureBandChange n band s
  | .firmwareVerify ok => execFirmwareVerify ok s
  | .die0Trained => execDie0Trained s
  | .hbmLayoutMove => execHbmLayoutMove s
  | .domcfgWrite v => execDomcfgWrite v s
  | .attestationRequest v => execAttestationRequest v s
  | .attestationDone => execAttestationDone s
  | .registerWrite off v => execRegisterWrite off v s
  | .writeAcknowledgement n => execWriteAcknowledgement n s
  | .skeinHomeOperation n => execSkeinHomeOperation n s
  | .powerOnReset => execPowerOnReset s
  | .linkUp width gts => execLinkUp width gts s

end Sys2Proof.Machine
end

