-- ==== Sys2Proof/Machine/Schedule.lean ====
section
/-! DEFINITION. What moves by itself (log 3): which message a receiver can serve, what a cycle begins with, and the events
that are due in it. -/

namespace Sys2Proof.Machine

/-! ## Messages -/

/-- Whether a home has anything to do for a request of a line: it can be served, or its line must be asked for. -/
def lineTurn (s : State) (n line : Nat) (own : Bool) : Bool :=
  mayServe s n line && (if lineAt s line own then entryRoom s line else canFetch s line)

/-- The same for a single access, which may go to the host. -/
def accTurn (s : State) (n : Nat) (a : Acc) : Bool :=
  if toHost s a then inOrder s n && missRoom s a.line else lineTurn s n a.line true

/-- Whether a definition can be answered now. -/
def prdefTurn (s : State) (blk : Nat) (desc : BitVec 512) : Bool :=
  match tget s.ctxs (((s.block blk).map Block.ctx).getD 0) with
  | none => true
  | some c =>
    match judgeDef c desc with
    | .remove i => !((((tget c.ranges i).map ProcRange.blocks).getD []).any fun b => b.2.fill = .steeping || b.2.queued.isSome)
    | _ => true

/-- The event in which message `n` arrives, if its receiver can serve it now. -/
def msgEvent (s : State) (n : Nat) (m : Msg) : Option Event :=
  let when_ := fun (c : Bool) (e : Event) => if c then some e else none
  match m with
  | .readShared c l coh => when_ (lineTurn s n l false && (coh = 1 || proxyRoom s c l)) (.readSharedRequest n)
  | .ownership _ l => when_ (lineTurn s n l true) (.ownershipRequest n)
  | .readHome _ a => when_ (lineTurn s n a.line false) (.readSharedRequest n)
  | .writeHome _ a => when_ (lineTurn s n a.line true) (.homeWriteback n)
  | .writeback _ l _ _ _ _ => when_ (lineTurn s n l true) (.homeWriteback n)
  | .rest _ l _ _ _ _ => when_ (lineTurn s n l true) (.homeWriteback n)
  | .atomic _ a => when_ (accTurn s n a) (.homeAtomic n)
  | .clusterAtomic _ a => when_ (accTurn s n a) (.clusterAtomic n)
  | .fill _ _ _ _ _ => when_ (inOrder s n) (.loadDataReturn n)
  | .value _ _ _ _ => when_ (inOrder s n) (.loadDataReturn n)
  | .grant _ _ => when_ (inOrder s n) (.ownershipGrant n)
  | .proxyInv _ _ _ => some (.invalidationAck n)
  | .devInv _ _ _ => some (.invalidationAck n)
  | .ack _ _ _ _ => some (.writeAcknowledgement n)
  | .hank _ _ _ _ _ => some (.hankReturn n)
  | .skeinGrant _ _ _ _ => some (.skeinGrant n)
  | .skeinOp _ _ _ => some (.skeinHomeOperation n)
  | .prRequest _ _ _ _ _ _ _ _ => some (.prRequest n)
  | .prdef blk _ d => when_ (prdefFirst s n blk && prdefTurn s blk d) (.prdefPropagated n)
  | .fetchw blk _ _ => when_ (mailTurn s n blk) (.fetchwDelivery n)
  | .port _ _ => some (.loadDataReturn n)
  | .hostLine _ _ => none
  | .hostOwn _ => none

/-- Whether something is held back in a cycle (log 3). Every hold ends, after a number of cycles that is left free (R31), or
within a bound where the spec gives one. -/
def heldNow (now k : Nat) (bound : Option Nat) : Bool :=
  let limit := Config.holdLimit + 1
  Config.heldBack now k && now % (bound.elim limit (min limit)) ≠ 0

/-- The bound of a skein's holds, so that a recall round takes at most 6,000 mesh cycles (R28). -/
def skeinHold : Nat := 2048

/-- The bound of a message's holds. -/
def Msg.holdBound : Msg → Option Nat
  | .hank _ _ _ _ _ => some skeinHold
  | .skeinGrant _ _ _ _ => some skeinHold
  | .skeinOp _ _ _ => some skeinHold
  | _ => none

/-- The bound of an event's holds: a skein's, 1 µs for a threshold refresh (R454), 20 µs for a change of state (R459). -/
def Event.holdBound : Event → Option Nat
  | .skeinRefillRequest _ _ => some skeinHold
  | .activationThreshold _ => some cyclesPerUs
  | .vfsChangeComplete _ => some (20 * cyclesPerUs)
  | .islandGate _ => some (20 * cyclesPerUs)
  | _ => none

/-- The event of the oldest message that can be served and is not held back. -/
def servableFrom (s : State) : Nat → List Msg → Option Event
  | _, [] => none
  | n, m :: ms =>
    match msgEvent s n m with
    | some e => if heldNow s.now (2 * n) m.holdBound then servableFrom s (n + 1) ms else some e
    | none => servableFrom s (n + 1) ms

def servable (s : State) : Option Event := servableFrom s 0 s.net

/-! ## Waits that end when their cause is gone -/

/-- Whether a block that must be the head is, or the stage of its die has room (R293). -/
def stageRoom (s : State) (b : Block) (core : Nat) : Bool := !notHead s b || stagingUsed s (coreDie core) + 16 ≤ 2 ^ 22

/-- Whether a thread's wait is over. -/
def waitOver (s : State) (k : Nat) (b : Block) (p : Place) (th : Thread) : Bool :=
  match th.status with
  | .waiting .dq => th.rp ≠ b.front.wp
  | .waiting (.alloc h) => (tget b.tiles h).isSome || acFree s p.core k h b && !olderAlloc s p.core k
  | .waiting .replay => !th.held
  | .waiting (.line l) => lineReady s l || !asked s l
  | .waiting .logFull => ((s.core p.core).quad p.quad).log.length < 64
  | .waiting (.range lo hi) => !(fillsIn s b.ctx lo hi).any fun x => x.2.2.fill = .steeping
  | .waiting .head => !notHead s b
  | .waiting .stage => stageRoom s b p.core
  | _ => false

/-- The threads of a block that go on. -/
def wakeThreads (s : State) (k : Nat) : State :=
  match s.block k with
  | none => s
  | some b =>
    match b.place with
    | none => s
    | some p =>
      let s := s.modBlock k fun b => { b with threads := tmap (fun _ th => if waitOver s k b p th then th.ready th.pc else th) b.threads }
      grantTokens s k

/-- Whether a front thread's wait is over. -/
def frontOver (s : State) (k : Nat) (b : Block) (p : Place) : Bool :=
  match b.front.status with
  | .stalled (.rejected n) => n ≤ s.now
  | .stalled (.line l) => lineReady s l || !asked s l
  | .stalled .head => !notHead s b
  | .stalled .stage => stageRoom s b p.core
  | .stalled .launch => released s k (b.front.mark.getD s.nextAcc) && !unperformed s k none && heldLaunches s < 1024
  | _ => false

/-- The front thread of a block goes on. -/
def wakeFront (s : State) (k : Nat) : State :=
  match s.block k with
  | none => s
  | some b =>
    match b.place, b.front.status with
    | none, _ => s
    | _, .stalled (.place r) =>
      if 1024 ≤ heldLaunches s then s else (submit s r (some b.ctx) none).modFront k Front.resume
    | some p, _ => completeFixup (if frontOver s k b p then s.modFront k Front.resume else s) k

/-- An engine fault recorded after FEXIT stops the context, or poisons the dyer's block (R202, R314, R371). -/
def stopFatal (s : State) (k : Nat) : State :=
  match s.block k with
  | none => s
  | some b =>
    match b.faults.find? EngineFault.fatal with
    | none => s
    | some f =>
      let s := clearRecord s k f
      match b.dyer with
      | some d => dyerFault s k d (if f.cause = causePrfill then f.detail.toNat else 1) f.cause
      | none => fatalStop s b.ctx b.launch
          (trapReport b ⟨0, f.cause, b.front.pc, f.taddr, f.detail.toNat, none⟩ (tinfoWord 1 0 f.detail.toNat) [] 0xFFFF)

/-- A block that R394 moved may be moved again once no older block of its core is blocked. -/
def clearAcOut (s : State) (k : Nat) : State :=
  match s.block k with
  | none => s
  | some b =>
    let held := match b.place with
      | some p => (blocksOn s p.core).any fun x => x.1 < k && acBlocked x.2
      | none => true
    if b.acOut && !held then s.modBlock k fun b => { b with acOut := false } else s

/-- A rounds's end that no return announces: its last holder has gone. -/
def endRounds (s : State) : State :=
  s.ctxs.foldl (fun s c => c.2.skeins.foldl (fun s x =>
    if (s.skein c.1 x.1).round = some [] then endRound s c.1 x.1 else s) s) s

/-- A stopped block gives its place back once its last command is over (R430). -/
def releaseStopped (s : State) (k : Nat) : State :=
  match s.block k with
  | some b => if b.state = .stopped && b.place.isSome && !hasCommands s k then releaseBlock s k else s
  | none => s

/-- Accesses that were held back look again: what held them, a head to become or room in a stage, may be gone (R293), and
so may the line of a queued store. -/
def retryHeld (s : State) : State :=
  s.cores.foldl (fun s c => if (c.2.pend.any fun a => !a.sent) || !c.2.stores.isEmpty then progress s c.1 else s) s

/-- A release at block scope is forgotten once nothing waits for it (R191, R275). -/
def pruneSyncs (s : State) (k : Nat) : State :=
  match s.block k with
  | some b =>
    if b.syncs.isEmpty then s
    else s.modBlock k fun b => { b with syncs := b.syncs.filter fun y =>
      (bit y.path 0 && y.ids.any (stillOpen s)) || (field y.path 4 1 ≠ 0 && y.holds s k) }
  | none => s

/-- What a cycle begins with. -/
def tidy (s : State) : State :=
  let ks := s.blocks.map Prod.fst
  let s := settleLogs s
  let live := fun (s : State) => (s.blocks.filter fun p => p.2.state = .resident).map Prod.fst
  let s := ks.foldl releaseStopped (takeRecords s)
  let s := (live s).foldl stopFatal s
  let s := (live s).foldl wakeThreads s
  let s := (live s).foldl wakeFront s
  let s := (live s).foldl clearAcOut s
  let s := s.peers.foldl servePeer (ks.foldl pruneSyncs (pruneOwed s))
  admitAll (endRounds (retryHeld (advanceCommands s)))

/-! ## The events that are due -/

/-- Lane threads whose SLEEP or rejection is over. -/
def threadEvents (s : State) (k : Nat) (b : Block) : List Event :=
  b.threads.filterMap fun t => match t.2.status with
    | .waiting (.sleep n) => if n ≤ b.cycles then some (.sleepExpiry k (some t.1)) else none
    | .waiting (.rejected n) => if n ≤ s.now then some (.rejectionRetry k t.1) else none
    | _ => none

/-- What a stalled front thread waits for. -/
def frontEvents (k : Nat) (b : Block) (p : Place) : List Event :=
  match b.front.status with
  | .stalled (.sleep n) => if n ≤ b.cycles then [.sleepExpiry k none] else []
  | .stalled (.fence _ _ _) => [.fenceAccept (.front p.core p.fcx)]
  | .stalled (.drain _ _ _) => [.drainAccept (.front p.core p.fcx)]
  | .stalled (.dqRoom _) => [.dqRoom k]
  | .stalled (.event _ _ _ _) => [.fwaitevComplete k]
  | _ => []

/-- The knots of a block that release at the end of the cycle (R183). -/
def knotEvents (k : Nat) (b : Block) : List Event :=
  b.knots.flatMap fun x =>
    if knotDue b x.2 then [Event.knotRelease k x.1] else if knotLate b x.2 then [.knotTimeout k x.1] else []

/-- The phases of a block that complete at the end of the cycle, or have reached their limit (R188, R192). -/
def barEvents (s : State) (k : Nat) (b : Block) : List Event :=
  b.bars.flatMap fun x =>
    if countHolds b x.1 x.2 && pathsHold s x.2 then [Event.barrierComplete k x.1]
    else if barLate b x.2 then [.barrierTimeout k x.1] else []

/-- What the end of the cycle brings, knots after barriers: a thread that a phase makes READY no longer counts as blocked.
A block that has ended retires there too (R343). -/
def judgeEvents (s : State) (knots : Bool) : List Event :=
  s.blocks.flatMap fun x => match x.2.place with
    | some _ => if x.2.state ≠ .resident then [] else if knots then knotEvents x.1 x.2 ++ (if mayRetire s x.1 x.2 then [.blockRetire x.1] else [])
      else barEvents s x.1 x.2
    | none => []

/-- The end of the cycle. -/
def judge (s : State) (knots : Bool) : State :=
  { s with agenda := (judgeEvents s knots).map .event ++ (if knots then [] else [.judge true]) ++ s.agenda }

/-- The events of one resident block. -/
def blockEvents (s : State) (k : Nat) (b : Block) : List Event :=
  match b.place with
  | none => []
  | some p =>
    threadEvents s k b ++ frontEvents k b p
    ++ (if b.leaving then [.swapOut k] else [])

/-- Waiting fences and drains of warps. -/
def slotEvents (core : Nat) (c : Core) : List Event :=
  c.quads.flatMap fun q => q.2.slots.flatMap fun w =>
    (if w.2.fencing.isSome then [Event.fenceAccept (.lane core q.1 w.1)] else [])
    ++ (if w.2.draining.isSome then [Event.drainAccept (.lane core q.1 w.1)] else [])

/-- The end of an accepted command of the TCE or COL path. -/
def commandEvents (core : Nat) (c : Cmd) : List Event :=
  if !c.accepted || c.blocked || c.path = peerPath then []
  else match c.kind with
    | .tce _ _ _ => [.tceComplete core c.id]
    | .col sub desc _ =>
      if !c.started then (if (colDesc desc).n = 1 then [.colJoin core c.id []] else [])
      else if sub = 5 then [.cbarComplete core c.id] else [.colComplete core c.id]
    | _ => []

/-- The events of a core. -/
def coreEvents (s : State) (core : Nat) (c : Core) : List Event :=
  slotEvents core c
  ++ (if c.aged.isEmpty then [] else [.agedEntryGrant core])
  ++ (c.cmds.filter fun x => !x.accepted).map (fun x => .commandAcceptance core x.id)
  ++ (if (mxNext c).isSome && mxFree c then [.mxCommandStart core] else [])
  ++ (if (mxDone c).isSome then [.mxCommandComplete core] else [])
  ++ (c.l1.filter fun l => l.2.coh = 1 && l.2.filled + 2 ^ 20 ≤ c.cycle).map (fun l => .coh01RetentionEviction core l.1)
  ++ (if (acDeadlock s core).isSome then [.acDeadlockSwapout core] else [])

/-- HBM: a request of each slice issues, and the data of those issued returns, the last in the list first. -/
def hbmEvents (s : State) : List Event :=
  let slices := s.hbm.foldl (fun l h => if h.issued then l else insertNat l h.slice) []
  slices.map (fun n => .hbmRequestIssue n)
  ++ ((List.range s.hbm.length).reverse.filter fun i => ((s.hbm[i]?).map HbmReq.issued).getD false).map
      (fun i => .hbmDataReturn i .clean)
  ++ (s.dev.acts.filter fun x => s.dev.rht.toNat ≤ x.2).map fun x => .activationThreshold x.1

/-- Skeins and procedural ranges. -/
def serviceEvents (s : State) : List Event :=
  (s.ctxs.flatMap fun c => (c.2.skeins.filter fun x => x.2.round.isNone && !x.2.queue.isEmpty).map fun x =>
    Event.skeinRefillRequest c.1 x.1)
  ++ (allFills s).flatMap fun x =>
    (if x.2.2.2.fill = .steeping && x.2.2.2.ending then [Event.fillComplete x.1 (BitVec.ofNat 64 x.2.2.1)] else [])
    ++ (if x.2.2.2.fill = .steeping && x.2.2.2.queued.isSome then
          [Event.dyerSlotGrant (homeDie s x.2.2.2.pa) (1 + x.2.2.2.ancestors.length)] else [])

/-- The Dispatcher. -/
def dispatchEvents (s : State) : List Event :=
  (s.launches.filter fun p => p.2.staging).map (fun p => .stagingTimeout p.1)
  ++ (if (wants s).isEmpty then [] else [.blockPlacement])
  ++ (if s.now < s.dev.qfrom + quantum s then [] else [.quantumEnd])
  ++ (s.launches.filter fun p => p.2.det && p.2.done = 0).flatMap fun p =>
    (if p.2.retired.contains p.2.head && p.2.head + 1 < p.2.nblocks then [.newHead p.1] else [])
    ++ (if ((blockOf s p.1 p.2.head).map fun b => belayLate p.2 b.2).getD false then [.belayLimitExpiry p.1] else [])

/-- Translation. -/
def translationEvents (s : State) : List Event :=
  List.replicate s.walks.length (.walkResult 0)
  ++ (s.frecs.filter fun f => f.posted.isSome && recordLate s f).map (fun f => .faultTimeout (BitVec.ofNat 32 f.seq))
  ++ (if tlbBusy s.dev.tlbinv then [.tlbInvalidateDone] else [])
  ++ (if s.dev.ctxcmd.isSome then [.ctxCommandDone] else [])

/-- The device. -/
def deviceEvents (s : State) : List Event :=
  (if s.dev.attbusy then [.attestationDone] else [])
  ++ (s.dev.islands.filter fun x => field x.2.cmd 2 0 ≠ x.2.vfs.toNat).map (fun x =>
    if field x.2.cmd 2 0 = 0 then .islandGate x.1 else .vfsChangeComplete x.1)
  ++ (if s.dev.moving then [.hbmLayoutMove] else [])

/-- Events whose time the manual leaves open, without those that are held back (log 3). -/
def openEvents (s : State) : List Event :=
  let es := (s.cores.flatMap fun c => c.2.cmds.flatMap (commandEvents c.1)) ++ hbmEvents s ++ serviceEvents s
    ++ translationEvents s ++ deviceEvents s
  (es.mapIdx fun k e => (k, e)).filterMap fun x => if heldNow s.now (2 * x.1 + 1) x.2.holdBound then none else some x.2

/-- Cores that hold running blocks. -/
def busyCores (s : State) : List Nat := (running s).foldl (fun l p => insertNat l ((p.2.place.map Place.core).getD 0)) []

/-- The issue opportunities of a core. -/
def issueActs (core : Nat) : List Act :=
  ((List.range 4).flatMap fun q => [.event (.warpFormation core q), .arbLane core q]) ++ [.arbFront core]

/-- What happens in a cycle, in order: issue, messages, and the events that are due. -/
def plan (s : State) : List Act :=
  (if s.dev.moving then [] else (busyCores s).flatMap issueActs)
  ++ List.replicate s.net.length .deliver
  ++ ((s.blocks.flatMap fun p => if p.2.state = .resident then blockEvents s p.1 p.2 else [])
      ++ (s.cores.flatMap fun c => coreEvents s c.1 c.2) ++ openEvents s
      ++ (if s.dev.moving then [] else dispatchEvents s)).map .event
  ++ [.judge false]

/-! ## Time -/

/-- An island whose energy in the open window has come to exceed its budget (R459). -/
def Island.judged (i : Island) (now n : Nat) : Island :=
  if i.budget = 0xFFFF then i else { i with ovb := i.ovb || Config.overBudget now n }

/-- A cycle passes: device time, the cores' cycles, and the residency of the blocks. During the move of R457 the cycles of residency,
which KNOTTMO, BARLIM, SLEEP and the Belay limit count, stand still, and so does the time of a fault record (FTMO). -/
def tick (s : State) : State :=
  let still := s.dev.moving
  { s with
    now := s.now + 1
    cores := tmap (fun _ c => { c with cycle := c.cycle + 1 }) s.cores
    blocks := tmap (fun _ b =>
      if b.state = .resident && b.place.isSome && !still then { b with cycles := b.cycles + 1 } else b) s.blocks
    frecs := if still then s.frecs.map fun f => { f with posted := f.posted.map (· + 1) } else s.frecs
    dev := { s.dev with islands := tmap (fun n i => i.judged (s.now + 1) n) s.dev.islands } }

/-- A new cycle; a halted package does nothing (R459), and a planned reset comes instead of it (R452). -/
def newCycle (s : State) : State :=
  if s.dev.halted then s
  else if s.dev.resetting then resetState s []
  else
    let s := tidy (tick s)
    { s with agenda := plan s }

end Sys2Proof.Machine
end

