-- ==== Sys2Proof/Machine/Step.lean ====
section
/-! DEFINITION. One step of the machine: the current agent's next word while its group is open, else the next item of
the agenda, else a new cycle. -/

namespace Sys2Proof.Machine

/-- The current agent's next word: fetched, decoded and executed; a word that is no instruction traps (R70). -/
def runWord (s : State) : Host.Outcome State Fault Refusal :=
  match nextWord s with
  | none => .next (closeGroup s)
  | some (k, pc) =>
    let core := agentCore s.cur
    let ctx := ((s.block k).map Block.ctx).getD 0
    let w := fetchWord s core ctx pc
    let s := fillFetch s core ctx pc
    match w with
    | .word (some i) _ => exec i s
    | .word none n => .next (noInstruction s n)
    | .badPrefix n => joinBad n s
    | .protect d => .next (fetchProtect s pc d)
    | .fault va cause level => .next (fetchWait s va cause level)
    | .poisoned => .next (fetchTrap s pc causeEccdata 0)
    | .away line => .next (fetchAway s line)
    | .dead => .fault .contextNotLive

/-- One step. -/
def step (s : State) : Host.Outcome State Fault Refusal :=
  match s.grp with
  | some _ => runWord s
  | none =>
    match s.agenda with
    | [] => .next (newCycle s)
    | a :: rest =>
      let s := { s with agenda := rest }
      match a with
      | .event e => runEvent e s
      | .judge knots => .next (judge s knots)
      | .issue ag => runWord { s with cur := ag }
      | .deliver =>
        (match servable s with
         | some e => runEvent e s
         | none => .next s)
      | .arbLane core quad =>
        (match arbitrate s core quad with
         | (s, some slot) => runWord { s with cur := .lane core quad slot }
         | (s, none) => .next s)
      | .arbFront core =>
        match arbitrateFront s core with
        | some fcx => runWord { s with cur := .front core fcx }
        | none => .next s

/-- The state with an instruction's bits where the next step fetches (log 14): see `placeWord`. -/
def State.withFetchWord (s : State) (nbits w : Nat) : State := placeWord s nbits w

end Sys2Proof.Machine
end

