-- ==== Sys2Proof/Safety.lean ====
section
/-! DEFINITION. The terms in which claims are stated: when a group is ready for its own effect, how its threads go on,
leave or trap, and what stays as it was. -/

namespace Sys2Proof

open Machine

/-- The row of the opcode table that an event is. -/
noncomputable def Machine.Event.instr (e : Event) : Instr :=
  match e with
  | .warpFormation core quad => .warpFormation core quad
  | .agedThread core quad => .agedThread core quad
  | .loadDataReturn n => .loadDataReturn n
  | .rejectionRetry blk tlin => .rejectionRetry blk tlin
  | .agedEntryGrant core => .agedEntryGrant core
  | .ownershipGrant n => .ownershipGrant n
  | .invalidationAck n => .invalidationAck n
  | .fenceAccept ag => .fenceAccept ag
  | .drainAccept ag => .drainAccept ag
  | .coh01RetentionEviction core line => .coh01RetentionEviction core line
  | .sleepExpiry blk who => .sleepExpiry blk who
  | .knotRelease blk k => .knotRelease blk k
  | .knotTimeout blk k => .knotTimeout blk k
  | .barrierComplete blk b => .barrierComplete blk b
  | .barrierTimeout blk b => .barrierTimeout blk b
  | .blockRetire blk => .blockRetire blk
  | .readSharedRequest n => .readSharedRequest n
  | .ownershipRequest n => .ownershipRequest n
  | .homeWriteback n => .homeWriteback n
  | .homeAtomic n => .homeAtomic n
  | .clusterAtomic n => .clusterAtomic n
  | .hbmRequestIssue slice => .hbmRequestIssue slice
  | .hbmDataReturn n err => .hbmDataReturn n err
  | .sidinRequest r => .sidinRequest r
  | .newHead launch => .newHead launch
  | .belayLimitExpiry launch => .belayLimitExpiry launch
  | .skeinRefillRequest ctx k => .skeinRefillRequest ctx k
  | .hankReturn n => .hankReturn n
  | .skeinGrant n => .skeinGrant n
  | .prRequest n => .prRequest n
  | .dyerSlotGrant die depth => .dyerSlotGrant die depth
  | .prdefPropagated n => .prdefPropagated n
  | .fillComplete ctx va => .fillComplete ctx va
  | .fwaitevComplete blk => .fwaitevComplete blk
  | .dqRoom blk => .dqRoom blk
  | .fetchwDelivery n => .fetchwDelivery n
  | .commandAcceptance core n => .commandAcceptance core n
  | .tceComplete core id => .tceComplete core id
  | .mxCommandStart core => .mxCommandStart core
  | .mxCommandComplete core => .mxCommandComplete core
  | .acDeadlockSwapout core => .acDeadlockSwapout core
  | .colJoin core id peers => .colJoin core id peers
  | .colComplete core id => .colComplete core id
  | .cbarComplete core id => .cbarComplete core id
  | .launchPortWrite off len data => .launchPortWrite off len data
  | .stagingTimeout launch => .stagingTimeout launch
  | .blockPlacement => .blockPlacement
  | .quantumEnd => .quantumEnd
  | .swapOut blk => .swapOut blk
  | .walkResult n => .walkResult n
  | .faultRetry seq => .faultRetry seq
  | .faultFail seq => .faultFail seq
  | .faultTimeout seq => .faultTimeout seq
  | .fqheadWrite v => .fqheadWrite v
  | .fqsizeWrite v => .fqsizeWrite v
  | .tlbInvalidateRange v => .tlbInvalidateRange v
  | .tlbInvalidateAll v => .tlbInvalidateAll v
  | .tlbInvalidateDone => .tlbInvalidateDone
  | .ctxCreate v => .ctxCreate v
  | .ctxDestroy v => .ctxDestroy v
  | .ctxCommandDone => .ctxCommandDone
  | .cxlMemAccess pa wr len => .cxlMemAccess pa wr len
  | .hostSnoop line inval => .hostSnoop line inval
  | .hostLineResponse n r => .hostLineResponse n r
  | .plannedReset v => .plannedReset v
  | .cxlReset => .cxlReset
  | .linkDown => .linkDown
  | .watchdogReset => .watchdogReset
  | .thermalTrip => .thermalTrip
  | .clrpoison v => .clrpoison v
  | .rowRefresh row => .rowRefresh row
  | .patrolScrub line err => .patrolScrub line err
  | .activationThreshold row => .activationThreshold row
  | .rhtWrite v => .rhtWrite v
  | .celogRead => .celogRead
  | .islcmdWrite n v => .islcmdWrite n v
  | .islstatRead n => .islstatRead n
  | .vfsChangeComplete n => .vfsChangeComplete n
  | .islandGate n => .islandGate n
  | .energyWindow n mj => .energyWindow n mj
  | .temperatureBandChange n band => .temperatureBandChange n band
  | .firmwareVerify ok => .firmwareVerify ok
  | .die0Trained => .die0Trained
  | .hbmLayoutMove => .hbmLayoutMove
  | .domcfgWrite v => .domcfgWrite v
  | .attestationRequest v => .attestationRequest v
  | .attestationDone => .attestationDone
  | .registerWrite off v => .registerWrite off v
  | .writeAcknowledgement n => .writeAcknowledgement n
  | .skeinHomeOperation n => .skeinHomeOperation n
  | .powerOnReset => .powerOnReset
  | .linkUp width gts => .linkUp width gts

namespace Safety

open Sys2Proof.Machine

/-! ## The word that a step runs -/

/-- A step at `s` runs the next word of `u`: inside a group it is `s` itself; between groups a turn of the agenda is taken, given by
its item or picked by arbitration (R97, R335; log 3). -/
inductive Runs (s : State) : State → Prop where
  | inside (g : Group) (open_ : s.grp = some g) : Runs s s
  | issue (ag : Agent) (acts : List Act) (none_ : s.grp = none) (item : s.agenda = .issue ag :: acts) :
      Runs s { s with agenda := acts, cur := ag }
  | lane (core quad slot : Nat) (acts : List Act) (none_ : s.grp = none) (item : s.agenda = .arbLane core quad :: acts)
      (picks : (arbitrate { s with agenda := acts } core quad).2 = some slot) :
      Runs s { (arbitrate { s with agenda := acts } core quad).1 with cur := .lane core quad slot }
  | front (core fcx : Nat) (acts : List Act) (none_ : s.grp = none) (item : s.agenda = .arbFront core :: acts)
      (picks : arbitrateFront { s with agenda := acts } core = some fcx) :
      Runs s { s with agenda := acts, cur := .front core fcx }

/-- A context has its translations (R447, R465). -/
def ctxMapped (s : State) (k : Nat) : Bool := ((tget s.ctxs k).map Ctx.mapped).getD false

/-- The fetch of a word may fill entries of the core's fetch TLB and of the walk caches (R437); nothing else changes. -/
structure OnlyFetchTlb (s t : State) (core : Nat) : Prop where
  others : ∀ c, c ≠ core → t.core c = s.core c
  core   : t.core core = { s.core core with ftlb := (t.core core).ftlb }
  rest   : t = { s with cores := t.cores, walkCache := t.walkCache }

/-- Code can be read at a physical address: its line is at hand and not poisoned (R286, R462). -/
abbrev codeAt (s : State) (pa : Nat) : Prop := hostAway s pa = none ∧ s.poison.contains (lineOf pa) = false

/-- The halfwords that the agent finds at its next word, in order, as bytes: two bytes when the low bit is 0, else four
(R33). -/
inductive WordAt (s : State) (bs : List Byte) : Prop where
  | short (k : Nat) (b : Block) (pc : Pc) (pa : Nat) (w : BitVec 2) (at_ : nextWord s = some (k, pc)) (blk : s.block k = some b)
      (lo : fetchTranslate s (agentCore s.cur) b.ctx pc.toNat = .ok pa w) (near : codeAt s pa)
      (even : homeNum s pa 2 % 2 = 0) (bytes : bs = leBytes 2 (homeNum s pa 2))
  | long (k : Nat) (b : Block) (pc : Pc) (pa pb : Nat) (w v : BitVec 2) (at_ : nextWord s = some (k, pc)) (blk : s.block k = some b)
      (lo : fetchTranslate s (agentCore s.cur) b.ctx pc.toNat = .ok pa w) (near : codeAt s pa)
      (hi : fetchTranslate s (agentCore s.cur) b.ctx (pc + 2).toNat = .ok pb v) (also : codeAt s pb)
      (odd : homeNum s pa 2 % 2 = 1) (bytes : bs = leBytes 4 (homeNum s pa 2 + 65536 * homeNum s pb 2))

/-! ## A group that a warp issues -/

/-- The group that the current warp issues with instruction `i` passes the checks of R71 for all its members: `s₁` is the
state in which the instruction acts, on the members `ms`, no thread standing twice among them (R90). -/
structure LaneReady (s : State) (i : Instr) (s₁ : State) (is : Issue) (ms : List Member) : Prop where
  passes   : prepare s i = .go s₁ is ms []
  distinct : (ms.map Member.tlin).Nodup

/-- From `s` to `t` nothing changes but the threads `ts` of the block, and of the cores the slots and ports of quadrants: no
other thread, no register, no other part of the block, no byte of memory. -/
structure OnlyThreads (s t : State) (is : Issue) (ts : List Nat) : Prop where
  others : ∀ x, x ∉ ts → (is.block t).thread x = (is.block s).thread x
  block  : is.block t = { is.block s with threads := (is.block t).threads }
  blocks : ∀ k, k ≠ is.blk → t.block k = s.block k
  cores  : ∀ c, t.core c = { s.core c with quads := (t.core c).quads }
  rest   : t = { s with blocks := t.blocks, cores := t.cores }

/-- The DQ pointer after a group (R39). -/
def popped (m : Member) (th : Thread) : BitVec 8 := if m.pop then th.rp + 1 else th.rp

/-- A thread that has gone on to the next group (R94, R97): its pc, its latch ring (R60), the DQ pointer of a pop (R39),
its age (R101) and its expected mask (R106). -/
def onward (pc : Pc) (m : Member) (th : Thread) (ring : List RingEntry) : Thread :=
  { th with pc := pc, ring := ring, rp := popped m th, age := 0, mask := none }

/-- Every member goes on to the next group: `own` is the instruction's effect on a member whose guard is true. -/
structure Goes (s t : State) (is : Issue) (ms : List Member) (own : Member → Thread → Thread) : Prop
    extends OnlyThreads s t is (ms.map Member.tlin) where
  thread : ∀ m ∈ ms, ∀ th, (is.block s).thread m.tlin = some th →
    ∃ ring, (is.block t).thread m.tlin = some (onward is.next m (if m.on then own m th else th) ring)

/-- How many members go to a target. -/
def goers (ms : List Member) (tgt : Member → Pc) (p : Pc) : Nat := (ms.map tgt).count p

/-- Every member goes to its own target (R95, R175): those of one target keep the slot and stay ACTIVE, none of the others
having more members; the rest become READY. -/
structure GoesTo (s t : State) (is : Issue) (ms : List Member) (tgt : Member → Pc) (keep : Pc)
    (own : Member → Thread → Thread) : Prop extends OnlyThreads s t is (ms.map Member.tlin) where
  most   : ∀ p, goers ms tgt p ≤ goers ms tgt keep
  thread : ∀ m ∈ ms, ∀ th, (is.block s).thread m.tlin = some th →
    ∃ ring, (is.block t).thread m.tlin = some
      { onward (tgt m) m (if m.on then own m th else th) ring with status := if tgt m = keep then th.status else .ready }

/-- Every member leaves the warp: with the status and at the pc that `dest` gives it, its ring empty (R97, R110). -/
structure Leaves (s t : State) (is : Issue) (ms : List Member) (dest : Member → Status × Pc) : Prop
    extends OnlyThreads s t is (ms.map Member.tlin) where
  thread : ∀ m ∈ ms, ∀ th, (is.block s).thread m.tlin = some th → ∃ rp mask,
    (is.block t).thread m.tlin = some
      { th with status := (dest m).1, pc := (dest m).2, age := 0, ring := [], rp := rp, mask := mask }

/-- The trap registers that a trap of the collection `rs` leaves (R200, R207, R208): a ring with an nw = 1 entry gives TCHAIN
its chain head and sets TSTAT.CR (R64). -/
def enteredRegs (rs : List TrapReq) (r : TrapReq) (th : Thread) : TrapRegs :=
  { tcause := r.cause.zeroExtend 32
    tpc := r.tpc.zeroExtend 64
    taddr := r.taddr
    tinfo := BitVec.ofNat 32 (rs.length % 64 * 2 ^ 26 + ((rs.map TrapReq.tlin).headD 0) % 1024 * 2 ^ 16 + r.detail % 2 ^ 16)
    tstat := match chainHead th.ring with
      | some _ => 3
      | none => 1
    tchain := match chainHead th.ring with
      | some p => p.zeroExtend 64
      | none => th.trap.tchain
    tlist := tlistWords 16 ((rs.map TrapReq.tlin).take 32) }

/-- RP of a thread that takes a trap: an entry that it popped as the mask of the group at which it stands is not gone (R113). -/
def unpopped (th : Thread) : BitVec 8 := if th.mask.isSome && th.popped then th.rp - 1 else th.rp

/-- A handler may run for the collection `rs` of the issue's block: the block is no dyer's, TVEC is not 0, no thread of the
collection is in a handler, and the collection is in ascending tlin order (R113, R200). -/
structure Handled (s : State) (is : Issue) (rs : List TrapReq) : Prop where
  block : ∃ b, s.block is.blk = some b ∧ b.dyer = none ∧ (s.ctxOf b).tvec ≠ 0
  free  : ∀ r ∈ rs, ∀ th, (is.block s).thread r.tlin = some th → bit th.trap.tstat 0 = false
  order : rs.Pairwise fun x y => x.tlin < y.tlin
  now   : ∀ r ∈ rs, r.resume = none

/-- The threads of a collection enter their handler (R200): READY at TVEC, the ring empty, the trap registers written. -/
structure Traps (s t : State) (is : Issue) (rs : List TrapReq) : Prop extends OnlyThreads s t is (rs.map TrapReq.tlin) where
  thread : ∀ r ∈ rs, ∀ th, (is.block s).thread r.tlin = some th →
    (is.block t).thread r.tlin = some
      { th with status := .ready, pc := (s.ctxOf (is.block s)).tvec.truncate 57, age := 0, ring := [], mask := none, late := none,
                rp := unpopped th, trap := enteredRegs rs r th }

/-- The collection of an issue: one trap for each member that `trap` gives one. -/
def collected (ms : List Member) (trap : Member → Option TrapReq) : List TrapReq := ms.filterMap fun m => if m.on then trap m else none

/-- A fatal trap with the report `r` has stopped the context of block `b` (R202, R430): it is marked stopped, none of its blocks stays
resident or swapped out, every launch of it that ran is done with code 3, the one of `b` with the record of the fault, and no
block of another context changes. -/
structure Stops (s t : State) (b : Block) (r : Report) : Prop where
  stopped  : (t.ctxOf b).stopped = true
  blocks   : ∀ k x, t.block k = some x → x.ctx = b.ctx → x.state ≠ .resident ∧ x.state ≠ .swapped
  launches : ∀ k l, tget s.launches k = some l → l.ctxIdx = b.ctx → l.done = 0 → (tget t.launches k).map Launch.done = some 3
  record   : ∀ l, tget s.launches b.launch = some l → l.ctxIdx = b.ctx → l.done = 0 →
    ∃ u : Launch, u.ret = l.ret ∧ u.tag = l.tag ∧ (tget t.launches b.launch).map Launch.result = some (r.record u)
  others   : (s.blocks.map Prod.fst).Nodup → ∀ k x, s.block k = some x → x.ctx ≠ b.ctx → t.block k = some x

/-- What a fatal collection of lane traps reports: its lowest thread's trap, with COUNT and the list (R202, R208, R429). -/
def laneReport (b : Block) (rs : List TrapReq) : Report :=
  match rs with
  | [] => { done := 3 }
  | r :: _ =>
    { done := 3, fcause := r.cause.toNat, rtlin := r.tlin
      tinfo := rs.length % 64 * 2 ^ 26 + r.tlin % 1024 * 2 ^ 16 + r.detail % 2 ^ 16
      tpc := r.tpc.toNat, taddr := r.taddr.toNat, bx := b.bx, byy := b.byy, bz := b.bz
      tlist := tlistWords 16 ((rs.map TrapReq.tlin).take 32) }

/-- What a fatal front trap reports: RTLIN 0xFFFF and COUNT 1 (R337, R429). -/
def frontReport (b : Block) (cause : BitVec 8) (tpc : Pc) (taddr : Quad) (detail : Nat) : Report :=
  { done := 3, fcause := cause.toNat, rtlin := 0xFFFF, tinfo := 2 ^ 26 + detail % 2 ^ 16, tpc := tpc.toNat, taddr := taddr.toNat
    bx := b.bx, byy := b.byy, bz := b.bz, tlist := [] }

/-- No handler runs for the collection `rs` of a block that is no dyer's: TVEC is 0, or a thread of it is in a handler (R202). -/
structure Unhandled (s : State) (b : Block) (rs : List TrapReq) : Prop where
  some_ : rs ≠ []
  dyer  : b.dyer = none
  live  : (tget s.ctxs b.ctx).isSome = true
  order : rs.Pairwise fun x y => x.tlin < y.tlin
  fatal : (s.ctxOf b).tvec = 0 ∨ ∃ r ∈ rs, ∃ th, b.thread r.tlin = some th ∧ bit th.trap.tstat 0 = true

/-- The same for a front trap: FTVEC is 0, or it is in a handler (R337). -/
structure FrontUnhandled (s : State) (b : Block) : Prop where
  dyer  : b.dyer = none
  live  : (tget s.ctxs b.ctx).isSome = true
  fatal : (s.ctxOf b).ftvec = 0 ∨ bit b.front.trap.tstat 0 = true

/-- Some members trap and the others complete the group: a member that `trap` gives a trap enters its handler, its thread
first changed as `before` says; each other member goes on as `own`. -/
structure Splits (s t : State) (is : Issue) (ms : List Member) (trap : Member → Option TrapReq) (before own : Member → Thread → Thread) :
    Prop extends OnlyThreads s t is (ms.map Member.tlin) where
  goes  : ∀ m ∈ ms, (m.on = true → trap m = none) → ∀ th, (is.block s).thread m.tlin = some th →
    ∃ ring, (is.block t).thread m.tlin = some (onward is.next m (if m.on then own m th else th) ring)
  traps : ∀ m ∈ ms, m.on = true → ∀ r, trap m = some r → ∀ th, (is.block s).thread m.tlin = some th →
    (is.block t).thread m.tlin = some
      { before m th with status := .ready, pc := (s.ctxOf (is.block s)).tvec.truncate 57, age := 0, ring := [], mask := none, late := none,
                         rp := unpopped (before m th), trap := enteredRegs (collected ms trap) r th }

/-- A warp's threads once top-up has joined others to them (R98) and earlier accesses have trapped (R312, R444). -/
def gathered (s : State) (is : Issue) : State := takeLate (topUp (closeGroup s) is) is

/-- Whether R442 holds a member of a warp back from the group: an access of it waits in the operand log. -/
def heldAt (s : State) (is : Issue) (tlin : Nat) : Bool :=
  (is.thread s tlin).held && !is.allowed (is.thread s tlin).pending

/-- One trap, at the group, of every member of a gathered warp that R442 does not hold back. -/
def allTrap (s : State) (is : Issue) (cause : BitVec 8) : List TrapReq :=
  ((is.warp s).members.filter fun m => !heldAt s is m.1).map fun m => ⟨m.1, cause, is.g.start, 0, 0, none⟩

/-- A group traps before its issue: `rs` is what it collects, and the members that R442 holds back leave it and wait (R442). -/
structure TrapsAtOnce (s t : State) (is : Issue) (rs : List TrapReq) : Prop
    extends OnlyThreads s t is ((is.warp s).members.map Prod.fst) where
  traps : ∀ r ∈ rs, ∀ th, (is.block s).thread r.tlin = some th →
    (is.block t).thread r.tlin = some
      { th with status := .ready, pc := (s.ctxOf (is.block s)).tvec.truncate 57, age := 0, ring := [], mask := none, late := none,
                rp := unpopped th, trap := enteredRegs rs r th }
  held  : ∀ m ∈ (is.warp s).members, heldAt s is m.1 = true → ∀ th, (is.block s).thread m.1 = some th →
    (is.block t).thread m.1 = some { th with status := .waiting .replay, pc := is.resume th, age := 0, ring := [] }

/-- The guard of a group on a thread's predicates (R55): true where there is no GUARD. -/
def guardOn (g : Group) (pred : Nat → Bool) : Bool :=
  match g.guard with
  | some (p, inverted) => pred p != inverted
  | none => true

/-- The prefixes (R54). -/
def isPrefix : Instr → Bool
  | .guard _ _ => true
  | .extI _ => true
  | .extC _ _ _ _ _ => true
  | _ => false

/-! ## A group that a front thread issues -/

/-- The group that the current front thread issues passes the checks of R71, and its guard is true. -/
structure FrontReady (s : State) (i : Instr) (is : FrontIssue) (b : Block) : Prop where
  passes : frontPrepare s i = .inr (closeGroup s, is)
  block  : s.block is.blk = some b

/-- From `s` to `t` block `b` becomes `b'`; beside it only the Front Engine of the core moves. -/
structure OnlyFront (s t : State) (is : FrontIssue) (b b' : Block) : Prop where
  before : s.block is.blk = some b
  after  : t.block is.blk = some b'
  blocks : ∀ k, k ≠ is.blk → t.block k = s.block k
  cores  : ∀ c, t.core c = { s.core c with lastFcx := (t.core c).lastFcx, frontBusy := (t.core c).frontBusy }
  rest   : t = { s with blocks := t.blocks, cores := t.cores }

/-- The front thread goes on at `pc` as `f`, but for what R335 makes it wait for. -/
def FrontGoes (s t : State) (is : FrontIssue) (b : Block) (f : Front) (pc : Pc) : Prop :=
  ∃ hz at_, OnlyFront s t is b { b with front := { f with pc := pc, hazards := hz, from_ := at_ } }

/-- A handler may run for a trap of the front thread (R337): its block is no dyer's, FTVEC is not 0, and it is in no handler. -/
structure FrontHandled (s : State) (b : Block) : Prop where
  dyer : b.dyer = none
  vec  : (s.ctxOf b).ftvec ≠ 0
  free : bit b.front.trap.tstat 0 = false

/-- The front thread enters its handler (R337): COUNT 1, RTLIN 0, an empty list, TSTAT.CR and TCHAIN 0. -/
def FrontTraps (s t : State) (is : FrontIssue) (b : Block) (cause : BitVec 8) (tpc : Pc) (taddr : Quad) (detail : Nat) : Prop :=
  OnlyFront s t is b { b with front := { b.front with
    pc := (s.ctxOf b).ftvec.truncate 57
    status := .run
    late := none
    latched := none
    mark := none
    trap := { tcause := cause.zeroExtend 32, tpc := tpc.zeroExtend 64, taddr := taddr,
              tinfo := BitVec.ofNat 32 (2 ^ 26 + detail % 2 ^ 16), tstat := 1, tchain := 0, tlist := [] } } }

/-! ## What the instructions compute (R117 to R140, R52)

`a`, `b` and `c` are the sources of R37 to R40 and R58. In lane code a word instruction works on 32 bits and a .W one on
64; in front code every integer instruction works on 64 bits (R122, R123). -/

/-- An operation on 32-bit and on 64-bit sources, the result in the low bits. -/
def lane32 (f : Word → Word → Word → Word) (_ : Thread) (_ : Group) (v : Vals) : Quad :=
  (f (v.a.truncate 32) (v.b.truncate 32) (v.c.truncate 32)).zeroExtend 64
def lane64 (f : Quad → Quad → Quad → Quad) (_ : Thread) (_ : Group) (v : Vals) : Quad := f v.a v.b v.c

def front64 (f : Quad → Quad → Quad → Quad) (_ : Front) (_ : Group) (v : Vals) : Quad := f v.a v.b v.c

/-- A predicate result. -/
def flag (p : Bool) : Quad := if p then 1 else 0

/-- The six conditions of R139. -/
def holds (c : BitVec 3) (x y : Int) : Bool :=
  match c.toNat with
  | 0 => x = y
  | 1 => x ≠ y
  | 2 => x < y
  | 3 => x ≤ y
  | 4 => x > y
  | _ => x ≥ y

/-- PLOP's truth table (R140): bit 2·x + y of `t`, each predicate inverted where asked. -/
def truth (t : BitVec 4) (x y : Bool) : Bool := t.getLsbD (2 * (if x then 1 else 0) + (if y then 1 else 0))

/-- The result of an integer instruction in lane code: the value that its destination takes. -/
def laneRule (i : Instr) : Option (Thread → Group → Vals → Quad) :=
  match i with
  | .iadd _ _ _ _ => some (lane32 fun a b _ => a + b)
  | .isub _ _ _ _ => some (lane32 fun a b _ => a - b)
  | .irsub _ _ _ _ => some (lane32 fun a b _ => b - a)
  | .iaddc _ _ _ _ => some (lane32 fun a b c => a + b + (c &&& 1))
  | .imul _ _ _ _ => some (lane32 fun a b _ => a * b)
  | .imulh _ _ _ _ => some (lane32 fun a b _ => BitVec.ofInt 32 (a.toInt * b.toInt / 2 ^ 32))
  | .nmulh _ _ _ _ => some (lane32 fun a b _ => BitVec.ofNat 32 (a.toNat * b.toNat / 2 ^ 32))
  | .imad _ _ _ _ => some (lane32 fun a b c => a * b + c)
  | .imin _ _ _ _ => some (lane32 fun a b _ => if a.toInt ≤ b.toInt then a else b)
  | .imax _ _ _ _ => some (lane32 fun a b _ => if b.toInt ≤ a.toInt then a else b)
  | .nmin _ _ _ _ => some (lane32 fun a b _ => if a.toNat ≤ b.toNat then a else b)
  | .nmax _ _ _ _ => some (lane32 fun a b _ => if b.toNat ≤ a.toNat then a else b)
  | .and32 _ _ _ _ => some (lane32 fun a b _ => a &&& b)
  | .or32 _ _ _ _ => some (lane32 fun a b _ => a ||| b)
  | .xor32 _ _ _ _ => some (lane32 fun a b _ => a ^^^ b)
  | .andn _ _ _ _ => some (lane32 fun a b _ => a &&& ~~~b)
  | .shl _ _ _ _ => some (lane32 fun a b _ => if b.toNat < 32 then a <<< b.toNat else 0)
  | .shr _ _ _ _ => some (lane32 fun a b _ => if b.toNat < 32 then a >>> b.toNat else 0)
  | .sar _ _ _ _ => some (lane32 fun a b _ => a.sshiftRight (min b.toNat (32 - 1)))
  | .rotl _ _ _ _ => some (lane32 fun a b _ => a.rotateLeft (b.toNat % 32))
  | .bfx _ _ _ _ => some (lane32 fun a b c => fieldSigned a b c)
  | .bfxn _ _ _ _ => some (lane32 fun a b c => fieldPlain a b c)
  | .bfi _ _ _ _ => some (lane32 fun a b c => fieldInsert a b c)
  | .prmt _ _ _ _ => some (lane32 fun a b c => permute a b c)
  | .popc _ _ _ => some (lane32 fun a _ _ => BitVec.ofNat 32 (popCount 64 a.toNat))
  | .clz _ _ _ => some (lane32 fun a _ _ => BitVec.ofNat 32 (if a = 0 then 32 else 32 - 1 - a.toNat.log2))
  | .brev _ _ _ => some (lane32 fun a _ _ => a.reverse)
  | .iabs _ _ _ => some (lane32 fun a _ _ => if a.toInt < 0 then -a else a)
  | .mov _ _ _ => some (lane32 fun a _ _ => a)
  | .sel _ _ _ _ => some (lane32 fun a b c => if c = 0 then b else a)
  | .movh _ _ _ => some (lane32 fun a _ _ => a <<< (32 / 2))
  | .iadds _ _ _ _ => some (lane32 fun a b _ => BitVec.ofInt 32 (min (max (a.toInt + b.toInt) (-2 ^ (32 - 1))) (2 ^ (32 - 1) - 1)))
  | .isubs _ _ _ _ => some (lane32 fun a b _ => BitVec.ofInt 32 (min (max (a.toInt - b.toInt) (-2 ^ (32 - 1))) (2 ^ (32 - 1) - 1)))
  | .nadds _ _ _ _ => some (lane32 fun a b _ => BitVec.ofInt 32 (min (max ((a.toNat : Int) + b.toNat) 0) (2 ^ 32 - 1)))
  | .nsubs _ _ _ _ => some (lane32 fun a b _ => BitVec.ofInt 32 (min (max ((a.toNat : Int) - b.toNat) 0) (2 ^ 32 - 1)))
  | .bmrg _ _ _ _ => some (lane32 fun a b c => (a &&& c) ||| (b &&& ~~~c))
  | .fshl _ _ _ _ => some (lane32 fun a b c => BitVec.ofNat 32 ((a.toNat * 2 ^ 32 + b.toNat) * 2 ^ (c.toNat % 32) / 2 ^ 32))
  | .fshr _ _ _ _ => some (lane32 fun a b c => BitVec.ofNat 32 ((a.toNat * 2 ^ 32 + b.toNat) / 2 ^ (c.toNat % 32)))
  | .iaddW _ _ _ _ => some (lane64 fun a b _ => a + b)
  | .isubW _ _ _ _ => some (lane64 fun a b _ => a - b)
  | .imulW _ _ _ _ => some (lane64 fun a b _ => a * b)
  | .imadW _ _ _ _ => some (lane64 fun a b c => a * b + c)
  | .shlW _ _ _ _ => some (lane64 fun a b _ => if b.toNat < 64 then a <<< b.toNat else 0)
  | .shrW _ _ _ _ => some (lane64 fun a b _ => if b.toNat < 64 then a >>> b.toNat else 0)
  | .sarW _ _ _ _ => some (lane64 fun a b _ => a.sshiftRight (min b.toNat (64 - 1)))
  | .mov16 _ _ => some (lane32 fun a _ _ => a)
  | .iadd16 _ _ => some (lane32 fun a b _ => a + b)
  | .isub16 _ _ => some (lane32 fun a b _ => a - b)
  | .imul16 _ _ => some (lane32 fun a b _ => a * b)
  | .and16 _ _ => some (lane32 fun a b _ => a &&& b)
  | .or16 _ _ => some (lane32 fun a b _ => a ||| b)
  | .xor16 _ _ => some (lane32 fun a b _ => a ^^^ b)
  | .shl16 _ _ => some (lane32 fun a b _ => if b.toNat < 32 then a <<< b.toNat else 0)
  | .shr16 _ _ => some (lane32 fun a b _ => if b.toNat < 32 then a >>> b.toNat else 0)
  | .sar16 _ _ => some (lane32 fun a b _ => a.sshiftRight (min b.toNat (32 - 1)))
  | .imin16 _ _ => some (lane32 fun a b _ => if a.toInt ≤ b.toInt then a else b)
  | .imax16 _ _ => some (lane32 fun a b _ => if b.toInt ≤ a.toInt then a else b)
  | .imulx _ _ _ _ => some fun _ _ v => BitVec.ofInt 64 ((v.a.truncate 32 : Word).toInt * (v.b.truncate 32 : Word).toInt)
  | .logt _ _ _ _ => some fun _ g v => BitVec.ofNat 64 (logtBits g.table 32 v.a.toNat v.b.toNat v.c.toNat)
  | .isetpI32 _ _ c _ => some fun _ _ v => flag (holds c (v.a.truncate 32 : Word).toInt (v.b.truncate 32 : Word).toInt)
  | .isetpN32 _ _ c _ => some fun _ _ v => flag (holds c (v.a.truncate 32 : Word).toNat (v.b.truncate 32 : Word).toNat)
  | .isetpI64 _ _ c _ => some fun _ _ v => flag (holds c v.a.toInt v.b.toInt)
  | .isetpN64 _ _ c _ => some fun _ _ v => flag (holds c v.a.toNat v.b.toNat)
  | .plop t j y i x _ => some fun th _ _ => flag (truth t (th.pred x.toNat != (i = 1)) (th.pred y.toNat != (j = 1)))
  | _ => none

/-- Division at width W (R127, R128): the quotient truncated toward zero, the remainder with the sign of the dividend. -/
def divided {w : Nat} (i : Instr) (a b : BitVec w) : Option (BitVec w) :=
  match i with
  | .idiv _ _ _ _ => some (BitVec.ofInt w (a.toInt.tdiv b.toInt))
  | .irem _ _ _ _ => some (BitVec.ofInt w (a.toInt.tmod b.toInt))
  | .ndiv _ _ _ _ => some (BitVec.ofNat w (a.toNat / b.toNat))
  | .nrem _ _ _ _ => some (BitVec.ofNat w (a.toNat % b.toNat))
  | _ => none

/-- The result of an integer instruction in front code. -/
def frontRule (i : Instr) : Option (Front → Group → Vals → Quad) :=
  match i with
  | .iadd _ _ _ _ => some (front64 fun a b _ => a + b)
  | .isub _ _ _ _ => some (front64 fun a b _ => a - b)
  | .irsub _ _ _ _ => some (front64 fun a b _ => b - a)
  | .iaddc _ _ _ _ => some (front64 fun a b c => a + b + (c &&& 1))
  | .imul _ _ _ _ => some (front64 fun a b _ => a * b)
  | .imulh _ _ _ _ => some (front64 fun a b _ => BitVec.ofInt 64 (a.toInt * b.toInt / 2 ^ 64))
  | .nmulh _ _ _ _ => some (front64 fun a b _ => BitVec.ofNat 64 (a.toNat * b.toNat / 2 ^ 64))
  | .imad _ _ _ _ => some (front64 fun a b c => a * b + c)
  | .imin _ _ _ _ => some (front64 fun a b _ => if a.toInt ≤ b.toInt then a else b)
  | .imax _ _ _ _ => some (front64 fun a b _ => if b.toInt ≤ a.toInt then a else b)
  | .nmin _ _ _ _ => some (front64 fun a b _ => if a.toNat ≤ b.toNat then a else b)
  | .nmax _ _ _ _ => some (front64 fun a b _ => if b.toNat ≤ a.toNat then a else b)
  | .and32 _ _ _ _ => some (front64 fun a b _ => a &&& b)
  | .or32 _ _ _ _ => some (front64 fun a b _ => a ||| b)
  | .xor32 _ _ _ _ => some (front64 fun a b _ => a ^^^ b)
  | .andn _ _ _ _ => some (front64 fun a b _ => a &&& ~~~b)
  | .shl _ _ _ _ => some (front64 fun a b _ => if b.toNat < 64 then a <<< b.toNat else 0)
  | .shr _ _ _ _ => some (front64 fun a b _ => if b.toNat < 64 then a >>> b.toNat else 0)
  | .sar _ _ _ _ => some (front64 fun a b _ => a.sshiftRight (min b.toNat (64 - 1)))
  | .rotl _ _ _ _ => some (front64 fun a b _ => a.rotateLeft (b.toNat % 64))
  | .bfx _ _ _ _ => some (front64 fun a b c => fieldSigned a b c)
  | .bfxn _ _ _ _ => some (front64 fun a b c => fieldPlain a b c)
  | .bfi _ _ _ _ => some (front64 fun a b c => fieldInsert a b c)
  | .prmt _ _ _ _ => some (front64 fun a b c => permute a b c)
  | .popc _ _ _ => some (front64 fun a _ _ => BitVec.ofNat 64 (popCount 64 a.toNat))
  | .clz _ _ _ => some (front64 fun a _ _ => BitVec.ofNat 64 (if a = 0 then 64 else 64 - 1 - a.toNat.log2))
  | .brev _ _ _ => some (front64 fun a _ _ => a.reverse)
  | .iabs _ _ _ => some (front64 fun a _ _ => if a.toInt < 0 then -a else a)
  | .mov _ _ _ => some (front64 fun a _ _ => a)
  | .sel _ _ _ _ => some (front64 fun a b c => if c = 0 then b else a)
  | .movh _ _ _ => some (front64 fun a _ _ => a <<< (64 / 2))
  | .iadds _ _ _ _ => some (front64 fun a b _ => BitVec.ofInt 64 (min (max (a.toInt + b.toInt) (-2 ^ (64 - 1))) (2 ^ (64 - 1) - 1)))
  | .isubs _ _ _ _ => some (front64 fun a b _ => BitVec.ofInt 64 (min (max (a.toInt - b.toInt) (-2 ^ (64 - 1))) (2 ^ (64 - 1) - 1)))
  | .nadds _ _ _ _ => some (front64 fun a b _ => BitVec.ofInt 64 (min (max ((a.toNat : Int) + b.toNat) 0) (2 ^ 64 - 1)))
  | .nsubs _ _ _ _ => some (front64 fun a b _ => BitVec.ofInt 64 (min (max ((a.toNat : Int) - b.toNat) 0) (2 ^ 64 - 1)))
  | .bmrg _ _ _ _ => some (front64 fun a b c => (a &&& c) ||| (b &&& ~~~c))
  | .fshl _ _ _ _ => some (front64 fun a b c => BitVec.ofNat 64 ((a.toNat * 2 ^ 64 + b.toNat) * 2 ^ (c.toNat % 64) / 2 ^ 64))
  | .fshr _ _ _ _ => some (front64 fun a b c => BitVec.ofNat 64 ((a.toNat * 2 ^ 64 + b.toNat) / 2 ^ (c.toNat % 64)))
  | .iaddW _ _ _ _ => some (front64 fun a b _ => a + b)
  | .isubW _ _ _ _ => some (front64 fun a b _ => a - b)
  | .imulW _ _ _ _ => some (front64 fun a b _ => a * b)
  | .imadW _ _ _ _ => some (front64 fun a b c => a * b + c)
  | .shlW _ _ _ _ => some (front64 fun a b _ => if b.toNat < 64 then a <<< b.toNat else 0)
  | .shrW _ _ _ _ => some (front64 fun a b _ => if b.toNat < 64 then a >>> b.toNat else 0)
  | .sarW _ _ _ _ => some (front64 fun a b _ => a.sshiftRight (min b.toNat (64 - 1)))
  | .mov16 _ _ => some (front64 fun a _ _ => a)
  | .iadd16 _ _ => some (front64 fun a b _ => a + b)
  | .isub16 _ _ => some (front64 fun a b _ => a - b)
  | .imul16 _ _ => some (front64 fun a b _ => a * b)
  | .and16 _ _ => some (front64 fun a b _ => a &&& b)
  | .or16 _ _ => some (front64 fun a b _ => a ||| b)
  | .xor16 _ _ => some (front64 fun a b _ => a ^^^ b)
  | .shl16 _ _ => some (front64 fun a b _ => if b.toNat < 64 then a <<< b.toNat else 0)
  | .shr16 _ _ => some (front64 fun a b _ => if b.toNat < 64 then a >>> b.toNat else 0)
  | .sar16 _ _ => some (front64 fun a b _ => a.sshiftRight (min b.toNat (64 - 1)))
  | .imin16 _ _ => some (front64 fun a b _ => if a.toInt ≤ b.toInt then a else b)
  | .imax16 _ _ => some (front64 fun a b _ => if b.toInt ≤ a.toInt then a else b)
  | .logt _ _ _ _ => some fun _ g v => BitVec.ofNat 64 (logtBits g.table 64 v.a.toNat v.b.toNat v.c.toNat)
  | .isetpI32 _ _ c _ => some fun _ _ v => flag (holds c (v.a.truncate 32 : Word).toInt (v.b.truncate 32 : Word).toInt)
  | .isetpN32 _ _ c _ => some fun _ _ v => flag (holds c (v.a.truncate 32 : Word).toNat (v.b.truncate 32 : Word).toNat)
  | .isetpI64 _ _ c _ => some fun _ _ v => flag (holds c v.a.toInt v.b.toInt)
  | .isetpN64 _ _ c _ => some fun _ _ v => flag (holds c v.a.toNat v.b.toNat)
  | .plop t j y i x _ => some fun f _ _ => flag (truth t (f.pred x.toNat != (i = 1)) (f.pred y.toNat != (j = 1)))
  | _ => none

/-! ## Floating point (R141 to R171)

The operations on one value of a format are those of Machine/Float: exact, then rounded once in the mode `m` (R147, R148),
with the flags that R143 names. -/

/-- A result in a format, clamped to [0, 1] where the group's sat asks for it (R152). -/
def clamped (f : Fmt) (op : RMode → Nat → Nat → Nat → FRes) (th : Thread) (g : Group) (v : Vals) : FRes :=
  withSat f g.sat (op (modeOf th g) v.a.toNat v.b.toNat v.c.toNat)

/-- A result that sat does not touch. -/
def plain (op : RMode → Nat → Nat → Nat → FRes) (th : Thread) (g : Group) (v : Vals) : FRes :=
  op (modeOf th g) v.a.toNat v.b.toNat v.c.toNat

/-- Two elements of 16 bits, each by itself; the flags are united (R142, R149, R151). -/
def pairwise (f : Fmt) (op : RMode → Nat → Nat → Nat → FRes) (th : Thread) (g : Group) (v : Vals) : FRes :=
  let one := fun (x : Quad → Nat) => withSat f g.sat (op (modeOf th g) (x v.a) (x v.b) (x v.c))
  packed (one fun w => w.toNat % 2 ^ 16) (one fun w => w.toNat / 2 ^ 16 % 2 ^ 16)

/-- The result and the flags of a floating-point instruction. -/
def floatRule (i : Instr) : Option (Thread → Group → Vals → FRes) :=
  match i with
  | .fadd _ _ _ _ => some (clamped fp32 fun m a b _ => fadd fp32 m a b)
  | .fsub _ _ _ _ => some (clamped fp32 fun m a b _ => fsub fp32 m a b)
  | .fmul _ _ _ _ => some (clamped fp32 fun m a b _ => fmul fp32 m a b)
  | .ffma _ _ _ _ => some (clamped fp32 fun m a b c => ffma fp32 m a b c)
  | .fmin _ _ _ _ => some (clamped fp32 fun _ a b _ => fminmax fp32 false a b)
  | .fmax _ _ _ _ => some (clamped fp32 fun _ a b _ => fminmax fp32 true a b)
  | .fminn _ _ _ _ => some (clamped fp32 fun _ a b _ => fminmaxNum fp32 false a b)
  | .fmaxn _ _ _ _ => some (clamped fp32 fun _ a b _ => fminmaxNum fp32 true a b)
  | .fdiv _ _ _ _ => some (clamped fp32 fun m a b _ => fdiv fp32 m a b)
  | .fsqrt _ _ _ => some (clamped fp32 fun m a _ _ => fsqrt fp32 m a)
  | .fabs _ _ _ => some (clamped fp32 fun _ a _ _ => ⟨fp32.mag a, 0, false⟩)
  | .fneg _ _ _ => some (clamped fp32 fun _ a _ _ => ⟨flipSign fp32 a, 0, false⟩)
  | .frnd _ _ _ => some (clamped fp32 fun m a _ _ => frnd fp32 m a)
  | .fscale _ _ _ _ => some (clamped fp32 fun m a b _ => fscale fp32 m a (BitVec.ofNat 32 b).toInt)
  | .fclass _ _ _ => some (plain fun _ a _ _ => ⟨fclass fp32 a, 0, false⟩)
  | .dadd _ _ _ _ => some (clamped fp64 fun m a b _ => fadd fp64 m a b)
  | .dsub _ _ _ _ => some (clamped fp64 fun m a b _ => fsub fp64 m a b)
  | .dmul _ _ _ _ => some (clamped fp64 fun m a b _ => fmul fp64 m a b)
  | .dfma _ _ _ _ => some (clamped fp64 fun m a b c => ffma fp64 m a b c)
  | .dmin _ _ _ _ => some (clamped fp64 fun _ a b _ => fminmax fp64 false a b)
  | .dmax _ _ _ _ => some (clamped fp64 fun _ a b _ => fminmax fp64 true a b)
  | .dminn _ _ _ _ => some (clamped fp64 fun _ a b _ => fminmaxNum fp64 false a b)
  | .dmaxn _ _ _ _ => some (clamped fp64 fun _ a b _ => fminmaxNum fp64 true a b)
  | .ddiv _ _ _ _ => some (clamped fp64 fun m a b _ => fdiv fp64 m a b)
  | .dsqrt _ _ _ => some (clamped fp64 fun m a _ _ => fsqrt fp64 m a)
  | .dabs _ _ _ => some (clamped fp64 fun _ a _ _ => ⟨fp64.mag a, 0, false⟩)
  | .dneg _ _ _ => some (clamped fp64 fun _ a _ _ => ⟨flipSign fp64 a, 0, false⟩)
  | .drnd _ _ _ => some (clamped fp64 fun m a _ _ => frnd fp64 m a)
  | .dscale _ _ _ _ => some (clamped fp64 fun m a b _ => fscale fp64 m a (BitVec.ofNat 32 b).toInt)
  | .dclass _ _ _ => some (plain fun _ a _ _ => ⟨fclass fp64 a, 0, false⟩)
  | .frcp _ _ _ => some (clamped fp32 fun _ a _ _ => frcp 0 fp32 a)
  | .frsq _ _ _ => some (clamped fp32 fun _ a _ _ => frsq 1 fp32 a)
  | .fex2 _ _ _ => some (clamped fp32 fun _ a _ _ => fex2 a)
  | .flg2 _ _ _ => some (clamped fp32 fun _ a _ _ => flg2 a)
  | .fsin _ _ _ => some (clamped fp32 fun _ a _ _ => fsincos false a)
  | .fcos _ _ _ => some (clamped fp32 fun _ a _ _ => fsincos true a)
  | .drcp _ _ _ => some (clamped fp64 fun _ a _ _ => frcp 6 fp64 a)
  | .drsq _ _ _ => some (clamped fp64 fun _ a _ _ => frsq 7 fp64 a)
  | .fcpys _ _ _ _ => some (clamped fp32 fun _ a b _ => ⟨fp32.withSign (fp32.neg? b) (fp32.mag a), 0, false⟩)
  | .fexpo _ _ _ => some (plain fun _ a _ _ => fexpo fp32 a)
  | .fadd16 _ _ => some (clamped fp32 fun m a b _ => fadd fp32 m a b)
  | .fsub16 _ _ => some (clamped fp32 fun m a b _ => fsub fp32 m a b)
  | .fmul16 _ _ => some (clamped fp32 fun m a b _ => fmul fp32 m a b)
  | .fmax16 _ _ => some (clamped fp32 fun _ a b _ => fminmax fp32 true a b)
  | .cvtF32I32 _ _ _ => some (clamped fp32 fun m a _ _ => fromInt fp32 m (BitVec.ofNat 32 a).toInt)
  | .cvtF32N32 _ _ _ => some (clamped fp32 fun m a _ _ => fromInt fp32 m (a % 2 ^ 32 : Nat))
  | .cvtI32F32 _ _ _ => some (plain fun m a _ _ => toInt fp32 m 32 (-2 ^ 31) (2 ^ 31 - 1) a)
  | .cvtN32F32 _ _ _ => some (plain fun m a _ _ => toInt fp32 m 32 0 (2 ^ 32 - 1) a)
  | .cvtF64F32 _ _ _ => some (clamped fp64 fun m a _ _ => convert fp32 fp64 m a)
  | .cvtF32F64 _ _ _ => some (clamped fp32 fun m a _ _ => convert fp64 fp32 m a)
  | .cvtF64I64 _ _ _ => some (clamped fp64 fun m a _ _ => fromInt fp64 m (BitVec.ofNat 64 a).toInt)
  | .cvtI64F64 _ _ _ => some (plain fun m a _ _ => toInt fp64 m 64 (-2 ^ 63) (2 ^ 63 - 1) a)
  | .cvtF16F32 _ _ _ => some (clamped fp16 fun m a _ _ => convert fp32 fp16 m a)
  | .cvtF32F16 _ _ _ => some (clamped fp32 fun m a _ _ => convert fp16 fp32 m (a % 2 ^ 16))
  | .cvtBf16F32 _ _ _ => some (clamped bf16 fun m a _ _ => convert fp32 bf16 m a)
  | .cvtF32Bf16 _ _ _ => some (clamped fp32 fun m a _ _ => convert bf16 fp32 m (a % 2 ^ 16))
  | .cvtE2m1F32 _ _ _ => some (clamped e2m1 fun m a _ _ => toE2M1 m a)
  | .cvtF32E2m1 _ _ _ => some (clamped fp32 fun _ a _ _ => fromE2M1 (a % 16))
  | .fsetp _ _ c _ => some (plain fun _ a b _ => fcompare fp32 false c.toNat a b)
  | .fsetpSig _ _ c _ => some (plain fun _ a b _ => fcompare fp32 true c.toNat a b)
  | .dsetp _ _ q c _ => some (plain fun _ a b _ => fcompare fp64 (q = 1) c.toNat a b)
  | .hadd2 _ _ _ _ => some (pairwise fp16 fun m a b _ => fadd fp16 m a b)
  | .hmul2 _ _ _ _ => some (pairwise fp16 fun m a b _ => fmul fp16 m a b)
  | .hfma2 _ _ _ _ => some (pairwise fp16 fun m a b c => ffma fp16 m a b c)
  | .hmax2 _ _ _ _ => some (pairwise fp16 fun _ a b _ => fminmax fp16 true a b)
  | .badd2 _ _ _ _ => some (pairwise bf16 fun m a b _ => fadd bf16 m a b)
  | .bmul2 _ _ _ _ => some (pairwise bf16 fun m a b _ => fmul bf16 m a b)
  | .bfma2 _ _ _ _ => some (pairwise bf16 fun m a b c => ffma bf16 m a b c)
  | .bmax2 _ _ _ _ => some (pairwise bf16 fun _ a b _ => fminmax bf16 true a b)
  | .cvtF8F32 _ _ _ => some fun th g v =>
      withSat (if th.e5m2 then e5m2 else e4m3) g.sat (toF8 th.e5m2 th.f8sat (modeOf th g) v.a.toNat)
  | .cvtF32F8 _ _ _ => some fun th g v => withSat fp32 g.sat (fromF8 th.e5m2 (v.a.toNat % 256))
  | _ => none

/-! ## The latch ring (R60 to R63) -/

/-- The result of a pure word, for a member whose guard is true and whom the word does not trap. -/
def pureResult (i : Instr) (th : Thread) (g : Group) (v : Vals) : Option Quad :=
  match laneRule i, floatRule i with
  | some f, _ => some (f th g v)
  | none, some f =>
    let r := f th g v
    if (bit th.trapen 5 && r.snan) || r.flags &&& th.trapen.truncate 5 != 0 then none else some (BitVec.ofNat 64 r.val)
  | none, none =>
    if (v.b.truncate 32 : Word) = 0 then none
    else (divided i (v.a.truncate 32 : Word) (v.b.truncate 32)).map (BitVec.zeroExtend 64)

/-- A pure word: integer, logic, move, compare, division, floating point or conversion. -/
def isPure (i : Instr) : Bool := (laneRule i).isSome || (floatRule i).isSome || (divided (w := 32) i 0 0).isSome

/-- Whether a group reads a DQ code. -/
def readsDq (i : Instr) (g : Group) : Bool := (operands (shape i) g).any fun x => x.1 = 0x84 || x.1 = 0x85

/-- The entry that a member shifts into its ring: its result `v`, or what R63 gives a guarded-off one. -/
def shifted (i : Instr) (is : Issue) (m : Member) (th : Thread) (v : Quad) (pure : Bool) : RingEntry :=
  { val := if m.on then v
           else match (shape i).pd with
             | some p => if th.pred p then 1 else 0
             | none => if (shape i).nw then 0 else BitVec.ofNat 64 (th.regsNum (shape i).dst.1 (shape i).dst.2)
    wide := (shape i).dst.2 = 2, nw := (shape i).nw, grp := is.g.start, pure := pure }

/-- Every member that still belongs to a running block has an empty ring. -/
def RingsEmpty (t : State) (is : Issue) (ms : List Member) : Prop :=
  ∀ b, t.block is.blk = some b → b.state = .resident → ∀ m ∈ ms, ∀ th, b.thread m.tlin = some th → th.ring = []

/-! ## Lane groups, targets and returns (R172 to R198) -/

/-- The sum of 2^lane over the members that `p` picks. -/
def laneBits (ms : List Member) (p : Member → Bool) : Nat := (ms.map fun m => if p m then 2 ^ m.lane else 0).sum

/-- What LXCH reads: from a participant of the source lane its value, from a guarded-off one 0, else the member's own value. -/
def exchanged (src : Nat → Nat → Option Nat) (ms : List Member) (m : Member) : Quad :=
  match (src m.lane (m.v.b.toNat % 2 ^ 32)).bind fun j => ms.find? fun x => x.lane = j with
  | some x => if x.on then x.v.a else 0
  | none => m.v.a

/-- A member's value in REDUX: 0 where it is guarded off. -/
def reducedInt (m : Member) : Int := if m.on then (m.v.a.truncate 32 : Word).toInt else 0

/-- The result of a lane-group instruction for a participant `m`: `ms` are the members of the issue, each in its home lane, and
`pr` their predicates (R193 to R198). -/
def groupRule (i : Instr) : Option ((Member → Nat → Bool) → List Member → Member → Quad) :=
  let votes := fun (pr : Member → Nat → Bool) (p : BitVec 3) (i : BitVec 1) (m : Member) => m.on && (pr m p.toNat != (i = 1))
  match i with
  | .ballot i p _ => some fun pr ms _ => BitVec.ofNat 64 (laneBits ms (votes pr p i))
  | .voteAny i p _ => some fun pr ms _ => flag (ms.any (votes pr p i))
  | .voteAll i p _ => some fun pr ms _ => flag (ms.all (votes pr p i))
  | .voteEq i p _ => some fun pr ms _ => flag (ms.all (votes pr p i) || ms.all fun m => !votes pr p i m)
  | .lxchAt _ _ _ => some fun _ ms m => exchanged (fun _ b => some (b % 32)) ms m
  | .lxchBack _ _ _ => some fun _ ms m => exchanged (fun i b => if b ≤ i then some (i - b) else none) ms m
  | .lxchFwd _ _ _ => some fun _ ms m => exchanged (fun i b => if i + b ≤ 31 then some (i + b) else none) ms m
  | .lxchXor _ _ _ => some fun _ ms m => exchanged (fun i b => some (i ^^^ (b % 32))) ms m
  | .reduxAdd _ _ => some fun _ ms _ => (BitVec.ofInt 32 (ms.map reducedInt).sum).zeroExtend 64
  | .reduxMin _ _ => some fun _ ms m => (BitVec.ofInt 32 ((ms.map reducedInt).foldl min (reducedInt m))).zeroExtend 64
  | .reduxMax _ _ => some fun _ ms m => (BitVec.ofInt 32 ((ms.map reducedInt).foldl max (reducedInt m))).zeroExtend 64
  | .matchAny _ _ => some fun _ ms m => BitVec.ofNat 64 (laneBits ms fun x => x.on && x.v.a = m.v.a)
  | _ => none

/-- The target of a displacement, from the address of the next group (R35): the branch word plus twice the displacement. -/
def targetOf {n : Nat} (next : Pc) (disp : BitVec n) : Pc := next - 4 + 2 * disp.signExtend 57

/-- The target that a dispatch-table entry gives code of class `cls` (R179): 0 is lane code, 1 front code. The entry is fetched as
code is. -/
def tableTarget (s : State) (core : Nat) (b : Block) (cls i : Nat) : Option Pc :=
  let l := s.launchOf b
  match fetchTranslate s core b.ctx ((l.kimg + l.dtoff + 4 * i) % 2 ^ 64) with
  | .ok pa _ =>
    let e := homeNum s pa 4
    if i < l.dtlen ∧ hostAway s pa = none ∧ s.poison.contains (lineOf pa) = false ∧ e % 2 = cls ∧ (l.kimg + e / 2 * 2) % 2 = 0 then some (BitVec.ofNat 57 (l.kimg + e / 2 * 2)) else none
  | _ => none

/-- A dispatch-table entry has been read: its translation may fill the core's fetch TLB (R437). -/
def tabled (s : State) (core : Nat) (b : Block) (i : Nat) : State :=
  fillFetchTlb s core b.ctx (((s.launchOf b).kimg + (s.launchOf b).dtoff + 4 * i) % 2 ^ 64)

/-- The members whose guard is true have read their entries, one after another. -/
def tabledAll (s : State) (is : Issue) (ms : List Member) : State :=
  (ms.filter Member.on).foldl (fun u m => tabled u is.core (is.block u) (m.v.a.toNat % 2 ^ 32)) s

/-- The RET group whose popped values reach a warp (R177). -/
def retIssue (s : State) (core quad slot : Nat) (w : Warp) : Issue :=
  { poolIssue core quad w.blk (warpPc s w) { start := warpPc s w, next := warpPc s w } .ret with slot := slot }

/-! ## Words with an effect beside their thread: a warp of one -/

/-- A warp of one thread issues the group, and its guard is true. -/
structure Solo (s : State) (i : Instr) (s₁ : State) (is : Issue) (m : Member) (th : Thread) : Prop where
  ready  : LaneReady s i s₁ is [m]
  on     : m.on = true
  thread : (is.block s₁).thread m.tlin = some th
  active : th.status.isActive = true

/-- The one trap of a warp of one, at its group. -/
def soleTrap (is : Issue) (m : Member) (cause : BitVec 8) (taddr : Quad) (detail : Nat) : List TrapReq :=
  [⟨m.tlin, cause, is.g.start, taddr, detail, none⟩]

/-- An access of `n` bytes passes the checks of R250 and is translated to `pa` with COH `coh`; it lies in no procedural
range. -/
structure Reaches (s : State) (core ctx : Nat) (va : Quad) (width n : Nat) (k : AccKind) (pa : Nat) (coh : BitVec 2) : Prop where
  aligned : va.toNat % width = 0
  inside  : va.toNat < 2 ^ 57
  lash    : lashedBy (s.core core) (.global ctx va.toNat (va.toNat + n)) k.writes = none
  mapped  : translateTlb s (s.core core).dtlb ctx k.accessMode va.toNat = .ok pa coh
  plain   : rangeOf s ctx va.toNat = none

/-- Nothing holds an access of block `blk`, `b`, back: the block has no access open, no release at block scope is
outstanding, the core has no store that waits for its line and none that has passed a read, and the launch is not deterministic. -/
structure Unhindered (s : State) (core blk : Nat) (b : Block) : Prop where
  alone  : ∀ c ∈ s.cores, ∀ x ∈ c.2.accs, x.blk ≠ blk
  syncs  : b.syncs = []
  early  : (s.core core).early = []
  stores : (s.core core).stores = []
  free   : (s.launchOf b).det = false

/-- The Load-Store Engine takes no further group for `n` cycles (R220, R238). -/
def engaged (s : State) (core n : Nat) : State := s.modCore core fun c => { c with lsBusy := c.cycle + n }

/-- An access has been made. -/
def accessed (s : State) (core : Nat) : State := engaged { s with nextAcc := s.nextAcc + 1 } core 1

/-- An access has sent its request `msg` and waits in a miss-status entry of its line (R219). -/
def requested (s : State) (core : Nat) (x : Acc) (msg : Msg) : State :=
  { (s.modCore core fun c => { c with entries := c.entries ++ [{ line := lineOf x.pa }], pend := c.pend ++ [{ x with sent := true }] })
    with net := s.net ++ [msg] }

/-- A line after a store of `n` bytes at `pa` of it: they are valid, dirty and no longer poisoned (R218). -/
def stored (l : L1Line) (pa n v : Nat) : L1Line :=
  let m := byteMask (pa % 128) n
  { l with valid := l.valid ||| m, dirty := l.dirty ||| m, staged := l.staged &&& ~~~m, poison := l.poison &&& ~~~m
           data := mergeBytes m (BitVec.ofNat 1024 (v * 2 ^ (8 * (pa % 128)))) l.data }

/-- The same for a COH 01 line: what its write-back will report of earlier writes no longer covers the bytes (R296). -/
def storedSelf (l : L1Line) (pa n v : Nat) : L1Line :=
  { stored l pa n v with notes :=
      (l.notes.map fun x => { x with mask := x.mask &&& ~~~byteMask (pa % 128) n }).filter fun x => x.mask ≠ 0 }

/-- Setting a line of a core's L1. -/
def withLine (s : State) (core line : Nat) (l : L1Line) : State := s.modCore core fun c => { c with l1 := tset c.l1 line l }

/-- A COH 01 line after a release store or an atomic at the home has put bytes into it: they are valid and clean (R264). -/
def through (l : L1Line) (pa n v : Nat) : L1Line :=
  let m := byteMask (pa % 128) n
  { stored l pa n v with dirty := l.dirty &&& ~~~m, notes := (l.notes.map fun x => { x with mask := x.mask &&& ~~~m }).filter fun x => x.mask ≠ 0 }

/-- A COH 01 line that has been written back (R235): its bytes stay, clean but for those that are staged. -/
def writtenBack (l : L1Line) : L1Line :=
  let m := l.dirty &&& ~~~l.staged
  if m = 0 then l else { l with dirty := l.dirty &&& l.staged, notes := notesIn (~~~m) l.notes }

/-- Physical ranges take in a line. -/
def takeIn (rs : List (Nat × Nat)) (line : Nat) : Bool := rs.any fun r => 128 * line < r.2 && r.1 < 128 * line + 128

/-- The physical ranges of a virtual range, page by page of 64 KiB; the core's data TLB may be filled on the way. -/
inductive Pages (core ctx : Nat) : Nat → Nat → State → State → List (Nat × Nat) → Prop where
  | none (hi : Nat) (s : State) : Pages core ctx hi hi s s []
  | page (lo hi pa : Nat) (coh : BitVec 2) (s u t : State) (rs : List (Nat × Nat)) (some_ : lo < hi)
      (here : coreTranslate s core ctx .write lo = (u, .ok pa coh))
      (rest : Pages core ctx (min hi ((lo / 65536 + 1) * 65536)) hi u t rs) :
      Pages core ctx lo hi s t ((pa, pa + (min hi ((lo / 65536 + 1) * 65536) - lo)) :: rs)

/-- The COH 01 lines of a core's L1 in physical ranges have been written back, and for INVR dropped; each write-back is on its way,
acknowledged to the agent `ack`. Beside the lines and the messages nothing changes. -/
structure WritesBack (s v : State) (core : Nat) (ack : Option (Nat × Option Nat)) (drop : Bool) (rs : List (Nat × Nat)) : Prop where
  lines : ∀ line l, tget (s.core core).l1 line = some l → tget (v.core core).l1 line =
    if l.coh = 1 ∧ takeIn rs line = true then (if drop then none else some (writtenBack l)) else some l
  none_ : ∀ line, tget (s.core core).l1 line = none → tget (v.core core).l1 line = none
  sends : ∀ line l, tget (s.core core).l1 line = some l → l.coh = 1 → takeIn rs line = true → l.dirty &&& ~~~l.staged ≠ 0 →
    .writeback core line (l.dirty &&& ~~~l.staged) l.data ack (notesIn (l.dirty &&& ~~~l.staged) l.notes) ∈ v.net
  own   : v.core core = { s.core core with l1 := (v.core core).l1 }
  cores : ∀ c, c ≠ core → v.core c = s.core c
  rest  : v = { s with cores := v.cores, net := v.net }

/-- A b128 access whose 64-bit halves are performed apart (R269; log 5, DESIGN CHOICE). -/
def splits (s : State) (n : Nat) : Prop := n = 16 ∧ Config.splitWide s.now = true

/-- The two halves of an access wait at the core; `es` is the miss-status entry taken for them, if one was needed. -/
def halved (s : State) (core : Nat) (x : Acc) (es : List MissEntry) : State :=
  { s.modCore core fun c => { c with entries := c.entries ++ es, pend := c.pend ++ x.halves s.now } with nextAcc := s.nextAcc + 2 }

/-- The commands of a path that a core has issued and that are not complete: its own, and those saved with a block that it was the
last to hold (R25, R412; log 34, DEDUCED). -/
def issuedOn (s : State) (core path : Nat) : List Cmd :=
  ((s.core core).cmds ++ (s.blocks.filter fun p => p.2.place.isNone && p.2.lastCore = core).flatMap fun p => p.2.cols).filter
    fun c => c.path = path

/-- A line of an L1 serves a read of `n` bytes at `pa`: they are valid and none is poisoned; `v` is their value. -/
structure Serves (l : L1Line) (pa n : Nat) (coh : BitVec 2) (v : Nat) : Prop where
  coh   : l.coh = coh
  valid : byteMask (pa % 128) n &&& ~~~l.valid = 0
  clean : l.poison &&& byteMask (pa % 128) n = 0
  value : v = l.data.toNat / 2 ^ (8 * (pa % 128)) % 2 ^ (8 * n)

/-- A thread whose access is done, or on its way. -/
def settled (th : Thread) : Thread := { th with rejects := 0 }

/-- A thread that has read a line (R265). -/
def sawLine (pa : Nat) (th : Thread) : Thread := { th with rejects := 0, readSet := insertNat th.readSet (lineOf pa) }

/-- A loaded value in its registers; a pending bit of them is cleared. -/
def loadInto (d k : Nat) (v : Nat) (pa : Nat) (th : Thread) : Thread :=
  { (sawLine pa th).setRegs d k v with pending := th.pending &&& ~~~regMask (d, k) }

/-- Registers that wait for a value (R96). -/
def awaits (d k : Nat) (th : Thread) : Thread := { settled th with pending := th.pending ||| regMask (d, k) }

/-- A member's access, as the core keeps it. -/
def accOf (s : State) (is : Issue) (m : Member) (kind : AccKind) (va : Quad) (pa : Nat) (coh : BitVec 2) (n : Nat) : Acc :=
  { id := s.nextAcc, blk := is.blk, who := some m.tlin, grp := is.g.start, kind := kind, va := va, pa := pa, coh := coh, size := n
    time := s.now }

/-- A read of a block that acquires, where `acq` says so, keeps older copies of COH 01 lines out of its core (R264). -/
def acquired (s : State) (blk : Nat) (acq : Bool) : State :=
  match acq, (s.block blk).bind Block.place with
  | true, some p => refill s p.core fun _ => true
  | _, _ => s

/-- A request for a COH 01 line asks again for what is on its way to the core (R253). -/
def asking (s : State) (core line : Nat) (coh : BitVec 2) : State := if coh = 1 then refill s core (· = line) else s

/-- A thread that has gone on while its access waits for a translation, as after a miss (R96, R437). -/
def translating (a : Acc) (th : Thread) : Thread :=
  { settled th with pending := th.pending ||| (a.dest.map Dest.mask).getD 0 }

/-- A thread that has gone on while its access waits in the operand log (R442). -/
def heldBack (a : Acc) (th : Thread) : Thread := { translating a th with held := true }

/-- A member of kind, address and size of its access, for the four global access words. -/
def globalAccess (i : Instr) (th : Thread) (g : Group) : Option (AccKind × Quad × Nat) :=
  match i with
  | .ld o z _ _ a _ => some (.load, th.pair a.toNat + offsetOf g o (sizeBytes z.toNat), sizeBytes z.toNat)
  | .st o z _ _ a _ => some (.store, th.pair a.toNat + offsetOf g o (sizeBytes z.toNat), sizeBytes z.toNat)
  | .atom t o _ _ a _ =>
    let n := if Sig.atomWide t.toNat then 8 else 4
    some (.atomic o.toNat t.toNat, th.pair a.toNat + offsetOf g 0 n, n)
  | .red t o _ _ a _ =>
    let n := if Sig.atomWide t.toNat then 8 else 4
    some (.reduce o.toNat t.toNat, th.pair a.toNat + offsetOf g 0 n, n)
  | _ => none

/-- The four global access words. -/
def isAccess : Instr → Bool
  | .ld _ _ _ _ _ _ => true
  | .st _ _ _ _ _ _ => true
  | .atom _ _ _ _ _ _ => true
  | .red _ _ _ _ _ _ => true
  | _ => false

/-- What CSRW makes of a lane thread (R204, R205): a write to another register is ignored. -/
def laneCsrWritten (c : BitVec 8) (v : Quad) (th : Thread) : Thread :=
  if c = 0x01 then { th with trap := { th.trap with tpc := v, tstat := withBit th.trap.tstat 1 false } }
  else if c = 0x08 then { th with csp := v }
  else if c = 0x10 then { th with trapen := v.truncate 6 }
  else if c = 0x11 then { th with fctl := fctlWrite th.fctl (v.truncate 32) }
  else th

/-- What CSRW in front code makes of its block. -/
def frontCsrWritten (c : BitVec 8) (v : Quad) (b : Block) : Block :=
  if c = 0x01 then
    let t := b.front.trap
    { b with front := { b.front with trap := { t with tpc := v, tstat := withBit t.tstat 1 false } } }
  else if c = 0x18 then { b with knottmo := v.truncate 32 }
  else if c = 0x19 then { b with barlim := v.truncate 32 }
  else b

/-- A 1 written to a bit of DCONF clears it (R296). -/
def dconfWritten (s : State) (launch : Nat) (v : Quad) : State :=
  s.modLaunch launch fun l => { l with dconf := l.dconf &&& ~~~(v.truncate 32) }

/-! ## Scratchpad accesses (R237, R238) -/

/-- An access of `span` bytes at offset source `o` with handle field `h` passes the checks of R237 up to LASHED; it lies in the
tile `p`. -/
structure InTile (s : State) (core blk h o size span : Nat) (k : TileAcc) (p : Spot) : Prop where
  aligned : o % 2 ^ 20 % (if k = .setState then 4 else size) = 0
  spot    : spotOf s core blk h (o / 2 ^ 30 % 4) = some p
  inside  : o / 2 ^ 20 % 2 ^ 10 = 0 ∧ o % 2 ^ 20 + span ≤ p.tile.size
  own     : k ≠ .load → o / 2 ^ 30 % 4 = 0
  level   : k = .atomic ∨ k.fullEmpty = true → p.tile.ac = false
  words   : k.fullEmpty = true → size ≠ 2

/-- The Lashing entry that an access to a tile conflicts with. -/
def tileLash (s : State) (o span : Nat) (k : TileAcc) (p : Spot) : Option Nat :=
  if span = 0 then none else lashedBy (s.core p.core) (.tile p.blk p.h (o % 2 ^ 20) (o % 2 ^ 20 + span)) k.writes

/-- The access passes all the checks of R237. -/
structure ReachesTile (s : State) (core blk h o size span : Nat) (k : TileAcc) (p : Spot) : Prop
    extends InTile s core blk h o size span k p where
  free    : tileLash s o span k p = none

/-- The scratchpad access that a word makes: its kind, handle field, element size and bytes covered. -/
def tileAccess (i : Instr) (th : Thread) : Option (TileAcc × BitVec 6 × Nat × Nat) :=
  let of := fun (k : TileAcc) (h : BitVec 6) (z : BitVec 2) => some (k, h, tileSize z.toNat, tileSize z.toNat)
  match i with
  | .lds z h _ _ => of .load h z
  | .sts z h _ _ => of .store h z
  | .atoms z h _ _ => some (.atomic, h, if z = 1 then 8 else 4, if z = 1 then 8 else 4)
  | .ldf z h _ _ => of .loadFull h z
  | .lde z h _ _ => of .loadEmpty h z
  | .stf z h _ _ => of .storeFull h z
  | .stx z h _ _ => of .storeAny h z
  | .feset h _ d => if field (th.reg d.toNat) 30 18 = 0 then some (.setState, h, 4, 4 * field (th.reg d.toNat) 17 0) else none
  | _ => none

/-! ## Skeins -/

/-- A skein operation waits in the order of its core and skein (R301); `sent` tells whether the home has it. -/
def queued (s : State) (ctx k : Nat) (r : SkeinReq) (sent : Bool) : State :=
  s.modCore r.core fun c => { c with skeinQ := c.skeinQ ++ [⟨ctx, k, r, sent⟩] }

/-- Registers that a thread waits for. -/
def owed (s : State) (blk tlin d k : Nat) : State :=
  s.modThread blk tlin fun th => { th with pending := th.pending ||| regMask (d, k) }

/-- A core's hank of a skein becomes `n`, and the entry the most recently used. -/
def rehanked (s : State) (core ctx k n : Nat) : State :=
  s.modCore core fun c => c.useHank ctx k fun h => { h with hank := n }

/-! ## Matrix groups -/

/-- Some members leave the warp and the others go on (R377). -/
structure Parts (s t : State) (is : Issue) (ms : List Member) (left : Member → Bool) (st : Status) (pc : Pc) : Prop
    extends OnlyThreads s t is (ms.map Member.tlin) where
  goes   : ∀ m ∈ ms, left m = false → ∀ th, (is.block s).thread m.tlin = some th →
    ∃ ring, (is.block t).thread m.tlin = some (onward is.next m th ring)
  leaves : ∀ m ∈ ms, left m = true → ∀ th, (is.block s).thread m.tlin = some th → ∃ rp mask,
    (is.block t).thread m.tlin = some { th with status := st, pc := pc, age := 0, ring := [], rp := rp, mask := mask }

/-- One trap for every participant of a group, at the group (R377). -/
def partTrap (is : Issue) (c : BitVec 8) (taddr detail : Nat) (m : Member) : Option TrapReq :=
  some ⟨m.tlin, c, is.g.start, BitVec.ofNat 64 taddr, detail, none⟩

/-- The accumulator tile that a matrix word checks first (R374, R464). -/
def matrixTile (i : Instr) : Option (BitVec 6) :=
  match i with
  | .mxacq d => some d
  | .mxrel d => some d
  | .mxvc _ d => some d
  | .mxzero d => some d
  | .mxscale _ d => some d
  | .mxld _ a _ => some a
  | .mxst _ a _ => some a
  | .mmaC8 _ _ d => some d
  | .mmaX8 _ _ d => some d
  | .mmaC16 _ _ d => some d
  | .mmaC16h _ _ d => some d
  | _ => none

/-- The MMA word of a type (R381). -/
def mmaWord (ty : Nat) (b a : BitVec 8) (d : BitVec 6) : Instr :=
  match ty with
  | 0 => .mmaC8 b a d
  | 1 => .mmaX8 b a d
  | 2 => .mmaC16 b a d
  | _ => .mmaC16h b a d

/-- Element (r, c) of a tile, as a number, and storing one (R224). -/
def elemAt (x : Tile) (r c : Nat) : Nat := x.bytes.num ((r * shapeCols x.shape + c) * shapeEb x.shape) (shapeEb x.shape)

def withElem (x : Tile) (r c v : Nat) : Tile :=
  { x with bytes := x.bytes.setNum ((r * shapeCols x.shape + c) * shapeEb x.shape) (shapeEb x.shape) v }

/-- A matrix command of a group, and its share on core `k` that holds some of the peer tiles `ps`: one entry for them all (R226,
R382, R385). -/
def mxCommand (s : State) (is : Issue) (k : CmdKind) (srcs dsts : List Range) : Cmd :=
  { id := s.nextAcc, blk := is.blk, path := 2, kind := k, srcs := srcs, dsts := dsts }

def peerShare (c : Cmd) (ps : List Spot) (k : Nat) : Cmd :=
  { c with path := peerPath, dsts := []
           srcs := (ps.filter fun p => p.core = k).map fun p => .tile p.blk p.h 0 (shapeBytes p.tile.shape) }

/-- The cores of peer tiles, each once. -/
def peerCores (ps : List Spot) : List Nat := (ps.map Spot.core).foldl insertNat []

/-- The engine's queue and the Lashing tables take a command now (R26, R382). -/
structure MxRoom (s : State) (is : Issue) (c : Cmd) (peers : List Spot) : Prop where
  queue : ((s.core is.core).cmds.filter fun x => x.accepted && x.path = 2).length < 16
  own   : tableTakes (s.core is.core) c = true
  peers : ∀ k ∈ peers.map Spot.core, tableTakes (s.core k) (peerShare c peers k) = true

/-- A matrix command has been accepted (R26, R379, R382): it has its entries, and INFL of its accumulator tiles has risen. -/
def mxTaken (s : State) (is : Issue) (c : Cmd) (accs : List Nat) (peers : List Spot) : State :=
  let u := (peerCores peers).foldl (fun u k => takeEntry u k (peerShare c peers k))
    (takeEntry { s with nextAcc := s.nextAcc + 1 } is.core c)
  accs.foldl (fun u h => u.modTile is.blk h fun t => { t with infl := t.infl + 1 }) u

/-! ## Engine commands of the front thread -/

/-- The words of the Tensor Copy Engine and of the Collective Engine, by sub-operation (R351, R402). -/
def tceWord (sub : Nat) (b a : BitVec 6) : Instr :=
  match sub with
  | 0 => .tceLoad b a
  | 1 => .tceStore b a
  | 2 => .tceMcast b a
  | 3 => .tceSlice b a
  | 4 => .tceGather b a
  | 5 => .tceScatter b a
  | _ => .tceFill b a

def colWord (sub : Nat) (b a : BitVec 6) : Instr :=
  match sub with
  | 0 => .colReduce b a
  | 1 => .colAllred b a
  | 2 => .colBcast b a
  | 3 => .colAgather b a
  | 4 => .colRscat b a
  | _ => .colCbar a

/-- The access of a front thread, as the core keeps it. -/
def frontAccOf (s : State) (is : FrontIssue) (kind : AccKind) (va : Quad) (pa : Nat) (coh : BitVec 2) (n : Nat) : Acc :=
  { id := s.nextAcc, blk := is.blk, who := none, grp := is.g.start, kind := kind, va := va, pa := pa, coh := coh, size := n
    time := s.now }

/-- A front thread whose read of a line the L1 has served. -/
def sawFrontLine (pa : Nat) (f : Front) : Front := { f with rejects := 0, readSet := insertNat f.readSet (lineOf pa) }

/-- The descriptor of a group, `v`, is there (R352): it was read while the thread stalled, or the L1 serves it now. `u` is the
state and `f` the front thread once it has been taken. -/
inductive Described (s : State) (is : FrontIssue) (b : Block) (va : Quad) (v : Nat) : State → Front → Prop where
  | latched (have_ : b.front.latched = some v) : Described s is b va v s { b.front with latched := none }
  | served (pa : Nat) (coh : BitVec 2) (l : L1Line) (none_ : b.front.latched = none)
      (reach : Reaches s is.core b.ctx va 64 64 .desc pa coh) (free : Unhindered s is.core is.blk b) (near : coh ≠ 2)
      (line : tget (s.core is.core).l1 (lineOf pa) = some l) (serve : Serves l pa 64 coh v) :
      Described s is b va v { s with nextAcc := s.nextAcc + 1 } { sawFrontLine pa b.front with latched := none }

/-! ## Messages and events -/

/-- The home can serve message `n` on a line now (R281, R283, R284, R285, R230): it is the first of its core and line, no grant of the
line is under way, within the COH 01 aperture the write-back before it has merged whole (R270), and the line is at hand, owned if it is
to be written, with a request of its slice free for what it may put out. -/
structure Servable (s : State) (n line : Nat) (own : Bool) : Prop where
  order : inOrder s n = true
  free  : granting s line = false
  whole : restOpen s line = true → ∀ m, s.net[n]? = some m → m.ofSelf = false
  ready : lineAt s line own = true
  room  : (tget s.home line).isSome = true ∨ missRoom s line = true

/-- The home as it takes up message `n` on a line. -/
def taken (s : State) (n line : Nat) : State := enterLine { s with net := ldel s.net n } line

/-- Dirty bytes merge at the home of a line (R283, R284): the slice holds them newer than HBM, and a line written whole loses its
poison (R286). -/
def merged (s : State) (line : Nat) (mask : BitVec 128) (data : BitVec 1024) : State :=
  { modLine s line (fun h => { h with dirty := h.dirty ||| mask }) with
    mem := s.mem.setMasked (128 * line) 128 mask.toNat data.toNat
    poison := if mask = BitVec.allOnes 128 then s.poison.filter (· ≠ line) else s.poison }

/-- A message leaves. -/
def sends (s : State) (m : Msg) : State := { s with net := s.net ++ [m] }

/-- An event that completes command `c` of a core as its plan says (R274, R368, R371): nothing happens while it waits for something
else; it waits for the host or for a fill; it ends with a fault, some of its writes made; or it makes what is left of them and ends. -/
structure Completes (s : State) (core : Nat) (c : Cmd) (ctx : Nat) (i : Instr) (p : CmdPlan) : Prop where
  idle   : p.wait = true → exec i s = .next s
  waits  : p.wait = false → ∀ e, p.stop = some e → e.waits = true → exec i s = .next (blockCommand (fillPages s core ctx p) core c ctx e)
  fails  : p.wait = false → ∀ e, p.stop = some e → e.waits = false → ∃ f : Nat → Bool, (∀ k ∈ c.wrote, f k = false) ∧
    let u := performPlan (fillPages s core ctx p) core c.blk (some f) p
    exec i s = .next (failCommand u core c.id e.fault.1 (BitVec.ofNat 64 e.fault.2.1) e.fault.2.2)
  ends   : p.wait = false → p.stop = none → ∃ f : Option (Nat → Bool), (c.wrote = [] → f = none) ∧
    (c.wrote ≠ [] → ∀ k, picks f k = !c.wrote.contains k) ∧
    let u := performPlan (fillPages s core ctx p) core c.blk f p
    (p.fault = none → exec i s = .next (dropCommand u c.id)) ∧
    ∀ cause taddr detail, p.fault = some (cause, taddr, detail) →
      exec i s = .next (failCommand u core c.id cause (BitVec.ofNat 64 taddr) detail)

/-! ## What an event of a thread, a warp or a block changes -/

/-- Nothing changes but block `k`, which becomes `b`. -/
structure BlockBecomes (s t : State) (k : Nat) (b : Block) : Prop where
  own    : t.block k = some b
  blocks : ∀ j, j ≠ k → t.block j = s.block j
  rest   : t = { s with blocks := t.blocks }

/-- Nothing changes but thread `tlin` of block `k`, which becomes `th`. -/
structure ThreadBecomes (s t : State) (k tlin : Nat) (th : Thread) : Prop where
  thread : (t.block k).bind (Block.thread · tlin) = some th
  others : ∀ x, x ≠ tlin → (t.block k).bind (Block.thread · x) = (s.block k).bind (Block.thread · x)
  own    : t.block k = (s.block k).map fun b => { b with threads := ((t.block k).map Block.threads).getD [] }
  blocks : ∀ j, j ≠ k → t.block j = s.block j
  rest   : t = { s with blocks := t.blocks }

/-- Nothing changes but the warp in a slot, which becomes `w`. -/
structure WarpBecomes (s t : State) (core quad slot : Nat) (w : Warp) : Prop where
  warp   : tget ((t.core core).quad quad).slots slot = some w
  slots  : ∀ k, k ≠ slot → tget ((t.core core).quad quad).slots k = tget ((s.core core).quad quad).slots k
  own    : (t.core core).quad quad = { (s.core core).quad quad with slots := ((t.core core).quad quad).slots }
  quads  : ∀ q, q ≠ quad → (t.core core).quad q = (s.core core).quad q
  home   : t.core core = { s.core core with quads := (t.core core).quads }
  cores  : ∀ c, c ≠ core → t.core c = s.core c
  rest   : t = { s with cores := t.cores }

/-- A warp stands in a slot: the threads it takes from a cohort, at their home lanes, or at the lanes that R100 gives them. -/
def Formed (s t : State) (core quad slot : Nat) (c : Cohort) : Prop :=
  ∃ w, tget ((t.core core).quad quad).slots slot = some w ∧ w.blk = c.blk ∧ w.emptyRing = true ∧ w.fencing = none ∧ w.draining = none ∧
    w.pops = [] ∧ w.hazards = [] ∧
    w.members = (if c.hw = none then placeLanes (List.range 32) c.take else c.take.map fun x => (x, x % 32)) ∧
    ∀ m ∈ w.members, ∀ th, (s.block c.blk).bind (Block.thread · m.1) = some th →
      (t.block c.blk).bind (Block.thread · m.1) =
        some { th with status := .active slot m.2, ring := [], released := false }

/-- Free slots are filled one after another, each with the cohort that is preferred then, until none is left (R99). -/
inductive Fills (core quad : Nat) : List Nat → State → State → Prop where
  | full (s : State) : Fills core quad [] s s
  | dry (slots : List Nat) (s : State) (none_ : bestCohort s core quad = none) : Fills core quad slots s s
  | next (slot : Nat) (slots : List Nat) (s u t : State) (c : Cohort) (best : bestCohort s core quad = some c)
      (formed : Formed s u core quad slot c) (rest : Fills core quad slots u t) : Fills core quad (slot :: slots) s t

/-! ## Dyer slots -/

/-- The block that waits longest for a dyer slot of a die at a depth (R313). -/
def slotWaiter (s : State) (die depth : Nat) : Option (Nat × Nat × Nat × FillBlock) :=
  firstQueued s fun x => x.2.2.2.fill = .steeping && homeDie s x.2.2.2.pa = die && 1 + x.2.2.2.ancestors.length = depth

end Safety

end Sys2Proof
end

