-- ==== Sys2Proof/Certificates/Slice0/Obligations.lean ====
section
/-! DEFINITION. The statements for the provers. `Goes`, `GoesTo`, `Leaves`, `Traps` and `FrontGoes` (Safety) say what becomes of the
members of an issue and that nothing else changes. -/

open Sys2Proof Sys2Proof.Machine Sys2Proof.Safety


/-- R33, R35, R41 to R59: words written out from the encoding tables decode to the instructions they stand for: an integer
word, a fused multiply-add, a branch, a load, an atomic, a scratchpad load, a matrix multiply, a skein take, an engine
command, both EXT prefixes (EXT.I is R210's), GUARD and a 16-bit word. -/
def Obligations.WordsDecodeAsEncoded : Prop :=
  decodeTableWord 32 0x29534301 = some (.iadd 165 77 0 6) ∧
  decodeTableWord 32 0xd2bc899d = some (.ffma 74 242 0 19) ∧
  decodeTableWord 32 0x3de70059 = some (.br 7923 1 0) ∧
  decodeTableWord 32 0xe24f1049 = some (.ld 14 1 1 0 60 32) ∧
  decodeTableWord 32 0x22c4954f = some (.atom 1 1 3 0 18 42) ∧
  decodeTableWord 32 0x33d993d3 = some (.lds 3 15 102 39) ∧
  decodeTableWord 32 0x0a465a67 = some (.mmaC8 41 25 52) ∧
  decodeTableWord 32 0x155484eb = some (.sktake 85 82 9) ∧
  decodeTableWord 32 0x01156077 = some (.tceLoad 34 43) ∧
  decodeTableWord 32 0x01e000ff = some (.extC 1 14 0 0 0) ∧
  decodeTableWord 32 0x0002007f = some (.extI 0x000200) ∧
  decodeTableWord 16 0x00fc = some (.guard 0 3) ∧
  decodeTableWord 16 0xd9c2 = some (.iadd16 27 7)

/-- R33, R41 to R59: every word of the opcode table survives encoding and decoding, with every operand at every value of its
field, whatever follows it in memory; the 92 events, and nothing else, have no encoding. -/
def Obligations.DecodeOfEncode : Prop :=
  (∀ i w rest, encode i = some w → decodeBytes (leBytes (wordBytes w) w ++ rest) = some (.instr i, rest)) ∧
  ∀ i, encode i = none ↔ ∃ e : Event, e.instr = i

/-- R33, R34, R452, R459: when the bytes at the next word of the state that a step hands to its fetch decode to an instruction, the step is that
instruction: inside an open group the state is the step's own, at an agent's turn it is the one in which the turn has been given
or picked. The fetch may fill its core's fetch TLB and the walk caches, and changes nothing else. Between groups, the other items
of the agenda: a turn that nobody takes, an event, which is its row of the opcode table, a delivery, which is the event of the
oldest message that can be served, and the judging of the cycle's end. With nothing left to do a step begins a new cycle: one more of
device time, and an agenda made for the state in which it begins; a halted package does nothing, and a planned reset takes place. The
agenda is the model's own (log 3, DESIGN CHOICE). -/
def Obligations.StepRunsTheDecodedWord : Prop :=
  (∀ s u i bs rest, Runs s u → WordAt u bs → decodeBytes bs = some (.instr i, rest) →
    ∃ t, OnlyFetchTlb u t (agentCore u.cur) ∧ step s = exec i t) ∧
  (∀ s a acts, s.grp = none → s.agenda = a :: acts →
    let u := { s with agenda := acts }
    (∀ core quad v, a = .arbLane core quad → arbitrate u core quad = (v, none) → step s = .next v) ∧
    (∀ core, a = .arbFront core → arbitrateFront u core = none → step s = .next u) ∧
    (∀ e, a = .event e → step s = exec e.instr u) ∧
    (∀ e, a = .deliver → servable u = some e → step s = exec e.instr u) ∧
    (a = .deliver → servable u = none → step s = .next u) ∧
    (∀ k, a = .judge k → step s = .next { u with
      agenda := (judgeEvents u k).map .event ++ (if k then [] else [.judge true]) ++ acts })) ∧
  ∀ s, s.grp = none → s.agenda = [] →
    (s.dev.halted = true → step s = .next s) ∧
    (s.dev.halted = false → s.dev.resetting = true → step s = .next (resetState s [])) ∧
    (s.dev.halted = false → s.dev.resetting = false → (tick s).now = s.now + 1 ∧
      step s = .next { tidy (tick s) with agenda := plan (tidy (tick s)) })

/-- Every instruction and event answers a next state in every state: none of them faults or is refused. -/
def Obligations.EveryInstructionRuns : Prop := ∀ i s, ∃ t, exec i s = .next t

/-- R465: a step answers a next state or stops, and it stops in one case only: a word of a block whose context has no translations
would be fetched. That it then stops is log 40 (DESIGN CHOICE). -/
def Obligations.StepStopsOnlyOnADeadContext : Prop :=
  ∀ s, ((∃ t, step s = .next t) ∨ step s = .fault .contextNotLive) ∧
    (step s = .fault .contextNotLive ↔ ∃ u k pc, Runs s u ∧ nextWord u = some (k, pc) ∧
      ctxMapped u (((u.block k).map Block.ctx).getD 0) = false)

/-- R461, R459: at reset the registers of BAR2 read as their table gives, the core islands stand at VFS 0 with command 0x700
and the others at VFS 7 with command 0xFFFF00000707. That no context, launch, block, core entry or cached line is there is log 2
(DESIGN CHOICE). -/
def Obligations.ResetLeaves : Prop :=
  (∀ off ∈ [0x0000, 0x0004, 0x0008, 0x0014, 0x0018, 0x0020, 0x0040, 0x004C, 0x0050, 0x0054, 0x0058, 0x0068, 0x0070, 0x0078,
      0x0200, 0x0220, 0x0228], bar2 State.reset off = 0) ∧
  bar2 State.reset 0x0010 = 100 ∧ bar2 State.reset 0x0048 = 16 ∧ bar2 State.reset 0x0060 = 100000 ∧
  bar2 State.reset 0x0100 = 4096 ∧ bar2 State.reset 0x0108 = 0x0100 * 2 ^ 48 ∧
  (∀ k, k < 0x800 → bar2 State.reset (0x400 + k) = 0) ∧
  (∀ die i, die < 4 → i < 40 → State.reset.island (64 * die + i) = { cmd := 0x700, vfs := 0 }) ∧
  (∀ die i, die < 4 → 40 ≤ i → i < 64 → State.reset.island (64 * die + i) = { cmd := 0xFFFF00000707, vfs := 7 }) ∧
  State.reset.ctxs = [] ∧ State.reset.launches = [] ∧ State.reset.blocks = [] ∧ State.reset.cores = [] ∧
  State.reset.home = [] ∧ State.reset.grp = none

/-- Reset memory is in its canonical form, and nothing of it is listed: every byte reads 0. The spec gives no contents; that is log 1
(DESIGN CHOICE). -/
def Obligations.ResetMemoryCanonical : Prop := State.reset.mem.wf = true ∧ State.reset.mem = []

/-- Every step keeps memory in its one canonical form: rising addresses, and no entry that equals what an unlisted address
reads as. -/
def Obligations.StepKeepsMemoryCanonical : Prop := ∀ s t, s.mem.wf = true → step s = .next t → t.mem.wf = true

/-- Memory: the bytes written are read back, and every other byte reads as before. -/
def Obligations.MemoryReadAfterWrite : Prop :=
  ∀ (m : Memory) (a : Nat) (bs : List Byte), m.wf = true →
    (m.setBytes a bs).wf = true ∧ (m.setBytes a bs).bytes a bs.length = bs ∧
    ∀ b, (b < a ∨ a + bs.length ≤ b) → (m.setBytes a bs).get b = m.get b

/-! ## The group and its checks -/

/-- R34, R54 to R59: a prefix joins the group that its agent reads, and nothing else changes: the group's next word lies behind
it; GUARD sets the guard; EXT.I and EXT.C join the group's EXT words, which give it the latest immediate and the latest five
fields; a second GUARD or a second EXT is remembered. -/
def Obligations.PrefixesJoinTheGroup : Prop :=
  ∀ s pc, agentPc s = some pc →
    let g := s.grp.getD { start := pc, next := pc }
    (∀ i p, exec (.guard i p) s = .next { s with grp := some { g with
      next := g.next + 2, guard := some (p.toNat, i = 1), twice := g.twice || g.guard.isSome } }) ∧
    (∀ i, let h := { g with next := g.next + 4, exts := .i i :: g.exts, twice := g.twice || !g.exts.isEmpty }
      exec (.extI i) s = .next { s with grp := some h } ∧ h.extI = some i ∧ h.extC = g.extC) ∧
    (∀ sc na sat rm c,
      let h := { g with next := g.next + 4, exts := .c (sc ++ na ++ sat ++ rm ++ c) :: g.exts, twice := g.twice || !g.exts.isEmpty }
      exec (.extC sc na sat rm c) s = .next { s with grp := some h } ∧ h.extC = some (sc ++ na ++ sat ++ rm ++ c) ∧ h.extI = g.extI)

/-- R71, R55, R92, R96, R109: when a group of a warp raises no decode trap, no member waits for a pending register or is held
back, a home-bound group's convergence set is in place, and the sources of the members whose guard is true are there, the
instruction acts on every member, with the guard and the source values of each. R71, R332, R335: when a front group raises no decode trap and no earlier access has failed, it acts on the front thread with
its source values if its guard is true, and does nothing but advance the pc if it is false. -/
def Obligations.GroupPassesItsChecks : Prop :=
  (∀ s i is, findIssue s i = some is →
    let s₁ := gathered s is
    let ws := (is.warp s₁).members
    decodeTrap false (s₁.launchOf (is.block s₁)).regsPer is.g i is.q = none → ws ≠ [] →
    (is.q.cls = .home → (∀ m ∈ ws, (is.thread s₁ m.1).mask.isSome) ∧ inPlace s₁ is ws = true) →
    (∀ m ∈ ws, (is.thread s₁ m.1).pending &&& is.regs = 0 ∧
      ((is.thread s₁ m.1).held = false ∨ is.allowed (is.thread s₁ m.1).pending = true)) →
    (∀ m ∈ ws, guardOn is.g (is.thread s₁ m.1).pred = true →
      ∃ v pop, laneVals s₁ (is.block s₁) m.1 m.2 (is.thread s₁ m.1) is.q is.g = .vals v pop) →
    ∃ ms, prepare s i = .go s₁ is ms [] ∧ ms.map (fun m => (m.tlin, m.lane)) = ws ∧
      ∀ m ∈ ms, m.on = guardOn is.g (is.thread s₁ m.tlin).pred ∧
        (m.on = true → laneVals s₁ (is.block s₁) m.tlin m.lane (is.thread s₁ m.tlin) is.q is.g = .vals m.v m.pop)) ∧
  (∀ s i is b, findFront s i = some is → s.block is.blk = some b → b.front.late = none →
    decodeTrap true 64 is.g i is.q = none →
    (guardOn is.g b.front.pred = true → FrontReady s i { is with v := frontVals s b is.q is.g } b) ∧
    (guardOn is.g b.front.pred = false → isPrefix i = false → encode i ≠ none → (orderOf is.g i).1 = 0 →
      ∃ t, exec i s = .next t ∧ FrontGoes (closeGroup s) t is b b.front is.next))

/-- R70, R71, R200, R442: a lane group that raises ILLEGAL, ILLCLASS, ILLPREFIX or ILLOPND traps every member at the group, whatever its
instruction, and has none of its effect; a member that an access in the operand log holds back leaves the group and waits. R337,
R71: the same in front code. -/
def Obligations.DecodeTraps : Prop :=
  (∀ s i is cause, isPrefix i = false → encode i ≠ none → findIssue s i = some is →
    decodeTrap false ((gathered s is).launchOf (is.block (gathered s is))).regsPer is.g i is.q = some cause →
    Handled (gathered s is) is (allTrap (gathered s is) is cause) →
    ∃ t, exec i s = .next t ∧ TrapsAtOnce (gathered s is) t is (allTrap (gathered s is) is cause)) ∧
  (∀ s i is b cause, isPrefix i = false → encode i ≠ none → findFront s i = some is → s.block is.blk = some b →
    b.front.late = none → decodeTrap true 64 is.g i is.q = some cause → FrontHandled s b →
    ∃ t, exec i s = .next t ∧ FrontTraps (closeGroup s) t is b cause is.g.start 0 0)

/-- R70, R71: a word that is no instruction, at the start of a group or behind its prefixes, raises ILLEGAL in every member of the warp
that meets it, and in a front thread; BKPT stands here for a word without operands. A GUARD or an EXT.C with a reserved bit set
joins its group, so that the words behind it are fetched, and its instruction raises ILLEGAL. -/
def Obligations.WordThatIsNoInstructionTraps : Prop :=
  ∀ s v bs w rest, Runs s v → WordAt v bs → decodeBytes bs = some (.illegal w, rest) →
    ∃ u t, OnlyFetchTlb v u (agentCore v.cur) ∧ step s = .next t ∧
      (prefixWord (leValue bs) = false →
        (∀ is, findIssue u .bkpt = some is →
          let is' := { is with next := is.g.next + BitVec.ofNat 57 bs.length }
          Handled (gathered u is') is' (allTrap (gathered u is') is' causeIllegal) →
          TrapsAtOnce (gathered u is') t is' (allTrap (gathered u is') is' causeIllegal)) ∧
        (∀ is b, findFront u .bkpt = some is → u.block is.blk = some b → FrontHandled u b →
          FrontTraps (closeGroup u) t is b causeIllegal is.g.start 0 0)) ∧
      (prefixWord (leValue bs) = true → ∀ pc, agentPc u = some pc →
        let g := u.grp.getD { start := pc, next := pc }
        t = { u with grp := some { g with next := g.next + BitVec.ofNat 57 bs.length, bad := true } })

/-! ## Sources, results and the latch ring -/

/-- R37, R39, R40, R62: what a source code reads: a register or, in a 64-bit position, an even register and the next; an integer
constant modulo 2^32, or exactly in a 64-bit position; a latch that exists with the width of the position, else ILLOPND; the next
entry of the DQ, or a wait where there is none. R40: the rounded constants that the spec tabulates: 0.25, 1/3 and π in FP32, FP64, FP16 and BF16. -/
def Obligations.SourceCodesRead : Prop :=
  (∀ s b tlin lane t, let src := fun (c : Nat) (p : Pos) => laneSource s b tlin lane t (BitVec.ofNat 8 c, p)
    (∀ r, r < 64 → src r .i32 = .val ((t.reg r).zeroExtend 64) ∧ src r .i64 = .val ((t.reg (r + 1)) ++ (t.reg r)) ∧
      src r .f32 = .val ((t.reg r).zeroExtend 64) ∧ src r .f64 = .val ((t.reg (r + 1)) ++ (t.reg r))) ∧
    (∀ k, k ≤ 16 → src (0x40 + k) .i32 = .val (BitVec.ofNat 64 k) ∧ src (0x40 + k) .i64 = .val (BitVec.ofNat 64 k)) ∧
    (∀ k, 17 ≤ k → k ≤ 31 → src (0x40 + k) .i32 = .val (BitVec.ofNat 64 (2 ^ 32 - (k - 16))) ∧
      src (0x40 + k) .i64 = .val (BitVec.ofInt 64 (16 - (k : Int)))) ∧
    (∀ k, 32 ≤ k → k ≤ 58 → src (0x40 + k) .i32 = .val (BitVec.ofNat 64 (2 ^ (k - 27))) ∧
      src (0x40 + k) .i64 = .val (BitVec.ofNat 64 (2 ^ (k - 27)))) ∧
    (∀ i p, i < 4 → src (0x80 + i) p = match t.ring[i]? with
      | some e => if e.wide = p.wide then .val e.val else .bad
      | none => .bad) ∧
    (∀ c p, c = 0x84 ∨ c = 0x85 → src c p = if t.rp = b.front.wp then .wait
      else .val ((b.dq.getD (t.rp.toNat % 128) 0).zeroExtend 64))) ∧
  ((constFloat fp32 33 = 0x3E800000 ∧ constFloat fp64 33 = 0x3FD0000000000000 ∧ constFloat fp16 33 = 0x3400 ∧ constFloat bf16 33 = 0x3E80) ∧
  (constFloat fp32 48 = 0x3EAAAAAB ∧ constFloat fp64 48 = 0x3FD5555555555555 ∧ constFloat fp16 48 = 0x3555 ∧ constFloat bf16 48 = 0x3EAB) ∧
  (constFloat fp32 56 = 0x40490FDB ∧ constFloat fp64 56 = 0x400921FB54442D18 ∧ constFloat fp16 56 = 0x4248 ∧ constFloat bf16 56 = 0x4049))

/-- R61, R86, R119: what a result becomes: a predicate where the word names one, p7 ignoring it; nothing where nw = 1; else the
low 32 bits in the destination and, for a pair, the high 32 bits in the next register. All else in the thread is as before. -/
def Obligations.ResultsReachTheirDestination : Prop :=
  ∀ (q : Sig) (th : Thread) (v : Quad),
    (∀ p, q.pd = some p → p < 7 → (writeResult q th v).pred p = decide (v ≠ 0) ∧
      (∀ r, r ≠ p → (writeResult q th v).pred r = th.pred r) ∧ (writeResult q th v).regs = th.regs) ∧
    (q.pd = some 7 → writeResult q th v = th) ∧
    (q.pd = none → q.nw = true → writeResult q th v = th) ∧
    (q.pd = none → q.nw = false → q.dst.2 = 1 → q.dst.1 < th.regs.length →
      ∀ r, (writeResult q th v).reg r = if r = q.dst.1 then v.truncate 32 else th.reg r) ∧
    (q.pd = none → q.nw = false → q.dst.2 = 2 → q.dst.1 + 1 < th.regs.length →
      ∀ r, (writeResult q th v).reg r =
        if r = q.dst.1 then v.truncate 32 else if r = q.dst.1 + 1 then (v >>> 32).truncate 32 else th.reg r) ∧
    { writeResult q th v with regs := th.regs, preds := th.preds } = th

/-- R117 to R140, R52: every integer, logic, bit-field, move, compare and predicate word and every integer 16-bit word writes, in each
member whose guard is true, the result that its rule gives to its destination, and nothing else changes; NOP16 changes nothing. R123, R335: the same words in front code, 64 bits wide; IMULX writes its 128-bit product to two registers. -/
def Obligations.IntegerResults : Prop :=
  ((∀ i f s s₁ is ms, laneRule i = some f → LaneReady s i s₁ is ms →
    ∃ t, exec i s = .next t ∧ Goes s₁ t is ms fun m th => writeResult (shape i) th (f th is.g m.v)) ∧
  (∀ sc d s s₁ is ms, LaneReady s (.nop16 sc d) s₁ is ms →
    ∃ t, exec (.nop16 sc d) s = .next t ∧ Goes s₁ t is ms fun _ th => th)) ∧
  ((∀ i f s is b, frontRule i = some f → FrontReady s i is b →
    ∃ t, exec i s = .next t ∧
      FrontGoes (closeGroup s) t is b (writeFront (shape i) b.front (f b.front is.g is.v)) is.next) ∧
  (∀ y x n d s is b, FrontReady s (.imulx y x n d) is b →
    ∃ t, exec (.imulx y x n d) s = .next t ∧
      let p := BitVec.ofInt 128 (is.v.a.toInt * is.v.b.toInt)
      let r := (shape (.imulx y x n d)).dst.1
      FrontGoes (closeGroup s) t is b ((b.front.setReg r (p.truncate 64)).setReg (r + 1) ((p >>> 64).truncate 64)) is.next) ∧
  (∀ sc d s is b, FrontReady s (.nop16 sc d) is b →
    ∃ t, exec (.nop16 sc d) s = .next t ∧ FrontGoes (closeGroup s) t is b b.front is.next))

/-- R127 to R129: IDIV, NDIV, IREM and NREM: each member whose guard is true and whose divisor is not 0 gets its quotient or remainder;
one whose divisor is 0 takes IDIVZ at the group with TADDR 0, its destination unchanged, and the others complete. R127 to R129, R337: division in front code, 64 bits wide. -/
def Obligations.Division : Prop :=
  (∀ i s s₁ is ms, divided (w := 32) i 0 0 ≠ none → LaneReady s i s₁ is ms →
    let trap := fun (m : Member) =>
      if (m.v.b.truncate 32 : Word) = 0 then some ⟨m.tlin, causeIdivz, is.g.start, 0, 0, none⟩ else none
    (collected ms trap ≠ [] → Handled s₁ is (collected ms trap)) →
    ∃ t, exec i s = .next t ∧ Splits s₁ t is ms trap (fun _ th => th) fun m th =>
      writeResult (shape i) th (((divided i (m.v.a.truncate 32 : Word) (m.v.b.truncate 32)).getD 0).zeroExtend 64)) ∧
  (∀ i s is b, divided (w := 32) i 0 0 ≠ none → FrontReady s i is b →
    (is.v.b ≠ 0 → ∃ t, exec i s = .next t ∧
      FrontGoes (closeGroup s) t is b (writeFront (shape i) b.front ((divided i is.v.a is.v.b).getD 0)) is.next) ∧
    (is.v.b = 0 → FrontHandled s b → ∃ t, exec i s = .next t ∧ FrontTraps (closeGroup s) t is b causeIdivz is.g.start 0 0))

/-- R141 to R171, R151, R209: every floating-point word: each member whose guard is true raises its flags in FLG; one that raises an
enabled flag, or meets a signalling NaN with its TRAPEN bit set, takes FPE with the flags in DETAIL and writes no result; every
other one writes its result, rounded once and clamped where sat asks for it. The result of FRCP, FRSQ, FEX2, FLG2, FSIN, FCOS,
DRCP and DRSQ is not rounded once: it is a free value within R159's bound (log 8, DESIGN CHOICE). An EXT.I before FCPYS is log 71
(DESIGN CHOICE). -/
def Obligations.FloatingPointResults : Prop :=
  ∀ i f s s₁ is ms, floatRule i = some f → LaneReady s i s₁ is ms →
    let r := fun (m : Member) => f (is.thread s₁ m.tlin) is.g m.v
    let trap := fun (m : Member) =>
      let en := (is.thread s₁ m.tlin).trapen
      if (bit en 5 = true ∧ (r m).snan = true) ∨ (r m).flags &&& en.truncate 5 ≠ 0
      then some ⟨m.tlin, causeFpe, is.g.start, 0, (r m).flags.toNat + (if (r m).snan then 32 else 0), none⟩ else none
    (collected ms trap ≠ [] → Handled s₁ is (collected ms trap)) →
    ∃ t, exec i s = .next t ∧
      Splits s₁ t is ms trap (fun m th => { th with flg := th.flg ||| (r m).flags }) fun m th =>
        writeResult (shape i) { th with flg := th.flg ||| (r m).flags } (BitVec.ofNat 64 (r m).val)

/-- R60, R61, R63: a pure word, be it integer, division, floating point or conversion, that reads no DQ code shifts one entry into
each member's latch ring, the oldest of four being lost: its result, or for a guarded-off member the value of its destination, the
destination predicate, or 0 where nw = 1. A member that the word traps is none of these: the clause is about the words' own results.
A lane-group word empties the ring and shifts its result; every other word that is not pure, and a pure one that reads a DQ code,
leaves it empty; NOP16 leaves it as it is. -/
def Obligations.PureWordsShiftTheRing : Prop :=
  (∀ i s s₁ is ms, isPure i = true → LaneReady s i s₁ is ms → readsDq i is.g = false →
    (∀ m ∈ ms, m.on = true → (pureResult i (is.thread s₁ m.tlin) is.g m.v).isSome = true) →
    ∃ t, exec i s = .next t ∧ ∀ m ∈ ms, ∀ th, (is.block s₁).thread m.tlin = some th →
      ∃ u, (is.block t).thread m.tlin = some u ∧
        u.ring = (shifted i is m th ((pureResult i th is.g m.v).getD 0) true :: th.ring).take 4) ∧
  (∀ i f s s₁ is ms, groupRule i = some f → LaneReady s i s₁ is ms →
    ∃ t, exec i s = .next t ∧ ∀ m ∈ ms, ∀ th, (is.block s₁).thread m.tlin = some th →
      ∃ u, (is.block t).thread m.tlin = some u ∧
        u.ring = [shifted i is m th (f (fun x p => (is.thread s₁ x.tlin).pred p) ms m) false]) ∧
  (∀ i s s₁ is ms, isPure i = true → LaneReady s i s₁ is ms → readsDq i is.g = true → ∃ t, exec i s = .next t ∧ RingsEmpty t is ms) ∧
  (∀ i s s₁ is ms, encode i ≠ none → isPrefix i = false → (∀ sc d, i ≠ .nop16 sc d) → isPure i = false → (groupRule i).isNone = true →
    LaneReady s i s₁ is ms → ∃ t, exec i s = .next t ∧ RingsEmpty t is ms) ∧
  (∀ sc d s s₁ is ms, LaneReady s (.nop16 sc d) s₁ is ms → ∃ t, exec (.nop16 sc d) s = .next t ∧
    ∀ m ∈ ms, ∀ th, (is.block s₁).thread m.tlin = some th → ∃ u, (is.block t).thread m.tlin = some u ∧ u.ring = th.ring)

/-! ## Lane groups and control flow -/

/-- R193 to R198: BALLOT, VOTE, LXCH, REDUX and MATCH write to every participant the result that its rule gives, with guarded-off
members counted as the rule says; nothing else changes. -/
def Obligations.LaneGroupResults : Prop :=
  ∀ i f s s₁ is ms, groupRule i = some f → LaneReady s i s₁ is ms →
    ∃ t, exec i s = .next t ∧ Goes s₁ t is ms fun m th =>
      writeResult (shape i) th (f (fun x p => (is.thread s₁ x.tlin).pred p) ms m)

/-- R35, R95, R173 to R177: BR and BRU.UNI send each member to the target where its value holds and to the next group where it does
not; the side with more members keeps the slot, the fall-through side on a tie. BRU.ANY, BRU.ALL and BRU.NONE send all members
one way, and JMP sends all to its target. R179, R95: DJMP sends each member to the target of its entry of the launch's dispatch table, the group with the most members
keeping the slot. -/
def Obligations.BranchesInLanes : Prop :=
  (∀ s s₁ is ms, (∀ m ∈ ms, m.on = true) →
    let v := fun (p : BitVec 3) (n : BitVec 1) (m : Member) => (is.thread s₁ m.tlin).pred p.toNat != (n = 1)
    let all := fun (s t : State) (to_ : Pc) => ∃ keep, GoesTo s t is ms (fun _ => to_) keep fun _ th => th
    (∀ i d n p, i = .br d n p ∨ i = .bruUni d n p → LaneReady s i s₁ is ms →
      ∃ t keep, exec i s = .next t ∧
        GoesTo s₁ t is ms (fun m => if v p n m then targetOf is.next d else is.next) keep (fun _ th => th) ∧
        (ms.any (fun m => !v p n m) = true → goers ms (fun m => if v p n m then targetOf is.next d else is.next) is.next =
          goers ms (fun m => if v p n m then targetOf is.next d else is.next) keep → keep = is.next)) ∧
    (∀ d n p, LaneReady s (.bruAny d n p) s₁ is ms → ∃ t, exec (.bruAny d n p) s = .next t ∧
      all s₁ t (if ms.any (v p n) then targetOf is.next d else is.next)) ∧
    (∀ d n p, LaneReady s (.bruAll d n p) s₁ is ms → ∃ t, exec (.bruAll d n p) s = .next t ∧
      all s₁ t (if ms.all (v p n) then targetOf is.next d else is.next)) ∧
    (∀ d n p, LaneReady s (.bruNone d n p) s₁ is ms → ∃ t, exec (.bruNone d n p) s = .next t ∧
      all s₁ t (if ms.any (v p n) then is.next else targetOf is.next d)) ∧
    (∀ d, LaneReady s (.jmp d) s₁ is ms → ∃ t, exec (.jmp d) s = .next t ∧ all s₁ t (targetOf is.next d))) ∧
  (∀ s s₁ is ms x (tgt : Member → Pc), LaneReady s (.djmp x) s₁ is ms →
    (∀ l m r, ms = l ++ m :: r → m.on = true →
      tableTarget (tabledAll s₁ is l) is.core (is.block s₁) 0 (m.v.a.toNat % 2 ^ 32) = some (tgt m)) →
    ∃ t keep, exec (.djmp x) s = .next t ∧
      GoesTo (tabledAll s₁ is ms) t is ms (fun m => if m.on then tgt m else is.next) keep fun _ th => th)

/-- R174, R177, R179, R336: the front thread's branches go as its own value says; JMP and DJMP go to their target; CALL and DCALL push the
address of the next group on the return stack, where it holds fewer than 32, and RET pops it. -/
def Obligations.ControlFlowInFrontCode : Prop :=
  ∀ s is b,
    let s' := closeGroup s
    let v := fun (p : BitVec 3) (n : BitVec 1) => b.front.pred p.toNat != (n = 1)
    (∀ i d n p, i = .bruAny d n p ∨ i = .bruAll d n p ∨ i = .bruUni d n p → FrontReady s i is b →
      ∃ t, exec i s = .next t ∧ FrontGoes s' t is b b.front (if v p n then targetOf is.next d else is.next)) ∧
    (∀ d n p, FrontReady s (.bruNone d n p) is b →
      ∃ t, exec (.bruNone d n p) s = .next t ∧ FrontGoes s' t is b b.front (if v p n then is.next else targetOf is.next d)) ∧
    (∀ d, FrontReady s (.jmp d) is b → ∃ t, exec (.jmp d) s = .next t ∧ FrontGoes s' t is b b.front (targetOf is.next d)) ∧
    (∀ d, FrontReady s (.call d) is b → b.front.stack.length ≠ 32 → ∃ t, exec (.call d) s = .next t ∧
      FrontGoes s' t is b { b.front with stack := is.next :: b.front.stack } (targetOf is.next d)) ∧
    (∀ d, FrontReady s (.call d) is b → b.front.stack.length = 32 → FrontHandled s b → ∃ t, exec (.call d) s = .next t ∧
      FrontTraps s' t is b causeProtect is.g.start 32 1) ∧
    (∀ p ps, FrontReady s .ret is b → b.front.stack = p :: ps → ∃ t, exec .ret s = .next t ∧
      FrontGoes s' t is b { b.front with stack := ps } p) ∧
    (FrontReady s .ret is b → b.front.stack = [] → FrontHandled s b → ∃ t, exec .ret s = .next t ∧
      FrontTraps s' t is b causeProtect is.g.start 0 2) ∧
    let e := is.v.a.toNat % 2 ^ 32
    let u := tabled s' is.core b e
    (∀ x p, FrontReady s (.djmp x) is b → tableTarget s' is.core b 1 e = some p → ∃ t, exec (.djmp x) s = .next t ∧
      FrontGoes u t is b b.front p) ∧
    (∀ x p, FrontReady s (.dcall x) is b → tableTarget s' is.core b 1 e = some p → b.front.stack.length ≠ 32 →
      ∃ t, exec (.dcall x) s = .next t ∧ FrontGoes u t is b { b.front with stack := is.next :: b.front.stack } p)

/-- R180, R106, R190: every member of an EXIT leaves as EXITED; it leaves the expected set of every knot, and the count of every live
barrier at which it has arrived in the current phase, while its arrival at a barrier of explicit mode stays; no thread but the
members changes its status or pc except one whose convergence set is thereby complete. -/
def Obligations.ExitLeavesTheBlock : Prop :=
  ∀ s s₁ is ms b, LaneReady s .exit s₁ is ms → s₁.block is.blk = some b →
    ∃ t b', exec .exit s = .next t ∧ t.block is.blk = some b' ∧
      (∀ m ∈ ms, ∀ th, b.thread m.tlin = some th → ∃ u, b'.thread m.tlin = some u ∧ u.status = .exited ∧ u.regs = th.regs) ∧
      (∀ x th, x ∉ ms.map Member.tlin → b.thread x = some th → ∃ u, b'.thread x = some u ∧ u.pc = th.pc ∧ u.regs = th.regs ∧
        (u.status = th.status ∨ (th.status = .converging ∧ u.status = .ready))) ∧
      (∀ k x, tget b.knots k = some x → tget b'.knots k =
        some { x with expected := x.expected.filter fun e => !(ms.map Member.tlin).contains e }) ∧
      (∀ k x, tget b.bars k = some x → ∃ y, tget b'.bars k = some y ∧
        y = { x with needs := y.needs, count := if x.mode = none then
          x.count - (ms.filter fun m => bit (is.thread s₁ m.tlin).arv k && bit (is.thread s₁ m.tlin).aph k == x.phase).length
          else x.count }) ∧
      t.mem = s₁.mem ∧ ∀ k, k ≠ is.blk → t.block k = s₁.block k

/-- R181 to R185: KTIE adds every member to the knot's expected set and they go on; JOIN adds them to the expected and the arrived
set, records the cycle of the first arrival, and they leave as KNOTTED; KRESET releases the arrived threads after their JOIN and
clears the knot, and its members go on. -/
def Obligations.Knots : Prop :=
  ∀ s s₁ is ms (k : BitVec 4) b, s₁.block is.blk = some b →
    let x := b.knot k.toNat
    let add := fun (l : List Nat) => ms.foldl (fun l m => insertNat l m.tlin) l
    let with_ := fun (y : Knot) => s₁.setBlock is.blk { b with knots := tset b.knots k.toNat y }
    (LaneReady s (.ktie k) s₁ is ms → ∃ t, exec (.ktie k) s = .next t ∧
      Goes (with_ { x with expected := add x.expected }) t is ms fun _ th => th) ∧
    (LaneReady s (.join k) s₁ is ms → ∃ t, exec (.join k) s = .next t ∧
      Leaves (with_ { expected := add x.expected, arrived := add x.arrived, t0 := if x.arrived = [] then b.cycles else x.t0 })
        t is ms fun _ => (.knotted k.toNat, is.g.start)) ∧
    (LaneReady s (.kreset k) s₁ is ms → (∀ m ∈ ms, m.tlin ∉ x.arrived) → x.arrived.Nodup →
      ∃ u t, exec (.kreset k) s = .next t ∧ Goes u t is ms (fun _ th => th) ∧
        u.block is.blk = some { b with threads := ((is.block u).threads), knots := tdel b.knots k.toNat } ∧
        (∀ y ∈ x.arrived, ∀ th, b.thread y = some th → th.status = .knotted k.toNat →
          (is.block u).thread y = some { th with status := .ready, pc := th.pc + 4, age := 0, ring := [], released := true }) ∧
        (∀ y, y ∉ x.arrived → (is.block u).thread y = b.thread y) ∧ u = { s₁ with blocks := u.blocks })

/-! ## Calls, barriers, traps, CSRs -/

/-- R177, R178, R179: CALL and DCALL in a lane store the address of the next group at CSP − 8, which becomes CSP, and go to their
target; where CSP − 8 lies below CSPLO they take PROTECT with DETAIL 1. Here the L1 owns the line of the slot. R177, R178: RET in a
lane reads the address at CSP, here in the L1, and its warp stays at the group for 24 cycles; at CSPHI or above it takes PROTECT with
DETAIL 2. The address then reaches the thread, which goes there, and CSP rises by 8; an odd one is MISALIGN with that address, and
its bits [63:57] are dropped (log 76, the model's choice). -/
def Obligations.CallsAndReturnsInLanes : Prop :=
  (∀ s s₁ is m th i tgt u, Solo s i s₁ is m th →
    ((∃ d, i = .call d ∧ tgt = targetOf is.next d ∧ u = s₁) ∨
      ∃ x, i = .dcall x ∧ tableTarget s₁ is.core (is.block s₁) 0 (m.v.a.toNat % 2 ^ 32) = some tgt ∧
        u = tabled s₁ is.core (is.block s₁) (m.v.a.toNat % 2 ^ 32)) →
    let va := th.csp - 8
    (th.csp.toNat < th.csplo.toNat + 8 → Handled u is (soleTrap is m causeProtect va 1) →
      ∃ t, exec i s = .next t ∧ Traps u t is (soleTrap is m causeProtect va 1)) ∧
    (th.csplo.toNat + 8 ≤ th.csp.toNat → ∀ pa coh l, coh = 0 ∨ coh = 3 → Reaches u is.core (is.block s₁).ctx va 8 8 .store pa coh →
      Unhindered u is.core is.blk (is.block s₁) → tget (u.core is.core).l1 (lineOf pa) = some l → l.coh = coh → l.writable = true →
      ∃ t keep, exec i s = .next t ∧
        GoesTo (withLine { u with nextAcc := u.nextAcc + 1 } is.core (lineOf pa) (stored l pa 8 is.next.toNat)) t is [m]
          (fun _ => tgt) keep fun _ x => { settled x with csp := va })) ∧
  (∀ s s₁ is m th, Solo s .ret s₁ is m th →
    (th.csphi ≤ th.csp → Handled s₁ is (soleTrap is m causeProtect th.csp 2) →
      ∃ t, exec .ret s = .next t ∧ Traps s₁ t is (soleTrap is m causeProtect th.csp 2)) ∧
    (th.csp < th.csphi → ∀ pa coh l v, coh ≠ 2 → Reaches s₁ is.core (is.block s₁).ctx th.csp 8 8 .pop pa coh →
      Unhindered s₁ is.core is.blk (is.block s₁) → tget (s₁.core is.core).l1 (lineOf pa) = some l → Serves l pa 8 coh v →
      tget ((s₁.core is.core).quad is.quad).slots is.slot ≠ none → (is.warp s₁).pops = [] →
      ∃ t, exec .ret s = .next t ∧
        GoesTo { s₁ with nextAcc := s₁.nextAcc + 1 } t is [m] (fun _ => is.g.start) is.g.start (fun _ x => sawLine pa x) ∧
        (is.warp t).from_ = (s₁.core is.core).cycle + 24 ∧ (is.warp t).pops = [(m.tlin, true, BitVec.ofNat 64 v)])) ∧
  ∀ s core quad slot w tlin lane (v : Quad), tget ((s.core core).quad quad).slots slot = some w → w.members = [(tlin, lane)] →
    w.pops = [(tlin, true, v)] → w.from_ ≤ (s.core core).cycle →
    let is := retIssue s core quad slot w
    let m : Member := { tlin := tlin, lane := lane, on := true }
    (bit v 0 = false → GoesTo s (settlePops s core quad slot) is [m] (fun _ => v.truncate 57) (v.truncate 57)
      fun _ x => { x with csp := x.csp + 8 }) ∧
    (bit v 0 = true → Handled s is (soleTrap is m causeMisalign v 0) →
      Traps s (settlePops s core quad slot) is (soleTrap is m causeMisalign v 0))

/-- R187 to R189: BAR.SYNC and BAR.ARRIVE count one arrival, in live mode or with the count given, and set ARV and APH; SYNC leaves as
BARRED. An arrival twice in one phase, with another mode, or with a count of 0 or more than 1,024, is ILLOPND. BAR.WAIT leaves as
BARRED where the thread has not arrived or its phase is still open, else its ARV clears and it is READY behind the word. -/
def Obligations.BarriersInLanes : Prop :=
  ∀ s s₁ is m th (c : BitVec 8) (p : BitVec 5) (k : BitVec 4) b, s₁.block is.blk = some b →
    let j := k.toNat
    let x := b.bar j
    let n := m.v.a.toNat % 2 ^ 32
    let mode : Option Nat := if c = 0x40 then none else some n
    let bad := (c ≠ 0x40 ∧ (n = 0 ∨ 1024 < n)) ∨ (bit th.arv j = true ∧ bit th.aph j = x.phase) ∨ (x.count ≠ 0 ∧ x.mode ≠ mode)
    let arrived := fun (wait : Bool) => judgeBarriers (s₁.setBlock is.blk
      { b with
        threads := tmod b.threads m.tlin fun u => { u with arv := withBit u.arv j true, aph := withBit u.aph j x.phase }
        bars := tset b.bars j { x with
          count := x.count + 1
          mode := if x.count = 0 then mode else x.mode
          t0 := if x.count = 0 then b.cycles else x.t0
          path := if x.count = 0 then p else x.path ||| p
          needs := if x.count = 0 then none else x.needs
          ids := x.ids ++ releasedBy s₁ is.blk (some m.tlin)
          waiters := if wait then insertNat x.waiters m.tlin else x.waiters } }) is.blk is.core
    let waits := fun (y : Barrier) => s₁.setBlock is.blk { b with bars := tset b.bars j y }
    (Solo s (.barSync c p k) s₁ is m th → ¬bad → ∃ t, exec (.barSync c p k) s = .next t ∧
      Leaves (arrived true) t is [m] fun _ => (.barred j, is.g.start)) ∧
    (Solo s (.barArrive c p k) s₁ is m th → ¬bad → ∃ t, exec (.barArrive c p k) s = .next t ∧
      Goes (arrived false) t is [m] fun _ u => u) ∧
    (∀ i, i = .barSync c p k ∨ i = .barArrive c p k → Solo s i s₁ is m th → bad → Handled s₁ is (soleTrap is m causeIllopnd 0 0) →
      ∃ t, exec i s = .next t ∧ Traps (judgeBarriers s₁ is.blk is.core) t is (soleTrap is m causeIllopnd 0 0)) ∧
    (Solo s (.barWait p k) s₁ is m th →
      (bit th.arv j = false → ∃ t, exec (.barWait p k) s = .next t ∧
        Leaves (waits { x with waiters := insertNat x.waiters m.tlin }) t is [m] fun _ => (.barred j, is.g.start)) ∧
      (bit th.arv j = true → bit th.aph j = x.phase → ∃ t, exec (.barWait p k) s = .next t ∧
        Leaves (waits { x with waiters := insertNat x.waiters m.tlin, clear := insertNat x.clear m.tlin }) t is [m]
          fun _ => (.barred j, is.g.start)) ∧
      (bit th.arv j = true → bit th.aph j ≠ x.phase → ∃ t, exec (.barWait p k) s = .next t ∧
        Leaves (s₁.modThread is.blk m.tlin fun u => { u with arv := withBit u.arv j false }) t is [m] fun _ => (.ready, is.next)))

/-- R199, R200, R337: TRAP takes USER at the next group with its operand in TADDR, and BKPT takes BKPT at its own group, in every member
whose guard is true and in front code. -/
def Obligations.SoftwareTraps : Prop :=
  (∀ x s s₁ is ms, LaneReady s (.trap x) s₁ is ms →
    let trap := fun (m : Member) => some ⟨m.tlin, causeUser, is.next, BitVec.ofNat 64 (m.v.a.toNat % 2 ^ 32), 0, none⟩
    (collected ms trap ≠ [] → Handled s₁ is (collected ms trap)) →
    ∃ t, exec (.trap x) s = .next t ∧ Splits s₁ t is ms trap (fun _ th => th) fun _ th => th) ∧
  (∀ s s₁ is ms, LaneReady s .bkpt s₁ is ms →
    let trap := fun (m : Member) => some ⟨m.tlin, causeBkpt, is.g.start, 0, 0, none⟩
    (collected ms trap ≠ [] → Handled s₁ is (collected ms trap)) →
    ∃ t, exec .bkpt s = .next t ∧ Splits s₁ t is ms trap (fun _ th => th) fun _ th => th) ∧
  (∀ x s is b, FrontReady s (.trap x) is b → FrontHandled s b →
    ∃ t, exec (.trap x) s = .next t ∧ FrontTraps (closeGroup s) t is b causeUser is.next is.v.a 0) ∧
  (∀ s is b, FrontReady s .bkpt is b → FrontHandled s b →
    ∃ t, exec .bkpt s = .next t ∧ FrontTraps (closeGroup s) t is b causeBkpt is.g.start 0 0)

/-- R201, R173, R202, R336: RETT goes to TPC, or to TCHAIN where TSTAT.CR is 1, and clears IH and CR; outside a handler it is ILLEGAL. An odd
target is MISALIGN, which, raised with IH = 1, is fatal: the context stops, and the launch reports it. Of the target only bits
[56:0] count (log 76, DESIGN CHOICE). -/
def Obligations.ReturnFromTheHandler : Prop :=
  let target := fun (r : TrapRegs) => if bit r.tstat 1 then r.tchain else r.tpc
  (∀ s s₁ is ms, LaneReady s .rett s₁ is ms → (∀ m ∈ ms, m.on = true) →
    let r := fun (m : Member) => (is.thread s₁ m.tlin).trap
    (∀ m ∈ ms, bit (r m).tstat 0 = true ∧ bit (target (r m)) 0 = false) →
    ∃ t keep, exec .rett s = .next t ∧
      GoesTo s₁ t is ms (fun m => (target (r m)).truncate 57) keep fun _ u => { u with trap := { u.trap with tstat := 0 } }) ∧
  (∀ s s₁ is m th, Solo s .rett s₁ is m th → bit th.trap.tstat 0 = false → Handled s₁ is (soleTrap is m causeIllegal 0 0) →
    ∃ t, exec .rett s = .next t ∧ Traps s₁ t is (soleTrap is m causeIllegal 0 0)) ∧
  (∀ s is b, FrontReady s .rett is b → bit b.front.trap.tstat 0 = true → bit (target b.front.trap) 0 = false →
    ∃ t, exec .rett s = .next t ∧ FrontGoes (closeGroup s) t is b { b.front with trap := { b.front.trap with tstat := 0 } }
      ((target b.front.trap).truncate 57)) ∧
  (∀ s is b, FrontReady s .rett is b → bit b.front.trap.tstat 0 = false → FrontHandled s b →
    ∃ t, exec .rett s = .next t ∧ FrontTraps (closeGroup s) t is b causeIllegal is.g.start 0 0) ∧
  (∀ s s₁ is m th b, Solo s .rett s₁ is m th → s₁.block is.blk = some b → bit th.trap.tstat 0 = true → bit (target th.trap) 0 = true →
    let rs := soleTrap is m causeMisalign (target th.trap) 0
    Unhandled s₁ b rs → ∃ t, exec .rett s = .next t ∧ Stops s₁ t b (laneReport b rs)) ∧
  (∀ s is b, FrontReady s .rett is b → bit b.front.trap.tstat 0 = true → bit (target b.front.trap) 0 = true → FrontUnhandled s b →
    ∃ t, exec .rett s = .next t ∧ Stops s t b (frontReport b causeMisalign is.g.start (target b.front.trap) 0))

/-- R202, R337, R429, R430: a trap with TVEC 0, or in a handler, stops the context: it is marked stopped, none of its blocks stays resident
or swapped out, every launch of it that ran is done with the code of a fatal fault, 3, and the launch of the trap has the record of
the fault. Stated for every decode trap of any word, for TRAP and BKPT, and for division by 0; and in front code, where FTVEC 0 or
IH stops it, for the same. -/
def Obligations.FatalTrapStopsTheContext : Prop :=
  (∀ s i is b cause, isPrefix i = false → encode i ≠ none → findIssue s i = some is → (gathered s is).block is.blk = some b →
    decodeTrap false ((gathered s is).launchOf (is.block (gathered s is))).regsPer is.g i is.q = some cause →
    let rs := allTrap (gathered s is) is cause
    Unhandled (gathered s is) b rs → ∃ t, exec i s = .next t ∧ Stops (gathered s is) t b (laneReport b rs)) ∧
  (∀ i s s₁ is ms b (trap : Issue → Member → Option TrapReq), s₁.block is.blk = some b → LaneReady s i s₁ is ms →
    (i = .bkpt ∧ trap = fun is m => some ⟨m.tlin, causeBkpt, is.g.start, 0, 0, none⟩) ∨
    (∃ x, i = .trap x ∧ trap = fun is m => some ⟨m.tlin, causeUser, is.next, BitVec.ofNat 64 (m.v.a.toNat % 2 ^ 32), 0, none⟩) ∨
    (divided (w := 32) i 0 0 ≠ none ∧ trap = fun is m =>
      if (m.v.b.truncate 32 : Word) = 0 then some ⟨m.tlin, causeIdivz, is.g.start, 0, 0, none⟩ else none) →
    let rs := collected ms (trap is)
    Unhandled s₁ b rs → ∃ t, exec i s = .next t ∧ Stops s₁ t b (laneReport b rs)) ∧
  (∀ s i is b cause, isPrefix i = false → encode i ≠ none → findFront s i = some is → s.block is.blk = some b → b.front.late = none →
    decodeTrap true 64 is.g i is.q = some cause → FrontUnhandled s b →
    ∃ t, exec i s = .next t ∧ Stops s t b (frontReport b cause is.g.start 0 0)) ∧
  (∀ s is b, FrontUnhandled s b →
    (FrontReady s .bkpt is b → ∃ t, exec .bkpt s = .next t ∧ Stops s t b (frontReport b causeBkpt is.g.start 0 0)) ∧
    (∀ x, FrontReady s (.trap x) is b → ∃ t, exec (.trap x) s = .next t ∧ Stops s t b (frontReport b causeUser is.next is.v.a 0)) ∧
    (∀ i, divided (w := 32) i 0 0 ≠ none → FrontReady s i is b → is.v.b = 0 →
      ∃ t, exec i s = .next t ∧ Stops s t b (frontReport b causeIdivz is.g.start 0 0)))

/-- R203, R335: SLEEP leaves a lane as WAITING, and a front thread as STALLED, behind the word, until the block has been resident for as
many cycles more as its operand says. -/
def Obligations.SleepWaits : Prop :=
  (∀ x s s₁ is ms, LaneReady s (.sleep x) s₁ is ms → (∀ m ∈ ms, m.on = true) → ∃ t, exec (.sleep x) s = .next t ∧
    Leaves s₁ t is ms fun m => (.waiting (.sleep ((is.block s₁).cycles + m.v.a.toNat % 2 ^ 32)), is.next)) ∧
  (∀ x s is b, FrontReady s (.sleep x) is b → ∃ t, exec (.sleep x) s = .next t ∧
    FrontGoes (closeGroup s) t is b { b.front with status := .stalled (.sleep (b.cycles + is.v.a.toNat % 2 ^ 32)) } is.next)

/-- R204, R205, R143: CSRR writes the register of its number to the destination, in lanes and in front code; the trap registers, the
stack registers, TRAPEN and FCTL are the thread's own. FLGR reads FLG. R204, R205, R201, R143: CSRW writes TPC, where it also clears TSTAT.CR, CSP, TRAPEN, FCTL and, a 1 clearing a bit, DCONF in lanes;
TPC, KNOTTMO, BARLIM and DCONF in front code; a write to another register changes nothing. FLGC clears the flags that its operand
names. -/
def Obligations.ControlRegisters : Prop :=
  ((∀ c d s s₁ is ms, LaneReady s (.csrr c d) s₁ is ms → ∃ t, exec (.csrr c d) s = .next t ∧ Goes s₁ t is ms fun _ th =>
    writeResult (shape (.csrr c d)) th (BitVec.ofNat 64 (laneCsr s₁ (is.block s₁) is.core th c.toNat))) ∧
  (∀ s b core (t : Thread), let v := laneCsr s b core t
    [v 0, v 1, v 2, v 3, v 4, v 5, v 8, v 9, v 10, v 0x10, v 0x11] = [t.trap.tcause.toNat, t.trap.tpc.toNat, t.trap.taddr.toNat,
      t.trap.tinfo.toNat, t.trap.tstat.toNat, t.trap.tchain.toNat, t.csp.toNat, t.csplo.toNat, t.csphi.toNat, t.trapen.toNat,
      t.fctl.toNat] ∧
    [v 6, v 7, v 0x18, v 0x19, v 0x30, v 0x48, v 0x49] = [(s.ctxOf b).tvec.toNat, (s.ctxOf b).ftvec.toNat, b.knottmo.toNat,
      b.barlim.toNat, (s.core core).cycle % 2 ^ 64, (s.launchOf b).dconf.toNat, (s.launchOf b).dcaddr.toNat] ∧
    (∀ j, j < 16 → v (0x20 + j) = (t.trap.tlist.getD j 0).toNat) ∧
    ∀ p, b.place = some p → v 0x40 = p.fcx * 2 ^ 19 + p.bslot * 2 ^ 16 + p.quad * 2 ^ 8 + p.core) ∧
  (∀ c d s is b, FrontReady s (.csrr c d) is b → ∃ t, exec (.csrr c d) s = .next t ∧ FrontGoes (closeGroup s) t is b
    (writeFront (shape (.csrr c d)) b.front (BitVec.ofNat 64 (frontCsr (closeGroup s) b is.core c.toNat))) is.next) ∧
  (∀ d s s₁ is ms, LaneReady s (.flgr d) s₁ is ms → ∃ t, exec (.flgr d) s = .next t ∧ Goes s₁ t is ms fun _ th =>
    writeResult (shape (.flgr d)) th (th.flg.zeroExtend 64))) ∧
  ((∀ c x s s₁ is m th, Solo s (.csrw c x) s₁ is m th → ∃ t, exec (.csrw c x) s = .next t ∧
    Goes (if c = 0x48 then dconfWritten s₁ (is.block s₁).launch m.v.a else s₁) t is [m] fun _ u => laneCsrWritten c m.v.a u) ∧
  (∀ c x s is b, FrontReady s (.csrw c x) is b →
    let b' := frontCsrWritten c is.v.a b
    let u := if c = 0x48 then dconfWritten (closeGroup s) b.launch is.v.a else closeGroup s
    ∃ t, exec (.csrw c x) s = .next t ∧ FrontGoes (u.setBlock is.blk b') t is b' b'.front is.next) ∧
  (∀ x s s₁ is ms, LaneReady s (.flgc x) s₁ is ms → ∃ t, exec (.flgc x) s = .next t ∧ Goes s₁ t is ms fun m th =>
    { th with flg := th.flg &&& ~~~(m.v.a.truncate 5) }))

/-! ## Global memory -/

/-- R217 to R219, R227 to R229, R264: a load in a lane. Where the L1 holds the bytes, they reach the destination registers, sign-extended
where the size says so. Else, with a free miss-status entry, a request leaves: for a copy of the line, or, at COH 10 and for an
ordered load of COH 01, for the value at the home; the registers are pending, and the thread goes on. The halves of a b128 load may
instead be two loads (log 5, DESIGN CHOICE). -/
def Obligations.LoadsInLanes : Prop :=
  ∀ s s₁ is m th o z sc r a d pa coh, Solo s (.ld o z sc r a d) s₁ is m th →
    let n := sizeBytes z.toNat
    let k := Sig.sizeRegs z.toNat
    let va := th.pair a.toNat + offsetOf is.g o n
    let line := lineOf pa
    let core := s₁.core is.core
    let far := coh = 2 ∨ (coh = 1 ∧ r = 1 ∧ scopeOf is.g sc ≠ 0)
    let x := { accOf s₁ is m .load va pa coh n with
      scope := scopeOf is.g sc, acq := r = 1, dest := some ⟨d.toNat, k, 5 ≤ z.toNat⟩ }
    let u := accessed s₁ is.core
    Reaches s₁ is.core (is.block s₁).ctx va n n .load pa coh → Unhindered s₁ is.core is.blk (is.block s₁) →
    (splits s₁ n → hasEntry core line = true ∨ entryFree core = true → ∃ t es, exec (.ld o z sc r a d) s = .next t ∧
      (es = [] ∨ es = [{ line := line }]) ∧ Goes (engaged (halved s₁ is.core x es) is.core 1) t is [m] fun _ => awaits d.toNat k) ∧
    (¬splits s₁ n →
    (¬far → ∀ l v, tget core.l1 line = some l → Serves l pa n coh v → ∃ t, exec (.ld o z sc r a d) s = .next t ∧
      Goes (acquired u is.blk (r = 1)) t is [m] fun _ => loadInto d.toNat k (if 5 ≤ z.toNat then (sext (8 * n) v).toNat else v) pa) ∧
    (hasEntry core line = false → entryFree core = true →
      (¬far → tget core.l1 line = none → .readShared is.core line coh ∉ (asking u is.core line coh).net →
        ∃ t, exec (.ld o z sc r a d) s = .next t ∧
          Goes (requested (asking u is.core line coh) is.core x (.readShared is.core line coh)) t is [m] fun _ => awaits d.toNat k) ∧
      (far → (∀ l, tget core.l1 line = some l → l.coh = coh) → ∃ t, exec (.ld o z sc r a d) s = .next t ∧
        Goes (requested u is.core x (.readHome is.core x)) t is [m] fun _ => awaits d.toNat k)))

/-- R217, R218, R229, R254, R257, R264: a store in a lane writes the low bytes of its data registers. In a line that the core owns, and in
a COH 01 line, which the L1 allocates where it lacks it, the bytes become valid and dirty; where the core does not own the line, a
COH 00 or 11 store waits in the core's queue while ownership is asked for; at COH 10, and for a release store beyond the block at
COH 01, whose bytes stay in the line clean, they travel to the home. The halves of a b128 store may instead be two stores (log 5,
DESIGN CHOICE). -/
def Obligations.StoresInLanes : Prop :=
  ∀ s s₁ is m th o z sc r a d pa coh, Solo s (.st o z sc r a d) s₁ is m th →
    let n := sizeBytes z.toNat
    let va := th.pair a.toNat + offsetOf is.g o n
    let v := th.regsNum d.toNat (Sig.sizeRegs z.toNat) % 2 ^ (8 * n)
    let line := lineOf pa
    let core := s₁.core is.core
    let x := { accOf s₁ is m .store va pa coh n with scope := scopeOf is.g sc, rel := r = 2, data := BitVec.ofNat 128 v }
    Reaches s₁ is.core (is.block s₁).ctx va n n .store pa coh → Unhindered s₁ is.core is.blk (is.block s₁) →
    let out := r = 2 ∧ scopeOf is.g sc ≠ 0
    let fresh : L1Line := { coh := 1, filled := core.cycle }
    (out → releasable s₁ is.blk s₁.nextAcc = true) →
    (splits s₁ n → hasEntry core line = true ∨ entryFree core = true → ∃ t es, exec (.st o z sc r a d) s = .next t ∧
      (es = [] ∨ es = [{ line := line }]) ∧ Goes (engaged (halved s₁ is.core x es) is.core 1) t is [m] fun _ => settled) ∧
    (¬splits s₁ n →
    (∀ l, tget core.l1 line = some l → l.coh = coh → ((coh = 1 ∧ ¬out) ∨ ((coh = 0 ∨ coh = 3) ∧ l.writable = true)) →
      ∃ t, exec (.st o z sc r a d) s = .next t ∧
        Goes (withLine (accessed s₁ is.core) is.core line (if coh = 1 then storedSelf l pa n v else stored l pa n v)) t is [m]
          fun _ => settled) ∧
    (coh = 1 → ¬out → tget core.l1 line = none → (l1Set core line).length < 16 → ∃ t, exec (.st o z sc r a d) s = .next t ∧
      Goes (withLine (accessed s₁ is.core) is.core line (storedSelf fresh pa n v)) t is [m] fun _ => settled) ∧
    (hasEntry core line = false → entryFree core = true →
      (coh = 1 → out → (∀ l, tget core.l1 line = some l → l.coh = 1) → ((tget core.l1 line).isSome = true ∨ (l1Set core line).length < 16) →
        ∃ t, exec (.st o z sc r a d) s = .next t ∧
          Goes (refill (withLine (requested (accessed s₁ is.core) is.core x (.writeHome is.core x)) is.core line
            (through ((tget core.l1 line).getD fresh) pa n v)) is.core (· = line)) t is [m] fun _ => settled) ∧
      (coh = 0 ∨ coh = 3 → (∀ l, tget core.l1 line = some l → l.coh = coh ∧ l.writable = false) → .ownership is.core line ∉ s₁.net →
        ∃ t, exec (.st o z sc r a d) s = .next t ∧
        Goes { ((accessed s₁ is.core).modCore is.core fun c => { c with
            entries := c.entries ++ [{ line := line }]
            stores := [⟨line, byteMask (pa % 128) n, BitVec.ofNat 1024 (v * 2 ^ (8 * (pa % 128))), x⟩] })
          with net := s₁.net ++ [.ownership is.core line] } t is [m] fun _ => settled) ∧
      (coh = 2 → (∀ l, tget core.l1 line = some l → l.coh = 2) → ∃ t, exec (.st o z sc r a d) s = .next t ∧
        Goes (requested (accessed s₁ is.core) is.core x (.writeHome is.core x)) t is [m] fun _ => settled)))

/-- R231, R268, R287: an atomic and a reduction in a lane. At block scope on a line that the core holds, writable at COH 00 and 11, the
L1 performs it: the new value is stored, or waits in the core's queue of stores while another place may perform an atomic (log 4, the
model's choice), and an atomic's destination gets the old one. At a wider scope, and at COH 10, it travels
to the home, or at cluster scope and COH 00 or 11 to the cluster's atomic unit; an atomic's destination is pending. R231: the values of the integer atomics on 32 and 64 bits: a sum, a signed or unsigned minimum or maximum, the logic operations, an
exchange, a compare and swap, and the wrapping increment and decrement of an unsigned word. -/
def Obligations.Atomics : Prop :=
  (∀ s s₁ is m th i (ret : Bool) (ty : BitVec 3) (op : BitVec 4) sc r a d pa coh,
    (i = if ret then .atom ty op sc r a d else .red ty op sc r a d) → Solo s i s₁ is m th →
    let n := if Sig.atomWide ty.toNat then 8 else 4
    let k := Sig.atomRet ty.toNat
    let va := th.pair a.toNat + offsetOf is.g 0 n
    let kind := if ret then AccKind.atomic op.toNat ty.toNat else .reduce op.toNat ty.toNat
    let line := lineOf pa
    let core := s₁.core is.core
    let w := th.regsNum d.toNat (Sig.atomData ty.toNat op.toNat) % 2 ^ 128
    let scope := scopeOf is.g sc
    let x := { accOf s₁ is m kind va pa coh n with
      scope := scope, acq := r = 1 ∨ r = 3, rel := r = 2 ∨ r = 3, data := BitVec.ofNat 128 w
      dest := if ret then some ⟨d.toNat, k, false⟩ else none }
    let after := fun (th : Thread) => if ret then awaits d.toNat k th else settled th
    let u := accessed s₁ is.core
    Reaches s₁ is.core (is.block s₁).ctx va n n kind pa coh → Unhindered s₁ is.core is.blk (is.block s₁) →
    ((r = 2 ∨ r = 3) → scope = 0 ∨ releasable s₁ is.blk s₁.nextAcc = true) →
    (scope = 0 → coh ≠ 2 → ∀ l old, tget core.l1 line = some l → Serves l pa n coh old → (coh = 1 ∨ l.writable = true) →
      let new := atomicNew op.toNat ty.toNat old (w % 2 ^ (8 * n)) (w / 2 ^ (8 * n) % 2 ^ (8 * n))
      let done := withLine u is.core line (if ret && coh = 1 then storedSelf l pa n (new % 2 ^ 128) else stored l pa n (new % 2 ^ 128))
      let waiting := u.modCore is.core fun c => { c with stores := [⟨line, byteMask (pa % 128) n,
        BitVec.ofNat 1024 (new % 2 ^ 128 * 2 ^ (8 * (pa % 128))), { x with data := BitVec.ofNat 128 new }⟩] }
      ∃ t, exec i s = .next t ∧
        Goes (acquired (if coh ≠ 1 ∧ Config.splitAtomic s₁.now = true then waiting else done) is.blk (ret && (r = 1 || r = 3))) t is [m]
          fun _ => if ret then loadInto d.toNat k old pa else settled) ∧
    ((scope ≠ 0 ∨ coh = 2) → tget core.l1 line = none → hasEntry core line = false → entryFree core = true →
      let msg := if scope = 1 ∧ (coh = 0 ∨ coh = 3) then Msg.clusterAtomic is.core x else .atomic is.core x
      ∃ t, exec i s = .next t ∧ Goes (refill (requested u is.core x msg) is.core (· = line)) t is [m] fun _ => after)) ∧
  ((∀ (a b c : Word), let f := fun op ty => atomicNew op ty a.toNat b.toNat c.toNat
    f 0 0 = (a + b).toNat ∧ f 0 1 = (a + b).toNat ∧ f 3 1 = (a &&& b).toNat ∧ f 4 1 = (a ||| b).toNat ∧ f 5 1 = (a ^^^ b).toNat ∧
    f 6 1 = b.toNat ∧ f 7 1 = (if a = b then c else a).toNat ∧
    f 1 0 = (if b.slt a then b else a).toNat ∧ f 2 0 = (if a.slt b then b else a).toNat ∧
    f 1 1 = (if b.ult a then b else a).toNat ∧ f 2 1 = (if a.ult b then b else a).toNat ∧
    f 8 1 = (if b.ule a then 0 else a + 1).toNat ∧ f 9 1 = (if a = 0 ∨ b.ult a then b else a - 1).toNat) ∧
  (∀ (a b c : Quad), let f := fun op ty => atomicNew op ty a.toNat b.toNat c.toNat
    f 0 2 = (a + b).toNat ∧ f 0 3 = (a + b).toNat ∧ f 3 3 = (a &&& b).toNat ∧ f 4 3 = (a ||| b).toNat ∧ f 5 3 = (a ^^^ b).toNat ∧
    f 6 3 = b.toNat ∧ f 7 3 = (if a = b then c else a).toNat ∧
    f 1 2 = (if b.slt a then b else a).toNat ∧ f 2 2 = (if a.slt b then b else a).toNat ∧
    f 1 3 = (if b.ult a then b else a).toNat ∧ f 2 3 = (if a.ult b then b else a).toNat))

/-- R250, R220, R437, R440, R442: an access in a lane that is misaligned, lies at 2^57 or above, meets a Lashing entry, or whose page
refuses it takes MISALIGN, PROTECT with DETAIL 3, LASHED, or PROTECT with the page's DETAIL, in this order, and has no effect. One that
misses the TLB walks: the page may refuse it so too; a recoverable fault puts it into the quadrant's log and raises a fault record,
or with the log full leaves the thread WAITING at the group; else the access is pending and its walk is under way. In both cases
the thread goes on, its destination pending; R442 limits it for a logged access alone. That a miss is judged at once, and that the
thread goes on while its walk pends, is log 57 (DEDUCED); which records join is log 42 (DEDUCED). -/
def Obligations.AccessChecksInLanes : Prop :=
  ∀ s s₁ is m th i k va n, Solo s i s₁ is m th → globalAccess i th is.g = some (k, va, n) →
    let u := engaged s₁ is.core 0
    let ctx := (is.block s₁).ctx
    let q := (s₁.core is.core).quad is.quad
    let walk := translate s₁ ctx k.accessMode va.toNat
    let mine := fun (a : Acc) => a.blk = is.blk ∧ a.who = some m.tlin ∧ a.va = va ∧ a.size = n ∧ a.kind = k ∧ a.grp = is.g.start ∧
      a.id = s₁.nextAcc
    let lash := lashedBy (s₁.core is.core) (.global ctx va.toNat (va.toNat + n)) k.writes
    let tlb := translateTlb s₁ (s₁.core is.core).dtlb ctx k.accessMode va.toNat
    let takes := fun (c : BitVec 8) (d : Nat) => Handled s₁ is (soleTrap is m c va d) →
      ∃ t, exec i s = .next t ∧ Traps u t is (soleTrap is m c va d)
    (va.toNat % n ≠ 0 → takes causeMisalign 0) ∧
    (va.toNat % n = 0 → 2 ^ 57 ≤ va.toNat → takes causeProtect 3) ∧
    (va.toNat % n = 0 → va.toNat < 2 ^ 57 → ∀ e, lash = some e → takes causeLashed (e + (if k.writes then 32 else 0))) ∧
    (va.toNat % n = 0 → va.toNat < 2 ^ 57 → lash = none → ∀ d, tlb = .protect d → takes causeProtect d) ∧
    (va.toNat % n = 0 → va.toNat < 2 ^ 57 → lash = none → tlb = .miss →
      (∀ d, walk = .protect d → Handled s₁ is (soleTrap is m causeProtect va d) →
        ∃ t, exec i s = .next t ∧ Traps (fillWalkCache u ctx va.toNat) t is (soleTrap is m causeProtect va d)) ∧
      (∀ cause level, walk = .fault cause level →
        (64 ≤ q.log.length → ∃ t, exec i s = .next t ∧
          Leaves (fillWalkCache u ctx va.toNat) t is [m] fun _ => (.waiting .logFull, is.g.start)) ∧
        (q.log.length < 64 → ∃ t a, exec i s = .next t ∧ mine a ∧
          Goes (raiseFault ({ fillWalkCache u ctx va.toNat with nextAcc := s₁.nextAcc + 1 }.modQuad is.core is.quad fun q => { q with log := q.log ++ [a] })
            ctx va.toNat (if k.writes then 2 else 1) cause level (.acc is.core is.quad a)) t is [m] fun _ => heldBack a)) ∧
      (∀ pa coh, walk = .ok pa coh → ∃ t w, exec i s = .next t ∧ w.core = is.core ∧ w.quad = is.quad ∧ w.next = is.next ∧
        w.on = true ∧ mine w.acc ∧ w.acc.pa = pa ∧ w.acc.coh = coh ∧ w.acc.walking = true ∧
        (¬splits s₁ n → Goes { ((accessed s₁ is.core).modCore is.core fun c => { c with pend := c.pend ++ [w.acc] }) with
          walks := s₁.walks ++ [w] } t is [m] fun _ => translating w.acc) ∧
        (splits s₁ n → Goes { engaged (halved s₁ is.core w.acc []) is.core 1 with
          walks := s₁.walks ++ (w.acc.halves s₁.now).map fun a => { w with acc := a } } t is [m] fun _ => translating w.acc)))

/-- R217, R229, R231, R257, R335: loads, stores, atomics and reductions of the front thread, in the same cases. A load or atomic that the L1
serves writes its register; one whose request leaves stalls the thread; a store or reduction goes on, and a store to a line that the
core does not own waits in its queue while ownership is asked for. Where another place may come between an L1 atomic's read and its
write is log 4 (DESIGN CHOICE). -/
def Obligations.AccessesInFrontCode : Prop :=
  ∀ s is b pa coh, let s' := closeGroup s
    let u := { s' with nextAcc := s'.nextAcc + 1 }
    let core := s'.core is.core
    let line := lineOf pa
    let clear := { b.front with rejects := 0 }
    let saw := { clear with readSet := insertNat b.front.readSet line }
    let run := fun (f : Front) => { f with status := if f.status = .done then .done else .run }
    let acc := fun (k : AccKind) (va : Quad) (n : Nat) => frontAccOf s' is k va pa coh n
    Unhindered s' is.core is.blk b →
    (∀ o z sc r a d, FrontReady s (.ld o z sc r a d) is b →
      let n := sizeBytes z.toNat
      let va := b.front.reg a.toNat + offsetOf is.g o n
      let far := coh = 2 ∨ (coh = 1 ∧ r = 1 ∧ scopeOf is.g sc ≠ 0)
      let x := { acc .load va n with scope := scopeOf is.g sc, acq := r = 1, dest := some ⟨d.toNat, 1, 5 ≤ z.toNat⟩ }
      Reaches s' is.core b.ctx va n n .load pa coh →
      (¬far → ∀ l v, tget core.l1 line = some l → Serves l pa n coh v → ∃ t, exec (.ld o z sc r a d) s = .next t ∧
        FrontGoes (acquired u is.blk (r = 1)) t is b
          (run (saw.setReg d.toNat (if 5 ≤ z.toNat then sext (8 * n) v else BitVec.ofNat 64 v))) is.next) ∧
      (hasEntry core line = false → entryFree core = true →
        (¬far → tget core.l1 line = none → .readShared is.core line coh ∉ (asking u is.core line coh).net →
          ∃ t, exec (.ld o z sc r a d) s = .next t ∧
            FrontGoes (requested (asking u is.core line coh) is.core x (.readShared is.core line coh)) t is b
              { clear with status := .stalled .load } is.next) ∧
        (far → (∀ l, tget core.l1 line = some l → l.coh = coh) → ∃ t, exec (.ld o z sc r a d) s = .next t ∧
          FrontGoes (requested u is.core x (.readHome is.core x)) t is b { clear with status := .stalled .load } is.next))) ∧
    (∀ o z sc r a d, FrontReady s (.st o z sc r a d) is b →
      let n := sizeBytes z.toNat
      let va := b.front.reg a.toNat + offsetOf is.g o n
      let v := (b.front.reg d.toNat).toNat % 2 ^ (8 * n)
      let x := { acc .store va n with scope := scopeOf is.g sc, rel := r = 2, data := BitVec.ofNat 128 v }
      Reaches s' is.core b.ctx va n n .store pa coh → (r = 2 → scopeOf is.g sc = 0 ∨ (coh ≠ 1 ∧ releasable s' is.blk s'.nextAcc = true)) →
      (∀ l, tget core.l1 line = some l → l.coh = coh → coh = 1 ∨ ((coh = 0 ∨ coh = 3) ∧ l.writable = true) →
        ∃ t, exec (.st o z sc r a d) s = .next t ∧
          FrontGoes (withLine u is.core line (if coh = 1 then storedSelf l pa n v else stored l pa n v)) t is b clear is.next) ∧
      (coh = 0 ∨ coh = 3 → (∀ l, tget core.l1 line = some l → l.coh = coh ∧ l.writable = false) → .ownership is.core line ∉ s'.net →
        hasEntry core line = false → entryFree core = true → ∃ t, exec (.st o z sc r a d) s = .next t ∧
          FrontGoes { (u.modCore is.core fun c => { c with
              entries := c.entries ++ [{ line := line }]
              stores := [⟨line, byteMask (pa % 128) n, BitVec.ofNat 1024 (v * 2 ^ (8 * (pa % 128))), x⟩] })
            with net := s'.net ++ [.ownership is.core line] } t is b clear is.next) ∧
      (coh = 2 → (∀ l, tget core.l1 line = some l → l.coh = 2) → hasEntry core line = false → entryFree core = true →
        ∃ t, exec (.st o z sc r a d) s = .next t ∧
          FrontGoes (requested u is.core x (.writeHome is.core x)) t is b clear is.next)) ∧
    (∀ i (ret : Bool) (ty : BitVec 3) (op : BitVec 4) sc r a d, (i = if ret then .atom ty op sc r a d else .red ty op sc r a d) →
      FrontReady s i is b →
      let n := if Sig.atomWide ty.toNat then 8 else 4
      let va := b.front.reg a.toNat + offsetOf is.g 0 n
      let kind := if ret then AccKind.atomic op.toNat ty.toNat else .reduce op.toNat ty.toNat
      let w := (frontOperand b.front d.toNat ty.toNat op.toNat).toNat
      let scope := scopeOf is.g sc
      let x := { acc kind va n with
        scope := scope, acq := r = 1 ∨ r = 3, rel := r = 2 ∨ r = 3, data := BitVec.ofNat 128 w
        dest := if ret then some ⟨d.toNat, 1, ty = 0⟩ else none }
      Reaches s' is.core b.ctx va n n kind pa coh → ((r = 2 ∨ r = 3) → scope = 0 ∨ releasable s' is.blk s'.nextAcc = true) →
      (scope = 0 → coh ≠ 2 → ∀ l old, tget core.l1 line = some l → Serves l pa n coh old → (coh = 1 ∨ l.writable = true) →
        let new := atomicNew op.toNat ty.toNat old (w % 2 ^ (8 * n)) (w / 2 ^ (8 * n) % 2 ^ (8 * n))
        let done := withLine u is.core line (if ret && coh = 1 then storedSelf l pa n (new % 2 ^ 128) else stored l pa n (new % 2 ^ 128))
        let waiting := u.modCore is.core fun c => { c with stores := [⟨line, byteMask (pa % 128) n,
          BitVec.ofNat 1024 (new % 2 ^ 128 * 2 ^ (8 * (pa % 128))), { x with data := BitVec.ofNat 128 new }⟩] }
        ∃ t, exec i s = .next t ∧
          FrontGoes (acquired (if coh ≠ 1 ∧ Config.splitAtomic s'.now = true then waiting else done) is.blk (ret && (r = 1 || r = 3))) t is b
            (if ret then run (saw.setReg d.toNat (if ty = 0 then sext (8 * n) old else BitVec.ofNat 64 old)) else clear) is.next) ∧
      ((scope ≠ 0 ∨ coh = 2) → tget core.l1 line = none → hasEntry core line = false → entryFree core = true →
        let msg := if scope = 1 ∧ (coh = 0 ∨ coh = 3) then Msg.clusterAtomic is.core x else .atomic is.core x
        ∃ t, exec i s = .next t ∧ FrontGoes (refill (requested u is.core x msg) is.core (· = line)) t is b
          (if ret then { clear with status := .stalled .load } else clear) is.next))

/-- R25, R233, R234, R264 to R266, R371: FENCE lets the members of a warp go on at once where every one's conditions hold; else the warp
keeps its slot and waits. Its acquire part keeps copies of COH 01 lines that are on their way out of the core's L1, and a FENCE.ar starts
a new read set. A load, store or atomic with an ordering whose members the guard turns off does the same. DRAIN waits for the commands
of its path that the core has then. In front code a FENCE or DRAIN stalls until then, and a DRAIN takes the fault that is recorded on
its path, and clears the record. A FENCE that is guarded off does nothing (log 94, DESIGN CHOICE). R232, R235: PREF asks for a copy of
a line that is in neither the L1 nor on its way, or at level 1 for the line in its home's slice, and drops a request that it cannot
make; WBR and INVR write the dirty bytes of every COH 01 line of their range back to their homes and INVR drops the lines, a
block-scope one doing nothing; the same in front code. None of them changes a register. -/
def Obligations.FencesAndRangeWords : Prop :=
  ((∀ s s₁ is ms sc (r : BitVec 2), LaneReady s (.fence sc r) s₁ is ms →
    let scope := scopeOf is.g sc
    let on := ms.filter Member.on
    let ok := on.all fun m => fenceOk s₁ is.blk (some m.tlin) r.toNat scope s₁.nextAcc
    r ≠ 0 →
    (ok = true → ∃ t, exec (.fence sc r) s = .next t ∧
      Goes (on.foldl (fun s m => fenceDone s is.blk (some m.tlin) r.toNat scope) s₁) t is ms fun _ th => th) ∧
    (ok = false → tget ((s₁.core is.core).quad is.quad).slots is.slot ≠ none → ∃ t, exec (.fence sc r) s = .next t ∧
      Goes s₁ t is ms (fun _ th => th) ∧ (is.warp t).fencing = some (r.toNat, scope, s₁.nextAcc))) ∧
  (∀ s s₁ is ms i, isAccess i = true → LaneReady s i s₁ is ms → (∀ m ∈ ms, m.on = false) →
    let o := orderOf is.g i
    let ok := ms.all fun m => fenceOk s₁ is.blk (some m.tlin) o.1 o.2 s₁.nextAcc
    (o.1 = 0 → ∃ t, exec i s = .next t ∧ Goes (engaged s₁ is.core 0) t is ms fun _ th => th) ∧
    (o.1 ≠ 0 → ok = true → ∃ t, exec i s = .next t ∧
      Goes (engaged (ms.foldl (fun s m => fenceDone s is.blk (some m.tlin) o.1 o.2) s₁) is.core 0) t is ms fun _ th => th) ∧
    (o.1 ≠ 0 → ok = false → tget ((s₁.core is.core).quad is.quad).slots is.slot ≠ none → ∃ t, exec i s = .next t ∧
      Goes (engaged s₁ is.core 0) t is ms (fun _ th => th) ∧ (is.warp t).fencing = some (o.1, o.2, s₁.nextAcc))) ∧
  (∀ s blk who ord scope p, (s.block blk).bind Block.place = some p →
    let u := fenceDone s blk who ord scope
    let fresh := ord = 3 ∧ scope ≠ 0 ∧ (s.block blk).any (notHead s) = false
    u = { s with net := u.net, blocks := u.blocks } ∧ (ord = 2 → u = s) ∧
    (ord ≠ 2 → (∀ l d x, .fill p.core l 1 d x ∉ u.net) ∧
      ∀ m ∈ s.net, m ∈ u.net ∨ ∃ l d x, m = .fill p.core l 1 d x ∧ .readShared p.core l 1 ∈ u.net) ∧
    (¬fresh → u.blocks = s.blocks) ∧
    (fresh → u.blocks = (match who with
      | some t => s.modThread blk t fun th => { th with readSet := [] }
      | none => s.modFront blk fun f => { f with readSet := [] }).blocks)) ∧
  (∀ s s₁ is ms p, LaneReady s (.drain p) s₁ is ms → (∃ m ∈ ms, m.on = true) →
    tget ((s₁.core is.core).quad is.quad).slots is.slot ≠ none →
    let ids := (issuedOn s₁ is.core p.toNat).map Cmd.id
    (ids ≠ [] → ∃ t, exec (.drain p) s = .next t ∧ Goes s₁ t is ms (fun _ th => th) ∧ (is.warp t).draining = some (p.toNat, ids)) ∧
    (ids = [] → ∃ t, exec (.drain p) s = .next t ∧ Goes (drainDone s₁ is.core p.toNat) t is ms (fun _ th => th) ∧
      (is.warp t).draining = (is.warp s₁).draining)) ∧
  (∀ s is b i, (∃ sc r, i = .fence sc r ∧ FrontReady s i is b) ∨
      (isAccess i = true ∧ findFront s i = some is ∧ s.block is.blk = some b ∧ b.front.late = none ∧
        decodeTrap true 64 is.g i is.q = none ∧ guardOn is.g b.front.pred = false) →
    let o := match i with
      | .fence sc r => (r.toNat, scopeOf is.g sc)
      | _ => orderOf is.g i
    let s' := closeGroup s
    o.1 ≠ 0 →
    (fenceOk s' is.blk none o.1 o.2 s'.nextAcc = true → let u := fenceDone s' is.blk none o.1 o.2
      ∃ t, exec i s = .next t ∧ ∃ b', u.block is.blk = some b' ∧ FrontGoes u t is b' b'.front is.next) ∧
    (fenceOk s' is.blk none o.1 o.2 s'.nextAcc = false → ∃ t, exec i s = .next t ∧
      FrontGoes s' t is b { b.front with status := .stalled (.fence o.1 o.2 s'.nextAcc) } is.next)) ∧
  (∀ s is b p, FrontReady s (.drain p) is b →
    let s' := closeGroup s
    let ids := (issuedOn s' is.core p.toNat).map Cmd.id
    (ids ≠ [] → ∃ t, exec (.drain p) s = .next t ∧
      FrontGoes s' t is b { b.front with status := .stalled (.drain p.toNat is.g.start ids) } is.next) ∧
    (ids = [] →
      (takeRecord b (fun q => q = p.toNat) = none → ∃ t, exec (.drain p) s = .next t ∧
        FrontGoes (drainDone s' is.core p.toNat) t is b b.front is.next) ∧
      (∀ f, takeRecord b (fun q => q = p.toNat) = some f → FrontHandled s b →
        let b' := { b with faults := b.faults.filter fun g => g.path ≠ f.path }
        ∃ t, exec (.drain p) s = .next t ∧
          FrontTraps (s'.setBlock is.blk b') t is b' f.cause is.g.start f.taddr f.detail.toNat)))) ∧
  ((∀ s s₁ is m th o sc a (l : BitVec 2), Solo s (.pref o sc a l) s₁ is m th →
    let va := th.pair a.toNat + offsetOf is.g o 1
    let ctx := (is.block s₁).ctx
    let core := s₁.core is.core
    (2 ^ 57 ≤ va.toNat → Handled s₁ is (soleTrap is m causeProtect va 3) → ∃ t, exec (.pref o sc a l) s = .next t ∧
      Traps (engaged s₁ is.core 0) t is (soleTrap is m causeProtect va 3)) ∧
    let lash := lashedBy core (.global ctx va.toNat (va.toNat + 1)) false
    let made := fun (u : State) => ∃ t, exec (.pref o sc a l) s = .next t ∧ Goes u t is [m] fun _ th => th
    (va.toNat < 2 ^ 57 → lash ≠ none → made (engaged s₁ is.core 0)) ∧
    (va.toNat < 2 ^ 57 → lash = none → ∀ u r, coreTranslate s₁ is.core ctx .read va.toNat = (u, r) →
      ((∀ pa coh, r ≠ .ok pa coh) → made (engaged u is.core 0)) ∧
      ∀ pa coh, r = .ok pa coh →
        let line := lineOf pa
        let v := engaged u is.core 1
        let there := core.stores = [] ∧ (s₁.net.any fun x => x.carries is.core line) = false
        (coh = 2 ∨ filledAt s₁ ctx va.toNat = false → made v) ∧
        (coh ≠ 2 → filledAt s₁ ctx va.toNat = true →
          (l = 1 → lineReady s₁ line = true → made v) ∧
          (l = 1 → lineReady s₁ line = false → made (fetchLine v line)) ∧
          (l ≠ 1 → there → tget core.l1 line = none → hasEntry core line = false → entryFree core = true →
            made { (v.modCore is.core fun c => { c with entries := c.entries ++ [{ line := line }] }) with
              net := s₁.net ++ [.readShared is.core line coh] }) ∧
          (l ≠ 1 → there → tget core.l1 line = none → hasEntry core line = true →
            made { v with net := s₁.net ++ [.readShared is.core line coh] }) ∧
          (l ≠ 1 → (s₁.net.any fun x => x.carries is.core line) = true → made v) ∧
          (l ≠ 1 → there → tget core.l1 line = none → hasEntry core line = false → entryFree core = false → made v)))) ∧
  (∀ s s₁ is m th i (drop : Bool) sc a d, (i = if drop then .invr sc a d else .wbr sc a d) → Solo s i s₁ is m th →
    let va := th.pair a.toNat + offsetOf is.g 0 1
    let n := (th.reg d.toNat).toNat
    (2 ^ 57 ≤ va.toNat → Handled s₁ is (soleTrap is m causeProtect va 3) → ∃ t, exec i s = .next t ∧
      Traps (engaged s₁ is.core 0) t is (soleTrap is m causeProtect va 3)) ∧
    (va.toNat < 2 ^ 57 → (n = 0 ∨ scopeOf is.g sc = 0) → ∃ t k, exec i s = .next t ∧ k ≤ 1 ∧
      Goes (engaged s₁ is.core k) t is [m] fun _ th => th) ∧
    (va.toNat < 2 ^ 57 → n ≠ 0 → scopeOf is.g sc ≠ 0 →
      let lash := lashedBy (s₁.core is.core) (.global (is.block s₁).ctx va.toNat (min (va.toNat + n) (2 ^ 57))) true
      (∀ e, lash = some e → Handled s₁ is (soleTrap is m causeLashed va (e + 32)) → ∃ t k, exec i s = .next t ∧ k ≤ 1 ∧
        Traps (engaged s₁ is.core k) t is (soleTrap is m causeLashed va (e + 32))) ∧
      (lash = none → Unhindered s₁ is.core is.blk (is.block s₁) → ((s₁.core is.core).l1.map Prod.fst).Nodup →
        ∀ u rs, Pages is.core (is.block s₁).ctx va.toNat (min (va.toNat + n) (2 ^ 57)) s₁ u rs → ∃ t v k, exec i s = .next t ∧ k ≤ 1 ∧
          WritesBack { u with nextAcc := s₁.nextAcc + 1 } v is.core (some (is.blk, some m.tlin)) drop rs ∧
          Goes (engaged v is.core k) t is [m] fun _ th => th))) ∧
  (∀ s is b i (drop : Bool) sc a d, (i = if drop then .invr sc a d else .wbr sc a d) → FrontReady s i is b →
    let s' := closeGroup s
    let va := b.front.reg a.toNat + offsetOf is.g 0 1
    let n := (b.front.reg d.toNat).toNat
    (2 ^ 57 ≤ va.toNat → FrontHandled s b → ∃ t, exec i s = .next t ∧ FrontTraps s' t is b causeProtect is.g.start va 3) ∧
    (va.toNat < 2 ^ 57 → (n = 0 ∨ scopeOf is.g sc = 0) → ∃ t, exec i s = .next t ∧ FrontGoes s' t is b b.front is.next) ∧
    (va.toNat < 2 ^ 57 → n ≠ 0 → scopeOf is.g sc ≠ 0 →
      let lash := lashedBy (s'.core is.core) (.global b.ctx va.toNat (min (va.toNat + n) (2 ^ 57))) true
      (∀ e, lash = some e → FrontHandled s b → ∃ t, exec i s = .next t ∧ FrontTraps s' t is b causeLashed is.g.start va (e + 32)) ∧
      (lash = none → Unhindered s' is.core is.blk b → ((s'.core is.core).l1.map Prod.fst).Nodup →
        ∀ u rs, Pages is.core b.ctx va.toNat (min (va.toNat + n) (2 ^ 57)) s' u rs → ∃ t v, exec i s = .next t ∧
          WritesBack { u with nextAcc := s'.nextAcc + 1 } v is.core (some (is.blk, none)) drop rs ∧ FrontGoes v t is b b.front is.next))))

/-! ## Scratchpad and tiles -/

/-- R96, R226, R238, R239, R275: LDS writes the bytes of its tile, own or of a peer, to its registers; where the peer's block is swapped
out they are pending, and the thread goes on; STS writes its registers to the tile; ATOMS stores the new value that EXT.C's operation gives, and its destination gets the old
one. R237: a scratchpad access traps at the first check that it fails: MISALIGN; TILE 1 for a handle without a tile, 2 past the tile, 7
for a store or atomic to a peer's tile, 16 for an atomic on an AC tile; FEMISUSE 2 at a peer, 1 on an AC tile, 3 for halfwords;
LASHED. The offset source is in TADDR, and nothing else happens. -/
def Obligations.ScratchpadAccesses : Prop :=
  (∀ s s₁ is m th z h a d p,
    let o := m.v.a.toNat % 2 ^ 32
    let n := tileSize z.toNat
    let k := Sig.tileRegs z.toNat
    (Solo s (.lds z h a d) s₁ is m th → ReachesTile s₁ is.core is.blk h.toNat o n n .load p →
      (o / 2 ^ 30 = 0 ∨ ((s₁.block p.blk).bind Block.place).isSome = true → ∃ t, exec (.lds z h a d) s = .next t ∧
        Goes (engaged s₁ is.core (if o / 2 ^ 30 = 0 then 1 else 0)) t is [m]
          fun _ th => th.setRegs d.toNat k (p.tile.bytes.num (o % 2 ^ 20) n)) ∧
      (o / 2 ^ 30 ≠ 0 → (s₁.block p.blk).bind Block.place = none → ∃ t, exec (.lds z h a d) s = .next t ∧
        Goes (engaged { s₁ with peers := s₁.peers ++ [⟨p.core, h.toNat, (p.blk, p.h), is.blk, m.tlin, o, n, is.g.start,
          ⟨d.toNat, k, false⟩⟩] } is.core 0) t is [m] fun _ th => { th with pending := th.pending ||| regMask (d.toNat, k) })) ∧
    (Solo s (.sts z h a d) s₁ is m th → ReachesTile s₁ is.core is.blk h.toNat o n n .store p → ∃ t, exec (.sts z h a d) s = .next t ∧
      Goes (engaged (s₁.modTile is.blk h.toNat fun x => { x with bytes := x.bytes.setNum (o % 2 ^ 20) n (th.regsNum d.toNat k) })
        is.core 1) t is [m] fun _ th => th) ∧
    (Solo s (.atoms z h a d) s₁ is m th →
      let n := if z = 1 then 8 else 4
      let c := is.g.c.getD 0
      ReachesTile s₁ is.core is.blk h.toNat o n n .atomic p →
      let old := p.tile.bytes.num (o % 2 ^ 20) n
      let w := th.regsNum d.toNat (Sig.atomData (field c 6 4) (field c 3 0)) % 2 ^ 128
      let new := atomicNew (field c 3 0) (field c 6 4) old (w % 2 ^ (8 * n)) (w / 2 ^ (8 * n) % 2 ^ (8 * n))
      ∃ t, exec (.atoms z h a d) s = .next t ∧
        Goes (engaged (s₁.modTile is.blk h.toNat fun x => { x with bytes := x.bytes.setNum (o % 2 ^ 20) n new }) is.core 1) t is [m]
          fun _ th => writeResult (shape (.atoms z h a d)) th (BitVec.ofNat 64 old))) ∧
  (∀ s s₁ is m th i k h n span, Solo s i s₁ is m th → tileAccess i th = some (k, h, n, span) →
    let o := m.v.a.toNat % 2 ^ 32
    let off := o % 2 ^ 20
    let peer := o / 2 ^ 30 % 4
    let fits := off % (if k = .setState then 4 else n) = 0
    let u := if k = .setState then s₁ else engaged s₁ is.core 0
    let takes := fun (c : BitVec 8) (d : Nat) => Handled s₁ is (soleTrap is m c (BitVec.ofNat 64 o) d) →
      ∃ t, exec i s = .next t ∧ Traps u t is (soleTrap is m c (BitVec.ofNat 64 o) d)
    (¬fits → takes causeMisalign 0) ∧
    (fits → spotOf s₁ is.core is.blk h.toNat peer = none → takes causeTile 1) ∧
    (fits → ∀ p, spotOf s₁ is.core is.blk h.toNat peer = some p →
      let in_ := o / 2 ^ 20 % 2 ^ 10 = 0 ∧ off + span ≤ p.tile.size
      (¬in_ → takes causeTile 2) ∧
      (in_ → k = .store ∨ k = .atomic → peer ≠ 0 → takes causeTile 7) ∧
      (in_ → k = .atomic → peer = 0 → p.tile.ac = true → takes causeTile 16) ∧
      (in_ → k.fullEmpty = true → peer ≠ 0 → takes causeFemisuse 2) ∧
      (in_ → k.fullEmpty = true → peer = 0 → p.tile.ac = true → takes causeFemisuse 1) ∧
      (in_ → k.fullEmpty = true → peer = 0 → p.tile.ac = false → n = 2 → takes causeFemisuse 3)) ∧
    ∀ p e, InTile s₁ is.core is.blk h.toNat o n span k p → tileLash s₁ o span k p = some e →
      takes causeLashed (e + (if k.writes then 32 else 0) + 64))

/-- R241 to R243, R275: LDF and LDE load where every word of theirs is full, and LDE empties them; STF stores where every word is empty,
STX at once, and both fill them, which releases their thread's earlier accesses at block scope; else LDF, LDE and STF leave as WAITING for their words. FESET sets the words of its range. Marking
words changes no byte of the tile and no other word, and a thread that waits for one that changes becomes READY. That the release
covers what log 88 (DEDUCED) says, the accesses and stores of the thread that are still open, is the model's reading. -/
def Obligations.FullEmptyAccesses : Prop :=
  (∀ s s₁ is m th z h a d p,
    let o := m.v.a.toNat % 2 ^ 32
    let n := tileSize z.toNat
    let k := Sig.tileRegs z.toNat
    let ws := wordsFrom (o % 2 ^ 20) (n / 4)
    let waits := fun (t : State) => Leaves (engaged s₁ is.core 1) t is [m]
      fun _ => (.waiting (.fullEmpty h.toNat o (n / 4)), is.g.start)
    (∀ i (empty : Bool), i = (if empty then .lde z h a d else .ldf z h a d) → Solo s i s₁ is m th →
      ReachesTile s₁ is.core is.blk h.toNat o n n (if empty then .loadEmpty else .loadFull) p →
      ((∀ w ∈ ws, w ∈ p.tile.full) → ∃ t, exec i s = .next t ∧
        Goes (engaged (if empty then markWords s₁ is.blk h.toNat false ws else s₁) is.core 1) t is [m]
          fun _ th => th.setRegs d.toNat k (p.tile.bytes.num (o % 2 ^ 20) n)) ∧
      ((∃ w ∈ ws, w ∉ p.tile.full) → ∃ t, exec i s = .next t ∧ waits t)) ∧
    (∀ i (wait : Bool), i = (if wait then .stf z h a d else .stx z h a d) → Solo s i s₁ is m th →
      ReachesTile s₁ is.core is.blk h.toNat o n n (if wait then .storeFull else .storeAny) p →
      ((wait = true → ∀ w ∈ ws, w ∉ p.tile.full) → ∃ t, exec i s = .next t ∧
        Goes (engaged (markWords ((blockRelease s₁ is.blk (some m.tlin)).modTile is.blk h.toNat fun x =>
          { x with bytes := x.bytes.setNum (o % 2 ^ 20) n (th.regsNum d.toNat k) }) is.blk h.toNat true ws) is.core 1) t is [m]
          fun _ th => th) ∧
      (wait = true → (∃ w ∈ ws, w ∈ p.tile.full) → ∃ t, exec i s = .next t ∧ waits t)) ∧
    (Solo s (.feset h a d) s₁ is m th →
      let w := th.reg d.toNat
      (field w 30 18 ≠ 0 → Handled s₁ is (soleTrap is m causeIllopnd 0 0) → ∃ t, exec (.feset h a d) s = .next t ∧
        Traps s₁ t is (soleTrap is m causeIllopnd 0 0)) ∧
      (field w 30 18 = 0 → ReachesTile s₁ is.core is.blk h.toNat o 4 (4 * field w 17 0) .setState p →
        ∃ t, exec (.feset h a d) s = .next t ∧
          Goes (markWords s₁ is.blk h.toNat (bit w 31) (wordsFrom (o % 2 ^ 20) (field w 17 0))) t is [m] fun _ th => th))) ∧
  ∀ s b blk h (full : Bool) ws x, s.block blk = some b → tget b.tiles h = some x →
    let u := markWords s blk h full ws
    u = { s with blocks := u.blocks } ∧ (∀ k, k ≠ blk → u.block k = s.block k) ∧
    ∃ b', u.block blk = some b' ∧ b' = { b with tiles := b'.tiles, threads := b'.threads } ∧
      (∀ k, k ≠ h → tget b'.tiles k = tget b.tiles k) ∧
      (∃ x', tget b'.tiles h = some x' ∧ x' = { x with full := x'.full } ∧
        ∀ w, w ∈ x'.full ↔ if w ∈ ws then full = true else w ∈ x.full) ∧
      ∀ j th, b.thread j = some th →
        b'.thread j = some (match th.status with
          | .waiting (.fullEmpty g o n) =>
            if g = h ∧ ∃ w ∈ ws, (w ∈ x.full ↔ full = false) ∧ o % 2 ^ 20 / 4 ≤ w ∧ w < o % 2 ^ 20 / 4 + n
            then { th with status := .ready, age := 0 } else th
          | _ => th)

/-- R224, R225, R240, R244: TALLOC makes an empty tile of a valid shape and gives its size, gives it again for the same shape, and takes
TILE 6, 3, 4 or 5 for a wrong shape, another shape, no granules or no table entry, while an AC tile waits for room. TFREE drops the
tile and its export. TEXPORT puts a tile into an export slot or withdraws it. TINFO reads size, shape, flags or free bytes. The order
6, 3, 4, 5 and then the wait, and TADDR 0 of the LASHED of TFREE and TEXPORT, are log 82 (DESIGN CHOICE). -/
def Obligations.TileManagement : Prop :=
  (∀ s s₁ is ms h a d, LaneReady s (.tinfo h a d) s₁ is ms → ∃ t, exec (.tinfo h a d) s = .next t ∧
    Goes s₁ t is ms fun m th =>
      let b := is.block s₁
      let x := tget b.tiles h.toNat
      let q := m.v.a.toNat
      writeResult (shape (.tinfo h a d)) th (BitVec.ofNat 64 (
        if q = 0 then (x.map fun x => shapeBytes x.shape).getD 0
        else if q = 1 then (x.map fun x => x.shape.toNat).getD 0
        else if q = 2 then (x.map fun x => 1 + (if bit x.shape 31 then 2 else 0) + ((x.slot.map fun k => 4 + 256 * k).getD 0)).getD 0
        else (s₁.launchOf b).scrb - 256 * granules b))) ∧
  (∀ s s₁ is m th h a d, Solo s (.talloc h a d) s₁ is m th →
    let w : Word := m.v.a.truncate 32
    let b := is.block s₁
    let i := Instr.talloc h a d
    let takes := fun (d : Nat) => Handled s₁ is (soleTrap is m causeTile (h.toNat : Nat) d) →
      ∃ t, exec i s = .next t ∧ Traps s₁ t is (soleTrap is m causeTile (h.toNat : Nat) d)
    let gives := fun (u : State) => ∃ t, exec i s = .next t ∧
      Goes u t is [m] fun _ th => writeResult (shape i) th (BitVec.ofNat 64 (shapeBytes w))
    let sp := bit w 31 = false
    let room := sp → 256 * (granules b + ceilDiv (shapeBytes w) 256) ≤ (s₁.launchOf b).scrb
    let entry := b.tiles.length < 8 ∨ entriesUsed s₁ is.core < 256
    (shapeOk w = false → takes 6) ∧
    (shapeOk w = true → ∀ x, tget b.tiles h.toNat = some x → (x.shape = w → gives s₁) ∧ (x.shape ≠ w → takes 3)) ∧
    (shapeOk w = true → tget b.tiles h.toNat = none →
      (¬room → takes 4) ∧ (room → ¬entry → takes 5) ∧
      (room → entry → ¬sp → acFree s₁ is.core is.blk h.toNat b = false → ∃ t, exec i s = .next t ∧
        Leaves s₁ t is [m] fun _ => (.waiting (.alloc h.toNat), is.g.start)) ∧
      (room → entry → sp ∨ acFree s₁ is.core is.blk h.toNat b = true →
        gives ((s₁.modCore is.core fun c => { c with owed := c.owed.filter (· ≠ (is.blk, h.toNat)) }).setBlock is.blk { b with tiles := tset b.tiles h.toNat { shape := w } })))) ∧
  (∀ s s₁ is m th h, Solo s (.tfree h) s₁ is m th →
    let drop := ((s₁.modCore is.core fun c => { c with exports := c.exports.filter fun e => e.2 ≠ (is.blk, h.toNat) }).modBlock
      is.blk fun b => { b with tiles := tdel b.tiles h.toNat })
    (s₁.tile is.blk h.toNat = none → ∃ t, exec (.tfree h) s = .next t ∧ Goes s₁ t is [m] fun _ th => th) ∧
    ∀ x, s₁.tile is.blk h.toNat = some x →
      let lash := lashedBy (s₁.core is.core) (.tile is.blk h.toNat 0 (shapeBytes x.shape)) true
      (lash = none → (∀ j u o n, (is.block s₁).thread j = some u → u.status ≠ .waiting (.fullEmpty h.toNat o n)) →
        ∃ t, exec (.tfree h) s = .next t ∧ Goes drop t is [m] fun _ th => th) ∧
      (lash = none → ∀ j u o n, (is.block s₁).thread j = some u → u.status = .waiting (.fullEmpty h.toNat o n) →
        (∀ k v o n, k ≠ j → (is.block s₁).thread k = some v → v.status ≠ .waiting (.fullEmpty h.toNat o n)) →
        let r : List TrapReq := [⟨j, causeTile, u.pc, BitVec.ofNat 64 o, 9, none⟩]
        Handled drop is r → ∃ v t, exec (.tfree h) s = .next t ∧ Traps drop v is r ∧ Goes v t is [m] fun _ th => th) ∧
      (∀ e, lash = some e → Handled s₁ is (soleTrap is m causeLashed 0 (e + 96)) → ∃ t, exec (.tfree h) s = .next t ∧
        Traps s₁ t is (soleTrap is m causeLashed 0 (e + 96)))) ∧
  ∀ s s₁ is m th h a, Solo s (.texport h a) s₁ is m th →
    let w : Word := m.v.a.truncate 32
    let k := field w 5 0
    let i := Instr.texport h a
    let takes := fun (c : BitVec 8) (ad d : Nat) => Handled s₁ is (soleTrap is m c (BitVec.ofNat 64 ad) d) →
      ∃ t, exec i s = .next t ∧ Traps s₁ t is (soleTrap is m c (BitVec.ofNat 64 ad) d)
    let goes := fun (u : State) => ∃ t, exec i s = .next t ∧ Goes u t is [m] fun _ th => th
    let held := tget (s₁.core is.core).exports k
    let put := fun (u : State) => (u.modCore is.core fun c => { c with exports := tset c.exports k (is.blk, h.toNat) }).modTile
      is.blk h.toNat fun x => { x with slot := some k }
    let out := fun (j : Nat) => (s₁.modCore is.core fun c => { c with exports := c.exports.filter fun e => e.2 ≠ (is.blk, j) }).modTile
      is.blk j fun x => { x with slot := none }
    let lash := fun (j : Nat) (x : Tile) => lashedBy (s₁.core is.core) (.tile is.blk j 0 (shapeBytes x.shape)) true
    (field w 31 7 ≠ 0 → takes causeIllopnd 0 0) ∧
    (field w 31 7 = 0 → bit w 6 = true →
      (s₁.tile is.blk h.toNat = none → takes causeTile h.toNat 1) ∧
      ∀ x, s₁.tile is.blk h.toNat = some x →
        (bit x.shape 31 = true → takes causeTile h.toNat 10) ∧
        (bit x.shape 31 = false →
          (held = some (is.blk, h.toNat) → goes s₁) ∧
          (held ≠ some (is.blk, h.toNat) → held ≠ none → takes causeTile h.toNat 8) ∧
          (held = none → x.slot = none → goes (put s₁)) ∧
          (held = none → x.slot ≠ none → lash h.toNat x = none → goes (put (out h.toNat))) ∧
          (held = none → x.slot ≠ none → ∀ e, lash h.toNat x = some e → takes causeLashed 0 (e + 96)))) ∧
    (field w 31 7 = 0 → bit w 6 = false →
      (held = none → goes s₁) ∧
      (∀ b j, held = some (b, j) → b ≠ is.blk → goes s₁) ∧
      ∀ j x, held = some (is.blk, j) → s₁.tile is.blk j = some x →
        (lash j x = none → goes (out j)) ∧ (∀ e, lash j x = some e → takes causeLashed 0 (e + 96)))

/-! ## Skeins and procedural ranges -/

/-- R301 to R306: the skein words in a lane whose core has no earlier operation on the skein waiting: a take that the hank covers and a
give to a hank that is not scarce are done at the L1, 0 does nothing; every other take, give, read and init goes to the home. A
take or read waits for its registers behind the word, an init for the home. k of 256 or more takes SKEIN with DETAIL 1. An operation
behind an earlier one of its core waits its turn, and so does a give to a hank that a recall round has answered, until the round's
end (log 26, DEDUCED). -/
def Obligations.SkeinWordsInLanes : Prop :=
  ∀ s s₁ is m th b a d, let k := m.v.a.toNat % 2 ^ 32
    let n := m.v.b.toNat % 2 ^ 32
    let ctx := (is.block s₁).ctx
    let core := s₁.core is.core
    let req := fun (d : BitVec 6) (op : SkeinOp) => (⟨is.core, is.blk, m.tlin, d.toNat, op, false⟩ : SkeinReq)
    let first := core.skeinQ.any (fun x => x.ctx = ctx && x.k = k) = false
    let goes := fun (i : Instr) (u : State) => ∃ t, exec i s = .next t ∧ Goes u t is [m] fun _ th => th
    let waits := fun (i : Instr) (u : State) (k : Nat) => ∃ t, exec i s = .next t ∧
      Leaves (owed u is.blk m.tlin d.toNat k) t is [m] fun _ => (.waiting (.regs (regMask (d.toNat, k))), is.next)
    (∀ i, i = .sktake b a d ∨ i = .skgive b a ∨ i = .skreadx a d ∨ i = .skinit b a → Solo s i s₁ is m th → 256 ≤ k →
      Handled s₁ is (soleTrap is m causeSkein (BitVec.ofNat 64 k) 1) →
      ∃ t, exec i s = .next t ∧ Traps s₁ t is (soleTrap is m causeSkein (BitVec.ofNat 64 k) 1)) ∧
    (Solo s (.sktake b a d) s₁ is m th → k < 256 →
      let i := Instr.sktake b a d
      let r := req d (.take n)
      let gives := fun (u : State) (v : Quad) => ∃ t, exec i s = .next t ∧ Goes u t is [m] fun _ th => writeResult (shape i) th v
      (first → n = 0 → gives s₁ (if core.hank ctx k ≠ none ∨ (s₁.skein ctx k).live = true then 1 else 0)) ∧
      (first → n ≠ 0 → ∀ h, core.hank ctx k = some h → n ≤ h.hank → gives (rehanked s₁ is.core ctx k (h.hank - n)) 1) ∧
      (first → n ≠ 0 → (∀ h, core.hank ctx k = some h → h.hank < n) →
        waits i ((queued s₁ ctx k r true).modSkein ctx k fun x => { x with queue := x.queue ++ [r] }) 1) ∧
      (¬first → waits i (queued s₁ ctx k r false) 1)) ∧
    (Solo s (.skgive b a) s₁ is m th → k < 256 →
      let i := Instr.skgive b a
      let r := req 0 (.give n)
      let u := queued s₁ ctx k r true
      (first → n = 0 → goes i s₁) ∧
      (first → n ≠ 0 → ∀ h, core.hank ctx k = some h → h.scarce = false → h.answered = false →
        (h.hank + n ≤ 65536 → goes i (rehanked s₁ is.core ctx k (h.hank + n))) ∧
        (65536 < h.hank + n → goes i (poolAdd (rehanked s₁ is.core ctx k 65536) ctx k (h.hank + n - 65536)))) ∧
      (first → n ≠ 0 → ∀ h, core.hank ctx k = some h → h.scarce = false → h.answered = true → goes i (queued s₁ ctx k r false)) ∧
      (first → n ≠ 0 → (∀ h, core.hank ctx k = some h → h.scarce = true) → goes i { u with net := u.net ++ [.skeinOp ctx k r] }) ∧
      (¬first → goes i (queued s₁ ctx k r false))) ∧
    (Solo s (.skreadx a d) s₁ is m th → k < 256 →
      let r := req d .readx
      let u := queued s₁ ctx k r true
      (first → waits (.skreadx a d) { u with net := u.net ++ [.skeinOp ctx k r] } 2) ∧
      (¬first → waits (.skreadx a d) (queued s₁ ctx k r false) 2)) ∧
    (Solo s (.skinit b a) s₁ is m th → k < 256 →
      let r := req 0 (.init n)
      let u := queued s₁ ctx k r true
      let waits := fun (u : State) => ∃ t, exec (.skinit b a) s = .next t ∧ Leaves u t is [m] fun _ => (.waiting .skein, is.next)
      (first → waits { u with net := u.net ++ [.skeinOp ctx k r] }) ∧ (¬first → waits (queued s₁ ctx k r false)))

/-- R309, R315, R317, R318: PRQ reads the state of the block at its address: valid, range id and fill state, and for a poisoned block the
dyer's cause and the subcode. PRDONE ends the fill of its own dyer's block; for another address, and in a block that is no dyer's, it
is ILLOPND, which stops a dyer's block. PREVICT evicts the blocks that it meets and waits for those that steep, and waits for the head in a block that is not. PRDEF reads its descriptor, here in the L1, sends the definition to the slices, and
its result is pending. -/
def Obligations.ProceduralWordsInLanes : Prop :=
  (∀ s s₁ is ms a d, LaneReady s (.prq a d) s₁ is ms → ∃ t, exec (.prq a d) s = .next t ∧
    Goes s₁ t is ms fun m th =>
      let ctx := (is.block s₁).ctx
      writeResult (shape (.prq a d)) th (BitVec.ofNat 64 (match rangeOf s₁ ctx ((is.thread s₁ m.tlin).pair a.toNat).toNat with
        | none => 0
        | some (rid, base) => 2 ^ 31 + rid * 2 ^ 24 + (match (getFill s₁ ctx rid base).fill with
          | .unfilled => 0
          | .steeping => 1
          | .filled => 2
          | .poisoned sub cause => 3 + sub * 2 ^ 8 + cause.toNat * 2 ^ 16)))) ∧
  (∀ s s₁ is m th a, Solo s (.prdone a) s₁ is m th →
    let i := Instr.prdone a
    let bad := Handled s₁ is (soleTrap is m causeIllopnd 0 0) →
      ∃ t, exec i s = .next t ∧ Traps s₁ t is (soleTrap is m causeIllopnd 0 0)
    ((is.block s₁).dyer = none → bad) ∧
    ∀ x, (is.block s₁).dyer = some x →
      ((th.pair a.toNat).toNat ≠ x.base → ∃ t, exec i s = .next t ∧
        ((is.block s₁).state = .resident → ∀ b, t.block is.blk = some b → b.state = .stopped)) ∧
      ((th.pair a.toNat).toNat = x.base → x.done = true → ∃ t, exec i s = .next t ∧ Goes s₁ t is [m] fun _ th => th) ∧
      ((th.pair a.toNat).toNat = x.base → x.done = false → ∃ t, exec i s = .next t ∧
        Goes (modFill (s₁.modBlock is.blk fun b => { b with dyer := some { x with done := true } }) x.ctx x.rid x.base
          fun f => { f with ending := true }) t is [m] fun _ th => th)) ∧
  (∀ s s₁ is m th b a, Solo s (.previct b a) s₁ is m th →
    let ctx := (is.block s₁).ctx
    let lo := (th.pair a.toNat).toNat
    let hi := lo + m.v.b.toNat % 2 ^ 32
    let xs := fillsIn s₁ ctx lo hi
    let u := admitAll (xs.foldl (fun s x => evictFill s ctx x.1 x.2.1) s₁)
    let late := notHead s₁ (is.block s₁)
    (late = true → ∃ t, exec (.previct b a) s = .next t ∧ Leaves s₁ t is [m] fun _ => (.waiting .head, is.g.start)) ∧
    (late = false → hi = lo → ∃ t, exec (.previct b a) s = .next t ∧ Goes s₁ t is [m] fun _ th => th) ∧
    (late = false → hi ≠ lo → (∀ x ∈ xs, x.2.2.fill ≠ .steeping) → ∃ t, exec (.previct b a) s = .next t ∧
      Goes u t is [m] fun _ th => th) ∧
    (late = false → hi ≠ lo → (∃ x ∈ xs, x.2.2.fill = .steeping) → ∃ t, exec (.previct b a) s = .next t ∧
      Leaves u t is [m] fun _ => (.waiting (.range lo hi), is.next))) ∧
  ∀ s s₁ is m th a d pa coh, Solo s (.prdef a d) s₁ is m th →
    let va := th.pair a.toNat
    let core := s₁.core is.core
    let u := { s₁ with nextAcc := s₁.nextAcc + 1 }
    let x := { accOf s₁ is m .prdef va pa coh 64 with dest := some ⟨d.toNat, 1, false⟩, scope := 3 }
    let w := asking u is.core (lineOf pa) coh
    Reaches s₁ is.core (is.block s₁).ctx va 64 64 .prdef pa coh → Unhindered s₁ is.core is.blk (is.block s₁) → coh ≠ 2 →
    (∀ l v, tget core.l1 (lineOf pa) = some l → Serves l pa 64 coh v → ∃ t, exec (.prdef a d) s = .next t ∧
      Goes { u with net := s₁.net ++ [.prdef is.blk x (BitVec.ofNat 512 v)] } t is [m]
        fun _ th => { sawLine pa th with pending := th.pending ||| regMask (d.toNat, 1) }) ∧
    (tget core.l1 (lineOf pa) = none → hasEntry core (lineOf pa) = false → entryFree core = true →
      .readShared is.core (lineOf pa) coh ∉ w.net → ∃ t, exec (.prdef a d) s = .next t ∧
        Goes (requested w is.core x (.readShared is.core (lineOf pa) coh)) t is [m] fun _ => awaits d.toNat 1)

/-! ## The Matrix Engine's words -/

/-- R377, R378, R380, R389, R464: MXACQ takes the token of its tile, at once where no command is in flight, else every participant waits
for it behind the word; MXREL gives it back; MXVC sets the valid count to the first participant's value, at most 32. MXLD and MXST
move each participant's element of its home lane's row, with the token; one outside the tile takes TILE 20 alone. Some values of TADDR
are log 32 (DEDUCED). -/
def Obligations.MatrixTokensAndElements : Prop :=
  ∀ s s₁ is ms, (∃ m ∈ ms, m.on = true) →
    let goes := fun (i : Instr) (u : State) => ∃ t, exec i s = .next t ∧ Goes u t is ms fun _ th => th
    let takes := fun (i : Instr) (c : BitVec 8) (a d : Nat) => Handled s₁ is (collected ms (partTrap is c a d)) →
      ∃ t, exec i s = .next t ∧ Splits s₁ t is ms (partTrap is c a d) (fun _ th => th) fun _ th => th
    (∀ i h, matrixTile i = some h → LaneReady s i s₁ is ms →
      (s₁.tile is.blk h.toNat = none → takes i causeTile h.toNat 1) ∧
      ∀ x, s₁.tile is.blk h.toNat = some x → bit x.shape 31 = false → takes i causeTile h.toNat 16) ∧
    ∀ h x, s₁.tile is.blk h = some x → bit x.shape 31 = true →
      (∀ d : BitVec 6, d.toNat = h → LaneReady s (.mxacq d) s₁ is ms →
        (x.threads = true → goes (.mxacq d) s₁) ∧
        (x.threads = false → x.infl = 0 → goes (.mxacq d) (s₁.modTile is.blk h fun x => { x with threads := true })) ∧
        (x.threads = false → x.infl ≠ 0 → ∃ t, exec (.mxacq d) s = .next t ∧
          Parts s₁ t is ms Member.on (.waiting (.token h)) is.next)) ∧
      (∀ d : BitVec 6, d.toNat = h → LaneReady s (.mxrel d) s₁ is ms →
        goes (.mxrel d) (s₁.modTile is.blk h fun x => { x with threads := false })) ∧
      (∀ (d : BitVec 6) a m, d.toNat = h → LaneReady s (.mxvc a d) s₁ is ms → (ms.filter Member.on).head? = some m →
        goes (.mxvc a d) (s₁.modTile is.blk h fun x => { x with vc := min (m.v.a.toNat % 2 ^ 32) 32 })) ∧
      ∀ (a : BitVec 6) b d, a.toNat = h →
        let e := shapeEb x.shape
        let col := fun (m : Member) => m.v.b.toNat % 2 ^ 32
        let in_ := fun (m : Member) => m.lane < shapeRows x.shape ∧ col m < shapeCols x.shape
        let trap := fun (m : Member) => if in_ m then none else partTrap is causeTile (col m) 20 m
        (∀ i, i = .mxld b a d ∨ i = .mxst b a d → LaneReady s i s₁ is ms →
          (e = 8 → d.toNat % 2 = 1 → takes i causeIllopnd 0 0) ∧
          ((e = 8 → d.toNat % 2 = 0) → x.threads = false → takes i causeToken h 1)) ∧
        ((e = 8 → d.toNat % 2 = 0) → x.threads = true → (collected ms trap ≠ [] → Handled s₁ is (collected ms trap)) →
          (LaneReady s (.mxld b a d) s₁ is ms → ∃ t, exec (.mxld b a d) s = .next t ∧
            Splits s₁ t is ms trap (fun _ th => th) fun m th => th.setRegs d.toNat (e / 4) (elemAt x m.lane (col m))) ∧
          (LaneReady s (.mxst b a d) s₁ is ms → ∃ t, exec (.mxst b a d) s = .next t ∧
            Splits (s₁.modTile is.blk h fun x => (ms.filter fun m => m.on && decide (in_ m)).foldl
              (fun x m => withElem x m.lane (col m) ((is.thread s₁ m.tlin).regsNum d.toNat (e / 4))) x) t is ms trap
              (fun _ th => th) fun _ th => th))

/-- R379, R382, R390, R391, R464: MXZERO, MXSCALE, MXRECOMB and MMA issue one command of their participants: it takes its Lashing
entries and a place in the engine's queue, INFL of its tiles rises by 1 and for X8 KACC by K; while they have to wait, the warp
retries 8 cycles later. A tile that the threads hold is TOKEN 2; shapes and sidecars that break R381 are TILE 17 and 18. DEDUCED: some
values of TADDR (log 32), that KACC is judged on its present value (log 33), that INFL of T rises in MXRECOMB too (log 53), and that
all participants retry together (log 54). -/
def Obligations.MatrixCommandsIssue : Prop :=
  ∀ s s₁ is ms, (∃ m ∈ ms, m.on = true) →
    let on := ms.filter Member.on
    let rows := on.map Member.lane
    let whole := fun (b h : Nat) (x : Tile) => Range.tile b h 0 (shapeBytes x.shape)
    let takes := fun (i : Instr) (c : BitVec 8) (a d : Nat) => Handled s₁ is (collected ms (partTrap is c a d)) →
      ∃ t, exec i s = .next t ∧ Splits s₁ t is ms (partTrap is c a d) (fun _ th => th) fun _ th => th
    let issues := fun (i : Instr) (c : Cmd) (accs : List Nat) (peers : List Spot) (k : State → State) =>
      (MxRoom s₁ is c peers → ∃ t, exec i s = .next t ∧ Goes (k (mxTaken s₁ is c accs peers)) t is ms fun _ th => th) ∧
      (¬MxRoom s₁ is c peers → ∃ t, exec i s = .next t ∧
        Leaves s₁ t is ms fun _ => (.waiting (.rejected (s₁.now + 8)), is.g.start))
    ∀ (d : BitVec 6) x, s₁.tile is.blk d.toNat = some x → bit x.shape 31 = true →
      let dst := [whole is.blk d.toNat x]
      (LaneReady s (.mxzero d) s₁ is ms →
        (x.threads = true → takes (.mxzero d) causeToken d.toNat 2) ∧
        (x.threads = false → issues (.mxzero d) (mxCommand s₁ is (.mxzero d.toNat) [] dst) [d.toNat] [] id)) ∧
      (∀ a, LaneReady s (.mxscale a d) s₁ is ms →
        let odd := shapeEb x.shape = 8 ∧ a.toNat < 64 ∧ a.toNat % 2 = 1
        (odd → takes (.mxscale a d) causeIllopnd 0 0) ∧
        (¬odd → x.threads = true → takes (.mxscale a d) causeToken d.toNat 2) ∧
        (¬odd → x.threads = false → issues (.mxscale a d) (mxCommand s₁ is (.mxscale d.toNat (on.map fun m =>
          (m.lane, if shapeEb x.shape ≠ 8 then m.v.a
            else match laneSource s₁ (is.block s₁) m.tlin m.lane (is.thread s₁ m.tlin) (a, .f64) with
              | .val v => v
              | _ => m.v.a)) x.vc) [] dst) [d.toNat] [] id)) ∧
      (∀ b a y m ha hb, LaneReady s (.mxrecomb b a d) s₁ is ms → on.head? = some m →
        let i := Instr.mxrecomb b a d
        let w := m.v.b.toNat % 2 ^ 32
        let (wa, wb) := (w / 256 % 64, w / 65536 % 64)
        let bad := w / 2 ^ 22 ≠ 0 ∨ w / 2 ^ 14 % 4 ≠ 0 ∨ w / 32 % 8 ≠ 0
        let fit := shapeEb x.shape = 8 ∧ shapeEb y.shape = 4 ∧ shapeRows x.shape = shapeRows y.shape ∧
          shapeCols x.shape = shapeCols y.shape ∧ shapeEb ha.shape = 2 ∧ shapeEb hb.shape = 2 ∧
          shapeRows y.shape ≤ shapeCols ha.shape ∧ shapeCols y.shape ≤ shapeCols hb.shape
        (bad → takes i causeIllopnd 0 0) ∧
        (¬bad → s₁.tile is.blk a.toNat = some y → bit y.shape 31 = true → s₁.tile is.blk wa = some ha → bit ha.shape 31 = false →
          s₁.tile is.blk wb = some hb → bit hb.shape 31 = false →
          (¬fit → takes i causeTile d.toNat 21) ∧
          (fit → x.threads = true → takes i causeToken d.toNat 2) ∧
          (fit → x.threads = false → y.threads = true → takes i causeToken a.toNat 2) ∧
          (fit → x.threads = false → y.threads = false → issues i
            (mxCommand s₁ is (.mxrecomb d.toNat a.toNat wa wb (w % 32) rows x.vc)
              [whole is.blk a.toNat y, whole is.blk wa ha, whole is.blk wb hb] dst) [d.toNat, a.toNat] [] id))) ∧
      ∀ ty b a A B SA SB, ty < 4 → LaneReady s (mmaWord ty b a d) s₁ is ms →
        let i := mmaWord ty b a d
        let spot := fun (x : BitVec 8) (k : Nat) =>
          if 63 < x.toNat % 64 + k then none else spotOf s₁ is.core is.blk (x.toNat % 64 + k) (x.toNat / 64)
        let k := shapeCols A.tile.shape
        let eb := if ty ≤ 1 then 1 else 2
        let okA := shapeEb A.tile.shape = eb ∧ shapeRows A.tile.shape ≤ 32 ∧
          (if ty = 0 then k % 32 = 0 else if ty = 1 then k ≤ 8192 else k % 16 = 0)
        let okB := shapeEb B.tile.shape = eb ∧ shapeRows B.tile.shape ≤ 64 ∧ shapeCols B.tile.shape = k
        let okD := shapeEb x.shape = 4 ∧ shapeRows x.shape = shapeRows A.tile.shape ∧ shapeCols x.shape = shapeRows B.tile.shape
        let okS := ty = 0 → ∃ g, sidecarGs A.tile SA.tile = some g ∧ sidecarGs B.tile SB.tile = some g
        let sp := [A, B] ++ (if ty = 0 then [SA, SB] else [])
        let at_ := fun (p : Spot) => if ty = 0 then (p.blk, p.h) else (A.blk, A.h)
        (spot a 0 = none → takes i causeTile (a.toNat % 64) 1) ∧
        (spot a 0 = some A → spot b 0 = some B → (ty = 0 → spot a 1 = some SA ∧ spot b 1 = some SB) →
          ((∀ p ∈ sp, bit p.tile.shape 31 = false) →
            (¬okA → takes i causeTile (a.toNat % 64) 17) ∧ (okA → ¬okB → takes i causeTile (b.toNat % 64) 17) ∧
            (okA → okB → ¬okD → takes i causeTile d.toNat 17) ∧
            (okA → okB → okD → ty = 0 → sidecarGs A.tile SA.tile = none → takes i causeTile (a.toNat % 64 + 1) 18) ∧
            (okA → okB → okD → ty = 0 → sidecarGs A.tile SA.tile ≠ none → ¬okS → takes i causeTile (b.toNat % 64 + 1) 18) ∧
            (okA → okB → okD → okS → x.threads = true → takes i causeToken d.toNat 2) ∧
            (okA → okB → okD → okS → x.threads = false → ty = 1 → 131072 < x.kacc + k → takes i causeTile d.toNat 19) ∧
            (okA → okB → okD → okS → x.threads = false → (ty = 1 → x.kacc + k ≤ 131072) → issues i
              (mxCommand s₁ is (.mma ty d.toNat (A.blk, A.h) (B.blk, B.h) (at_ SA) (at_ SB) rows x.vc)
                ((sp.filter fun p => p.core = is.core).map fun p => whole p.blk p.h p.tile) dst)
              [d.toNat] (sp.filter fun p => p.core ≠ is.core)
              fun u => if ty = 1 then u.modTile is.blk d.toNat fun x => { x with kacc := x.kacc + k } else u)) ∧
          (bit A.tile.shape 31 = true → takes i causeTile (a.toNat % 64) 16))

/-! ## Engine commands and the front thread's words -/

/-- R26, R351, R352, R366, R370, R371, R402, R404, R413: an engine word of front code delivers the fault recorded on its engine's paths;
else it checks its descriptor's address and then the descriptor, which traps in the order of the rules; else its command is
accepted, with its entries in the Lashing tables, or waits while the thread stalls behind the word. DEDUCED: the order of a
collective's fault, MISALIGN, wait for the head and checks (log 50), and some values of TADDR and DETAIL (logs 32, 52). -/
def Obligations.EngineCommandsIssue : Prop :=
  ∀ s is b, let s' := closeGroup s
    let word := fun (i : Instr) (mine : Nat → Bool) (va : Quad) (check : State → BitVec 512 → Option (BitVec 8 × Nat × Nat))
        (cmd : State → BitVec 512 → Cmd) (ready : State → Cmd → Bool) (accept : State → Cmd → State) =>
      (∀ f, takeRecord b mine = some f → FrontHandled s b →
        let b' := { b with faults := b.faults.filter fun g => g.path ≠ f.path }
        ∃ t, exec i s = .next t ∧ FrontTraps (s'.setBlock is.blk b') t is b' f.cause is.g.start f.taddr f.detail.toNat) ∧
      (takeRecord b mine = none → va.toNat % 64 ≠ 0 → FrontHandled s b → ∃ t, exec i s = .next t ∧
        FrontTraps s' t is b causeMisalign is.g.start va 0) ∧
      (takeRecord b mine = none → va.toNat % 64 = 0 → ∀ v u f, Described s' is b va v u f →
        let d := BitVec.ofNat 512 v
        let c := cmd u d
        let w := { u with nextAcc := u.nextAcc + 1 }
        (∀ cause ta dt, check u d = some (cause, ta, dt) → FrontHandled s b → ∃ t, exec i s = .next t ∧
          FrontTraps (u.setBlock is.blk { b with front := f }) t is { b with front := f } cause is.g.start (BitVec.ofNat 64 ta) dt) ∧
        (check u d = none → ready w c = true → ∃ t, exec i s = .next t ∧ FrontGoes (accept w c) t is b f is.next) ∧
        (check u d = none → ready w c = false → ∃ t, exec i s = .next t ∧
          FrontGoes (addCommand w is.core c) t is b { f with status := .stalled .command } is.next)) ∧
      (takeRecord b mine = none → va.toNat % 64 = 0 → b.front.latched = none → ∀ pa coh, coh ≠ 2 →
        Reaches s' is.core b.ctx va 64 64 .desc pa coh → Unhindered s' is.core is.blk b → tget (s'.core is.core).l1 (lineOf pa) = none →
        hasEntry (s'.core is.core) (lineOf pa) = false → entryFree (s'.core is.core) = true →
        let w := asking { s' with nextAcc := s'.nextAcc + 1 } is.core (lineOf pa) coh
        .readShared is.core (lineOf pa) coh ∉ w.net → ∃ t, exec i s = .next t ∧
          FrontGoes (requested w is.core
              { frontAccOf s' is .desc va pa coh 64 with scope := 3 } (.readShared is.core (lineOf pa) coh)) t is b
            { b.front with rejects := 0, status := .stalled .load } is.g.start)
    (∀ sub bb a, sub < 7 → FrontReady s (tceWord sub bb a) is b →
      let ga := b.front.reg bb.toNat
      word (tceWord sub bb a) (fun p => p ≤ 1) (b.front.reg a.toNat)
        (fun u d => tceCheck u is.core is.blk sub (tceDesc d) ga.toNat)
        (fun u d => tceCommand u is.core is.blk sub d ga)
        (fun u c => tceReady u is.core c) (fun u c => acceptTce u is.core c)) ∧
    (∀ sub bb a, sub < 6 → FrontReady s (colWord sub bb a) is b → notHead s' b = false →
      let dst := if sub = 5 then 0 else b.front.reg bb.toNat
      word (colWord sub bb a) (fun p => p = 3) (b.front.reg a.toNat)
        (fun u d => colCheck u sub (colDesc d) dst.toNat) (fun u d => colCommand u is.blk sub d dst)
        (fun u c => colReady u is.core c) (fun u c => takeEntry u is.core c)) ∧
    ∀ sub bb a, sub < 6 → FrontReady s (colWord sub bb a) is b → takeRecord b (fun p => p = 3) = none →
      (b.front.reg a.toNat).toNat % 64 = 0 → notHead s' b = true → ∃ t, exec (colWord sub bb a) s = .next t ∧
        FrontGoes s' t is b { b.front with status := .stalled .head } is.g.start

/-- R263, R275, R338, R339, R341 to R344, R419: DQPUSH writes the entry at WP and raises WP, which releases its thread's earlier accesses
at block scope (what that covers is log 88, DEDUCED), and stalls while 128 entries are held. FEXIT makes the thread DONE. FWAITEV gives the value of its event once it holds
and stalls until then; an illegal event word is ILLOPND. LAUNCH takes MISALIGN for an address that is not a multiple of 128, waits until
the writes that it releases are performed and a place is free, and then gives the record, here in the L1, to the Dispatcher; that the
record is read through the L1 and joins the read set is log 56 (DEDUCED). -/
def Obligations.QueueLaunchAndEventWords : Prop :=
  ∀ s is b, let s' := closeGroup s
    (∀ a, FrontReady s (.dqpush a) is b →
      let v : Word := is.v.a.truncate 32
      let r := blockRelease s' is.blk none
      (dqOccupancy b < 128 → ∃ t b₁, exec (.dqpush a) s = .next t ∧ r.block is.blk = some b₁ ∧ b₁ = { b with syncs := b₁.syncs } ∧
        let b' := { b₁ with dq := b.dq.set (b.front.wp.toNat % 128) v }
        FrontGoes (r.setBlock is.blk b') t is b' { b.front with wp := b.front.wp + 1 } is.next) ∧
      (128 ≤ dqOccupancy b → ∃ t, exec (.dqpush a) s = .next t ∧
        FrontGoes s' t is b { b.front with status := .stalled (.dqRoom v) } is.next)) ∧
    (FrontReady s .fexit is b → ∃ t, exec .fexit s = .next t ∧ FrontGoes s' t is b { b.front with status := .done } is.next) ∧
    (∀ a d, FrontReady s (.fwaitev a d) is b →
      let i := Instr.fwaitev a d
      let e := is.v.a
      let kind := field e 15 12
      let arg := field e 11 0
      let phase := (b.bar arg).phase
      let free := 128 - dqOccupancy b
      let gives := fun (n : Nat) => ∃ t, exec i s = .next t ∧
        FrontGoes s' t is b (b.front.setReg d.toNat (BitVec.ofNat 64 n)) is.next
      let stalls := ∃ t, exec i s = .next t ∧
        FrontGoes s' t is b { b.front with status := .stalled (.event d.toNat kind (if bit e 16 then 1 else 0) arg) } is.next
      let legal := field e 63 17 = 0 ∧ (kind = 1 ∨ bit e 16 = false) ∧
        ((kind ≤ 1 ∧ arg < 16) ∨ (kind = 2 ∧ 1 ≤ arg ∧ arg ≤ 128) ∨ (kind = 3 ∧ arg ≤ 1024))
      (¬legal → FrontHandled s b → ∃ t, exec i s = .next t ∧ FrontTraps s' t is b causeIllopnd is.g.start 0 0) ∧
      (legal → kind = 0 → gives (if phase then 1 else 0)) ∧
      (legal → kind = 1 → if phase = bit e 16 then stalls else gives (if phase then 1 else 0)) ∧
      (legal → kind = 2 → if arg ≤ free then gives free else stalls) ∧
      (legal → kind = 3 → if liveCount b ≤ arg then gives (liveCount b) else stalls)) ∧
    (∀ a, FrontReady s (.launch a) is b →
      let i := Instr.launch a
      let va := b.front.reg a.toNat
      let core := s'.core is.core
      let u := { s' with nextAcc := s'.nextAcc + 1 }
      let upto := b.front.mark.getD s'.nextAcc
      let ready := released s' is.blk upto = true ∧ heldLaunches s' < 1024
      (va.toNat % 128 ≠ 0 → FrontHandled s b → ∃ t, exec i s = .next t ∧ FrontTraps s' t is b causeMisalign is.g.start va 0) ∧
      (va.toNat % 128 = 0 → notHead s' b = true → ∃ t, exec i s = .next t ∧
        FrontGoes s' t is b { b.front with status := .stalled .head } is.g.start) ∧
      (va.toNat % 128 = 0 → notHead s' b = false → ¬ready → ∃ t, exec i s = .next t ∧
        FrontGoes s' t is b { b.front with mark := some upto, status := .stalled .launch } is.g.start) ∧
      (ready → ∀ pa coh, coh ≠ 2 → Reaches s' is.core b.ctx va 128 128 .record pa coh → Unhindered s' is.core is.blk b →
        (∀ l v, tget core.l1 (lineOf pa) = some l → Serves l pa 128 coh v → ∃ t, exec i s = .next t ∧
          FrontGoes (submit u (BitVec.ofNat 1024 v) (some b.ctx) none) t is b
            { sawFrontLine pa b.front with mark := none, status := if b.front.status = .done then .done else .run } is.next) ∧
        (tget core.l1 (lineOf pa) = none → hasEntry core (lineOf pa) = false → entryFree core = true →
          let v := asking u is.core (lineOf pa) coh
          .readShared is.core (lineOf pa) coh ∉ v.net → ∃ t, exec i s = .next t ∧
            FrontGoes (requested v is.core { frontAccOf s' is .record va pa coh 128 with scope := 3 }
                (.readShared is.core (lineOf pa) coh)) t is b
              { b.front with mark := none, rejects := 0, status := .stalled .launch } is.next)))

/-- R345 to R350: WRANGE reads the block's range of a work-split launch, else 0. FIXUP reads how many blocks meet its tile and how many
have come before, and counts one more; it stalls until the writes that it releases are performed. FETCHW checks its mailbox as an STX and
asks the Dispatcher for a block, or in another mode writes zeros at once. SCRET adds its bits to the launch's return word. POWQ
reads the island's clock, number, budget bits and state. -/
def Obligations.SchedulerWords : Prop :=
  ∀ s is b, let s' := closeGroup s
    let l := s'.launchOf b
    let traps := fun (i : Instr) (c : BitVec 8) (ta : Quad) (d : Nat) => FrontHandled s b → ∃ t, exec i s = .next t ∧
      FrontTraps s' t is b c is.g.start ta d
    (∀ d, FrontReady s (.wrange d) is b →
      let at_ := fun (k : Nat) => if l.mode = 1 then BitVec.ofNat 64 (k * l.wt / l.nblocks) else 0
      ∃ t, exec (.wrange d) s = .next t ∧
        FrontGoes s' t is b ((b.front.setReg d.toNat (at_ b.b)).setReg (d.toNat + 1) (at_ (b.b + 1))) is.next) ∧
    (∀ a d, FrontReady s (.fixup a d) is b → tget s'.launches b.launch = some l →
      let i := Instr.fixup a d
      let x := (b.front.reg a.toNat).toNat
      let split := l.mode = 1
      let n := (tget l.fixups x).getD 0
      let ready := released s' is.blk s'.nextAcc
      let u := fenceDone s' is.blk none 1 3
      (split → ceilDiv l.wt l.wipt ≤ x → traps i causeIllopnd 0 0) ∧
      ((split → x < ceilDiv l.wt l.wipt) → notHead s' b = false →
        (ready = false → ∃ t, exec i s = .next t ∧
          FrontGoes s' t is b { b.front with status := .stalled (.fixup d.toNat x s'.nextAcc) } is.next) ∧
        (ready = true → ¬split → ∃ t, exec i s = .next t ∧
          FrontGoes u t is b (b.front.setReg d.toNat (BitVec.ofNat 64 (2 ^ 32))) is.next) ∧
        (ready = true → split → ∃ t, exec i s = .next t ∧
          FrontGoes (u.modLaunch b.launch fun l => { l with fixups := tset l.fixups x (n + 1) }) t is b
            (b.front.setReg d.toNat (BitVec.ofNat 64 (contributors l x * 2 ^ 32 + n))) is.next))) ∧
    (∀ a, FrontReady s (.fetchw a) is b →
      let i := Instr.fetchw a
      let m := b.front.reg a.toNat
      let h := field m 25 20
      let off := field m 19 0
      (field m 63 26 ≠ 0 → traps i causeIllopnd 0 0) ∧
      (field m 63 26 = 0 → off % 16 ≠ 0 → traps i causeMisalign (BitVec.ofNat 64 off) 0) ∧
      (field m 63 26 = 0 → off % 16 = 0 → s'.tile is.blk h = none → traps i causeTile (BitVec.ofNat 64 off) 1) ∧
      (field m 63 26 = 0 → ∀ p, ReachesTile s' is.core is.blk h off 16 16 .storeAny p →
        (l.mode = 2 → ∃ t, exec i s = .next t ∧
          FrontGoes { s' with net := s'.net ++ [.fetchw is.blk h off] } t is b b.front is.next) ∧
        (l.mode ≠ 2 →
          let u := markWords (s'.modTile is.blk h fun x => { x with bytes := x.bytes.setNum off 16 0 }) is.blk h true (wordsFrom off 4)
          ∃ t b', u.block is.blk = some b' ∧ exec i s = .next t ∧ FrontGoes u t is b' b.front is.next))) ∧
    (∀ a, FrontReady s (.scret a) is b →
      let v := b.front.reg a.toNat
      (field v 63 32 ≠ 0 → traps (.scret a) causeIllopnd 0 0) ∧
      (field v 63 32 = 0 → ∃ t, exec (.scret a) s = .next t ∧
        FrontGoes (s'.modLaunch b.launch fun l => { l with ret := l.ret ||| v.truncate 32 }) t is b b.front is.next)) ∧
    ∀ d, FrontReady s (.powq d) is b →
      let n := 64 * (is.core / 40) + is.core % 40
      let x := s'.island n
      ∃ t, exec (.powq d) s = .next t ∧ FrontGoes s' t is b (b.front.setReg d.toNat (BitVec.ofNat 64
        ([0, 700, 1050, 1400, 1600, 1800, 2000, 2100].getD x.vfs.toNat 0 * 2 ^ 32 + n * 2 ^ 16 +
          (if field x.cmd 47 32 = 0 then 16 else 0) + (if x.ovb then 8 else 0) + x.vfs.toNat))) is.next

/-! ## Events: the device -/

/-- R417, R449, R454, R458 to R461, R463: what a write or read of a register of BAR2 does beside its value, what an event of an island,
of the firmware, of attestation or of the link leaves, and the writes that have no effect. The firmware is verified in three stages, and
service level 1 follows when all have passed and die 0 is trained, whichever comes last. Choices of the model: an ISLCMD whose state is
refused still takes BUDGET and DUTY, and the limit of the states below level 2 (log 44, DEDUCED); what ends an energy window (log 45,
DESIGN CHOICE); how a die is powered down: its other islands go to state 0 together, once every core of it is gated and no request of it
to the host is open, and its slices hold nothing then (log 101, DESIGN CHOICE). -/
def Obligations.DeviceRegisterEvents : Prop :=
  ∀ s, let d := s.dev
    let sets := fun (i : Instr) (d : Dev) => exec i s = .next { s with dev := d }
    let same := fun (i : Instr) => exec i s = .next s
    let isl := fun (n : Nat) (x : Island) => { d with islands := tset d.islands n x }
    let reads := fun (i : Instr) (off : Nat) (d : Dev) =>
      exec i s = .next { s with reply := leBytes 8 (bar2 s off), replyBad := false, dev := d }
    (∀ v, sets (.registerWrite 0x10 v) { d with qnt := v.truncate 32 } ∧ sets (.registerWrite 0x18 v) { d with spbase := v } ∧
      sets (.registerWrite 0x20 v) { d with spsize := v } ∧ sets (.registerWrite 0x40 v) { d with fqbase := v } ∧
      sets (.registerWrite 0x60 v) { d with ftmo := v.truncate 32 } ∧
      sets (.registerWrite 0x108 v) { d with cethr := v.extractLsb' 48 16 }) ∧
    (∀ v, if bit d.tlbinv 63 = true then same (.registerWrite 0x78 v)
      else sets (.registerWrite 0x78 v) { d with tlbva := BitVec.ofNat 64 (field v 56 16 * 65536) }) ∧
    (∀ v k, k < 4 → ∃ x : BitVec 256, sets (.registerWrite (0x200 + 8 * k) v) { d with nonce := x } ∧
      ∀ j, j < 4 → x.extractLsb' (64 * j) 64 = if j = k then v else d.nonce.extractLsb' (64 * j) 64) ∧
    (∀ off v, off ∉ [0x10, 0x18, 0x20, 0x40, 0x60, 0x78, 0x108, 0x200, 0x208, 0x210, 0x218] → same (.registerWrite off v)) ∧
    (∀ v, if d.fqsize < d.fqtail - v then same (.fqheadWrite v)
      else exec (.fqheadWrite v) s = .next (postFaults s.frecs.length { s with dev := { d with fqhead := v } })) ∧
    (∀ k, 4 ≤ k → k ≤ 16 → exec (.fqsizeWrite (BitVec.ofNat 32 (2 ^ k))) s =
      .next (postFaults s.frecs.length { s with dev := { d with fqsize := BitVec.ofNat 32 (2 ^ k) } })) ∧
    (∀ v : BitVec 32, (∀ k, 4 ≤ k → k ≤ 16 → v.toNat ≠ 2 ^ k) → same (.fqsizeWrite v)) ∧
    (∀ v : BitVec 32, if 256 ≤ v.toNat ∧ v.toNat ≤ 65535 then sets (.rhtWrite v) { d with rht := v } else same (.rhtWrite v)) ∧
    (∀ v, if bit v 2 = true then sets (.clrpoison v) { d with poisoned := [] } else same (.clrpoison v)) ∧
    reads .celogRead 0x108 { d with celast := 0, cecount := 0 } ∧
    (∀ v, if d.svcl < 2 then sets (.domcfgWrite v) { d with domcfg := v &&& 0xFFFF } else same (.domcfgWrite v)) ∧
    (∀ k, d.svcl = 0 → d.atterr = false → d.stages = k → k < 3 → let d' := { d with stages := k + 1 }
      sets (.firmwareVerify true) (if k = 2 ∧ d.trained = true then { d' with svcl := 1, msix := d.msix ++ [1] } else d') ∧
      sets (.firmwareVerify false) { d with atterr := true }) ∧
    (∀ ok, d.svcl ≠ 0 ∨ d.atterr = true ∨ d.stages = 3 → same (.firmwareVerify ok)) ∧
    sets .die0Trained (if d.svcl = 0 ∧ d.stages = 3 ∧ d.atterr = false then { d with trained := true, svcl := 1, msix := d.msix ++ [1] }
      else { d with trained := true }) ∧
    (d.attbusy = false → sets (.attestationRequest 1) { d with attbusy := true, attdone := false }) ∧
    (∀ v, d.attbusy = true ∨ v ≠ 1 → same (.attestationRequest v)) ∧
    (d.attbusy = true → sets .attestationDone { d with attbusy := false, attdone := true, report := attReport d }) ∧
    (∀ w g, w = 16 ∨ w = 8 → g = 128 ∨ g = 64 ∨ g = 32 →
      sets (.linkUp w g) { d with linkUp := true, linkWidth := w, linkSpeed := g }) ∧
    ∀ n, n < 256 → let x := s.island n
      (∀ v, let k := field v 2 0
        let ok := if n % 64 < 40 then k = 0 ∨ ((d.svcl = 2 ∨ 64 ≤ n ∨ k = 2) ∧ dieOff s (n / 64) = false)
          else 5 ≤ k ∨ (k = 0 ∧ coresOff s (n / 64) = true)
        let rest := field v 47 32 * 2 ^ 32 + field v 10 8 * 2 ^ 8
        (ok → sets (.islcmdWrite n v) (isl n { x with cmd := BitVec.ofNat 64 (rest + k) })) ∧
        (¬ok → sets (.islcmdWrite n v) (isl n { x with cmd := BitVec.ofNat 64 (rest + field x.cmd 2 0), rej := true }))) ∧
      reads (.islstatRead n) (0x1800 + 8 * n) (isl n { x with rej := false }) ∧
      (field x.cmd 2 0 ≠ 0 → sets (.vfsChangeComplete n) (isl n { x with vfs := BitVec.ofNat 3 (field x.cmd 2 0) })) ∧
      (∀ cycle, n % 64 < 40 → field x.cmd 2 0 = 0 → x.vfs ≠ 0 → s.core (n / 64 * 40 + n % 64) = { cycle := cycle } → s.blocks = [] →
        sets (.islandGate n) (isl n { x with vfs := 0 })) ∧
      (field x.cmd 2 0 ≠ 0 ∨ x.vfs = 0 → same (.islandGate n)) ∧
      (40 ≤ n % 64 → dieIdle s (n / 64) = false → same (.islandGate n)) ∧
      (40 ≤ n % 64 → field x.cmd 2 0 = 0 → x.vfs ≠ 0 → dieIdle s (n / 64) = true → ∃ t, exec (.islandGate n) s = .next t ∧
        t.dev = { d with islands := t.dev.islands, hostOwned := t.dev.hostOwned, hostShared := t.dev.hostShared, flushed := true } ∧
        (∀ k ∈ dieIslands (n / 64), t.island k = { s.island k with vfs := 0 }) ∧ (∀ k, k ∉ dieIslands (n / 64) → t.island k = s.island k) ∧
        (∀ l, l ∈ t.dev.hostOwned ∨ l ∈ t.dev.hostShared → lineDie s l ≠ n / 64) ∧ (∀ h ∈ t.home, lineDie s h.1 ≠ n / 64) ∧
        ∀ c l x, lineDie s l = n / 64 → tget (t.core c).l1 l = some x → x.coh = 1 ∨ (tget s.home l = none ∧ l ∉ d.hostOwned ++ d.hostShared)) ∧
      (∀ mj, sets (.energyWindow n mj) (isl n { x with energy := mj, ovb := false })) ∧
      ∀ b, let d' := isl n { x with tband := b }
        sets (.temperatureBandChange n b) (if b = 7 ∧ x.tband ≠ 7 then { d' with msix := d.msix ++ [3] } else d')

/-- R285, R286, R449 to R457, R462: resets, the host's accesses and snoops, the host's answers, the HBM queue, refresh, scrubbing and the
move of the HBM layout. An unplanned reset loses the host lines that the device owns; a planned one first returns them. An access of the
host is served at the line's home. Choices of the model: that a reset keeps HBM, its poison, the link and the vectors raised (log 46,
DEDUCED); the course of the layout move (log 47, DESIGN CHOICE); that an answer stands in the reply field (log 67, DESIGN CHOICE). -/
def Obligations.HostResetAndHbmEvents : Prop :=
  ∀ s, let d := s.dev
    let sets := fun (i : Instr) (t : State) => exec i s = .next t
    let after := fun (lost : List Nat) => { State.reset with
      mem := s.mem, poison := s.poison, nfree := s.nfree
      dev := { State.reset.dev with poisoned := lost.foldl insertNat d.poisoned, linkUp := d.linkUp, linkWidth := d.linkWidth,
                                    linkSpeed := d.linkSpeed, msix := d.msix ++ if d.svcl = 0 then [] else [1] } }
    let lost := after d.hostOwned
    let returned := (d.hostOwned ++ d.hostShared).foldl dropCopies s
    let flush := { returned with
      dev := { returned.dev with hostOwned := [], hostShared := [], flushed := true, resetting := true }, agenda := [] }
    sets (.plannedReset 0x0A5E) flush ∧ (∀ v, v ≠ 0x0A5E → sets (.plannedReset v) s) ∧ sets .cxlReset flush ∧
    sets .watchdogReset lost ∧ sets .linkDown { lost with dev := { lost.dev with linkUp := false, linkWidth := 0, linkSpeed := 0 } } ∧
    sets .thermalTrip { lost with dev := { lost.dev with halted := true } } ∧
    sets .powerOnReset { State.reset with nfree := s.nfree } ∧
    (∀ row, sets (.rowRefresh row) s) ∧
    (∀ row, let d' := { d with acts := tdel d.acts row }
      sets (.activationThreshold row) { s with dev := if actCount s row < d.rht.toNat then logCorrectable d' 3 else d' }) ∧
    (∀ line e, d.svcl ≠ 0 → region s (128 * line) = .localHbm → sets (.patrolScrub line e) (hbmCheck s line e) ∧
      hbmCheck s line .clean = s ∧ hbmCheck s line .uncorrectable = { s with poison := insertNat s.poison line }) ∧
    (∀ slice h, hbmChoice s slice = some h →
      let u := openRow s (Config.rowOf h.line)
      sets (.hbmRequestIssue slice) { u with hbm := s.hbm.map fun x => if x = h then { x with issued := true } else x }) ∧
    (∀ n h e, s.hbm[n]? = some h → h.issued = true → sets (.hbmDataReturn n e)
      (if h.read = true then hbmCheck (enterLine { s with hbm := ldel s.hbm n } h.line) h.line e else { s with hbm := ldel s.hbm n })) ∧
    (∀ n h e, s.hbm[n]? = some h → h.issued = false → sets (.hbmDataReturn n e) s) ∧
    (d.svcl = 1 → domErr s = false → d.moving = false → sets .hbmLayoutMove { s with dev := { d with moving := true } }) ∧
    (d.svcl ≠ 1 ∨ domErr s = true → sets .hbmLayoutMove s) ∧
    (d.svcl = 1 → domErr s = false → d.moving = true → (quiet s = false → sets .hbmLayoutMove s) ∧
      (quiet s = true → ∃ t, exec .hbmLayoutMove s = .next t ∧ t.dev = { d with svcl := 2, moving := false, msix := d.msix ++ [1] } ∧
        (∀ c line, line < 2 ^ 32 → tget (t.core c).l1 line = none) ∧ (∀ h ∈ t.home, 2 ^ 32 ≤ h.1) ∧ (∀ p ∈ t.proxies, 2 ^ 32 ≤ p.1 % 2 ^ 45) ∧
        (∀ c, ∀ h ∈ (t.core c).hanks, h.hank = 0) ∧ (∀ h ∈ t.hbm, h.issued = false ∧ h.slice = lineSlice t h.line) ∧
        t.hbm.map HbmReq.line = s.hbm.map HbmReq.line)) ∧
    (∀ pa len, d.svcl ≠ 0 → d.moving = false → region s pa = .localHbm → pa % 128 + len ≤ 128 → lineReady s (lineOf pa) = true →
      let u := recallOwner (enterLine s (lineOf pa)) (lineOf pa)
      sets (.cxlMemAccess pa none len) { u with reply := hostBytes u pa len, replyBad := lineBad u (lineOf pa) }) ∧
    (∀ pa bs len, d.svcl ≠ 0 → d.moving = false → region s pa = .localHbm → pa % 128 + bs.length ≤ 128 → lineReady s (lineOf pa) = true →
      sets (.cxlMemAccess pa (some bs) len) { homeWrite (enterLine s (lineOf pa)) pa bs with reply := [], replyBad := false }) ∧
    (∀ pa wr len, (d.svcl = 0 ∨ d.moving = true ∨ region s pa ≠ .localHbm) → sets (.cxlMemAccess pa wr len) s) ∧
    (∀ line inval, d.poisoned.contains line = true → sets (.hostSnoop line inval) { s with reply := [], replyBad := true }) ∧
    (∀ line inval, line ∉ d.poisoned → line ∉ d.hostOwned → line ∉ d.hostShared →
      sets (.hostSnoop line inval) { s with reply := [], replyBad := false }) ∧
    (∀ line, line ∉ d.poisoned →
      let yields := fun (u : State) =>
        let v := dropCopies u line
        let w := recallOwner u line
        sets (.hostSnoop line true) { v with home := tdel v.home line, dev := { v.dev with
          hostOwned := v.dev.hostOwned.filter (· ≠ line), hostShared := v.dev.hostShared.filter (· ≠ line) } } ∧
        sets (.hostSnoop line false) { w with dev := { w.dev with
          hostOwned := w.dev.hostOwned.filter (· ≠ line), hostShared := insertNat w.dev.hostShared line } }
      (line ∈ d.hostOwned → let u := recallOwner s line
        yields { u with reply := homeBytes u (128 * line) 128, replyBad := lineBad u line }) ∧
      (line ∉ d.hostOwned → line ∈ d.hostShared → yields { s with reply := [], replyBad := false })) ∧
    (∀ n line bs, s.net[n]? = some (.hostLine line none) → sets (.hostLineResponse n (.data bs))
      (holdHost { s with net := ldel s.net n } line bs false)) ∧
    (∀ n line r, s.net[n]? = some (.hostLine line none) → (∀ bs, r ≠ .data bs) →
      sets (.hostLineResponse n r) (holdHost { s with net := ldel s.net n } line [] true)) ∧
    (∀ n line bs, s.net[n]? = some (.hostOwn line) → let u := { s with net := ldel s.net n }
      let v := if lineReady s line = true then u else holdHost u line bs false
      sets (.hostLineResponse n (.data bs)) (wakeCommands { v with dev := { v.dev with
        hostOwned := insertNat v.dev.hostOwned line, hostShared := v.dev.hostShared.filter (· ≠ line) } })) ∧
    ∀ n line core a r, s.net[n]? = some (.hostLine line (some (core, a))) → let left := ldel s.net n
      (a.kind.returns = false → sets (.hostLineResponse n r) { s with net := left ++ [.ack core (some a.id) a.blk a.who] }) ∧
      (a.kind.returns = true →
        (∀ bs, r = .data bs → sets (.hostLineResponse n r) { s with net := left ++
          [.value core a (BitVec.ofNat 1024 (withOwnStage s a (leValue (bs.take a.size)))) false] }) ∧
        ((∀ bs, r ≠ .data bs) → sets (.hostLineResponse n r) { s with net := left ++ [.value core a 0 true] }))

/-! ## Events: the memory system -/

/-- R222, R230, R231, R254, R258, R264, R268, R270, R281 to R289, R296, R400, R401: the home serves a request once it is its turn and the
line is there: a shared copy comes from the die's proxy slice, unless an older write of the core's cluster is about to invalidate it, or,
the owner recalled, from the home; ownership takes the other copies of the home's die, and those of other dies and devices by messages
that the writer's core counts; a write-back merges its bytes; a single access or atomic is performed at the home, or at cluster scope at
the cluster's unit, and is answered. An entry of a slice that the slice has no room for evicts one. Answers reach their core, which
retries what waited for the line. Another device's request is served like the host's, and a device that reads is counted. Choices of the
model: an atomic at another place may come between the read and the write of one, and the words of a write-back may merge in two parts
(Config.splitAtomic and Config.splitMerge, log 4, DESIGN CHOICE; the halves of a b128 access travel as two accesses, log 5); which writes
and reductions a write-back notes for conflicts (log 24); another device's request as an event of this one (log 48); which invalidations
are messages (log 61); what a slice evicts and the entry its write-back takes (log 70); how the ownership of a host line is asked for
(log 89), all DEDUCED. -/
def Obligations.MemorySystemEvents : Prop :=
  ∀ s n, let sets := fun (i : Instr) (t : State) => exec i s = .next t
    let left := ({ s with net := ldel s.net n } : State)
    (∀ core line coh, s.net[n]? = some (.readShared core line coh) →
      let room := coh = 1 ∨ proxyRoom s core line = true
      (¬room → sets (.readSharedRequest n) s) ∧
      (room → lineReady s line = false → inOrder s n = true → granting s line = false → (coh = 1 → restOpen s line = false) →
        sets (.readSharedRequest n) (fetchLine s line)) ∧
      (room → Servable s n line false → let u := taken s n line
        (coh = 1 → sets (.readSharedRequest n) (sends u (.fill core line 1 (lineData u line) (lineBad u line)))) ∧
        (coh ≠ 1 → staleProxy u core line = false → ∀ p, tget u.proxies (proxyKey (coreDie core) line) = some p →
          let p' := { p with sharers := withBit p.sharers (core % 40) true }
          sets (.readSharedRequest n) (sends { u with proxies := tset u.proxies (proxyKey (coreDie core) line) p' }
            (.fill core line coh p.data (lineBad u line)))) ∧
        (coh ≠ 1 → staleProxy u core line = true ∨ tget u.proxies (proxyKey (coreDie core) line) = none →
          let v := addSharer (recallOwner u line) core line
          sets (.readSharedRequest n) (sends v (.fill core line coh (lineData v line) (lineBad v line)))))) ∧
    (∀ core a, s.net[n]? = some (.readHome core a) → Servable s n a.line false → let u := recallOwner (taken s n a.line) a.line
      sets (.readSharedRequest n)
        (sends u (.value core a (BitVec.ofNat 1024 (withOwnStage u a (homeNum u a.pa a.size))) (lineBad u a.line)))) ∧
    (∀ core line, s.net[n]? = some (.ownership core line) → Servable s n line true → let u := ownLine (taken s n line) core line core
      sets (.ownershipRequest n) (sends u (.grant core line)) ∧
      (∃ h, tget u.home line = some h ∧ h.dir = .owned core ∧ h.sharers = 0 ∧ h.dies = 0 ∧ h.devs = []) ∧
      (∀ c l, c ≠ core → coreDie c = lineDie u line → tget (u.core c).l1 line = some l → l.coh = 1) ∧
      ∀ h, tget (taken s n line).home line = some h → (∀ d, d < 4 → bit h.dies d = true → .proxyInv d line core ∈ u.net) ∧
        (∀ d ∈ h.devs, .devInv d line core ∈ u.net) ∧
        ∀ c l, h.dir = .owned c → c ≠ core → tget (u.core c).l1 line = some l → l.coh = 1) ∧
    (∀ core line mask data who notes, let u := taken s n line
      let ends := sets (.homeWriteback n) (let w := merged (notes.foldl (fun u x => if x.red = true then
            u.modLaunch x.launch fun l => if l.det = true ∧ (line, x.b) ∉ l.staged then { l with staged := l.staged ++ [(line, x.b)] } else l
          else writeAtHome u x.launch x.b (128 * line) x.va ((List.range 128).filter fun i => bit x.mask i)) u) line mask data
        { w with net := w.net ++ backAck core who })
      let first := mask &&& wordsMask (Config.splitMerge s.now)
      let whole := first = 0 ∨ first = mask ∨ lineBad u line = true
      (s.net[n]? = some (.writeback core line mask data who notes) → Servable s n line true → (whole → ends) ∧
        (¬whole → let v := merged u line first data
          sets (.homeWriteback n) { v with net := .rest core line (mask &&& ~~~first) data who notes :: v.net })) ∧
      (s.net[n]? = some (.rest core line mask data who notes) → Servable s n line true → ends)) ∧
    (∀ core a, s.net[n]? = some (.writeHome core a) → Servable s n a.line true → sets (.homeWriteback n)
      (sends (homeWrite (taken s n a.line) a.pa (bytesOf a.size a.data)) (.ack core (some a.id) a.blk a.who))) ∧
    (∀ line, tget s.home line = none → let l := sliceLines s (lineSlice s line)
      (l.length < 16 → enterLine s line = { s with home := tset s.home line {} }) ∧
      (16 ≤ l.length → (l.filter fun x => Config.l2Set x.2 % 128 = Config.l2Set line % 128).length < 16 →
        enterLine s line = { s with home := tset s.home line {} })) ∧
    (∀ line, let u := evictHome s line
      let free := fun (r : HbmReq) => decide (r.line = line) && !r.issued
      tget u.home line = none ∧ (∀ c l, tget (u.core c).l1 line = some l → l.coh = 1) ∧
      (∀ p ∈ u.proxies, p.1 % 2 ^ 45 ≠ line) ∧ line ∉ u.dev.hostOwned ∧ line ∉ u.dev.hostShared ∧
      ∀ h, tget (dropCopies s line).home line = some h → (h.dirty = 0 → u.hbm = s.hbm) ∧
        (h.dirty ≠ 0 → region s (128 * line) = .localHbm → u.hbm = if s.hbm.any free = true
          then s.hbm.map fun r => if free r = true then { r with write := true } else r
          else s.hbm ++ [{ slice := lineSlice s line, line := line, since := s.now, write := true, read := false }]) ∧
        (h.dirty ≠ 0 → region s (128 * line) ≠ .localHbm → .port line true ∈ u.net)) ∧
    (∀ core a, toHost s a = false → Servable s n a.line true →
      let performs := fun (i : Instr) (u : State) (place : Option Nat) => let old := homeNum u a.pa a.size
        let w := if Config.splitAtomic u.now = true then atomicBetween u a.line place else u
        let v := noteReduction (dirtyHome { w with mem := w.mem.setNum a.pa a.size (a.newValue old) } a.line a.mask) a
        (lineBad u a.line = true → sets i (sends u (.value core a 0 true))) ∧
        (lineBad u a.line = false → sets i (sends v (match a.kind with
          | .reduce _ _ => .ack core (some a.id) a.blk a.who
          | _ => .value core a (BitVec.ofNat 1024 old) false)))
      (s.net[n]? = some (.atomic core a) → performs (.homeAtomic n) (dropCopies (taken s n a.line) a.line) none) ∧
      (s.net[n]? = some (.clusterAtomic core a) → performs (.clusterAtomic n)
        (clusterTake (clusterRecall (taken s n a.line) (core / 4) a.line) (core / 4) a.line core) (some (core / 4)))) ∧
    (∀ line place, (otherPlace s line place = none → atomicBetween s line place = s) ∧
      ∀ k core a, otherPlace s line place = some k → (s.net[k]? = some (.atomic core a) ∨ s.net[k]? = some (.clusterAtomic core a)) →
        a.line = line ∧ let old := homeNum s a.pa a.size
        let w := ({ s with net := ldel s.net k } : State)
        atomicBetween s line place = sends
          (noteReduction (dirtyHome { w with mem := w.mem.setNum a.pa a.size (a.newValue old) } a.line a.mask) a) (match a.kind with
            | .reduce _ _ => .ack core (some a.id) a.blk a.who
            | _ => .value core a (BitVec.ofNat 1024 old) false)) ∧
    (∀ core a, toHost s a = true → let u := dropCopies left a.line
      let asks := { sends u (.hostLine a.line (some (core, a))) with
        home := tdel u.home a.line
        dev := { u.dev with hostOwned := u.dev.hostOwned.filter (· ≠ a.line), hostShared := u.dev.hostShared.filter (· ≠ a.line) } }
      let does := fun (i : Instr) => (inOrder s n = true → missRoom s a.line = true → sets i asks) ∧
        (inOrder s n = false ∨ missRoom s a.line = false → sets i s)
      (s.net[n]? = some (.atomic core a) → does (.homeAtomic n)) ∧ (s.net[n]? = some (.clusterAtomic core a) → does (.clusterAtomic n))) ∧
    (inOrder s n = true →
      (∀ core line coh data bad, s.net[n]? = some (.fill core line coh data bad) → sets (.loadDataReturn n)
        (retryLine (if ownsLine s core line = true then left else installLine left core line coh data bad false) core line)) ∧
      (∀ core a v, s.net[n]? = some (.value core a v false) → sets (.loadDataReturn n)
        (endAcc (finishAcc left a (if a.kind = .load then withOwnDirty left core a v.toNat else v.toNat)) core a.id)) ∧
      (∀ core a v, s.net[n]? = some (.value core a v true) → sets (.loadDataReturn n) (endAcc (failEcc left a) core a.id)) ∧
      (∀ line, s.net[n]? = some (.port line true) → sets (.loadDataReturn n) left) ∧
      (∀ line, s.net[n]? = some (.port line false) → sets (.loadDataReturn n) (wakeCommands (enterLine left line))) ∧
      (∀ core line, s.net[n]? = some (.grant core line) → sets (.ownershipGrant n)
        (retryLine (installLine left core line (ownCoh (left.core core) line) (lineData left line) (lineBad left line) true) core line))) ∧
    (∀ die line core, s.net[n]? = some (.proxyInv die line core) →
      let gone := fun c => decide (coreDie c = die) && !ownsLine s c line
      sets (.invalidationAck n) (progress { left with
        proxies := tdel left.proxies (proxyKey die line)
        cores := tmap (fun k c => if gone k then dropCopy line c else c) left.cores
        net := left.net.map (refetch line gone) } core)) ∧
    (∀ dev line core, s.net[n]? = some (.devInv dev line core) → sets (.invalidationAck n) (progress left core)) ∧
    (∀ core i blk who, s.net[n]? = some (.ack core (some i) blk who) → sets (.writeAcknowledgement n) (endAcc left core i)) ∧
    (∀ core blk who, s.net[n]? = some (.ack core none blk who) → sets (.writeAcknowledgement n) (progress left core)) ∧
    (∀ core line l, tget (s.core core).l1 line = some l → l.coh = 1 →
      (l.filled + 2 ^ 20 ≤ (s.core core).cycle → sets (.coh01RetentionEviction core line) (evictLine s core line)) ∧
      ((s.core core).cycle < l.filled + 2 ^ 20 → sets (.coh01RetentionEviction core line) s)) ∧
    (∀ dev pa, s.dev.svcl = 2 → dev < domainSize s → dev ≠ ownDev s →
      pa < 2 ^ 39 ∨ (∃ d, region s pa = .fabric d ∧ d < domainSize s) → lineReady s (lineOf pa) = true →
      let u := if region s pa = .localHbm then enterLine s (lineOf pa) else s
      (∀ len, pa % 128 + len ≤ 128 → let v := modLine (recallOwner u (lineOf pa)) (lineOf pa) fun h =>
          { h with dir := if h.dir = .invalid then .shared else h.dir, devs := insertNat h.devs dev }
        sets (.sidinRequest ⟨dev, pa, .read len⟩) { v with reply := homeBytes v pa len, replyBad := lineBad v (lineOf pa) }) ∧
      (∀ bs, pa % 128 + bs.length ≤ 128 →
        sets (.sidinRequest ⟨dev, pa, .write bs⟩) { homeWrite u pa bs with reply := [], replyBad := false }) ∧
      (∀ op ty x y, let k := if Sig.atomWide ty.toNat then 8 else 4
        let v := dropCopies u (lineOf pa)
        pa % k = 0 →
        (lineBad v (lineOf pa) = true → sets (.sidinRequest ⟨dev, pa, .atomic op ty x y⟩) { v with reply := [], replyBad := true }) ∧
        (lineBad v (lineOf pa) = false →
        sets (.sidinRequest ⟨dev, pa, .atomic op ty x y⟩) { dirtyHome v (lineOf pa) (byteMask (pa % 128) k) with
          mem := v.mem.setNum pa k (atomicNew op.toNat ty.toNat (homeNum v pa k) (x.toNat % 2 ^ (8 * k)) (y.toNat % 2 ^ (8 * k)))
          reply := leBytes k (homeNum v pa k), replyBad := false })))

/-! ## Events: threads, warps and blocks -/

/-- R98 to R101, R106, R111, R112, R176, R221: once threads of the pool have arrived at home-bound groups, the free slots are filled in
ascending order, each by the preferred cohort, no thread counts as just released any more, and the pops of RET that are due split their
warps, whose other sides are candidates from the next cycle on. With no slot free, an aged READY thread takes the place of a warp that
holds no aged thread and waits at no FENCE or DRAIN; its members become READY, at their chain heads unless their next group empties the
rings. A rejected group is tried again after its time, and the head of the aged queue proceeds once an aged entry is free. Choices of the
model: how a cohort is chosen where the rules tie (logs 19 and 74), what ages (log 20), that a departure just before NOP16 restarts at the
chain head (log 21), what an arrival from the pool traps with (log 73), and the last issue of a warp that has not issued (log 75). -/
def Obligations.WarpFormationEvents : Prop :=
  ∀ s core quad, let ready := (List.range 8).filter (slotReady s core quad)
    (let u := arrivePool s core quad
      ∃ v t, exec (.warpFormation core quad) s = .next ((List.range 8).foldl (fun t slot => settlePops t core quad slot) t) ∧
        Fills core quad (freeSlots u core quad) u v ∧
        t = { v with blocks := t.blocks } ∧ ∀ k, t.block k = (v.block k).map fun b =>
          if (quadBlocks v core quad).any fun p => p.1 = k then
            { b with threads := tmap (fun _ (th : Thread) => { th with released := false }) b.threads } else b) ∧
    (oldestAged s core quad ready = none → exec (.agedThread core quad) s = .next s) ∧
    (∀ k b x th, oldestAged s core quad ready = some (k, b, x, th) →
        (∀ slot lane, th.status = .active slot lane → exec (.agedThread core quad) s = .next s) ∧
        (th.status = .ready →
          (∀ slot free c, freeSlots s core quad = slot :: free → bestCohort s core quad = some c →
            ∃ t, exec (.agedThread core quad) s = .next t ∧ Formed s t core quad slot c) ∧
          (∀ slot w, freeSlots s core quad = [] → victimSlot s core quad = some slot → tget ((s.core core).quad quad).slots slot = some w →
            let u := w.members.foldl (fun u m => u.modThread w.blk m.1 fun th =>
              th.ready (if nextPure s core w = true then (chainHead th.ring).getD th.pc else th.pc)) s
            let u := u.modQuad core quad fun q => { q with slots := tdel q.slots slot }
            ∀ c, bestCohort u core quad = some c → ∃ t, exec (.agedThread core quad) s = .next t ∧ Formed u t core quad slot c) ∧
          (freeSlots s core quad = [] → victimSlot s core quad = none → exec (.agedThread core quad) s = .next s))) ∧
    (∀ k x th n, (s.block k).bind (Block.thread · x) = some th → th.status = .waiting (.rejected n) →
      ∃ t, exec (.rejectionRetry k x) s = .next t ∧
        ThreadBecomes s t k x (if n ≤ s.now then { th with status := .ready, age := 0, ring := [] } else th)) ∧
    ∀ w ws, (s.core core).aged = w :: ws →
      let es := (s.core core).entries
      let has := es.any fun e => e.line = w.acc.line
      let full := 8 ≤ (es.filter MissEntry.aged).length
      (full → has = false → exec (.agedEntryGrant core) s = .next s) ∧
      ∀ u, (¬full ∨ has = true) → resumeAccess (s.setCore core { s.core core with
          aged := ws, entries := if has then es else es ++ [{ line := w.acc.line, aged := true }] }) w = some u →
        exec (.agedEntryGrant core) s = .next u

/-- R25, R183, R184, R188, R191, R192, R203, R233, R234, R275, R339, R340, R348, R371: when a wait ends. SLEEP after its resident cycles,
FENCE once its conditions hold for every member, DRAIN once the commands issued before it are complete, and after one of a path into
global memory no older copy of a COH 01 line reaches the core; a knot once no expected thread holds it up or KNOTTMO has passed; a
barrier once its count and its paths hold, which releases what its threads did before, or, at BARLIM, by BARTMO in every waiter; an event
of FWAITEV; room in the DQ; and, in the order of one front thread's words, the work that FETCHW asked for. Choices of the model: which
commands a DRAIN waits for (log 34, DEDUCED); that BARTMO leaves ARV as it is (log 51, DEDUCED); that FETCHW takes its work when its
message is delivered (log 65, DEDUCED); what a phase, and a push into the DQ, releases: the open accesses and unowned stores of its
threads (log 88, DEDUCED); that a mailbox carries no release of its front thread (log 98, DESIGN CHOICE). -/
def Obligations.WaitsEnd : Prop :=
  ∀ s, let open_ := fun (p : Cmd → Prop) => (∃ k ∈ s.cores, ∃ c ∈ k.2.cmds, p c) ∨ ∃ k ∈ s.blocks, ∃ c ∈ k.2.cols, p c
    (∀ core quad slot w ord scope upto, tget ((s.core core).quad quad).slots slot = some w → w.fencing = some (ord, scope, upto) →
      let i := Instr.fenceAccept (.lane core quad slot)
      ((∃ m ∈ w.members, fenceOk s w.blk (some m.1) ord scope upto = false) → exec i s = .next s) ∧
      ((∀ m ∈ w.members, fenceOk s w.blk (some m.1) ord scope upto = true) → ∃ t, exec i s = .next t ∧
        WarpBecomes (w.members.foldl (fun s m => fenceDone s w.blk (some m.1) ord scope) s) t core quad slot { w with fencing := none })) ∧
    (∀ core quad slot w p ids, tget ((s.core core).quad quad).slots slot = some w → w.draining = some (p, ids) →
      let i := Instr.drainAccept (.lane core quad slot)
      (open_ (fun c => c.id ∈ ids) → exec i s = .next s) ∧
      (¬open_ (fun c => c.id ∈ ids) → ∃ t, exec i s = .next t ∧
        WarpBecomes (drainDone s core p) t core quad slot { w with draining := none })) ∧
    (∀ core p, (p = 1 ∨ p = 3 → ∀ l d x, .fill core l 1 d x ∉ (drainDone s core p).net) ∧
      (p ≠ 1 → p ≠ 3 → drainDone s core p = s) ∧ drainDone s core p = { s with net := (drainDone s core p).net }) ∧
    (∀ core fcx k b, frontBlock s core fcx = some k → s.block k = some b →
      (∀ ord scope upto, b.front.status = .stalled (.fence ord scope upto) → exec (.fenceAccept (.front core fcx)) s = .next
        (if fenceOk s k none ord scope upto = true then (fenceDone s k none ord scope).modFront k Front.resume else s)) ∧
      ∀ p start ids, b.front.status = .stalled (.drain p start ids) → let i := Instr.drainAccept (.front core fcx)
        (open_ (fun c => c.id ∈ ids) → exec i s = .next s) ∧
        (¬open_ (fun c => c.id ∈ ids) →
          ((∀ f ∈ b.faults, f.path ≠ p) → exec i s = .next ((drainDone s core p).modFront k Front.resume)) ∧
          ∀ f, b.faults.filter (fun f => f.path = p) = [f] → exec i s = .next (takeFrontTrap
            (s.modBlock k fun b => { b with faults := b.faults.filter fun g => g.path ≠ f.path }) k
            ⟨0, f.cause, start, f.taddr, f.detail.toNat, none⟩))) ∧
    ∀ k b, s.block k = some b →
      (∀ x th n, b.thread x = some th → th.status = .waiting (.sleep n) → ∃ t, exec (.sleepExpiry k (some x)) s = .next t ∧
        ThreadBecomes s t k x (if n ≤ b.cycles then { th with status := .ready, age := 0, ring := [] } else th)) ∧
      (∀ n, b.front.status = .stalled (.sleep n) → ∃ t, exec (.sleepExpiry k none) s = .next t ∧
        BlockBecomes s t k (if n ≤ b.cycles then { b with front := { b.front with status := .run } } else b)) ∧
      (∀ j, let x := b.knot j
        let clear := fun e => e ∈ x.arrived ∨ ∀ th, b.thread e = some th → th.status = .exited ∨ th.blockedAt = true ∨ th.released = true
        let late := b.knottmo ≠ 0 ∧ x.t0 + b.knottmo.toNat ≤ b.cycles
        x.arrived ≠ [] →
          (∃ t, exec (.knotRelease k j) s = .next t ∧
            ((∀ e ∈ x.expected, clear e) → BlockBecomes s t k (b.releaseKnot j)) ∧
            ((∃ e ∈ x.expected, ¬clear e) → BlockBecomes s t k b)) ∧
          ∃ t, exec (.knotTimeout k j) s = .next t ∧
            (late → BlockBecomes s t k (b.releaseKnot j)) ∧ (¬late → BlockBecomes s t k b)) ∧
      (∀ j p ids, let x := b.bar j
        let i := Instr.barrierComplete k j
        let count := b.arrivedLive j x = liveCount b ∨ ∃ n, x.mode = some n ∧ n ≤ x.count
        let busy := open_ fun c => c.id ∈ ids ∧ c.path < 4 ∧ bit x.path (c.path + 1) = true
        b.place = some p → x.count ≠ 0 → x.needs = some ids →
          ((¬count ∨ busy) → exec i s = .next s) ∧
          (count → ¬busy → ∃ t b', exec i s = .next t ∧ BlockBecomes s t k b' ∧ b'.bar j = { phase := !x.phase } ∧
            (∀ n, n ≠ j → b'.bar n = b.bar n) ∧ b' = { b with threads := b'.threads, bars := b'.bars, syncs := b'.syncs } ∧
            (let y : Sync := ⟨x.ids, s.nextAcc, x.path⟩; b'.syncs = if x.path ≠ 0 ∧ y.holds s k = true then b.syncs ++ [y] else b.syncs) ∧
            ∀ y th, b.thread y = some th →
              let u := if y ∈ x.waiters ∧ th.status = .barred j then { th with status := .ready, pc := th.pc + 4, age := 0, ring := [] } else th
              b'.thread y = some (if y ∈ x.clear then { u with arv := withBit u.arv j false } else u))) ∧
      (∀ j, let x := b.bar j
        let late := x.count ≠ 0 ∧ b.barlim ≠ 0 ∧ x.t0 + b.barlim.toNat ≤ b.cycles
        (¬late → exec (.barrierTimeout k j) s = .next s) ∧
        (late → exec (.barrierTimeout k j) s = .next (takeTrapsCount
          (s.setBlock k { b with bars := tset b.bars j { phase := !x.phase } }) k (min x.waiters.length 32) (x.waiters.map fun y =>
            ⟨y, causeBartmo, ((b.thread y).map Thread.pc).getD 0, BitVec.ofNat 64 j, x.waiters.length % 2048, none⟩)))) ∧
      (∀ d kind ph arg, b.front.status = .stalled (.event d kind ph arg) →
        let i := Instr.fwaitevComplete k
        let gives := fun (v : Nat) => exec i s = .next (s.modFront k fun f =>
          { f.setReg d (BitVec.ofNat 64 v) with status := .run, hazards := (d, coreCycle s b + 2) :: f.hazards })
        let free := 128 - dqOccupancy b
        (kind = 0 → gives (boolBit (b.bar arg).phase)) ∧
        (kind = 1 → if boolBit (b.bar arg).phase ≠ ph then gives (boolBit (b.bar arg).phase) else exec i s = .next s) ∧
        (kind = 2 → if arg ≤ free then gives free else exec i s = .next s) ∧
        (kind = 3 → if liveCount b ≤ arg then gives (liveCount b) else exec i s = .next s)) ∧
      (∀ v, b.front.status = .stalled (.dqRoom v) → ∃ t, exec (.dqRoom k) s = .next t ∧
        BlockBecomes s t k (if 128 ≤ dqOccupancy b then b else { b with
          dq := b.dq.set (b.front.wp.toNat % 128) v, front := { b.front with wp := b.front.wp + 1, status := .run }
          syncs := if releasedBy s k none = [] then b.syncs else b.syncs ++ [⟨releasedBy s k none, s.nextAcc, 1⟩] })) ∧
      ∀ n h off, s.net[n]? = some (.fetchw k h off) → let u := { s with net := ldel s.net n }
        let l := s.launchOf b
        ((∃ m ∈ s.net.take n, ∃ h o, m = .fetchw k h o) → exec (.fetchwDelivery n) s = .next s) ∧
        ((∀ m ∈ s.net.take n, ∀ h o, m ≠ .fetchw k h o) →
        exec (.fetchwDelivery n) s = .next (if l.next < l.nblocks then
            noteRetired (writeMailbox (u.modLaunch b.launch fun x => x.take l.next) k h off
              [l.next % l.nbx, l.next / l.nbx % l.nby, l.next / (l.nbx * l.nby), 1]) b.launch l.next
          else writeMailbox u k h off [0, 0, 0, 0]))

/-! ## Events: skeins, procedural ranges and the head of a deterministic launch -/

/-- R298, R301 to R306: where the home of a skein is; it decides the oldest take: refused where the skein is free, or where the pool is too
small and exact or scarce, granted where the pool covers it, else a recall round runs, which asks every holder and every core to which a
grant is on its way, one of those once it has the grant; hanks that return join the pool, and the last one ends the round. A grant
reaches the hank of its core, and the answer the thread. A give, a read or an init is applied at the home, a read and an init after a
round; a take that has waited for an earlier round is decided when a round ends (R307). Choices of the model, all DEDUCED: when the
scarce mode ends (logs 25 and 83), what a hank that has answered a round still takes (log 26), and the order of takes and rounds at the
home (log 85). -/
def Obligations.SkeinEvents : Prop :=
  ∀ s, let free := fun (n : Nat) => ({ s with net := ldel s.net n } : State)
    let granted := fun (u : State) (ctx k g : Nat) (r : SkeinReq) =>
      sends (settleSkein (u.modSkein ctx k fun x => { x with pool := x.pool - g }) ctx k) (.skeinGrant ctx k r (some g))
    (∀ ctx k, let x := s.skein ctx k
      let i := Instr.skeinRefillRequest ctx k
      (x.round ≠ none ∨ x.queue = [] → exec i s = .next s) ∧
      ∀ r rs n, x.round = none → x.queue = r :: rs → r.op = .take n →
        let popped := s.modSkein ctx k fun x => { x with queue := rs }
        let u := s.modSkein ctx k fun x => { x with queue := rs, recent := (n :: x.recent).take 16 }
        (x.live = false → exec i s = .next (sends popped (.skeinGrant ctx k r none))) ∧
        (x.live = true → n ≤ x.pool → let v := makeHank u r.core ctx k
          let y := v.skein ctx k
          exec i s = .next (granted v ctx k
            (if y.scarce then n else min y.pool (max n (y.pool / (2 * y.holders.length)))) r)) ∧
        (x.live = true → x.pool < n → x.scarce = true ∨ roundCores s ctx k = [] → exec i s =
          .next (sends (settleSkein (u.modSkein ctx k fun x => { x with scarce := x.live }) ctx k) (.skeinGrant ctx k r none))) ∧
        (x.live = true → x.pool < n → x.scarce = false → roundCores s ctx k ≠ [] → exec i s = .next (beginRound s ctx k true))) ∧
    (∀ ctx k, skeinHome s ctx k = (if s.dev.svcl < 2 then 0 else k % 4, (7 * (k / 4) + 3 * ctx) % 384)) ∧
    (∀ ctx k, (s.skein ctx k).live = true → (∀ r ∈ (s.skein ctx k).queue, r.waited = true ∧ ∃ n, r.op = .take n) →
      ((decideWaited (s.skein ctx k).queue.length s ctx k).skein ctx k).queue = []) ∧
    (∀ ctx k p, let asked := roundCores s ctx k
      let t := beginRound s ctx k p
      ((tget s.ctxs ctx).isSome = true → (t.skein ctx k).round = some asked) ∧ (∀ c ∈ (s.skein ctx k).holders, c ∈ asked) ∧
      (∀ r g, .skeinGrant ctx k r (some g) ∈ s.net → r.core ∈ asked) ∧
      ∀ c ∈ asked, Machine.granted s ctx k c = false →
        .hank c ctx k ((((s.core c).hank ctx k).map Hank.hank).getD 0) true ∈ t.net) ∧
    (∀ n core ctx k amount, s.net[n]? = some (.hank core ctx k amount true) →
      let past := skeinMax < (s.skein ctx k).pool + amount
      let u := (free n).modSkein ctx k fun x =>
        { x with pool := if past then skeinMax else x.pool + amount, ovf := x.ovf || decide past
                 round := x.round.map fun l => l.filter (· ≠ core) }
      exec (.hankReturn n) s = .next (if (u.skein ctx k).round = some [] then endRound u ctx k else u)) ∧
    (∀ n core ctx k amount, s.net[n]? = some (.hank core ctx k amount false) → let x := s.skein ctx k
      let past := skeinMax < x.pool + amount
      exec (.hankReturn n) s = .next (if x.live then settleSkein ((free n).modSkein ctx k fun x =>
        { x with pool := if past then skeinMax else x.pool + amount, ovf := x.ovf || decide past }) ctx k else free n)) ∧
    (∀ n ctx k r, s.net[n]? = some (.skeinGrant ctx k r none) → exec (.skeinGrant n) s = .next (endSkein (free n) ctx k r 0)) ∧
    (∀ n ctx k r g take, s.net[n]? = some (.skeinGrant ctx k r (some g)) → r.op = .take take → let u := makeHank (free n) r.core ctx k
      ∀ h, (u.core r.core).hank ctx k = some h → let hank := h.hank + g - take
        let v := endSkein (trimHank (rehanked u r.core ctx k hank) r.core ctx k) ctx k r 1
        let owes := ∃ l, (v.skein ctx k).round = some l ∧ r.core ∈ l ∧ ∃ h, (v.core r.core).hank ctx k = some h ∧ h.answered = false
        (¬owes → exec (.skeinGrant n) s = .next v) ∧ (owes → exec (.skeinGrant n) s = .next (answerRound v ctx k r.core))) ∧
    (∀ n ctx k r, s.net[n]? = some (.skeinOp ctx k r) → let x := s.skein ctx k
      let i := Instr.skeinHomeOperation n
      let u := free n
      let ends := fun (u : State) (v : Nat) => exec i s = .next (endSkein u ctx k r v)
      let waits := exec i s = .next (let v := u.modSkein ctx k fun x => { x with queue := x.queue ++ [r] }
        if x.round = none then startRound v ctx k else v)
      (∀ amount, r.op = .give amount → ends (poolAdd u ctx k amount) 0) ∧
      (r.op = .readx → x.live = false ∨ x.scarce = true → ends u x.read) ∧ (r.op = .readx → x.live = true → x.scarce = false → waits) ∧
      (∀ v, r.op = .init v → x.live = false → v ≠ 0xFFFFFFFF →
        ends (u.modSkein ctx k fun x => { live := true, pool := v, queue := x.queue }) 0) ∧
      (r.op = .init 0xFFFFFFFF → x.live = false → ends u 0) ∧ (∀ v, r.op = .init v → x.live = true → waits))

/-- R309, R311 to R319: a request for a FILLED block goes on, one for a POISONED block fails with its subcode, one for an UNFILLED block
starts the fill and waits, one for a STEEPING block waits, but for the writes of its own dyer; COH 01 and 11 poison an unfilled block;
a dyer that waits for itself takes PRFILL 3. Slots go to waiting blocks; a fill whose dyer has ended becomes FILLED and wakes its
waiters, whose reads acquire; a definition is judged and its result delivered. Choices of the model: a dyer's write to an ancestor block
joins its waiters (log 27, DEDUCED); requests of stopped blocks (log 28, DEDUCED); when a block becomes FILLED (log 55, DEDUCED); the
subcode with which a dyer that meets a POISONED block poisons its own (log 97, DESIGN CHOICE). -/
def Obligations.ProceduralRangeEvents : Prop :=
  ∀ s, let free := fun (n : Nat) => ({ s with net := ldel s.net n } : State)
    (∀ n ctx rid base w write dyer pa coh, s.net[n]? = some (.prRequest ctx rid base w write dyer pa coh) →
      let i := Instr.prRequest n
      let u := free n
      let fb := getFill u ctx rid base
      let fails := fun (u : State) (sub : Nat) =>
        exec i s = .next (failWaiter (fun s d => poisonFill 16 s d.ctx d.rid d.base sub causePrfill) u sub w)
      let stored := waitersAt u (homeDie u pa, homeSlice pa)
      let full := 128 ≤ stored.length ∧ w.key ∉ stored
      (∀ core a, w = .acc core a → ((s.block a.blk).map Block.state) = some .stopped → exec i s = .next u) ∧
      ((∀ core a, w = .acc core a → ((s.block a.blk).map Block.state) ≠ some .stopped) →
        (fb.fill = .filled → exec i s = .next (passWaiter u w)) ∧
        (∀ sub cause, fb.fill = .poisoned sub cause → fails u sub) ∧
        (fb.fill = .unfilled → coh = 1 ∨ coh = 3 →
          fails (modFill u ctx rid base fun b => { b with fill := .poisoned 1 causeProtect, pa := pa }) 1) ∧
        (fb.fill = .unfilled → coh ≠ 1 → coh ≠ 3 → dyer = none → full →
          exec i s = .next (sends u (.prRequest ctx rid base w write dyer pa coh))) ∧
        (fb.fill = .unfilled → coh ≠ 1 → coh ≠ 3 → dyer = none → ¬full → exec i s = .next (joinFill u ctx rid base pa w [])) ∧
        (∀ x, fb.fill = .unfilled → coh ≠ 1 → coh ≠ 3 → dyer = some x →
          let anc := (insertNat (ancestorsAt u ctx x) x).foldl insertNat fb.ancestors
          (3 < anc.length → exec i s = .next (failDyer u ctx x 2)) ∧
          (anc.length ≤ 3 → full → exec i s = .next (sends u (.prRequest ctx rid base w write dyer pa coh))) ∧
          (anc.length ≤ 3 → ¬full → exec i s = .next (joinFill u ctx rid base pa w anc))) ∧
        (fb.fill = .steeping → dyer = none → full → exec i s = .next (sends u (.prRequest ctx rid base w write dyer pa coh))) ∧
        (fb.fill = .steeping → dyer = none → ¬full → exec i s = .next (joinFill u ctx rid base pa w [])) ∧
        (fb.fill = .steeping → dyer = some base → write = true → exec i s = .next (passWaiter u w)) ∧
        (fb.fill = .steeping → dyer = some base → write = false → exec i s = .next (failDyer u ctx base 3)) ∧
        ∀ x, fb.fill = .steeping → dyer = some x → base ≠ x →
          (write = false → base ∈ ancestorsAt u ctx x → exec i s = .next (failDyer u ctx x 3)) ∧
          (write = true ∨ base ∉ ancestorsAt u ctx x → let v := addAncestors 4 u ctx base (insertNat (ancestorsAt u ctx x) x)
            (tooDeep v = true → exec i s = .next (failDyer u ctx x 2)) ∧
            (tooDeep v = false → full → exec i s = .next (sends u (.prRequest ctx rid base w write dyer pa coh))) ∧
            (tooDeep v = false → ¬full → exec i s = .next (joinFill v ctx rid base pa w []))))) ∧
    (∀ die depth,
      (4 ≤ dyersAt s die depth ∨ slotWaiter s die depth = none → exec (.dyerSlotGrant die depth) s = .next s) ∧
      ∀ ctx rid base fb, dyersAt s die depth < 4 → slotWaiter s die depth = some (ctx, rid, base, fb) →
        let u := launchDyer (modFill s ctx rid base fun b => { b with queued := none }) ctx rid base depth
        4 ≤ dyersAt u die depth ∨ slotWaiter u die depth = none → exec (.dyerSlotGrant die depth) s = .next u) ∧
    (∀ ctx (va : BitVec 64) rid base, rangeOf s ctx va.toNat = some (rid, base) →
      let fb := getFill s ctx rid base
      let mine := fun (d : Dyer) => d.ctx = ctx ∧ d.rid = rid ∧ d.base = base
      let past := fb.fill = .steeping ∧ fb.ending = true ∧ ∀ p ∈ s.blocks, ∀ d, p.2.dyer = some d → mine d → d.filled = false →
        p.2.state ≠ .stopped → writing s p.1 = false ∧ releasable s p.1 s.nextAcc = true
      let v := modFill s ctx rid base fun b =>
        { b with fill := .filled, waiters := [], ancestors := [], time := s.now, evict := false, ending := false }
      let u := fb.waiters.foldl wakeWaiter { v with blocks := tmap (fun _ (b : Block) => { b with
        dyer := b.dyer.map fun d => if mine d then { d with filled := true } else d }) v.blocks }
      (¬past → exec (.fillComplete ctx va) s = .next s) ∧
      (past → exec (.fillComplete ctx va) s = .next (admitAll (if fb.evict then evictFill u ctx rid base else u)))) ∧
    (∀ core a,
      let wakes := fun (x : Acc) => if x.kind.reads = true ∧ ¬∃ b, s.block x.blk = some b ∧ notHead s b = true
        then { x with acq := true, scope := if x.kind.writes = true then x.scope else max x.scope 3 } else x
      let passes := fun (x : Acc) => if x.id = a.id then wakes { x with pass := true, sent := false } else x
      wakeWaiter s (.acc core a) = progress (s.modCore core fun c => { c with pend := c.pend.map passes }) core) ∧
    (∀ n blk a desc, s.net[n]? = some (.prdef blk a desc) → prdefFirst s n blk = false → exec (.prdefPropagated n) s = .next s) ∧
    ∀ n blk (a : Acc) desc b c d, s.net[n]? = some (.prdef blk a desc) → s.block blk = some b → tget s.ctxs b.ctx = some c →
      prdefFirst s n blk = true → a.dest = some d → let i := Instr.prdefPropagated n
      let answers := fun (u : State) (v : Nat) => exec i s = .next (({ u with net := ldel u.net n } : State).deliver blk a.who d v)
      (∀ code, judgeDef c desc = .error code → answers s code) ∧
      (∀ j r, judgeDef c desc = .define j r →
        answers ((flushBlocks b.ctx (2 ^ r.blksh) r.base (r.size / 2 ^ r.blksh) s).modCtx b.ctx fun c =>
          { c with ranges := tset c.ranges j r }) j) ∧
      ∀ j r, judgeDef c desc = .remove j → tget c.ranges j = some r →
        ((∃ x ∈ r.blocks, x.2.fill = .steeping ∨ x.2.queued ≠ none) → exec i s = .next s) ∧
        ((∀ x ∈ r.blocks, x.2.fill ≠ .steeping ∧ x.2.queued = none) → let u := r.blocks.foldl (fun s x => evictFill s b.ctx j x.1) s
          answers (u.modCtx b.ctx fun c => { c with ranges := tdel c.ranges j }) j)

/-- R291, R293 to R297: once the head has retired, what it wrote under COH 01 goes home, and then the next block becomes the head: its stage
is released in order, and its Belay limit counts from now; when the limit passes while a higher block holds staged writes, the threads
of the head that run take BELAYTMO, with the address of the first staged write. A released write that meets a procedural block that is
not FILLED waits there, and so do those after it (R311, R319). Choices of the model, all DEDUCED (log 63): a retired block's stage is
kept until it is the head, the COH 01 bytes go home first, and the limit counts resident cycles of the head. -/
def Obligations.DeterministicHeadEvents : Prop :=
  ∀ s k l, tget s.launches k = some l →
    ((l.det = false ∨ l.head ∉ l.retired ∨ l.nblocks ≤ l.head + 1) → exec (.newHead k) s = .next s) ∧
    (l.det = true → l.head ∈ l.retired → l.head + 1 < l.nblocks → notedLines s k ≠ [] ∨ notedMessage s k = true →
      exec (.newHead k) s = .next ((notedLines s k).foldl (fun s x => writeBackLine s x.1 x.2 none) s)) ∧
    (l.det = true → l.head ∈ l.retired → l.head + 1 < l.nblocks → notedLines s k = [] → notedMessage s k = false → let n := l.head + 1
      let u := releaseStage k n l.ctxIdx (stageOf s k n).length s
      (stageOf u k n ≠ [] → exec (.newHead k) s = .next u) ∧
      (stageOf u k n = [] → exec (.newHead k) s = .next (checkLaunch (u.modLaunch k fun l =>
        { l with kept := tdel l.kept n, head := n, headFrom := ((blockOf u k n).map fun p => p.2.cycles).getD 0 }) k))) ∧
    (∀ b n, stageOf s k b = [] → releaseStage k b l.ctxIdx (n + 1) s = s) ∧
    (∀ b n w ws, stageOf s k b = w :: ws → let r := releaseStage k b l.ctxIdx (n + 1) s
      let then_ := fun (u : State) => r = releaseStage k b l.ctxIdx n u
      (rangeOf s l.ctxIdx w.va.toNat = none → then_ (releaseWrite k b s w)) ∧
      ∀ rid base, rangeOf s l.ctxIdx w.va.toNat = some (rid, base) → let fill := (getFill s l.ctxIdx rid base).fill
        (fill = .filled → then_ (releaseWrite k b s w)) ∧
        (∀ sub c, fill = .poisoned sub c → then_ (failStaged s k b w none causePrfill sub)) ∧
        (fill = .unfilled ∨ fill = .steeping → r = askStaged s l.ctxIdx rid base k b w)) ∧
    (∀ blk b higher w ws rest, blockOf s k l.head = some (blk, b) → stagedAbove s k l = (higher, w :: ws) :: rest →
      let ts := b.threads.filter fun t => t.2.belays
      let limit := if l.blim = 0 then 67108864 else l.blim
      let late := l.det = true ∧ b.state = .resident ∧ l.headFrom + limit ≤ b.cycles ∧ b.runs = true ∧ ts ≠ []
      (¬late → exec (.belayLimitExpiry k) s = .next s) ∧
      (late → exec (.belayLimitExpiry k) s = .next (takeTrapsCount (s.modLaunch k fun l => { l with headFrom := b.cycles }) blk
        (min ts.length 32) (ts.map fun t => ⟨t.1, causeBelaytmo, t.2.pc, w.va, min (rest.length + 1) 65535, none⟩)))) ∧
    (stagedAbove s k l = [] → exec (.belayLimitExpiry k) s = .next s)

/-! ## Events: the engines -/

/-- R26, R352 to R368, R371, R402 to R413: a waiting command is accepted once its engine and tables have room and the writes that come
before it are over. A TCE command, or a collective that has joined, completes as its plan says, less the writes that it has made before:
it waits for the host, for a fill or for a peer; or it makes its writes and leaves the tables, with a fault recorded where there is one; a
command that stops may have made some of them (log 12, DESIGN CHOICE), and when it reads, writes and completes is free (log 49, DESIGN
CHOICE). FILL, a LOAD or GATHER whose rows can be read and a STORE whose rows can be
reached do their whole work. A collective joins once its peers' commands agree, a disagreement is PROTECT 33; CBAR completes after the
earlier collectives of its members, on every one of them, whose reports it takes until then. -/
def Obligations.EngineAndCollectiveEvents : Prop :=
  ∀ s core n,
    (∀ c, (s.core core).cmds.find? (fun c => decide (c.id = n) && !c.accepted) = some c →
      let i := Instr.commandAcceptance core n
      let u := s.modCore core fun k => { k with cmds := k.cmds.filter fun x => x.id ≠ n }
      let more := u.cores.any fun k => k.2.cmds.any fun x => decide (x.blk = c.blk) && !x.accepted && decide (c.id < x.id)
      let wakes := fun (v : State) => exec i s = .next (if more then v else v.modFront c.blk fun f =>
        if f.status = .stalled .command then { f with status := .run } else f)
      let when_ := fun (p : Bool) (v : State) => if p then wakes v else exec i s = .next s
      (∀ sub desc ga, c.kind = .tce sub desc ga → when_ (tceReady u core c) (acceptTce u core c)) ∧
      ∀ sub desc dst, c.kind = .col sub desc dst → when_ (colReady u core c) (takeEntry u core c)) ∧
    ((∀ c ∈ (s.core core).cmds, c.id = n → c.accepted = true → c.blocked = true) → exec (.tceComplete core n) s = .next s) ∧
    (∀ c sub desc ga b, (s.core core).cmds.find? (fun c => decide (c.id = n) && c.accepted && !c.blocked && decide (c.path ≤ 1)) = some c →
      c.kind = .tce sub desc ga → s.block c.blk = some b →
      let i := Instr.tceComplete core n
      let d := tceDesc desc
      let p := tcePlan s core sub desc ga c
      let u := fillPages s core b.ctx p
      let done := fun (v : State) => exec i s = .next (dropCommand v c.id)
      Completes s core c b.ctx i p ∧
      (sub = 6 → c.wrote = [] → done (s.modTile c.blk d.handle fun t => putElems t ((List.range d.nrow).flatMap fun i =>
        (List.range d.ncol).map fun j => (i * 8192 + j, d.row0 + i, d.col0 + j, ga.toNat % 2 ^ (8 * t.eb))))) ∧
      (isWrite sub = false → sub ≠ 3 → sub ≠ 6 → c.wrote = [] →
        ∀ w : Nat → TileWrites, usesHandle sub d core = true → peerBits d core = [] →
          (∀ r, r < d.rows → readRow s c b.ctx sub (rawEb s core c.blk sub d) d ga.toNat r = .ok (w r)) →
          let rs := (List.range d.rows).map fun r => (.ok (w r) : RowResult)
          let v := u.modTile c.blk d.handle fun t => putElems t (rowWrites rs false)
          done (if d.cl = 1 then v.modTile c.blk (d.handle + 1) fun t => putElems t (rowWrites rs true) else v)) ∧
      (isWrite sub = true → sub ≠ 3 → sub ≠ 6 → c.wrote = [] →
        ∀ t (ps : Nat → List (Nat × Nat)), sub ≠ 5 → s.tile c.blk d.handle = some t → notHead s b = false →
          (∀ r, r < d.rows → reach s c.blk b.ctx true (d.rowAddr ga.toNat r) (d.rowBytes t.eb) = .ok (ps r)) →
          done ((List.range d.rows).foldl (fun s r =>
            enginePieces s core c.blk (d.rowAddr ga.toNat r) (ps r) (storeRow d t r)) u))) ∧
    ∀ c sub desc dst b, colFind s core n = some (c, sub, desc, dst) → s.block c.blk = some b → let d := colDesc desc
      (∀ peers : List PeerCmd, let i := Instr.colJoin core n peers
        let fit := peers.map PeerCmd.dev = d.members.filter (· ≠ ownDev s) ∧ ∀ p ∈ peers, p.colid.toNat = d.colid
        let agree := ∀ p ∈ peers, p.sub = sub ∧ p.count = d.count ∧ p.op = d.op ∧ p.type = d.type ∧ p.root = d.root
        let leaves := d.nl + peers.foldl (fun n p => n + p.leaves.length) 0
        (¬fit → exec i s = .next s) ∧
        (fit → c.started = true → exec i s = .next (if sub = 5 then s.modCore core fun k => { k with cmds := k.cmds.map fun x =>
          if x.id = n then { x with peers := peers } else x } else s)) ∧
        (fit → c.started = false → ¬agree → exec i s = .next (failCommand s core n causeProtect (BitVec.ofNat 64 d.colid) 33)) ∧
        (fit → c.started = false → agree → exec i s = .next (s.modCore core fun k => { k with cmds := k.cmds.map fun x => if x.id = n then { x with
          started := true, peers := peers
          dsts := if sub = 3 then [.global b.ctx dst.toNat (dst.toNat + leaves * d.count * d.es)] else c.dsts } else x }))) ∧
      (sub ≠ 5 → if c.started = true ∧ c.blocked = false then Completes s core c b.ctx (.colComplete core n) (colPlan s sub desc dst c)
        else exec (.colComplete core n) s = .next s) ∧
      (sub = 5 → if c.started = true ∧ earlierCol s d n c.peers = false ∧ (∀ p ∈ c.peers, p.earlier = false)
          then exec (.cbarComplete core n) s = .next (dropCommand s n)
        else exec (.cbarComplete core n) s = .next s)

/-- R378, R382, R383, R386, R389 to R391: the oldest accepted command of the Matrix Engine starts once the engine is free and no peer's
block is swapped out; it updates the rows of its participants below the valid count, and holds the engine for its cycles; 24 cycles
later its entries are released and INFL falls. An I8 element becomes its sum of products, modulo 2^32. -/
def Obligations.MatrixEngineEvents : Prop :=
  ∀ s core, let k := s.core core
    (∀ c, k.cmds.find? (fun x => decide (x.path = 2) && x.accepted && !x.started) = some c →
      let i := Instr.mxCommandStart core
      let busy := ∃ x ∈ k.cmds, x.path = 2 ∧ x.started = true ∧ k.cycle < x.ends
      let away := ∃ b ∈ cmdPeers c, (s.block b).bind Block.place = none
      (busy ∨ away → exec i s = .next s) ∧
      (¬busy → ¬away →
        let starts := fun (u : State) (n : Nat) => exec i s = .next (u.modCore core fun k => { k with cmds := k.cmds.map fun x =>
          if x.id = c.id then { x with started := true, ends := (s.core core).cycle + n } else x })
        let area := fun (h : Nat) => let sh := (cmdTile s (c.blk, h)).shape
          (shapeRows sh * shapeCols sh + 63) / 64
        (∀ ty d a b sa sb rows vc, c.kind = .mma ty d a b sa sb rows vc →
          starts (s.modTile c.blk d fun t => updateRows t (rows.filter fun i => i < shapeRows t.shape && i < vc)
              (mmaElem ty (cmdTile s a) (cmdTile s b) (cmdTile s sa) (cmdTile s sb)))
            ((shapeRows (cmdTile s b).shape + 15) / 16 *
              (if ty ≤ 1 then (shapeCols (cmdTile s a).shape + 31) / 32 else (shapeCols (cmdTile s a).shape + 15) / 16))) ∧
        (∀ d, c.kind = .mxzero d → starts (s.modTile c.blk d fun t => { t with bytes := [], kacc := 0 }) 16) ∧
        (∀ d rows vc, c.kind = .mxscale d rows vc → starts (runMx s c) (area d)) ∧
        ∀ f t ha hb w rows vc, c.kind = .mxrecomb f t ha hb w rows vc → starts (runMx s c) (area f))) ∧
    ((∀ x ∈ k.cmds, x.path = 2 → x.accepted = true → x.started = true) → exec (.mxCommandStart core) s = .next s) ∧
    (∀ c, k.cmds.find? (fun x => decide (x.path = 2) && x.started && decide (x.ends + 24 ≤ k.cycle)) = some c →
      exec (.mxCommandComplete core) s = .next ((cmdAccs c).foldl
        (fun s h => s.modTile c.blk h fun t => { t with infl := t.infl - 1 }) (dropCommand s c.id))) ∧
    ((∀ x ∈ k.cmds, x.path = 2 → x.started = true → k.cycle < x.ends + 24) → exec (.mxCommandComplete core) s = .next s) ∧
    ∀ (a b sa sb : Tile) i j acc, let K := shapeCols a.shape
      let byte := fun (x : Nat) => if x % 256 < 128 then ((x % 256 : Nat) : Int) else ((x % 256 : Nat) : Int) - 256
      mmaElem 1 a b sa sb i j acc = ((acc + ((List.range K).map fun x => byte (a.elem i x) * byte (b.elem j x)).sum) % 2 ^ 32).toNat

/-! ## Events: the Dispatcher -/

/-- R343, R394, R416, R417, R420 to R426, R430: a Launch Port slot whose two halves are there is submitted in the mesh cycle after (log 6
takes its number from the clocks of R3); a write of another size or address, or before service level 1, changes nothing, and a read gives
0. Staging ends when its lines are there or after 10 µs; until then it asks for them. The first block in rank that fits goes to its best
quadrant, and an aged one that fits nowhere reserves a core. At a quantum's end, on each core, the lowest-ranked resident block leaves for
each waiting block that outranks it; it first ends its commands and writes, then its core writes back, and then it is saved. A block
retires when all its threads have ended and its writes are done. A block placed on another core than the one it left reads no COH 01 byte
older than what it has read. The tiles of a block that leaves for the AC allocations of others are kept for them. Choices of the model,
all DEDUCED: the rank of blocks never placed, and what counts as a whole quantum (log 37); victims and reservations (log 38); the course
of a swap-out (log 39); kept AC tiles (log 62); when a staging list is read and a header that waits judged again (log 64). -/
def Obligations.DispatcherEvents : Prop :=
  ∀ s, let u := checkReserve s
    (∀ off len data, let i := Instr.launchPortWrite off len data
      let bad := s.dev.svcl = 0 ∨ len ≠ 64 ∨ off % 64 ≠ 0 ∨ 65536 ≤ off
      let half := off / 64
      let other := if half % 2 = 0 then half + 1 else half - 1
      let full := (tget s.dev.port other).isSome = true ∧ ∀ x ∈ s.dev.portFull, x.1 ≠ half / 2
      (bad → exec i s = .next s) ∧
      (¬bad → exec i s = .next { s with dev := { s.dev with
        port := tset s.dev.port half data
        portFull := if full then s.dev.portFull ++ [(half / 2, s.now)] else s.dev.portFull } })) ∧
    (∀ slot at_ lo hi, tget s.dev.port (2 * slot) = some lo → tget s.dev.port (2 * slot + 1) = some hi →
      takeRecordAt s (slot, at_) = if s.now * 16 / 21 ≤ at_ * 16 / 21 then s else submit { s with dev := { s.dev with
        port := tdel (tdel s.dev.port (2 * slot)) (2 * slot + 1), portFull := s.dev.portFull.filter (· ≠ (slot, at_)) } } (hi ++ lo) none none) ∧
    (∀ len, ∀ v ∈ launchPortRead len, v = 0) ∧
    (∀ k l, tget s.launches k = some l → let i := Instr.stagingTimeout k
      let held := l.staging = false ∨ ∃ f ∈ s.frecs, .staging k ∈ f.joined
      let over_ := l.accepted + 10 * cyclesPerUs ≤ s.now ∨ stagingArrived s l = true
      (held → exec i s = .next s) ∧
      (¬held → l.judged = false → exec i s = .next (judgeAgain s k)) ∧
      (¬held → l.judged = true → l.stages = none → exec i s = .next (startStaging s k)) ∧
      ∀ es, ¬held → l.judged = true → l.stages = some es →
        (¬over_ → exec i s = .next ((es.flatMap fun e => regionLines e.1 e.2).foldl (fun s va => stageLine s l.ctxIdx va) s)) ∧
        (over_ → exec i s = .next (s.modLaunch k fun l => { l with staging := false }))) ∧
    (∀ w ws x, ranked u = w :: ws → bestQuad u (eligible u w) = some x → exec .blockPlacement s = .next (placeWant u w x)) ∧
    (∀ w ws, ranked u = w :: ws → eligible u w = [] →
      let reserves := w.aged u = true ∧ w.l.dyer = none ∧ ∀ r ∈ u.reserve, r.2 ≠ w.cand
      (¬reserves ∨ emptiestCore u = none → exec .blockPlacement s = .next (placeFirst ws u)) ∧
      ∀ c, reserves → emptiestCore u = some c →
        exec .blockPlacement s = .next (placeFirst ws { u with reserve := u.reserve ++ [(c, w.cand)] })) ∧
    (ranked u = [] → exec .blockPlacement s = .next u) ∧
    (s.now < s.dev.qfrom + quantum s → exec .quantumEnd s = .next s) ∧
    (s.dev.qfrom + quantum s ≤ s.now → let u := checkReserve { s with dev := { s.dev with qfrom := s.now } }
      let cores := (running u).foldl (fun l p => insertNat l ((p.2.place.map Place.core).getD 0)) []
      exec .quantumEnd s = .next (cores.foldl (fun v core => ((ranked u).filter (couldGo v core)).foldl (swapFor core s.dev.qfrom)
        (v.modCore core fun c => { c with room := 0 })) (clearReserved (clearIslands u)))) ∧
    (∀ core from_ w,
      let had := fun (b : Block) => b.since + quantum s ≤ s.now ∨ b.turn = true ∧ 2 * (b.since - from_) ≤ quantum s
      let may := fun (p : Nat × Block) => (p.2.place.map Place.core) = some core ∧ rankLt (w.rank s) (residentRank s p.2) = true ∧
        had p.2 ∧ exempt s p.2 w = false
      ((∀ p ∈ running s, ¬may p) → swapFor core from_ s w = s) ∧
      ((∃ p ∈ running s, may p) → ∃ p ∈ running s, may p ∧
        (∀ u, beginSwap s p.1 = (u, true) → swapFor core from_ s w = u.modBlock p.1 fun b => { b with turn := true }) ∧
        (∀ u, beginSwap s p.1 = (u, false) → swapFor core from_ s w = u) ∧
        ∀ q ∈ running s, may q → rankLt (residentRank s p.2) (residentRank s q.2) = false)) ∧
    (∀ k b p, s.block k = some b → b.place = some p → let i := Instr.swapOut k
      (b.leaving = false → exec i s = .next s) ∧
      (b.leaving = true → b.state = .resident → let u := stopWarps s k
        ∀ b', u.block k = some b' →
          (swapClear u k p = false → exec i s = .next u) ∧
          (swapClear u k p = true → b'.flushed = false →
            exec i s = .next ((flushCore u p.core k).modBlock k fun b => { b with flushed := true })) ∧
          (swapClear u k p = true → b'.flushed = true →
            let cols := ((u.core p.core).cmds.filter fun c => c.blk = k && c.path = 3 && !c.started).map fun c => { c with accepted := false }
            exec i s = .next ((u.modCore p.core fun c => { c with
                cmds := c.cmds.filter fun x => x.blk ≠ k, room := if b'.turn = true then c.room + 1 else c.room }).setBlock k
              { b' with place := none, state := .swapped, leaving := false, flushed := false, cols := cols })))) ∧
    (∀ k b w x, w.cand = .again k → s.block k = some b → b.lastCore ≠ x.1 → ∀ l d y, .fill x.1 l 1 d y ∉ (placeWant s w x).net) ∧
    (∀ k b, s.block k = some b → let i := Instr.blockRetire k
      let may := b.state = .resident ∧ b.place ≠ none ∧ (∀ t ∈ b.threads, t.2.status = .exited) ∧
        b.front.status = .done ∧ hasCommands s k = false ∧ blockUnacked s k = false ∧ ∀ f ∈ b.faults, f.fatal = false
      (¬may → exec i s = .next s) ∧
      (may → let u := s.modLaunch b.launch fun l => if l.det && !b.stage.isEmpty then { l with kept := tset l.kept b.b b.stage } else l
        let v := noteRetired (releaseBlock (u.modBlock k fun b =>
          { b with state := .retired, stage := [], leaving := false, saved := 0 }) k) b.launch b.b
        (b.dyer = none → exec i s = .next v) ∧
        ∀ d, b.dyer = some d → exec i s = .next (if d.done then v else poisonFill 16 v d.ctx d.rid d.base 1 0))) ∧
    ∀ core, let i := Instr.acDeadlockSwapout core
      let bs := (blocksOn s core).filter fun p => p.2.state = .resident
      let stuck := bs ≠ [] ∧ ∀ p ∈ bs, acBlocked p.2 = true ∧ p.2.runs = true
      (¬stuck → exec i s = .next s) ∧
      (stuck → ∀ old k b u, bs = old ++ [(k, b)] → (b.acOut = false ∨ old = []) →
        (logHeld s k = true → exec i s = .next s) ∧
        (logHeld s k = false → beginSwap s k = (u, true) →
          exec i s = .next (oweTiles (u.modBlock k fun b => { b with acOut := true }) core k)) ∧
        (logHeld s k = false → beginSwap s k = (u, false) → exec i s = .next (stopLaunch u b.launch)))

/-- R221, R437 to R447, R465: a walk that ends gives its access the translation, with which it is made or joins the aged queue, a trap
that comes later than the access, or a log entry and a fault record, for which the access waits while the log is full or holds an
access of its thread. RETRY lets
everything that joined a record go on, FAIL and a time-out make it fail. An invalidation drops the entries that it names (for
none, only the register is written) and is done once earlier accesses are performed; a context is created from its descriptor, and
destroyed once its commands and records are gone: it is live no more from the command on. Choices of the model, all DEDUCED: a TLBINV
that names no page (log 41), which faults join one record (log 42), that a destroy waits for completion records (log 43), what a walk's
end does and when (log 57), what the walk caches keep (log 69). -/
def Obligations.TranslationEvents : Prop :=
  ∀ s, let d := s.dev
    (∀ n w b, s.walks[n]? = some w → s.block w.acc.blk = some b → let a := w.acc
      let i := Instr.walkResult n
      let u := fillWalkCache { s with walks := ldel s.walks n } b.ctx a.va.toNat
      let held := ∃ t th, a.who = some t ∧ b.thread t = some th ∧ th.held = true
      let limited := match a.who with
        | some t => u.modThread a.blk t fun th => { th with held := true }
        | none => u
      let gives := translate s b.ctx a.kind.accessMode a.va.toNat
      (∀ pa coh, gives = .ok pa coh → let v := fillDataTlb u w.core b.ctx a.va.toNat
        let a' := { a with pa := pa, coh := coh, walking := false }
        ((∃ x ∈ (v.core w.core).pend, x.id = a.id) → exec i s = .next (progress (putAcc v w.core a') w.core)) ∧
        ((∀ x ∈ (v.core w.core).pend, x.id ≠ a.id) →
          (∀ x, resumeLate v w.core a' = some x → exec i s = .next x) ∧
          (resumeLate v w.core a' = none → exec i s = .next (ageAcc v w.core a')))) ∧
      (∀ x, gives = .protect x → exec i s = .next (lateFault (dropAcc u w.core a.id) a.blk a.who (some (a.dest.getD { reg := 0, count := 0 }))
        { cause := causeProtect, tpc := a.grp, taddr := BitVec.ofNat 64 a.faultAt, detail := BitVec.ofNat 16 x, soon := false
          regs := (a.dest.map Dest.mask).getD 0 })) ∧
      ∀ cause level, gives = .fault cause level → let log := ((s.core w.core).quad w.quad).log
        ((64 ≤ log.length ∨ held) → exec i s = .next s) ∧
        (log.length < 64 → ¬held → exec i s = .next (raiseFault (limited.modQuad w.core w.quad fun q => { q with log := q.log ++ [a] }) b.ctx
          a.va.toNat a.kind.kindBits cause level (.acc w.core w.quad a)))) ∧
    (∀ (seq : BitVec 32) f, s.frecs.find? (fun f => decide (f.seq = seq.toNat) && f.posted.isSome) = some f →
      let gone := { s with frecs := s.frecs.filter (· ≠ f) }
      let fails := fun (n : Nat) => let c := if f.cause = 1 then (causePagefault, f.level + n) else
          if f.cause = 2 then (causeProtect, 4 + n) else (causeProtect, 5 + n)
        f.joined.foldl (failJoined c.1 c.2) gone
      exec (.faultRetry seq) s = .next (f.joined.foldl retryJoined gone) ∧ exec (.faultFail seq) s = .next (fails 0) ∧
      ∀ at_, f.posted = some at_ → exec (.faultTimeout seq) s =
        .next (if d.ftmo ≠ 0 ∧ at_ + d.ftmo.toNat * cyclesPerUs ≤ s.now then fails 32768 else s)) ∧
    (∀ seq : BitVec 32, (∀ f ∈ s.frecs, f.seq = seq.toNat → f.posted = none) →
      exec (.faultRetry seq) s = .next s ∧ exec (.faultFail seq) s = .next s ∧ exec (.faultTimeout seq) s = .next s) ∧
    (∀ v, let ctx := field v 61 56
      let lo := field d.tlbva 56 16 * 65536
      let hi := min (lo + field v 15 0 * 65536) (2 ^ 57)
      let page := fun (e : TlbEntry) => decide (e.vpn * 2 ^ e.shift < hi) && decide (lo < (e.vpn + 1) * 2 ^ e.shift)
      let starts := fun (i : Instr) (caches : List WalkEntry) (hit : TlbEntry → Bool) => ∃ t, exec i s = .next t ∧
        t = { s with cores := t.cores, walkCache := caches, dev := { d with
            tlbFrom := s.nextAcc, tlbinv := v &&& 0xFF0000000000FFFF ||| 0x8000000000000000 } } ∧
        ∀ c, t.core c = { s.core c with
          dtlb := (s.core c).dtlb.filter fun e => !hit e, ftlb := (s.core c).ftlb.filter fun e => !hit e }
      (bit v 62 = true → bit d.tlbinv 63 = false → starts (.tlbInvalidateAll v) [] fun e => e.ctx = ctx) ∧
      (bit v 62 = false → bit d.tlbinv 63 = false → field v 15 0 ≠ 0 →
        starts (.tlbInvalidateRange v) s.walkCache fun e => decide (e.ctx = ctx) && page e) ∧
      (bit v 62 = false → bit d.tlbinv 63 = false → field v 15 0 = 0 → exec (.tlbInvalidateRange v) s =
        .next { s with dev := { d with tlbinv := v &&& 0x3F00000000000000 } }) ∧
      (bit v 62 = false ∨ bit d.tlbinv 63 = true → exec (.tlbInvalidateAll v) s = .next s) ∧
      (bit v 62 = true ∨ bit d.tlbinv 63 = true → exec (.tlbInvalidateRange v) s = .next s)) ∧
    (if bit d.tlbinv 63 = true ∧ tlbWaits s = false then
        exec .tlbInvalidateDone s = .next { s with dev := { d with tlbinv := withBit d.tlbinv 63 false } }
      else exec .tlbInvalidateDone s = .next s) ∧
    (∀ v, let k := field v 5 0
      let r := readCtx s (field v 63 8 * 256)
      let started := fun (u : State) => ({ u with dev := { u.dev with fqerr := false, fqbusy := true, ctxcmd := some v } } : State)
      let refused := ({ s with dev := { d with fqerr := true } } : State)
      (d.fqbusy = false → field v 7 6 = 1 → exec (.ctxCreate v) s =
        .next (if ctxLive s k = false ∧ r.2 = true then started { s with ctxs := tset s.ctxs k r.1 } else refused)) ∧
      (d.fqbusy = false → field v 7 6 = 2 → exec (.ctxDestroy v) s =
        .next (if ctxLive s k = true then started ((fatalStop s k s.nextLaunch { done := 3 }).modCtx k fun c =>
          { c with live := false, ending := true }) else refused)) ∧
      (d.fqbusy = true ∨ field v 7 6 ≠ 1 → exec (.ctxCreate v) s = .next s) ∧
      (d.fqbusy = true ∨ field v 7 6 ≠ 2 → exec (.ctxDestroy v) s = .next s)) ∧
    (d.ctxcmd = none → exec .ctxCommandDone s = .next s) ∧
    ∀ v, d.ctxcmd = some v → let k := field v 5 0
      let i := Instr.ctxCommandDone
      let ended := fun (u : State) => ({ u with dev := { u.dev with fqbusy := false, ctxcmd := none } } : State)
      (field v 7 6 = 1 → exec i s = .next (ended (s.modCtx k fun c => { c with live := true }))) ∧
      (field v 7 6 ≠ 1 → exec i s = .next (if ctxBusy s k then s else ended (endContext s k)))

/-! ## Work-split launches -/

/-- R346, R347: the ranges of a work-split launch's blocks follow each other and cover [0, T) once; the contributors of a tile that has
an iteration are the blocks whose ranges meet it. -/
def Obligations.WorkSplitRanges : Prop :=
  ∀ l : Launch, 0 < l.nblocks →
    splitStart l 0 = 0 ∧ splitStart l l.nblocks = l.wt ∧
    (∀ b, splitStart l b ≤ splitStart l (b + 1)) ∧
    (∀ x, x < l.wt → ∃ b, b < l.nblocks ∧ splitStart l b ≤ x ∧ x < splitStart l (b + 1) ∧
      ∀ c, splitStart l c ≤ x → x < splitStart l (c + 1) → c = b) ∧
    ∀ t, 0 < l.wipt → t * l.wipt < l.wt →
      contributors l t = ((List.range l.nblocks).filter fun b => (List.range l.wt).any fun x =>
        decide (splitStart l b ≤ x) && decide (x < splitStart l (b + 1)) && decide (x / l.wipt = t)).length
end

