-- ==== Sys2Proof/Laws/State.lean ====
section
/-! SUPPORT. Reading a field of the state after one of the updates through which every meaning writes it: each update
changes the one table that it names. -/

namespace Sys2Proof.Machine

/-! ## Fields -/

@[simp] theorem State.setCore_dev (s : State) (c : Nat) (k : Core) : (s.setCore c k).dev = s.dev := rfl
@[simp] theorem State.setCore_ctxs (s : State) (c : Nat) (k : Core) : (s.setCore c k).ctxs = s.ctxs := rfl
@[simp] theorem State.setCore_launches (s : State) (c : Nat) (k : Core) : (s.setCore c k).launches = s.launches := rfl
@[simp] theorem State.setCore_blocks (s : State) (c : Nat) (k : Core) : (s.setCore c k).blocks = s.blocks := rfl
@[simp] theorem State.setCore_mem (s : State) (c : Nat) (k : Core) : (s.setCore c k).mem = s.mem := rfl
@[simp] theorem State.setCore_poison (s : State) (c : Nat) (k : Core) : (s.setCore c k).poison = s.poison := rfl
@[simp] theorem State.setCore_home (s : State) (c : Nat) (k : Core) : (s.setCore c k).home = s.home := rfl
@[simp] theorem State.setCore_proxies (s : State) (c : Nat) (k : Core) : (s.setCore c k).proxies = s.proxies := rfl
@[simp] theorem State.setCore_clusters (s : State) (c : Nat) (k : Core) : (s.setCore c k).clusters = s.clusters := rfl
@[simp] theorem State.setCore_hbm (s : State) (c : Nat) (k : Core) : (s.setCore c k).hbm = s.hbm := rfl
@[simp] theorem State.setCore_net (s : State) (c : Nat) (k : Core) : (s.setCore c k).net = s.net := rfl
@[simp] theorem State.setCore_walks (s : State) (c : Nat) (k : Core) : (s.setCore c k).walks = s.walks := rfl
@[simp] theorem State.setCore_walkCache (s : State) (c : Nat) (k : Core) : (s.setCore c k).walkCache = s.walkCache := rfl
@[simp] theorem State.setCore_frecs (s : State) (c : Nat) (k : Core) : (s.setCore c k).frecs = s.frecs := rfl
@[simp] theorem State.setCore_now (s : State) (c : Nat) (k : Core) : (s.setCore c k).now = s.now := rfl
@[simp] theorem State.setCore_nextSeq (s : State) (c : Nat) (k : Core) : (s.setCore c k).nextSeq = s.nextSeq := rfl
@[simp] theorem State.setCore_nextLaunch (s : State) (c : Nat) (k : Core) : (s.setCore c k).nextLaunch = s.nextLaunch := rfl
@[simp] theorem State.setCore_nextAcc (s : State) (c : Nat) (k : Core) : (s.setCore c k).nextAcc = s.nextAcc := rfl
@[simp] theorem State.setCore_reserve (s : State) (c : Nat) (k : Core) : (s.setCore c k).reserve = s.reserve := rfl
@[simp] theorem State.setCore_cur (s : State) (c : Nat) (k : Core) : (s.setCore c k).cur = s.cur := rfl
@[simp] theorem State.setCore_grp (s : State) (c : Nat) (k : Core) : (s.setCore c k).grp = s.grp := rfl
@[simp] theorem State.setCore_agenda (s : State) (c : Nat) (k : Core) : (s.setCore c k).agenda = s.agenda := rfl
@[simp] theorem State.setCore_nfree (s : State) (c : Nat) (k : Core) : (s.setCore c k).nfree = s.nfree := rfl
@[simp] theorem State.setCore_reply (s : State) (c : Nat) (k : Core) : (s.setCore c k).reply = s.reply := rfl
@[simp] theorem State.setCore_replyBad (s : State) (c : Nat) (k : Core) : (s.setCore c k).replyBad = s.replyBad := rfl

@[simp] theorem State.modCore_dev (s : State) (c : Nat) (f : Core → Core) : (s.modCore c f).dev = s.dev := rfl
@[simp] theorem State.modCore_ctxs (s : State) (c : Nat) (f : Core → Core) : (s.modCore c f).ctxs = s.ctxs := rfl
@[simp] theorem State.modCore_launches (s : State) (c : Nat) (f : Core → Core) : (s.modCore c f).launches = s.launches := rfl
@[simp] theorem State.modCore_blocks (s : State) (c : Nat) (f : Core → Core) : (s.modCore c f).blocks = s.blocks := rfl
@[simp] theorem State.modCore_mem (s : State) (c : Nat) (f : Core → Core) : (s.modCore c f).mem = s.mem := rfl
@[simp] theorem State.modCore_poison (s : State) (c : Nat) (f : Core → Core) : (s.modCore c f).poison = s.poison := rfl
@[simp] theorem State.modCore_home (s : State) (c : Nat) (f : Core → Core) : (s.modCore c f).home = s.home := rfl
@[simp] theorem State.modCore_proxies (s : State) (c : Nat) (f : Core → Core) : (s.modCore c f).proxies = s.proxies := rfl
@[simp] theorem State.modCore_clusters (s : State) (c : Nat) (f : Core → Core) : (s.modCore c f).clusters = s.clusters := rfl
@[simp] theorem State.modCore_hbm (s : State) (c : Nat) (f : Core → Core) : (s.modCore c f).hbm = s.hbm := rfl
@[simp] theorem State.modCore_net (s : State) (c : Nat) (f : Core → Core) : (s.modCore c f).net = s.net := rfl
@[simp] theorem State.modCore_walks (s : State) (c : Nat) (f : Core → Core) : (s.modCore c f).walks = s.walks := rfl
@[simp] theorem State.modCore_walkCache (s : State) (c : Nat) (f : Core → Core) : (s.modCore c f).walkCache = s.walkCache := rfl
@[simp] theorem State.modCore_frecs (s : State) (c : Nat) (f : Core → Core) : (s.modCore c f).frecs = s.frecs := rfl
@[simp] theorem State.modCore_now (s : State) (c : Nat) (f : Core → Core) : (s.modCore c f).now = s.now := rfl
@[simp] theorem State.modCore_nextSeq (s : State) (c : Nat) (f : Core → Core) : (s.modCore c f).nextSeq = s.nextSeq := rfl
@[simp] theorem State.modCore_nextLaunch (s : State) (c : Nat) (f : Core → Core) : (s.modCore c f).nextLaunch = s.nextLaunch := rfl
@[simp] theorem State.modCore_nextAcc (s : State) (c : Nat) (f : Core → Core) : (s.modCore c f).nextAcc = s.nextAcc := rfl
@[simp] theorem State.modCore_reserve (s : State) (c : Nat) (f : Core → Core) : (s.modCore c f).reserve = s.reserve := rfl
@[simp] theorem State.modCore_cur (s : State) (c : Nat) (f : Core → Core) : (s.modCore c f).cur = s.cur := rfl
@[simp] theorem State.modCore_grp (s : State) (c : Nat) (f : Core → Core) : (s.modCore c f).grp = s.grp := rfl
@[simp] theorem State.modCore_agenda (s : State) (c : Nat) (f : Core → Core) : (s.modCore c f).agenda = s.agenda := rfl
@[simp] theorem State.modCore_nfree (s : State) (c : Nat) (f : Core → Core) : (s.modCore c f).nfree = s.nfree := rfl
@[simp] theorem State.modCore_reply (s : State) (c : Nat) (f : Core → Core) : (s.modCore c f).reply = s.reply := rfl
@[simp] theorem State.modCore_replyBad (s : State) (c : Nat) (f : Core → Core) : (s.modCore c f).replyBad = s.replyBad := rfl

@[simp] theorem State.modQuad_dev (s : State) (c q : Nat) (f : Quadrant → Quadrant) : (s.modQuad c q f).dev = s.dev := rfl
@[simp] theorem State.modQuad_ctxs (s : State) (c q : Nat) (f : Quadrant → Quadrant) : (s.modQuad c q f).ctxs = s.ctxs := rfl
@[simp] theorem State.modQuad_launches (s : State) (c q : Nat) (f : Quadrant → Quadrant) : (s.modQuad c q f).launches = s.launches := rfl
@[simp] theorem State.modQuad_blocks (s : State) (c q : Nat) (f : Quadrant → Quadrant) : (s.modQuad c q f).blocks = s.blocks := rfl
@[simp] theorem State.modQuad_mem (s : State) (c q : Nat) (f : Quadrant → Quadrant) : (s.modQuad c q f).mem = s.mem := rfl
@[simp] theorem State.modQuad_poison (s : State) (c q : Nat) (f : Quadrant → Quadrant) : (s.modQuad c q f).poison = s.poison := rfl
@[simp] theorem State.modQuad_home (s : State) (c q : Nat) (f : Quadrant → Quadrant) : (s.modQuad c q f).home = s.home := rfl
@[simp] theorem State.modQuad_proxies (s : State) (c q : Nat) (f : Quadrant → Quadrant) : (s.modQuad c q f).proxies = s.proxies := rfl
@[simp] theorem State.modQuad_clusters (s : State) (c q : Nat) (f : Quadrant → Quadrant) : (s.modQuad c q f).clusters = s.clusters := rfl
@[simp] theorem State.modQuad_hbm (s : State) (c q : Nat) (f : Quadrant → Quadrant) : (s.modQuad c q f).hbm = s.hbm := rfl
@[simp] theorem State.modQuad_net (s : State) (c q : Nat) (f : Quadrant → Quadrant) : (s.modQuad c q f).net = s.net := rfl
@[simp] theorem State.modQuad_walks (s : State) (c q : Nat) (f : Quadrant → Quadrant) : (s.modQuad c q f).walks = s.walks := rfl
@[simp] theorem State.modQuad_walkCache (s : State) (c q : Nat) (f : Quadrant → Quadrant) : (s.modQuad c q f).walkCache = s.walkCache := rfl
@[simp] theorem State.modQuad_frecs (s : State) (c q : Nat) (f : Quadrant → Quadrant) : (s.modQuad c q f).frecs = s.frecs := rfl
@[simp] theorem State.modQuad_now (s : State) (c q : Nat) (f : Quadrant → Quadrant) : (s.modQuad c q f).now = s.now := rfl
@[simp] theorem State.modQuad_nextSeq (s : State) (c q : Nat) (f : Quadrant → Quadrant) : (s.modQuad c q f).nextSeq = s.nextSeq := rfl
@[simp] theorem State.modQuad_nextLaunch (s : State) (c q : Nat) (f : Quadrant → Quadrant) : (s.modQuad c q f).nextLaunch = s.nextLaunch := rfl
@[simp] theorem State.modQuad_nextAcc (s : State) (c q : Nat) (f : Quadrant → Quadrant) : (s.modQuad c q f).nextAcc = s.nextAcc := rfl
@[simp] theorem State.modQuad_reserve (s : State) (c q : Nat) (f : Quadrant → Quadrant) : (s.modQuad c q f).reserve = s.reserve := rfl
@[simp] theorem State.modQuad_cur (s : State) (c q : Nat) (f : Quadrant → Quadrant) : (s.modQuad c q f).cur = s.cur := rfl
@[simp] theorem State.modQuad_grp (s : State) (c q : Nat) (f : Quadrant → Quadrant) : (s.modQuad c q f).grp = s.grp := rfl
@[simp] theorem State.modQuad_agenda (s : State) (c q : Nat) (f : Quadrant → Quadrant) : (s.modQuad c q f).agenda = s.agenda := rfl
@[simp] theorem State.modQuad_nfree (s : State) (c q : Nat) (f : Quadrant → Quadrant) : (s.modQuad c q f).nfree = s.nfree := rfl
@[simp] theorem State.modQuad_reply (s : State) (c q : Nat) (f : Quadrant → Quadrant) : (s.modQuad c q f).reply = s.reply := rfl
@[simp] theorem State.modQuad_replyBad (s : State) (c q : Nat) (f : Quadrant → Quadrant) : (s.modQuad c q f).replyBad = s.replyBad := rfl

@[simp] theorem State.setBlock_dev (s : State) (k : Nat) (b : Block) : (s.setBlock k b).dev = s.dev := rfl
@[simp] theorem State.setBlock_ctxs (s : State) (k : Nat) (b : Block) : (s.setBlock k b).ctxs = s.ctxs := rfl
@[simp] theorem State.setBlock_launches (s : State) (k : Nat) (b : Block) : (s.setBlock k b).launches = s.launches := rfl
@[simp] theorem State.setBlock_cores (s : State) (k : Nat) (b : Block) : (s.setBlock k b).cores = s.cores := rfl
@[simp] theorem State.setBlock_mem (s : State) (k : Nat) (b : Block) : (s.setBlock k b).mem = s.mem := rfl
@[simp] theorem State.setBlock_poison (s : State) (k : Nat) (b : Block) : (s.setBlock k b).poison = s.poison := rfl
@[simp] theorem State.setBlock_home (s : State) (k : Nat) (b : Block) : (s.setBlock k b).home = s.home := rfl
@[simp] theorem State.setBlock_proxies (s : State) (k : Nat) (b : Block) : (s.setBlock k b).proxies = s.proxies := rfl
@[simp] theorem State.setBlock_clusters (s : State) (k : Nat) (b : Block) : (s.setBlock k b).clusters = s.clusters := rfl
@[simp] theorem State.setBlock_hbm (s : State) (k : Nat) (b : Block) : (s.setBlock k b).hbm = s.hbm := rfl
@[simp] theorem State.setBlock_net (s : State) (k : Nat) (b : Block) : (s.setBlock k b).net = s.net := rfl
@[simp] theorem State.setBlock_walks (s : State) (k : Nat) (b : Block) : (s.setBlock k b).walks = s.walks := rfl
@[simp] theorem State.setBlock_walkCache (s : State) (k : Nat) (b : Block) : (s.setBlock k b).walkCache = s.walkCache := rfl
@[simp] theorem State.setBlock_frecs (s : State) (k : Nat) (b : Block) : (s.setBlock k b).frecs = s.frecs := rfl
@[simp] theorem State.setBlock_now (s : State) (k : Nat) (b : Block) : (s.setBlock k b).now = s.now := rfl
@[simp] theorem State.setBlock_nextSeq (s : State) (k : Nat) (b : Block) : (s.setBlock k b).nextSeq = s.nextSeq := rfl
@[simp] theorem State.setBlock_nextLaunch (s : State) (k : Nat) (b : Block) : (s.setBlock k b).nextLaunch = s.nextLaunch := rfl
@[simp] theorem State.setBlock_nextAcc (s : State) (k : Nat) (b : Block) : (s.setBlock k b).nextAcc = s.nextAcc := rfl
@[simp] theorem State.setBlock_reserve (s : State) (k : Nat) (b : Block) : (s.setBlock k b).reserve = s.reserve := rfl
@[simp] theorem State.setBlock_cur (s : State) (k : Nat) (b : Block) : (s.setBlock k b).cur = s.cur := rfl
@[simp] theorem State.setBlock_grp (s : State) (k : Nat) (b : Block) : (s.setBlock k b).grp = s.grp := rfl
@[simp] theorem State.setBlock_agenda (s : State) (k : Nat) (b : Block) : (s.setBlock k b).agenda = s.agenda := rfl
@[simp] theorem State.setBlock_nfree (s : State) (k : Nat) (b : Block) : (s.setBlock k b).nfree = s.nfree := rfl
@[simp] theorem State.setBlock_reply (s : State) (k : Nat) (b : Block) : (s.setBlock k b).reply = s.reply := rfl
@[simp] theorem State.setBlock_replyBad (s : State) (k : Nat) (b : Block) : (s.setBlock k b).replyBad = s.replyBad := rfl

@[simp] theorem State.modBlock_dev (s : State) (k : Nat) (f : Block → Block) : (s.modBlock k f).dev = s.dev := rfl
@[simp] theorem State.modBlock_ctxs (s : State) (k : Nat) (f : Block → Block) : (s.modBlock k f).ctxs = s.ctxs := rfl
@[simp] theorem State.modBlock_launches (s : State) (k : Nat) (f : Block → Block) : (s.modBlock k f).launches = s.launches := rfl
@[simp] theorem State.modBlock_cores (s : State) (k : Nat) (f : Block → Block) : (s.modBlock k f).cores = s.cores := rfl
@[simp] theorem State.modBlock_mem (s : State) (k : Nat) (f : Block → Block) : (s.modBlock k f).mem = s.mem := rfl
@[simp] theorem State.modBlock_poison (s : State) (k : Nat) (f : Block → Block) : (s.modBlock k f).poison = s.poison := rfl
@[simp] theorem State.modBlock_home (s : State) (k : Nat) (f : Block → Block) : (s.modBlock k f).home = s.home := rfl
@[simp] theorem State.modBlock_proxies (s : State) (k : Nat) (f : Block → Block) : (s.modBlock k f).proxies = s.proxies := rfl
@[simp] theorem State.modBlock_clusters (s : State) (k : Nat) (f : Block → Block) : (s.modBlock k f).clusters = s.clusters := rfl
@[simp] theorem State.modBlock_hbm (s : State) (k : Nat) (f : Block → Block) : (s.modBlock k f).hbm = s.hbm := rfl
@[simp] theorem State.modBlock_net (s : State) (k : Nat) (f : Block → Block) : (s.modBlock k f).net = s.net := rfl
@[simp] theorem State.modBlock_walks (s : State) (k : Nat) (f : Block → Block) : (s.modBlock k f).walks = s.walks := rfl
@[simp] theorem State.modBlock_walkCache (s : State) (k : Nat) (f : Block → Block) : (s.modBlock k f).walkCache = s.walkCache := rfl
@[simp] theorem State.modBlock_frecs (s : State) (k : Nat) (f : Block → Block) : (s.modBlock k f).frecs = s.frecs := rfl
@[simp] theorem State.modBlock_now (s : State) (k : Nat) (f : Block → Block) : (s.modBlock k f).now = s.now := rfl
@[simp] theorem State.modBlock_nextSeq (s : State) (k : Nat) (f : Block → Block) : (s.modBlock k f).nextSeq = s.nextSeq := rfl
@[simp] theorem State.modBlock_nextLaunch (s : State) (k : Nat) (f : Block → Block) : (s.modBlock k f).nextLaunch = s.nextLaunch := rfl
@[simp] theorem State.modBlock_nextAcc (s : State) (k : Nat) (f : Block → Block) : (s.modBlock k f).nextAcc = s.nextAcc := rfl
@[simp] theorem State.modBlock_reserve (s : State) (k : Nat) (f : Block → Block) : (s.modBlock k f).reserve = s.reserve := rfl
@[simp] theorem State.modBlock_cur (s : State) (k : Nat) (f : Block → Block) : (s.modBlock k f).cur = s.cur := rfl
@[simp] theorem State.modBlock_grp (s : State) (k : Nat) (f : Block → Block) : (s.modBlock k f).grp = s.grp := rfl
@[simp] theorem State.modBlock_agenda (s : State) (k : Nat) (f : Block → Block) : (s.modBlock k f).agenda = s.agenda := rfl
@[simp] theorem State.modBlock_nfree (s : State) (k : Nat) (f : Block → Block) : (s.modBlock k f).nfree = s.nfree := rfl
@[simp] theorem State.modBlock_reply (s : State) (k : Nat) (f : Block → Block) : (s.modBlock k f).reply = s.reply := rfl
@[simp] theorem State.modBlock_replyBad (s : State) (k : Nat) (f : Block → Block) : (s.modBlock k f).replyBad = s.replyBad := rfl

@[simp] theorem State.modThread_dev (s : State) (k t : Nat) (f : Thread → Thread) : (s.modThread k t f).dev = s.dev := rfl
@[simp] theorem State.modThread_ctxs (s : State) (k t : Nat) (f : Thread → Thread) : (s.modThread k t f).ctxs = s.ctxs := rfl
@[simp] theorem State.modThread_launches (s : State) (k t : Nat) (f : Thread → Thread) : (s.modThread k t f).launches = s.launches := rfl
@[simp] theorem State.modThread_cores (s : State) (k t : Nat) (f : Thread → Thread) : (s.modThread k t f).cores = s.cores := rfl
@[simp] theorem State.modThread_mem (s : State) (k t : Nat) (f : Thread → Thread) : (s.modThread k t f).mem = s.mem := rfl
@[simp] theorem State.modThread_poison (s : State) (k t : Nat) (f : Thread → Thread) : (s.modThread k t f).poison = s.poison := rfl
@[simp] theorem State.modThread_home (s : State) (k t : Nat) (f : Thread → Thread) : (s.modThread k t f).home = s.home := rfl
@[simp] theorem State.modThread_proxies (s : State) (k t : Nat) (f : Thread → Thread) : (s.modThread k t f).proxies = s.proxies := rfl
@[simp] theorem State.modThread_clusters (s : State) (k t : Nat) (f : Thread → Thread) : (s.modThread k t f).clusters = s.clusters := rfl
@[simp] theorem State.modThread_hbm (s : State) (k t : Nat) (f : Thread → Thread) : (s.modThread k t f).hbm = s.hbm := rfl
@[simp] theorem State.modThread_net (s : State) (k t : Nat) (f : Thread → Thread) : (s.modThread k t f).net = s.net := rfl
@[simp] theorem State.modThread_walks (s : State) (k t : Nat) (f : Thread → Thread) : (s.modThread k t f).walks = s.walks := rfl
@[simp] theorem State.modThread_walkCache (s : State) (k t : Nat) (f : Thread → Thread) : (s.modThread k t f).walkCache = s.walkCache := rfl
@[simp] theorem State.modThread_frecs (s : State) (k t : Nat) (f : Thread → Thread) : (s.modThread k t f).frecs = s.frecs := rfl
@[simp] theorem State.modThread_now (s : State) (k t : Nat) (f : Thread → Thread) : (s.modThread k t f).now = s.now := rfl
@[simp] theorem State.modThread_nextSeq (s : State) (k t : Nat) (f : Thread → Thread) : (s.modThread k t f).nextSeq = s.nextSeq := rfl
@[simp] theorem State.modThread_nextLaunch (s : State) (k t : Nat) (f : Thread → Thread) : (s.modThread k t f).nextLaunch = s.nextLaunch := rfl
@[simp] theorem State.modThread_nextAcc (s : State) (k t : Nat) (f : Thread → Thread) : (s.modThread k t f).nextAcc = s.nextAcc := rfl
@[simp] theorem State.modThread_reserve (s : State) (k t : Nat) (f : Thread → Thread) : (s.modThread k t f).reserve = s.reserve := rfl
@[simp] theorem State.modThread_cur (s : State) (k t : Nat) (f : Thread → Thread) : (s.modThread k t f).cur = s.cur := rfl
@[simp] theorem State.modThread_grp (s : State) (k t : Nat) (f : Thread → Thread) : (s.modThread k t f).grp = s.grp := rfl
@[simp] theorem State.modThread_agenda (s : State) (k t : Nat) (f : Thread → Thread) : (s.modThread k t f).agenda = s.agenda := rfl
@[simp] theorem State.modThread_nfree (s : State) (k t : Nat) (f : Thread → Thread) : (s.modThread k t f).nfree = s.nfree := rfl
@[simp] theorem State.modThread_reply (s : State) (k t : Nat) (f : Thread → Thread) : (s.modThread k t f).reply = s.reply := rfl
@[simp] theorem State.modThread_replyBad (s : State) (k t : Nat) (f : Thread → Thread) : (s.modThread k t f).replyBad = s.replyBad := rfl

@[simp] theorem State.modFront_dev (s : State) (k : Nat) (f : Front → Front) : (s.modFront k f).dev = s.dev := rfl
@[simp] theorem State.modFront_ctxs (s : State) (k : Nat) (f : Front → Front) : (s.modFront k f).ctxs = s.ctxs := rfl
@[simp] theorem State.modFront_launches (s : State) (k : Nat) (f : Front → Front) : (s.modFront k f).launches = s.launches := rfl
@[simp] theorem State.modFront_cores (s : State) (k : Nat) (f : Front → Front) : (s.modFront k f).cores = s.cores := rfl
@[simp] theorem State.modFront_mem (s : State) (k : Nat) (f : Front → Front) : (s.modFront k f).mem = s.mem := rfl
@[simp] theorem State.modFront_poison (s : State) (k : Nat) (f : Front → Front) : (s.modFront k f).poison = s.poison := rfl
@[simp] theorem State.modFront_home (s : State) (k : Nat) (f : Front → Front) : (s.modFront k f).home = s.home := rfl
@[simp] theorem State.modFront_proxies (s : State) (k : Nat) (f : Front → Front) : (s.modFront k f).proxies = s.proxies := rfl
@[simp] theorem State.modFront_clusters (s : State) (k : Nat) (f : Front → Front) : (s.modFront k f).clusters = s.clusters := rfl
@[simp] theorem State.modFront_hbm (s : State) (k : Nat) (f : Front → Front) : (s.modFront k f).hbm = s.hbm := rfl
@[simp] theorem State.modFront_net (s : State) (k : Nat) (f : Front → Front) : (s.modFront k f).net = s.net := rfl
@[simp] theorem State.modFront_walks (s : State) (k : Nat) (f : Front → Front) : (s.modFront k f).walks = s.walks := rfl
@[simp] theorem State.modFront_walkCache (s : State) (k : Nat) (f : Front → Front) : (s.modFront k f).walkCache = s.walkCache := rfl
@[simp] theorem State.modFront_frecs (s : State) (k : Nat) (f : Front → Front) : (s.modFront k f).frecs = s.frecs := rfl
@[simp] theorem State.modFront_now (s : State) (k : Nat) (f : Front → Front) : (s.modFront k f).now = s.now := rfl
@[simp] theorem State.modFront_nextSeq (s : State) (k : Nat) (f : Front → Front) : (s.modFront k f).nextSeq = s.nextSeq := rfl
@[simp] theorem State.modFront_nextLaunch (s : State) (k : Nat) (f : Front → Front) : (s.modFront k f).nextLaunch = s.nextLaunch := rfl
@[simp] theorem State.modFront_nextAcc (s : State) (k : Nat) (f : Front → Front) : (s.modFront k f).nextAcc = s.nextAcc := rfl
@[simp] theorem State.modFront_reserve (s : State) (k : Nat) (f : Front → Front) : (s.modFront k f).reserve = s.reserve := rfl
@[simp] theorem State.modFront_cur (s : State) (k : Nat) (f : Front → Front) : (s.modFront k f).cur = s.cur := rfl
@[simp] theorem State.modFront_grp (s : State) (k : Nat) (f : Front → Front) : (s.modFront k f).grp = s.grp := rfl
@[simp] theorem State.modFront_agenda (s : State) (k : Nat) (f : Front → Front) : (s.modFront k f).agenda = s.agenda := rfl
@[simp] theorem State.modFront_nfree (s : State) (k : Nat) (f : Front → Front) : (s.modFront k f).nfree = s.nfree := rfl
@[simp] theorem State.modFront_reply (s : State) (k : Nat) (f : Front → Front) : (s.modFront k f).reply = s.reply := rfl
@[simp] theorem State.modFront_replyBad (s : State) (k : Nat) (f : Front → Front) : (s.modFront k f).replyBad = s.replyBad := rfl

@[simp] theorem State.modLaunch_dev (s : State) (k : Nat) (f : Launch → Launch) : (s.modLaunch k f).dev = s.dev := rfl
@[simp] theorem State.modLaunch_ctxs (s : State) (k : Nat) (f : Launch → Launch) : (s.modLaunch k f).ctxs = s.ctxs := rfl
@[simp] theorem State.modLaunch_blocks (s : State) (k : Nat) (f : Launch → Launch) : (s.modLaunch k f).blocks = s.blocks := rfl
@[simp] theorem State.modLaunch_cores (s : State) (k : Nat) (f : Launch → Launch) : (s.modLaunch k f).cores = s.cores := rfl
@[simp] theorem State.modLaunch_mem (s : State) (k : Nat) (f : Launch → Launch) : (s.modLaunch k f).mem = s.mem := rfl
@[simp] theorem State.modLaunch_poison (s : State) (k : Nat) (f : Launch → Launch) : (s.modLaunch k f).poison = s.poison := rfl
@[simp] theorem State.modLaunch_home (s : State) (k : Nat) (f : Launch → Launch) : (s.modLaunch k f).home = s.home := rfl
@[simp] theorem State.modLaunch_proxies (s : State) (k : Nat) (f : Launch → Launch) : (s.modLaunch k f).proxies = s.proxies := rfl
@[simp] theorem State.modLaunch_clusters (s : State) (k : Nat) (f : Launch → Launch) : (s.modLaunch k f).clusters = s.clusters := rfl
@[simp] theorem State.modLaunch_hbm (s : State) (k : Nat) (f : Launch → Launch) : (s.modLaunch k f).hbm = s.hbm := rfl
@[simp] theorem State.modLaunch_net (s : State) (k : Nat) (f : Launch → Launch) : (s.modLaunch k f).net = s.net := rfl
@[simp] theorem State.modLaunch_walks (s : State) (k : Nat) (f : Launch → Launch) : (s.modLaunch k f).walks = s.walks := rfl
@[simp] theorem State.modLaunch_walkCache (s : State) (k : Nat) (f : Launch → Launch) : (s.modLaunch k f).walkCache = s.walkCache := rfl
@[simp] theorem State.modLaunch_frecs (s : State) (k : Nat) (f : Launch → Launch) : (s.modLaunch k f).frecs = s.frecs := rfl
@[simp] theorem State.modLaunch_now (s : State) (k : Nat) (f : Launch → Launch) : (s.modLaunch k f).now = s.now := rfl
@[simp] theorem State.modLaunch_nextSeq (s : State) (k : Nat) (f : Launch → Launch) : (s.modLaunch k f).nextSeq = s.nextSeq := rfl
@[simp] theorem State.modLaunch_nextLaunch (s : State) (k : Nat) (f : Launch → Launch) : (s.modLaunch k f).nextLaunch = s.nextLaunch := rfl
@[simp] theorem State.modLaunch_nextAcc (s : State) (k : Nat) (f : Launch → Launch) : (s.modLaunch k f).nextAcc = s.nextAcc := rfl
@[simp] theorem State.modLaunch_reserve (s : State) (k : Nat) (f : Launch → Launch) : (s.modLaunch k f).reserve = s.reserve := rfl
@[simp] theorem State.modLaunch_cur (s : State) (k : Nat) (f : Launch → Launch) : (s.modLaunch k f).cur = s.cur := rfl
@[simp] theorem State.modLaunch_grp (s : State) (k : Nat) (f : Launch → Launch) : (s.modLaunch k f).grp = s.grp := rfl
@[simp] theorem State.modLaunch_agenda (s : State) (k : Nat) (f : Launch → Launch) : (s.modLaunch k f).agenda = s.agenda := rfl
@[simp] theorem State.modLaunch_nfree (s : State) (k : Nat) (f : Launch → Launch) : (s.modLaunch k f).nfree = s.nfree := rfl
@[simp] theorem State.modLaunch_reply (s : State) (k : Nat) (f : Launch → Launch) : (s.modLaunch k f).reply = s.reply := rfl
@[simp] theorem State.modLaunch_replyBad (s : State) (k : Nat) (f : Launch → Launch) : (s.modLaunch k f).replyBad = s.replyBad := rfl

@[simp] theorem State.modCtx_dev (s : State) (k : Nat) (f : Ctx → Ctx) : (s.modCtx k f).dev = s.dev := rfl
@[simp] theorem State.modCtx_launches (s : State) (k : Nat) (f : Ctx → Ctx) : (s.modCtx k f).launches = s.launches := rfl
@[simp] theorem State.modCtx_blocks (s : State) (k : Nat) (f : Ctx → Ctx) : (s.modCtx k f).blocks = s.blocks := rfl
@[simp] theorem State.modCtx_cores (s : State) (k : Nat) (f : Ctx → Ctx) : (s.modCtx k f).cores = s.cores := rfl
@[simp] theorem State.modCtx_mem (s : State) (k : Nat) (f : Ctx → Ctx) : (s.modCtx k f).mem = s.mem := rfl
@[simp] theorem State.modCtx_poison (s : State) (k : Nat) (f : Ctx → Ctx) : (s.modCtx k f).poison = s.poison := rfl
@[simp] theorem State.modCtx_home (s : State) (k : Nat) (f : Ctx → Ctx) : (s.modCtx k f).home = s.home := rfl
@[simp] theorem State.modCtx_proxies (s : State) (k : Nat) (f : Ctx → Ctx) : (s.modCtx k f).proxies = s.proxies := rfl
@[simp] theorem State.modCtx_clusters (s : State) (k : Nat) (f : Ctx → Ctx) : (s.modCtx k f).clusters = s.clusters := rfl
@[simp] theorem State.modCtx_hbm (s : State) (k : Nat) (f : Ctx → Ctx) : (s.modCtx k f).hbm = s.hbm := rfl
@[simp] theorem State.modCtx_net (s : State) (k : Nat) (f : Ctx → Ctx) : (s.modCtx k f).net = s.net := rfl
@[simp] theorem State.modCtx_walks (s : State) (k : Nat) (f : Ctx → Ctx) : (s.modCtx k f).walks = s.walks := rfl
@[simp] theorem State.modCtx_walkCache (s : State) (k : Nat) (f : Ctx → Ctx) : (s.modCtx k f).walkCache = s.walkCache := rfl
@[simp] theorem State.modCtx_frecs (s : State) (k : Nat) (f : Ctx → Ctx) : (s.modCtx k f).frecs = s.frecs := rfl
@[simp] theorem State.modCtx_now (s : State) (k : Nat) (f : Ctx → Ctx) : (s.modCtx k f).now = s.now := rfl
@[simp] theorem State.modCtx_nextSeq (s : State) (k : Nat) (f : Ctx → Ctx) : (s.modCtx k f).nextSeq = s.nextSeq := rfl
@[simp] theorem State.modCtx_nextLaunch (s : State) (k : Nat) (f : Ctx → Ctx) : (s.modCtx k f).nextLaunch = s.nextLaunch := rfl
@[simp] theorem State.modCtx_nextAcc (s : State) (k : Nat) (f : Ctx → Ctx) : (s.modCtx k f).nextAcc = s.nextAcc := rfl
@[simp] theorem State.modCtx_reserve (s : State) (k : Nat) (f : Ctx → Ctx) : (s.modCtx k f).reserve = s.reserve := rfl
@[simp] theorem State.modCtx_cur (s : State) (k : Nat) (f : Ctx → Ctx) : (s.modCtx k f).cur = s.cur := rfl
@[simp] theorem State.modCtx_grp (s : State) (k : Nat) (f : Ctx → Ctx) : (s.modCtx k f).grp = s.grp := rfl
@[simp] theorem State.modCtx_agenda (s : State) (k : Nat) (f : Ctx → Ctx) : (s.modCtx k f).agenda = s.agenda := rfl
@[simp] theorem State.modCtx_nfree (s : State) (k : Nat) (f : Ctx → Ctx) : (s.modCtx k f).nfree = s.nfree := rfl
@[simp] theorem State.modCtx_reply (s : State) (k : Nat) (f : Ctx → Ctx) : (s.modCtx k f).reply = s.reply := rfl
@[simp] theorem State.modCtx_replyBad (s : State) (k : Nat) (f : Ctx → Ctx) : (s.modCtx k f).replyBad = s.replyBad := rfl

@[simp] theorem closeGroup_dev (s : State) : (closeGroup s).dev = s.dev := rfl
@[simp] theorem closeGroup_ctxs (s : State) : (closeGroup s).ctxs = s.ctxs := rfl
@[simp] theorem closeGroup_launches (s : State) : (closeGroup s).launches = s.launches := rfl
@[simp] theorem closeGroup_blocks (s : State) : (closeGroup s).blocks = s.blocks := rfl
@[simp] theorem closeGroup_cores (s : State) : (closeGroup s).cores = s.cores := rfl
@[simp] theorem closeGroup_mem (s : State) : (closeGroup s).mem = s.mem := rfl
@[simp] theorem closeGroup_poison (s : State) : (closeGroup s).poison = s.poison := rfl
@[simp] theorem closeGroup_home (s : State) : (closeGroup s).home = s.home := rfl
@[simp] theorem closeGroup_proxies (s : State) : (closeGroup s).proxies = s.proxies := rfl
@[simp] theorem closeGroup_clusters (s : State) : (closeGroup s).clusters = s.clusters := rfl
@[simp] theorem closeGroup_hbm (s : State) : (closeGroup s).hbm = s.hbm := rfl
@[simp] theorem closeGroup_net (s : State) : (closeGroup s).net = s.net := rfl
@[simp] theorem closeGroup_walks (s : State) : (closeGroup s).walks = s.walks := rfl
@[simp] theorem closeGroup_walkCache (s : State) : (closeGroup s).walkCache = s.walkCache := rfl
@[simp] theorem closeGroup_frecs (s : State) : (closeGroup s).frecs = s.frecs := rfl
@[simp] theorem closeGroup_now (s : State) : (closeGroup s).now = s.now := rfl
@[simp] theorem closeGroup_nextSeq (s : State) : (closeGroup s).nextSeq = s.nextSeq := rfl
@[simp] theorem closeGroup_nextLaunch (s : State) : (closeGroup s).nextLaunch = s.nextLaunch := rfl
@[simp] theorem closeGroup_nextAcc (s : State) : (closeGroup s).nextAcc = s.nextAcc := rfl
@[simp] theorem closeGroup_reserve (s : State) : (closeGroup s).reserve = s.reserve := rfl
@[simp] theorem closeGroup_cur (s : State) : (closeGroup s).cur = s.cur := rfl
@[simp] theorem closeGroup_agenda (s : State) : (closeGroup s).agenda = s.agenda := rfl
@[simp] theorem closeGroup_nfree (s : State) : (closeGroup s).nfree = s.nfree := rfl
@[simp] theorem closeGroup_reply (s : State) : (closeGroup s).reply = s.reply := rfl
@[simp] theorem closeGroup_replyBad (s : State) : (closeGroup s).replyBad = s.replyBad := rfl

/-! ## Threads and front threads -/

@[simp] theorem Thread.ready_pc (t : Thread) (p : Pc) : (t.ready p).pc = p := rfl
@[simp] theorem Thread.ready_regs (t : Thread) (p : Pc) : (t.ready p).regs = t.regs := rfl
@[simp] theorem Thread.ready_preds (t : Thread) (p : Pc) : (t.ready p).preds = t.preds := rfl
@[simp] theorem Thread.ready_status (t : Thread) (p : Pc) : (t.ready p).status = .ready := rfl
@[simp] theorem Thread.ready_trap (t : Thread) (p : Pc) : (t.ready p).trap = t.trap := rfl
@[simp] theorem Thread.setReg_pc (t : Thread) (r : Nat) (v : Word) : (t.setReg r v).pc = t.pc := rfl
@[simp] theorem Thread.setReg_preds (t : Thread) (r : Nat) (v : Word) : (t.setReg r v).preds = t.preds := rfl
@[simp] theorem Thread.setReg_status (t : Thread) (r : Nat) (v : Word) : (t.setReg r v).status = t.status := rfl
@[simp] theorem Thread.raise_regs (t : Thread) (f : BitVec 5) : (t.raise f).regs = t.regs := rfl
@[simp] theorem Thread.raise_flg (t : Thread) (f : BitVec 5) : (t.raise f).flg = t.flg ||| f := rfl
@[simp] theorem Front.setReg_pc (f : Front) (r : Nat) (v : Quad) : (f.setReg r v).pc = f.pc := rfl
@[simp] theorem Front.setReg_preds (f : Front) (r : Nat) (v : Quad) : (f.setReg r v).preds = f.preds := rfl
@[simp] theorem Front.setPred_regs (f : Front) (q : Nat) (v : Bool) : (f.setPred q v).regs = f.regs := rfl

end Sys2Proof.Machine
end

