-- ==== Sys2Proof/Laws/Table.lean ====
section
/-! SUPPORT. Sparse tables: reading after setting, changing, removing and mapping. -/

namespace Sys2Proof.Machine

variable {α : Type}

@[simp] theorem tget_nil (k : Nat) : tget ([] : Tab α) k = none := rfl

theorem tget_mem {t : Tab α} {k : Nat} {v : α} (h : tget t k = some v) : (k, v) ∈ t := by
  induction t with
  | nil => simp at h
  | cons p t ih =>
    obtain ⟨j, u⟩ := p
    unfold tget at h
    split at h
    · next e => rw [e, Option.some.inj h]; exact List.mem_cons_self
    · exact List.mem_cons_of_mem _ (ih h)

@[simp] theorem tget_tset_self (t : Tab α) (k : Nat) (v : α) : tget (tset t k v) k = some v := by
  induction t with
  | nil => simp [tset, tget]
  | cons p t ih =>
    obtain ⟨j, u⟩ := p
    unfold tset
    split
    · simp [tget]
    · split
      · simp [tget]
      · rename_i h; simp [tget, ih, Ne.symm h]

theorem tget_tset_ne (t : Tab α) {j k : Nat} (v : α) (h : j ≠ k) : tget (tset t k v) j = tget t j := by
  induction t with
  | nil => simp [tset, tget, h.symm]
  | cons p t ih =>
    obtain ⟨i, u⟩ := p
    unfold tset
    split
    · simp [tget, h.symm]
    · split
      · rename_i e; subst e; simp [tget, h.symm]
      · simp [tget, ih]

theorem tget_tset (t : Tab α) (j k : Nat) (v : α) : tget (tset t k v) j = if j = k then some v else tget t j := by
  split
  · rename_i h; subst h; simp
  · rename_i h; exact tget_tset_ne t v h

@[simp] theorem tget_tmod_self (t : Tab α) (k : Nat) (f : α → α) : tget (tmod t k f) k = (tget t k).map f := by
  induction t with
  | nil => simp [tmod, tget]
  | cons p t ih =>
    obtain ⟨j, u⟩ := p
    unfold tmod
    split <;> simp [tget, *]

theorem tget_tmod_ne (t : Tab α) {j k : Nat} (f : α → α) (h : j ≠ k) : tget (tmod t k f) j = tget t j := by
  induction t with
  | nil => simp [tmod, tget]
  | cons p t ih =>
    obtain ⟨i, u⟩ := p
    unfold tmod
    split
    · rename_i e; subst e; simp [tget, h.symm]
    · simp [tget, ih]

theorem tget_tmod (t : Tab α) (j k : Nat) (f : α → α) :
    tget (tmod t k f) j = if j = k then (tget t k).map f else tget t j := by
  split
  · rename_i h; subst h; simp
  · rename_i h; exact tget_tmod_ne t f h

theorem tget_tdel_ne (t : Tab α) {j k : Nat} (h : j ≠ k) : tget (tdel t k) j = tget t j := by
  induction t with
  | nil => simp [tdel, tget]
  | cons p t ih =>
    obtain ⟨i, u⟩ := p
    unfold tdel
    split
    · rename_i e; subst e; simp [tget, h.symm, ih]
    · simp [tget, ih]

@[simp] theorem tget_tdel_self (t : Tab α) (k : Nat) : tget (tdel t k) k = none := by
  induction t with
  | nil => rfl
  | cons p t ih =>
    obtain ⟨i, u⟩ := p
    unfold tdel
    split
    · exact ih
    · rename_i e; simp [tget, e, ih]

@[simp] theorem tget_tmap (f : Nat → α → α) (t : Tab α) (k : Nat) : tget (tmap f t) k = (tget t k).map (f k) := by
  induction t with
  | nil => simp [tmap, tget]
  | cons p t ih =>
    obtain ⟨j, u⟩ := p
    simp only [tmap, List.map_cons, tget] at *
    split
    · rename_i e; subst e; simp
    · exact ih

/-- Changing an entry twice. -/
theorem tmod_tmod (t : Tab α) (k : Nat) (f g : α → α) : tmod (tmod t k f) k g = tmod t k (g ∘ f) := by
  induction t with
  | nil => rfl
  | cons p t ih =>
    obtain ⟨j, u⟩ := p
    simp only [tmod]
    split
    · simp [tmod, *]
    · simp [tmod, *]

/-- Changing an entry to what it is. -/
theorem tmod_id (t : Tab α) (k : Nat) (f : α → α) (h : ∀ v, tget t k = some v → f v = v) : tmod t k f = t := by
  induction t with
  | nil => rfl
  | cons p t ih =>
    obtain ⟨j, u⟩ := p
    simp only [tmod]
    split
    · rename_i e; rw [h u (by simp [tget, e])]
    · rename_i e; rw [ih]; intro v hv; exact h v (by simp [tget, e, hv])

/-- A rising list gains an element that it may hold already. -/
@[simp] theorem mem_insertNat (l : List Nat) (k j : Nat) : j ∈ insertNat l k ↔ j = k ∨ j ∈ l := by
  induction l with
  | nil => simp [insertNat]
  | cons i l ih =>
    unfold insertNat
    split
    · simp
    · split
      · rename_i e; subst e; simp
      · simp [ih]; tauto

end Sys2Proof.Machine
end

