-- ==== Sys2Proof/Laws/Ops.lean ====
section
/-! SUPPORT. Reading cores, quadrants, blocks and threads after a change to one of them. -/

namespace Sys2Proof.Machine

/-! ## Cores -/

@[simp] theorem State.core_setCore_self (s : State) (c : Nat) (k : Core) : (s.setCore c k).core c = k := by
  simp [State.core, State.setCore]

theorem State.core_setCore_ne (s : State) {c d : Nat} (k : Core) (h : d ≠ c) : (s.setCore c k).core d = s.core d := by
  simp [State.core, State.setCore, tget_tset_ne _ _ h]

@[simp] theorem State.core_modCore_self (s : State) (c : Nat) (f : Core → Core) : (s.modCore c f).core c = f (s.core c) := by
  simp [State.modCore]

theorem State.core_modCore_ne (s : State) {c d : Nat} (f : Core → Core) (h : d ≠ c) : (s.modCore c f).core d = s.core d := by
  simp [State.modCore, State.core_setCore_ne _ _ h]

theorem State.core_congr {s t : State} (hc : t.cores = s.cores) (hn : t.now = s.now) (c : Nat) : t.core c = s.core c := by
  simp [State.core, hc, hn]

@[simp] theorem State.core_setBlock (s : State) (k : Nat) (b : Block) (c : Nat) : (s.setBlock k b).core c = s.core c := rfl
@[simp] theorem State.core_modBlock (s : State) (k : Nat) (f : Block → Block) (c : Nat) : (s.modBlock k f).core c = s.core c := rfl
@[simp] theorem State.core_modThread (s : State) (k t : Nat) (f : Thread → Thread) (c : Nat) :
    (s.modThread k t f).core c = s.core c := rfl
@[simp] theorem State.core_modFront (s : State) (k : Nat) (f : Front → Front) (c : Nat) : (s.modFront k f).core c = s.core c := rfl
@[simp] theorem State.core_modLaunch (s : State) (k : Nat) (f : Launch → Launch) (c : Nat) :
    (s.modLaunch k f).core c = s.core c := rfl
@[simp] theorem State.core_modCtx (s : State) (k : Nat) (f : Ctx → Ctx) (c : Nat) : (s.modCtx k f).core c = s.core c := rfl
@[simp] theorem State.core_closeGroup (s : State) (c : Nat) : (closeGroup s).core c = s.core c := rfl

/-! ## Quadrants -/

@[simp] theorem Core.quad_modQuad_self (c : Core) (q : Nat) (f : Quadrant → Quadrant) : (c.modQuad q f).quad q = f (c.quad q) := by
  simp [Core.quad, Core.modQuad]

theorem Core.quad_modQuad_ne (c : Core) {q r : Nat} (f : Quadrant → Quadrant) (h : r ≠ q) : (c.modQuad q f).quad r = c.quad r := by
  simp [Core.quad, Core.modQuad, tget_tset_ne _ _ h]

@[simp] theorem State.quad_modQuad_self (s : State) (c q : Nat) (f : Quadrant → Quadrant) :
    ((s.modQuad c q f).core c).quad q = f ((s.core c).quad q) := by simp [State.modQuad]

theorem State.core_modQuad_ne (s : State) {c d : Nat} (q : Nat) (f : Quadrant → Quadrant) (h : d ≠ c) :
    (s.modQuad c q f).core d = s.core d := State.core_modCore_ne s _ h

/-! ## Blocks -/

@[simp] theorem State.block_setBlock_self (s : State) (k : Nat) (b : Block) : (s.setBlock k b).block k = some b := by
  simp [State.block, State.setBlock]

theorem State.block_setBlock_ne (s : State) {j k : Nat} (b : Block) (h : j ≠ k) : (s.setBlock k b).block j = s.block j := by
  simp [State.block, State.setBlock, tget_tset_ne _ _ h]

@[simp] theorem State.block_modBlock_self (s : State) (k : Nat) (f : Block → Block) : (s.modBlock k f).block k = (s.block k).map f := by
  simp [State.block, State.modBlock]

theorem State.block_modBlock_ne (s : State) {j k : Nat} (f : Block → Block) (h : j ≠ k) : (s.modBlock k f).block j = s.block j := by
  simp [State.block, State.modBlock, tget_tmod_ne _ _ h]

@[simp] theorem State.block_modThread_self (s : State) (k t : Nat) (f : Thread → Thread) :
    (s.modThread k t f).block k = (s.block k).map fun b => b.modThread t f := by simp [State.modThread]

theorem State.block_modThread_ne (s : State) {j k : Nat} (t : Nat) (f : Thread → Thread) (h : j ≠ k) :
    (s.modThread k t f).block j = s.block j := State.block_modBlock_ne s _ h

@[simp] theorem State.block_modFront_self (s : State) (k : Nat) (f : Front → Front) :
    (s.modFront k f).block k = (s.block k).map fun b => { b with front := f b.front } := by simp [State.modFront]

theorem State.block_modFront_ne (s : State) {j k : Nat} (f : Front → Front) (h : j ≠ k) :
    (s.modFront k f).block j = s.block j := State.block_modBlock_ne s _ h

@[simp] theorem State.block_modCore (s : State) (c : Nat) (f : Core → Core) (k : Nat) : (s.modCore c f).block k = s.block k := rfl
@[simp] theorem State.block_setCore (s : State) (c : Nat) (f : Core) (k : Nat) : (s.setCore c f).block k = s.block k := rfl
@[simp] theorem State.block_modQuad (s : State) (c q : Nat) (f : Quadrant → Quadrant) (k : Nat) :
    (s.modQuad c q f).block k = s.block k := rfl
@[simp] theorem State.block_modLaunch (s : State) (l : Nat) (f : Launch → Launch) (k : Nat) :
    (s.modLaunch l f).block k = s.block k := rfl
@[simp] theorem State.block_modCtx (s : State) (l : Nat) (f : Ctx → Ctx) (k : Nat) : (s.modCtx l f).block k = s.block k := rfl
@[simp] theorem State.block_closeGroup (s : State) (k : Nat) : (closeGroup s).block k = s.block k := rfl

/-! ## Threads -/

@[simp] theorem Block.thread_modThread_self (b : Block) (t : Nat) (f : Thread → Thread) :
    (b.modThread t f).thread t = (b.thread t).map f := by simp [Block.thread, Block.modThread]

theorem Block.thread_modThread_ne (b : Block) {t u : Nat} (f : Thread → Thread) (h : u ≠ t) :
    (b.modThread t f).thread u = b.thread u := by simp [Block.thread, Block.modThread, tget_tmod_ne _ _ h]

theorem Block.thread_modThread (b : Block) (t u : Nat) (f : Thread → Thread) :
    (b.modThread t f).thread u = if u = t then (b.thread t).map f else b.thread u := by
  split
  · rename_i h; subst h; simp
  · rename_i h; exact Block.thread_modThread_ne b f h

@[simp] theorem Block.modThread_rest (b : Block) (t : Nat) (f : Thread → Thread) :
    { b.modThread t f with threads := b.threads } = b := rfl

/-- Two changes to one thread are one change. -/
theorem Block.modThread_modThread (b : Block) (t : Nat) (f g : Thread → Thread) :
    (b.modThread t f).modThread t g = b.modThread t (g ∘ f) := by simp [Block.modThread, tmod_tmod]

theorem State.modThread_modThread (s : State) (k t : Nat) (f g : Thread → Thread) :
    (s.modThread k t f).modThread k t g = s.modThread k t (g ∘ f) := by
  simp only [State.modThread, State.modBlock, tmod_tmod]
  congr 2; funext b; exact Block.modThread_modThread b t f g

/-! ## Writing registers -/

theorem Thread.reg_setReg (t : Thread) (r q : Nat) (v : Word) (h : r < t.regs.length) :
    (t.setReg r v).reg q = if q = r then v else t.reg q := by
  simp only [Thread.reg, Thread.setReg, List.getD_eq_getElem?_getD, List.getElem?_set]
  by_cases e : r = q
  · subst e; simp [h]
  · simp [e, Ne.symm e]

theorem Front.reg_setReg (f : Front) (r q : Nat) (v : Quad) (h : r < f.regs.length) :
    (f.setReg r v).reg q = if q = r then v else f.reg q := by
  simp only [Front.reg, Front.setReg, List.getD_eq_getElem?_getD, List.getElem?_set]
  by_cases e : r = q
  · subst e; simp [h]
  · simp [e, Ne.symm e]

@[simp] theorem Thread.length_setReg (t : Thread) (r : Nat) (v : Word) : (t.setReg r v).regs.length = t.regs.length := by
  simp [Thread.setReg]

/-- A thread's registers and nothing else change when a result is written. -/
theorem Thread.setRegs_rest (k : Nat) : ∀ (t : Thread) (r v : Nat), { t.setRegs r k v with regs := t.regs } = t := by
  induction k with
  | zero => intros; rfl
  | succ k ih =>
    intro t r v
    have := ih (t.setReg r (BitVec.ofNat 32 v)) (r + 1) (v / 2 ^ 32)
    simp only [Thread.setRegs]
    generalize (t.setReg r (BitVec.ofNat 32 v)).setRegs (r + 1) k (v / 2 ^ 32) = u at *
    have e : { u with regs := t.regs } = { { u with regs := (t.setReg r (BitVec.ofNat 32 v)).regs } with regs := t.regs } := rfl
    rw [e, this]; rfl

end Sys2Proof.Machine
end

