-- ==== Sys2Proof/Laws/Issue.lean ====
section
/-! SUPPORT. What an issue does to its members, whatever the instruction (R94, R95, R97): the laws that stand for `finish`,
`laneIssue` and `finishFront` in every proof about an instruction. -/

namespace Sys2Proof.Machine

open Safety

/-! ## Changes to several threads of one block -/

/-- Changing threads one after another. -/
def Block.modThreads (b : Block) (l : List (Nat × (Thread → Thread))) : Block := l.foldl (fun b x => b.modThread x.1 x.2) b

def State.modThreads (s : State) (k : Nat) (l : List (Nat × (Thread → Thread))) : State :=
  l.foldl (fun s x => s.modThread k x.1 x.2) s

theorem State.modThreads_eq (s : State) (k : Nat) (l : List (Nat × (Thread → Thread))) :
    s.modThreads k l = s.modBlock k fun b => b.modThreads l := by
  induction l generalizing s with
  | nil =>
    simp only [State.modThreads, Block.modThreads, List.foldl_nil, State.modBlock]
    rw [tmod_id _ _ _ (fun _ _ => rfl)]
  | cons x l ih =>
    have e : s.modThreads k (x :: l) = (s.modThread k x.1 x.2).modThreads k l := rfl
    rw [e, ih]
    simp only [State.modThread, State.modBlock, tmod_tmod]
    rfl

theorem Block.modThreads_frame (b : Block) (l : List (Nat × (Thread → Thread))) :
    b.modThreads l = { b with threads := (b.modThreads l).threads } := by
  induction l generalizing b with
  | nil => rfl
  | cons x l ih =>
    have e : b.modThreads (x :: l) = (b.modThread x.1 x.2).modThreads l := rfl
    rw [e, ih]; rfl

theorem Block.thread_modThreads_out (b : Block) (l : List (Nat × (Thread → Thread))) (t : Nat) (h : t ∉ l.map Prod.fst) :
    (b.modThreads l).thread t = b.thread t := by
  induction l generalizing b with
  | nil => rfl
  | cons x l ih =>
    simp only [List.map_cons, List.mem_cons, not_or] at h
    have e : b.modThreads (x :: l) = (b.modThread x.1 x.2).modThreads l := rfl
    rw [e, ih _ h.2, Block.thread_modThread_ne _ _ h.1]

theorem Block.thread_modThreads (b : Block) (l : List (Nat × (Thread → Thread))) (t : Nat) (f : Thread → Thread)
    (hd : (l.map Prod.fst).Nodup) (h : (t, f) ∈ l) : (b.modThreads l).thread t = (b.thread t).map f := by
  induction l generalizing b with
  | nil => simp at h
  | cons x l ih =>
    simp only [List.map_cons, List.nodup_cons] at hd
    have e : b.modThreads (x :: l) = (b.modThread x.1 x.2).modThreads l := rfl
    rw [e]
    rcases List.mem_cons.1 h with h | h
    · subst h
      rw [Block.thread_modThreads_out _ _ _ hd.1, Block.thread_modThread_self]
    · have ne : t ≠ x.1 := by
        rintro rfl; exact hd.1 (List.mem_map.2 ⟨(x.1, f), h, rfl⟩)
      rw [ih _ hd.2 h, Block.thread_modThread_ne _ _ ne]

/-! ## The end of an issue -/

/-- Whether a fate is a trap. -/
def Fate.isTrap : Fate → Bool
  | .trap _ _ _ _ => true
  | _ => false

/-- The result that a fate writes. -/
def Fate.result : Fate → Option Quad
  | .done v => some v
  | _ => none

/-- A thread after its fate, traps excepted. -/
def afterFate (is : Issue) (keep : Pc) (m : Member) (f : Fate) (t : Thread) : Thread :=
  let stay := fun (v : Option Quad) (pc : Pc) =>
    if pc = keep then { goOn is m t v with pc := pc } else (goOn is m t v).ready pc
  match f with
  | .next => stay none is.next
  | .done v => stay (some v) is.next
  | .goto p => stay none p
  | .leave st pc =>
      { t with status := st, pc := pc, age := 0, ring := [],
               rp := if m.pop && (pc ≠ is.g.start || st.executed) then t.rp + 1 else t.rp,
               mask := if is.q.cls = .home && pc = is.g.start then t.mask else none }
  | .trap _ _ _ _ => t

/-- The members and their fates as changes of threads. -/
def fateChanges (is : Issue) (keep : Pc) (fs : List (Member × Fate)) : List (Nat × (Thread → Thread)) :=
  fs.map fun x => (x.1.tlin, afterFate is keep x.1 x.2)

theorem takeTraps_nil (s : State) (blk : Nat) : takeTraps s blk [] = s := by
  unfold takeTraps takeTrapsCount
  split <;> simp_all

theorem foldl_settle (is : Issue) (keep : Pc) (s : State) (fs : List (Member × Fate)) (h : ∀ x ∈ fs, x.2.isTrap = false) :
    fs.foldl (settleMember is keep) s = s.modThreads is.blk (fateChanges is keep fs) := by
  induction fs generalizing s with
  | nil => rfl
  | cons x fs ih =>
    have hx := h x (List.mem_cons_self ..)
    simp only [List.foldl_cons]
    rw [ih _ fun y hy => h y (List.mem_cons_of_mem _ hy)]
    have e : settleMember is keep s x = s.modThread is.blk x.1.tlin (afterFate is keep x.1 x.2) := by
      obtain ⟨m, f⟩ := x
      cases f <;> first | rfl | simp [Fate.isTrap] at hx
    rw [e]; rfl

/-- The pc whose members keep the slot. -/
def keptPc (is : Issue) (fs : List (Member × Fate)) : Pc :=
  keepTarget (tieNext is.i) is.next (fs.filterMap fun x => x.2.target is.next)

theorem finish_eq (s : State) (is : Issue) (fs : List (Member × Fate)) (h : ∀ x ∈ fs, x.2.isTrap = false) :
    ∃ stay n c, finish s is fs = noteIssue (s.modThreads is.blk (fateChanges is (keptPc is fs) fs)) is stay n c := by
  unfold finish
  simp only [foldl_settle is _ s fs h]
  refine ⟨_, _, _, (congrArg (fun l => takeTraps _ is.blk (sortTraps l)) (List.filterMap_eq_nil_iff.2 ?_)).trans
    (takeTraps_nil _ _)⟩
  intro x hx
  have := h x hx
  cases hf : x.2 <;> simp_all [Fate.isTrap]

theorem noteIssue_frame (s : State) (is : Issue) (stay : List (Nat × Nat)) (n c : Nat) :
    (∀ k, (noteIssue s is stay n c).block k = s.block k) ∧
    (∀ d, (noteIssue s is stay n c).core d = { s.core d with quads := ((noteIssue s is stay n c).core d).quads }) ∧
    noteIssue s is stay n c = { s with cores := (noteIssue s is stay n c).cores } := by
  refine ⟨fun _ => rfl, fun d => ?_, rfl⟩
  unfold noteIssue State.modQuad
  by_cases e : d = is.core
  · subst e; simp [Core.modQuad]
  · rw [State.core_modCore_ne _ _ e]

theorem Issue.block_modThreads (s : State) (is : Issue) (l : List (Nat × (Thread → Thread))) :
    is.block (s.modThreads is.blk l) = (is.block s).modThreads l ∨
      ((is.block s).threads = [] ∧ is.block (s.modThreads is.blk l) = is.block s) := by
  unfold Issue.block
  rw [State.modThreads_eq, State.block_modBlock_self]
  cases hs : s.block is.blk with
  | none => exact Or.inr ⟨rfl, rfl⟩
  | some b => exact Or.inl rfl

/-- Changing threads changes only them. -/
theorem modThreads_only (s : State) (is : Issue) (ts : List Nat) (l : List (Nat × (Thread → Thread)))
    (hl : ∀ x ∈ l.map Prod.fst, x ∈ ts) : OnlyThreads s (s.modThreads is.blk l) is ts := by
  have hb := Issue.block_modThreads s is l
  constructor
  · intro x hx
    rcases hb with hb | ⟨_, hb⟩
    · rw [hb, Block.thread_modThreads_out _ _ _ fun h => hx (hl x h)]
    · rw [hb]
  · rcases hb with hb | ⟨_, hb⟩
    · rw [hb]; exact Block.modThreads_frame _ _
    · rw [hb]
  · intro k hk; rw [State.modThreads_eq, State.block_modBlock_ne _ _ hk]
  · intro c; rw [State.modThreads_eq]; rfl
  · rw [State.modThreads_eq]; rfl

theorem onlyThreads_trans {s t u : State} {is : Issue} {ts : List Nat} (h : OnlyThreads s t is ts) (g : OnlyThreads t u is ts) :
    OnlyThreads s u is ts := by
  constructor
  · intro x hx; rw [g.others x hx, h.others x hx]
  · rw [g.block, h.block]
  · intro k hk; rw [g.blocks k hk, h.blocks k hk]
  · intro c; rw [g.cores c, h.cores c]
  · rw [g.rest, h.rest]

theorem noteIssue_only (s : State) (is : Issue) (ts : List Nat) (stay : List (Nat × Nat)) (n c : Nat) :
    OnlyThreads s (noteIssue s is stay n c) is ts := by
  obtain ⟨hb, hc, hr⟩ := noteIssue_frame s is stay n c
  constructor
  · intro x _; simp only [Issue.block, hb]
  · simp only [Issue.block, hb]
  · intro k _; exact hb k
  · exact hc
  · rw [hr]

/-- A finished issue without traps: every member's thread is as its fate leaves it, and nothing else changes. -/
theorem finish_settled (s : State) (is : Issue) (fs : List (Member × Fate)) (hd : ((fs.map Prod.fst).map Member.tlin).Nodup)
    (h : ∀ x ∈ fs, x.2.isTrap = false) :
    OnlyThreads s (finish s is fs) is ((fs.map Prod.fst).map Member.tlin) ∧
    ∀ x ∈ fs, ∀ th, (is.block s).thread x.1.tlin = some th →
      (is.block (finish s is fs)).thread x.1.tlin = some (afterFate is (keptPc is fs) x.1 x.2 th) := by
  obtain ⟨stay, n, c, e⟩ := finish_eq s is fs h
  have hkeys : (fateChanges is (keptPc is fs) fs).map Prod.fst = (fs.map Prod.fst).map Member.tlin := by
    simp [fateChanges, Function.comp_def]
  rw [e]
  refine ⟨onlyThreads_trans (modThreads_only s is _ _ (by rw [hkeys]; exact fun _ h => h)) (noteIssue_only _ is _ stay n c), ?_⟩
  intro x hx th hth
  have hb : is.block (noteIssue (s.modThreads is.blk (fateChanges is (keptPc is fs) fs)) is stay n c)
      = is.block (s.modThreads is.blk (fateChanges is (keptPc is fs) fs)) := rfl
  rw [hb]
  rcases Issue.block_modThreads s is (fateChanges is (keptPc is fs) fs) with hb | ⟨hn, _⟩
  · rw [hb, Block.thread_modThreads _ (fateChanges is (keptPc is fs) fs) x.1.tlin (afterFate is (keptPc is fs) x.1 x.2)
      (by rw [hkeys]; exact hd) (List.mem_map.2 ⟨x, hx, rfl⟩), hth]
    rfl
  · simp [Block.thread, hn] at hth

/-! ## Members that go on -/

theorem keepTarget_const (tie : Bool) (next : Pc) (ts : List Pc) (h : ∀ p ∈ ts, p = next) : keepTarget tie next ts = next := by
  have hd : ts.headD next = next := by cases ts with
    | nil => rfl
    | cons a l => exact h a (List.mem_cons_self ..)
  unfold keepTarget
  rw [hd]
  suffices H : ∀ (f : Pc → Pc → Bool) (l : List Pc), (∀ p ∈ l, p = next) → l.foldl (fun k p => if f k p then p else k) next = next by
    exact H (fun k p => decide (ts.count k < ts.count p ∨ (ts.count k = ts.count p ∧ (if tie then decide (p = next) else decide (p.toNat < k.toNat)) = true))) ts h |> fun e => by
      simpa using e
  intro f l hl
  induction l with
  | nil => rfl
  | cons a l ih =>
    have ha := hl a (List.mem_cons_self ..)
    subst ha
    simp only [List.foldl_cons, ite_self]
    exact ih fun p hp => hl p (List.mem_cons_of_mem _ hp)

/-- The side that keeps the slot has most members. -/
theorem keepTarget_most (tie : Bool) (next : Pc) (ts : List Pc) (p : Pc) : ts.count p ≤ ts.count (keepTarget tie next ts) := by
  unfold keepTarget
  have one : ∀ (c : Bool) (k p : Pc), (ts.count k < ts.count p → c = true) → (c = true → ts.count k ≤ ts.count p) →
      ts.count k ≤ ts.count (if c = true then p else k) ∧ ts.count p ≤ ts.count (if c = true then p else k) := by
    intro c k p h1 h2
    cases c with
    | true => exact ⟨h2 rfl, Nat.le_refl _⟩
    | false => exact ⟨Nat.le_refl _, Nat.not_lt.1 fun h => by simpa using h1 h⟩
  have H : ∀ (f : Pc → Pc → Bool), (∀ k p, ts.count k < ts.count p → f k p = true) → (∀ k p, f k p = true → ts.count k ≤ ts.count p) →
      ∀ (l : List Pc) (k : Pc), ts.count k ≤ ts.count (l.foldl (fun k p => if f k p = true then p else k) k) ∧
      ∀ p ∈ l, ts.count p ≤ ts.count (l.foldl (fun k p => if f k p = true then p else k) k) := by
    intro f f1 f2 l
    induction l with
    | nil => intro k; simp
    | cons a l ih =>
      intro k
      obtain ⟨o1, o2⟩ := one (f k a) k a (f1 k a) (f2 k a)
      refine ⟨Nat.le_trans o1 (ih _).1, fun p hp => ?_⟩
      rcases List.mem_cons.1 hp with rfl | hp
      · exact Nat.le_trans o2 (ih _).1
      · exact (ih _).2 p hp
  by_cases hp : p ∈ ts
  · refine (H (fun k p => ts.count k < ts.count p || (ts.count k = ts.count p && (if tie then p = next else p.toNat < k.toNat)))
      ?_ ?_ ts (ts.headD next)).2 p hp
    · intro k p h; simp [h]
    · intro k p h
      simp only [Bool.or_eq_true, Bool.and_eq_true, decide_eq_true_eq] at h
      omega
  · rw [List.count_eq_zero_of_not_mem hp]; exact Nat.zero_le _

theorem ringAfter_rest (is : Issue) (t : Thread) (v : Quad) : ∃ ring, ringAfter is t v = { t with ring := ring } := by
  unfold ringAfter
  split
  · exact ⟨_, rfl⟩
  · split <;> exact ⟨_, rfl⟩

/-- Writing a result leaves everything but registers and predicates as it was. -/
theorem writeResult_rest (q : Sig) (th : Thread) (v : Quad) :
    { writeResult q th v with regs := th.regs, preds := th.preds } = th := by
  unfold writeResult
  split
  · unfold Thread.setPred; split <;> rfl
  · split
    · rfl
    · have e := Thread.setRegs_rest q.dst.2 th q.dst.1 v.toNat
      exact (congrArg (fun t : Thread => { t with preds := th.preds }) e)

/-- The effect of a result on its thread. -/
def withResult (q : Sig) (th : Thread) (v : Option Quad) : Thread :=
  match v with
  | some v => writeResult q th v
  | none => th

/-- A member that goes on, up to its ring. -/
theorem goOn_onward (is : Issue) (m : Member) (th : Thread) (v : Option Quad) (pc : Pc) :
    ∃ ring, { goOn is m th v with pc := pc } = onward pc m (if m.on then withResult is.q th v else th) ring := by
  have off : ∀ (u : Thread) (w : Quad), ∃ ring, onward pc m (ringAfter is u w) (ringAfter is u w).ring = onward pc m u ring := by
    intro u w
    obtain ⟨ring, e⟩ := ringAfter_rest is u w
    exact ⟨ring, by rw [e]; rfl⟩
  cases hon : m.on with
  | false =>
    obtain ⟨ring, e⟩ := off th (offValue is.q th)
    exact ⟨ring, by unfold goOn; rw [hon]; exact e⟩
  | true =>
    cases v with
    | none =>
      obtain ⟨ring, e⟩ := off th (offValue is.q th)
      exact ⟨ring, by unfold goOn; rw [hon]; exact e⟩
    | some v =>
      obtain ⟨ring, e⟩ := off (writeResult is.q th v) v
      exact ⟨ring, by unfold goOn; rw [hon]; exact e⟩

/-- Whether a fate is the next group, with or without a result. -/
def Fate.onwards : Fate → Bool
  | .next => true
  | .done _ => true
  | _ => false

/-- The effect of a fate on its thread. -/
def Fate.own (q : Sig) (f : Fate) (th : Thread) : Thread := withResult q th f.result

theorem Fate.onwards_trap {f : Fate} (h : f.onwards = true) : f.isTrap = false := by
  cases f <;> first | rfl | (simp [Fate.onwards] at h)

theorem Fate.onwards_target {f : Fate} (h : f.onwards = true) (next : Pc) : f.target next = some next := by
  cases f <;> first | rfl | (simp [Fate.onwards] at h)

theorem Fate.target_trap {f : Fate} {next p : Pc} (h : f.target next = some p) : f.isTrap = false := by
  cases f <;> first | rfl | (simp [Fate.target] at h)

/-- A member with a target goes there. -/
theorem afterFate_target (is : Issue) (keep p : Pc) (m : Member) (f : Fate) (th : Thread) (h : f.target is.next = some p) :
    afterFate is keep m f th = if p = keep then { goOn is m th f.result with pc := p } else (goOn is m th f.result).ready p := by
  cases f with
  | next => injection h with h; subst h; rfl
  | done v => injection h with h; subst h; rfl
  | goto q => injection h with h; subst h; rfl
  | leave st pc => simp [Fate.target] at h
  | trap a b c d => simp [Fate.target] at h

/-- Every member goes on: the laws of a finished issue (R94, R97). -/
theorem finish_goes (s : State) (is : Issue) (fs : List (Member × Fate)) (own : Member → Thread → Thread)
    (hd : ((fs.map Prod.fst).map Member.tlin).Nodup) (h : ∀ x ∈ fs, x.2.onwards = true)
    (ho : ∀ x ∈ fs, x.1.on = true → ∀ th, own x.1 th = x.2.own is.q th) :
    Goes s (finish s is fs) is (fs.map Prod.fst) own := by
  have hk : keptPc is fs = is.next := by
    apply keepTarget_const
    intro p hp
    obtain ⟨x, hx, e⟩ := List.mem_filterMap.1 hp
    rw [Fate.onwards_target (h x hx)] at e
    exact (Option.some.inj e).symm
  obtain ⟨H, T⟩ := finish_settled s is fs hd fun x hx => Fate.onwards_trap (h x hx)
  refine ⟨H, ?_⟩
  intro m hm th hth
  obtain ⟨x, hx, rfl⟩ := List.mem_map.1 hm
  obtain ⟨ring, e⟩ := goOn_onward is x.1 th x.2.result is.next
  refine ⟨ring, ?_⟩
  rw [T x hx th hth, afterFate_target is _ is.next _ _ _ (Fate.onwards_target (h x hx) _), hk, if_pos rfl, e]
  cases hon : x.1.on with
  | false => rfl
  | true => rw [ho x hx hon th]; rfl

/-- Members that go each to its own target (R95, R175). -/
theorem finish_goesTo (s : State) (is : Issue) (fs : List (Member × Fate)) (tgt : Member → Pc) (own : Member → Thread → Thread)
    (hd : ((fs.map Prod.fst).map Member.tlin).Nodup) (h : ∀ x ∈ fs, x.2.target is.next = some (tgt x.1))
    (ho : ∀ x ∈ fs, x.1.on = true → ∀ th, own x.1 th = x.2.own is.q th) :
    GoesTo s (finish s is fs) is (fs.map Prod.fst) tgt (keptPc is fs) own := by
  have hts : fs.filterMap (fun x => x.2.target is.next) = (fs.map Prod.fst).map tgt := by
    rw [List.map_map, ← List.filterMap_eq_map]
    exact List.filterMap_congr fun x hx => by simp [h x hx]
  obtain ⟨H, T⟩ := finish_settled s is fs hd fun x hx => Fate.target_trap (h x hx)
  refine ⟨H, ?_, ?_⟩
  · intro p
    unfold goers keptPc
    rw [hts]
    exact keepTarget_most _ _ _ _
  · intro m hm th hth
    obtain ⟨x, hx, rfl⟩ := List.mem_map.1 hm
    obtain ⟨ring, e⟩ := goOn_onward is x.1 th x.2.result (tgt x.1)
    have ho' : (if x.1.on then withResult is.q th x.2.result else th) = (if x.1.on then own x.1 th else th) := by
      cases hon : x.1.on with
      | false => rfl
      | true => rw [ho x hx hon th]; rfl
    have hs : ∀ v, (withResult is.q th v).status = th.status := by
      intro v
      cases v with
      | none => rfl
      | some v => have e := congrArg Thread.status (writeResult_rest is.q th v); exact e
    have hst : (if x.1.on then own x.1 th else th).status = th.status := by
      rw [← ho']
      split
      · exact hs _
      · rfl
    rw [T x hx th hth, afterFate_target is _ _ _ _ _ (h x hx)]
    by_cases hk : tgt x.1 = keptPc is fs
    · refine ⟨ring, ?_⟩
      rw [if_pos hk, if_pos hk, e, ho', ← hst]
      rfl
    · refine ⟨[], ?_⟩
      rw [if_neg hk, if_neg hk]
      have e' : (goOn is x.1 th x.2.result).ready (tgt x.1)
          = { { goOn is x.1 th x.2.result with pc := tgt x.1 } with ring := [], status := .ready, age := 0 } := rfl
      rw [e', e, ho']
      rfl

/-- Members that leave the warp (R97). -/
theorem finish_leaves (s : State) (is : Issue) (fs : List (Member × Fate)) (dest : Member → Status × Pc)
    (hd : ((fs.map Prod.fst).map Member.tlin).Nodup) (h : ∀ x ∈ fs, x.2 = .leave (dest x.1).1 (dest x.1).2) :
    Leaves s (finish s is fs) is (fs.map Prod.fst) dest := by
  obtain ⟨H, T⟩ := finish_settled s is fs hd fun x hx => by rw [h x hx]; rfl
  refine ⟨H, ?_⟩
  intro m hm th hth
  obtain ⟨x, hx, rfl⟩ := List.mem_map.1 hm
  have e := T x hx th hth
  rw [h x hx] at e
  exact ⟨_, _, e⟩

/-! ## From the checks to the end -/

/-- The checks pass the issue itself on. -/
theorem checks_go {s s₁ : State} {is is' : Issue} {l : List (Nat × Nat)} {ms : List Member} {fs : List (Member × Fate)}
    (h : checks s is' l = .go s₁ is ms fs) : is = is' := by
  simp only [checks] at h
  split at h
  · split at h
    · split at h
      · cases h
      · split at h
        · cases h; rfl
        · cases h
    · cases h
  · cases h; rfl

/-- A group that passes its checks is issued by a warp, and carries its word. -/
theorem prepare_go {s s₁ : State} {i : Instr} {is : Issue} {ms : List Member} {fs : List (Member × Fate)}
    (h : prepare s i = .go s₁ is ms fs) :
    (∃ c q k, s.cur = .lane c q k) ∧ is.i = i ∧ is.q = shape i := by
  unfold prepare at h
  split at h
  · cases h
  · rename_i is' hf
    have e : is = is' := by
      dsimp only at h
      split at h
      · cases h
      · split at h
        · cases h
        · exact checks_go h
    subst e
    unfold findIssue at hf
    split at hf
    · rename_i c q k hc
      obtain ⟨w, _, e⟩ := Option.map_eq_some_iff.1 hf
      exact ⟨⟨c, q, k, hc⟩, by rw [← e], by rw [← e]⟩
    · cases hf

/-- A member's guard and sources. -/
theorem evalMember_eq (s : State) (is : Issue) (m : Nat × Nat) : evalMember s is m =
    if !guardOn is.g (is.thread s m.1).pred then (⟨m.1, m.2, false, {}, false⟩, none)
    else match laneVals s (is.block s) m.1 m.2 (is.thread s m.1) is.q is.g with
      | .bad => (⟨m.1, m.2, true, {}, false⟩, some (.trap causeIllopnd 0 0 none))
      | .wait => (⟨m.1, m.2, true, {}, false⟩, some (.leave (.waiting .dq) is.g.start))
      | .vals v pop => (⟨m.1, m.2, true, v, pop⟩, none) := by
  unfold evalMember guardOn
  cases is.g.guard <;> rfl

/-- A front group whose thread has no late trap. -/
theorem frontPrepare_eq {s : State} {i : Instr} {is : FrontIssue} (h : findFront s i = some is)
    (hl : (is.front (closeGroup s)).late = none) : frontPrepare s i =
    match decodeTrap true 64 is.g i is.q with
    | some cause => .inl (finishFront (closeGroup s) is (.trap cause 0 0 none))
    | none =>
      if guardOn is.g (is.front (closeGroup s)).pred then
        .inr (closeGroup s, { is with v := frontVals (closeGroup s) (is.block (closeGroup s)) is.q is.g })
      else .inl (frontOff (closeGroup s) is i) := by
  unfold frontPrepare
  rw [h]
  simp only [hl]
  cases decodeTrap true 64 is.g i is.q with
  | some c => rfl
  | none => unfold guardOn; cases is.g.guard <;> rfl

/-- The issue of a group that passes its checks: the body acts, and the issue finishes. -/
theorem issue_ready {s s₁ : State} {i : Instr} {is : Issue} {ms : List Member} (h : LaneReady s i s₁ is ms) (body : Body)
    (front : State → FrontIssue → State × FrontFate) :
    issue s i body front = .next (finish (body s₁ is ms).1 is (body s₁ is ms).2) := by
  obtain ⟨⟨c, q, k, hc⟩, _, _⟩ := prepare_go h.passes
  unfold issue
  rw [hc]
  simp only [laneIssue, h.passes, List.nil_append]

/-- A body that changes nothing, member by member. -/
theorem eachMember_const (s : State) (is : Issue) (f : State → Issue → Member → State × Fate) (g : Member → Fate)
    (ms : List Member) (h : ∀ m ∈ ms, m.on = true → f s is m = (s, g m)) :
    eachMember f s is ms = (s, ms.map fun m => (m, if m.on then g m else .next)) := by
  induction ms with
  | nil => rfl
  | cons m ms ih =>
    have ih' := ih fun x hx => h x (List.mem_cons_of_mem _ hx)
    unfold eachMember
    cases hon : m.on with
    | false => simp [hon, ih']
    | true => simp [hon, h m (List.mem_cons_self ..) hon, ih']

/-- The thread of a member that another change does not touch. -/
theorem Issue.thread_modThread_ne (s : State) (is : Issue) {t u : Nat} (f : Thread → Thread) (h : u ≠ t) :
    is.thread (is.modThread s t f) u = is.thread s u := by
  unfold Issue.thread Issue.block Issue.modThread
  rw [State.block_modThread_self]
  cases s.block is.blk with
  | none => rfl
  | some b => simp [Block.thread_modThread_ne _ _ h]

/-- A body that changes each member's own thread only. -/
theorem eachMember_threads (is : Issue) (f : State → Issue → Member → State × Fate) (own : Thread → Member → Thread → Thread)
    (g : Thread → Member → Fate) (hf : ∀ s m, f s is m = (is.modThread s m.tlin (own (is.thread s m.tlin) m), g (is.thread s m.tlin) m)) :
    ∀ (ms : List Member) (s : State), (ms.map Member.tlin).Nodup →
    eachMember f s is ms =
      (s.modThreads is.blk (ms.map fun m => (m.tlin, if m.on then own (is.thread s m.tlin) m else id)),
       ms.map fun m => (m, if m.on then g (is.thread s m.tlin) m else .next)) := by
  intro ms
  induction ms with
  | nil => intro s _; rfl
  | cons m ms ih =>
    intro s hd
    simp only [List.map_cons, List.nodup_cons] at hd
    have idThread : ∀ (t : State) (x : Nat), t.modThread is.blk x id = t := by
      intro t x
      unfold State.modThread State.modBlock
      rw [tmod_id]
      intro b _
      unfold Block.modThread
      rw [tmod_id b.threads x id fun _ _ => rfl]
    have step : (if m.on then f s is m else (s, Fate.next)) =
        (s.modThread is.blk m.tlin (if m.on then own (is.thread s m.tlin) m else id),
         if m.on then g (is.thread s m.tlin) m else .next) := by
      cases m.on with
      | false => simp [idThread]
      | true => simp [hf, Issue.modThread]
    have same : ∀ x ∈ ms, is.thread (s.modThread is.blk m.tlin (if m.on then own (is.thread s m.tlin) m else id)) x.tlin
        = is.thread s x.tlin := by
      intro x hx
      exact Issue.thread_modThread_ne s is _ fun e => hd.1 (e ▸ List.mem_map.2 ⟨x, hx, rfl⟩)
    have ih' := ih (s.modThread is.blk m.tlin (if m.on then own (is.thread s m.tlin) m else id)) hd.2
    have unf : eachMember f s is (m :: ms) =
        ((eachMember f (if m.on then f s is m else (s, Fate.next)).1 is ms).1,
         (m, (if m.on then f s is m else (s, Fate.next)).2) :: (eachMember f (if m.on then f s is m else (s, Fate.next)).1 is ms).2) := rfl
    rw [unf, step, ih']
    refine Prod.ext ?_ ?_
    · show _ = s.modThreads is.blk _
      rw [List.map_cons]
      have e : ∀ l, s.modThreads is.blk ((m.tlin, if m.on then own (is.thread s m.tlin) m else id) :: l)
        = (s.modThread is.blk m.tlin (if m.on then own (is.thread s m.tlin) m else id)).modThreads is.blk l := fun _ => rfl
      rw [e]
      refine congrArg _ (List.map_congr_left fun x hx => ?_)
      simp only [same x hx]
    · show _ :: _ = _ :: _
      refine congrArg _ (List.map_congr_left fun x hx => ?_)
      simp only [same x hx]

/-- A change of the members' own threads and then going on, as one. -/
theorem goes_after_threads {s t : State} {is : Issue} {ms : List Member} (chg : Member → Thread → Thread) (own : Member → Thread → Thread)
    (hd : (ms.map Member.tlin).Nodup)
    (h : Goes (s.modThreads is.blk (ms.map fun m => (m.tlin, if m.on then chg m else id))) t is ms own) :
    Goes s t is ms fun m th => own m (chg m th) := by
  have hk : ((ms.map fun m => (m.tlin, if m.on then chg m else id)) : List (Nat × (Thread → Thread))).map Prod.fst = ms.map Member.tlin := by
    simp [Function.comp_def]
  refine ⟨onlyThreads_trans (modThreads_only s is _ _ (by rw [hk]; exact fun _ h => h)) h.toOnlyThreads, ?_⟩
  intro m hm th hth
  have hb := Issue.block_modThreads s is (ms.map fun m => (m.tlin, if m.on then chg m else id))
  have : (is.block (s.modThreads is.blk (ms.map fun m => (m.tlin, if m.on then chg m else id)))).thread m.tlin
      = some ((if m.on then chg m else id) th) := by
    rcases hb with hb | ⟨hn, _⟩
    · rw [hb, Block.thread_modThreads _ _ m.tlin (if m.on then chg m else id) (by rw [hk]; exact hd) (List.mem_map.2 ⟨m, hm, rfl⟩), hth]
      rfl
    · simp [Block.thread, hn] at hth
  obtain ⟨ring, e⟩ := h.thread m hm _ this
  refine ⟨ring, ?_⟩
  rw [e]
  cases m.on with
  | false => rfl
  | true => rfl

/-! ## The front thread -/

/-- The issue of a front group that passes its checks. -/
theorem issue_front {s : State} {i : Instr} {is : FrontIssue} {b : Block} (h : FrontReady s i is b) (body : Body)
    (front : State → FrontIssue → State × FrontFate) :
    issue s i body front = .next (finishFront (front (closeGroup s) is).1 is (front (closeGroup s) is).2) := by
  have hc : ∃ c k, s.cur = .front c k := by
    have hp := h.passes
    unfold frontPrepare findFront at hp
    cases e : s.cur with
    | lane a b c => rw [e] at hp; cases hp
    | front c k => exact ⟨c, k, rfl⟩
  obtain ⟨c, k, hc⟩ := hc
  unfold issue
  rw [hc]
  simp only [frontIssue, h.passes]

/-- A change of the block under a front issue. -/
theorem finishFront_only (s : State) (is : FrontIssue) (b : Block) (h : s.block is.blk = some b) (f : Front → Front) (now : Nat) :
    OnlyFront s ((s.modCore is.core fun c => { c with lastFcx := is.fcx, frontBusy := now + 1 }).modFront is.blk f) is b
      { b with front := f b.front } := by
  refine ⟨h, ?_, ?_, ?_, rfl⟩
  · rw [State.block_modFront_self, State.block_modCore, h]; rfl
  · intro k hk; rw [State.block_modFront_ne _ _ hk, State.block_modCore]
  · intro c
    rw [State.core_modFront]
    by_cases e : c = is.core
    · subst e; simp
    · rw [State.core_modCore_ne _ _ e]

theorem frontGoes_of (s : State) (is : FrontIssue) (b : Block) (h : s.block is.blk = some b) (f : Front → Front) (now : Nat)
    (w : Front) (pc : Pc) (he : f b.front = { w with pc := pc, hazards := (f b.front).hazards, from_ := (f b.front).from_ }) :
    FrontGoes s ((s.modCore is.core fun c => { c with lastFcx := is.fcx, frontBusy := now + 1 }).modFront is.blk f) is b w pc := by
  have ho := finishFront_only s is b h f now
  rw [he] at ho
  exact ⟨_, _, ho⟩

theorem finishFront_next (s : State) (is : FrontIssue) (b : Block) (h : s.block is.blk = some b) :
    FrontGoes s (finishFront s is .next) is b b.front is.next := by
  unfold finishFront; exact frontGoes_of s is b h _ _ _ _ rfl

theorem finishFront_done (s : State) (is : FrontIssue) (b : Block) (v : Quad) (h : s.block is.blk = some b) :
    FrontGoes s (finishFront s is (.done v)) is b (writeFront is.q b.front v) is.next := by
  unfold finishFront; exact frontGoes_of s is b h _ _ _ _ rfl

theorem finishFront_done2 (s : State) (is : FrontIssue) (b : Block) (v w : Quad) (h : s.block is.blk = some b) :
    FrontGoes s (finishFront s is (.done2 v w)) is b ((b.front.setReg is.q.dst.1 v).setReg (is.q.dst.1 + 1) w) is.next := by
  unfold finishFront; exact frontGoes_of s is b h _ _ _ _ rfl

theorem finishFront_goto (s : State) (is : FrontIssue) (b : Block) (p : Pc) (h : s.block is.blk = some b) :
    FrontGoes s (finishFront s is (.goto p)) is b b.front p := by
  unfold finishFront; exact frontGoes_of s is b h _ _ _ _ rfl

theorem finishFront_stall (s : State) (is : FrontIssue) (b : Block) (w : Stall) (h : s.block is.blk = some b) :
    FrontGoes s (finishFront s is (.stall w)) is b { b.front with status := .stalled w } is.next := by
  unfold finishFront; exact frontGoes_of s is b h _ _ _ _ rfl

theorem finishFront_again (s : State) (is : FrontIssue) (b : Block) (w : Stall) (h : s.block is.blk = some b) :
    FrontGoes s (finishFront s is (.again w)) is b { b.front with status := .stalled w } is.g.start := by
  unfold finishFront; exact frontGoes_of s is b h _ _ _ _ rfl

theorem finishFront_stop (s : State) (is : FrontIssue) (b : Block) (h : s.block is.blk = some b) :
    FrontGoes s (finishFront s is .stop) is b { b.front with status := .done } is.next := by
  unfold finishFront; exact frontGoes_of s is b h _ _ _ _ rfl

end Sys2Proof.Machine
end

