-- ==== Sys2Proof/Laws/Trap.lean ====
section
/-! SUPPORT. What taking a trap does to the threads of a collection (R113, R200), and to a front thread (R337). -/

namespace Sys2Proof.Machine

open Safety

theorem onlyThreads_refl (s : State) (is : Issue) (ts : List Nat) : OnlyThreads s s is ts :=
  ⟨fun _ _ => rfl, rfl, fun _ _ => rfl, fun _ => rfl, rfl⟩

/-- A change of quadrants only. -/
theorem modQuad_only (s : State) (is : Issue) (ts : List Nat) (c q : Nat) (f : Quadrant → Quadrant) :
    OnlyThreads s (s.modQuad c q f) is ts := by
  refine ⟨fun _ _ => rfl, rfl, fun _ _ => rfl, ?_, rfl⟩
  intro d
  unfold State.modQuad
  by_cases e : d = c
  · subst e; rw [State.core_modCore_self]; rfl
  · rw [State.core_modCore_ne _ _ e]

theorem leaveWarp_only (s : State) (is : Issue) (ts : List Nat) (blk t : Nat) :
    OnlyThreads s (s.leaveWarp blk t) is ts ∧ ∀ k, (s.leaveWarp blk t).block k = s.block k := by
  unfold State.leaveWarp
  split
  · exact ⟨onlyThreads_refl _ _ _, fun _ => rfl⟩
  · split
    · exact ⟨modQuad_only _ _ _ _ _ _, fun _ => rfl⟩
    · exact ⟨onlyThreads_refl _ _ _, fun _ => rfl⟩

theorem modThread_only (s : State) (is : Issue) (ts : List Nat) (t : Nat) (f : Thread → Thread) (h : t ∈ ts) :
    OnlyThreads s (s.modThread is.blk t f) is ts :=
  modThreads_only s is ts [(t, f)] (by simpa using h)

theorem Issue.block_modThread (s : State) (is : Issue) (t : Nat) (f : Thread → Thread) (b : Block) (h : s.block is.blk = some b) :
    is.block (s.modThread is.blk t f) = (is.block s).modThread t f := by
  simp [Issue.block, State.block_modThread_self, h]

/-- Entering the handler one after another. -/
theorem enter_fold (is : Issue) (tvec : Quad) (info : TrapReq → Word) (list : List Word) :
    ∀ (rs : List TrapReq) (s : State), (rs.map TrapReq.tlin).Nodup →
    OnlyThreads s (rs.foldl (fun s r => (s.leaveWarp is.blk r.tlin).modThread is.blk r.tlin fun t => t.enterTrap tvec r (info r) list) s)
      is (rs.map TrapReq.tlin) ∧
    ∀ r ∈ rs, ∀ th, (is.block s).thread r.tlin = some th →
      (is.block (rs.foldl (fun s r => (s.leaveWarp is.blk r.tlin).modThread is.blk r.tlin fun t => t.enterTrap tvec r (info r) list) s)).thread
        r.tlin = some (th.enterTrap tvec r (info r) list) := by
  intro rs
  induction rs with
  | nil => intro s _; exact ⟨onlyThreads_refl _ _ _, by simp⟩
  | cons r rs ih =>
    intro s hd
    simp only [List.map_cons, List.nodup_cons] at hd
    simp only [List.foldl_cons]
    generalize hu : (s.leaveWarp is.blk r.tlin).modThread is.blk r.tlin (fun t => t.enterTrap tvec r (info r) list) = u
    have hs := leaveWarp_only s is (r.tlin :: rs.map TrapReq.tlin) is.blk r.tlin
    have hb : is.block (s.leaveWarp is.blk r.tlin) = is.block s := by simp [Issue.block, hs.2]
    have h1 : OnlyThreads s u is (r.tlin :: rs.map TrapReq.tlin) := by
      rw [← hu]; exact onlyThreads_trans hs.1 (modThread_only _ is _ _ _ (List.mem_cons_self ..))
    obtain ⟨ho, ht⟩ := ih u hd.2
    have ho' : OnlyThreads u (rs.foldl (fun s r => (s.leaveWarp is.blk r.tlin).modThread is.blk r.tlin fun t => t.enterTrap tvec r (info r) list) u)
        is (r.tlin :: rs.map TrapReq.tlin) :=
      ⟨fun x hx => ho.others x fun h => hx (List.mem_cons_of_mem _ h), ho.block, ho.blocks, ho.cores, ho.rest⟩
    refine ⟨onlyThreads_trans h1 ho', ?_⟩
    have hblk : ∀ x th, (is.block s).thread x = some th → ∃ b, s.block is.blk = some b := by
      intro x th h
      cases e : s.block is.blk with
      | none => simp [Issue.block, e, Block.thread] at h
      | some b => exact ⟨b, rfl⟩
    intro q hq th hth
    obtain ⟨b, hb'⟩ := hblk _ _ hth
    have eu : is.block u = (is.block s).modThread r.tlin fun t => t.enterTrap tvec r (info r) list := by
      rw [← hu, Issue.block_modThread _ is _ _ b (by rw [hs.2]; exact hb'), hb]
    rcases List.mem_cons.1 hq with rfl | hq
    · rw [ho.others _ hd.1, eu, Block.thread_modThread_self, hth]; rfl
    · have ne : q.tlin ≠ r.tlin := fun e => hd.1 (e ▸ List.mem_map.2 ⟨q, hq, rfl⟩)
      exact ht q hq th (by rw [eu, Block.thread_modThread_ne _ _ ne]; exact hth)

theorem pairwise_nodup {rs : List TrapReq} (h : rs.Pairwise fun x y => x.tlin < y.tlin) : (rs.map TrapReq.tlin).Nodup := by
  rw [List.Nodup, List.pairwise_map]
  exact h.imp fun h => Nat.ne_of_lt h

/-- A collection whose handler may run (R200). -/
theorem takeTraps_traps (s : State) (is : Issue) (rs : List TrapReq) (h : Handled s is rs) : Traps s (takeTraps s is.blk rs) is rs := by
  obtain ⟨b, hb, hd, hv⟩ := h.block
  have eb : is.block s = b := by simp [Issue.block, hb]
  cases rs with
  | nil =>
    have e : takeTraps s is.blk [] = s := takeTraps_nil s is.blk
    rw [e]; exact ⟨onlyThreads_refl _ _ _, by simp⟩
  | cons r0 rs =>
    have hih : ((r0 :: rs).any fun r => ((b.thread r.tlin).map fun t => t.trap.inHandler).getD false) = false := by
      rw [List.any_eq_false]
      intro r hr
      cases e : b.thread r.tlin with
      | none => simp
      | some th => simp [TrapRegs.inHandler, h.free r hr th (by rw [eb]; exact e)]
    have e : takeTraps s is.blk (r0 :: rs) = (r0 :: rs).foldl (fun s' r => (s'.leaveWarp is.blk r.tlin).modThread is.blk r.tlin
        fun t => t.enterTrap (s.ctxOf b).tvec r (tinfoWord (r0 :: rs).length r0.tlin r.detail)
          (tlistWords 16 (((r0 :: rs).map TrapReq.tlin).take 32))) s := by
      unfold takeTraps takeTrapsCount
      simp only [hb, hd]
      unfold ordinaryTraps
      simp only [hih, hv, Bool.or_false, decide_false, Bool.false_eq_true, if_false]
    obtain ⟨ho, ht⟩ := enter_fold is (s.ctxOf b).tvec (fun r => tinfoWord (r0 :: rs).length r0.tlin r.detail)
      (tlistWords 16 (((r0 :: rs).map TrapReq.tlin).take 32)) (r0 :: rs) s (pairwise_nodup h.order)
    rw [e]
    refine ⟨ho, ?_⟩
    intro r hr th hth
    rw [ht r hr th hth, eb]
    have hn := h.now r hr
    unfold Thread.enterTrap Thread.ready trapRegs enteredRegs tinfoWord
    simp only [hn]
    cases chainHead th.ring <;> rfl

/-! ## An issue all of whose members trap -/

/-- The request of a trap fate. -/
def Fate.req (is : Issue) (m : Member) : Fate → TrapReq
  | .trap cause taddr detail tpc => ⟨m.tlin, cause, tpc.getD is.g.start, taddr, detail, none⟩
  | _ => ⟨m.tlin, 0, 0, 0, 0, none⟩

theorem insertTrap_last (rs : List TrapReq) (r : TrapReq) (h : ∀ x ∈ rs, x.tlin < r.tlin) : insertTrap rs r = rs ++ [r] := by
  induction rs with
  | nil => rfl
  | cons x rs ih =>
    have hx := h x (List.mem_cons_self ..)
    unfold insertTrap
    rw [if_neg (by omega), ih fun y hy => h y (List.mem_cons_of_mem _ hy)]
    rfl

/-- A collection in ascending order is sorted already. -/
theorem sortTraps_sorted (rs : List TrapReq) (h : rs.Pairwise fun x y => x.tlin < y.tlin) : sortTraps rs = rs := by
  suffices H : ∀ (l acc : List TrapReq), (acc ++ l).Pairwise (fun x y => x.tlin < y.tlin) → l.foldl insertTrap acc = acc ++ l by
    exact H rs [] h
  intro l
  induction l with
  | nil => intro acc _; simp
  | cons x l ih =>
    intro acc hp
    simp only [List.foldl_cons]
    rw [insertTrap_last _ _ fun y hy => (List.pairwise_append.1 hp).2.2 y hy x (List.mem_cons_self ..)]
    have e : acc ++ x :: l = acc ++ [x] ++ l := by simp
    rw [e] at hp ⊢
    exact ih _ hp

/-- An issue all of whose members trap: the collection of their requests. -/
theorem finish_traps (s : State) (is : Issue) (fs : List (Member × Fate)) (h : ∀ x ∈ fs, x.2.isTrap = true)
    (hh : Handled s is (fs.map fun x => x.2.req is x.1)) :
    Traps s (finish s is fs) is (fs.map fun x => x.2.req is x.1) := by
  have e : ∃ c, finish s is fs = takeTraps (noteIssue s is [] fs.length c) is.blk (fs.map fun x => x.2.req is x.1) := by
    unfold finish
    have hk : ∀ (l : List (Member × Fate)) (k : Pc) (u : State), (∀ x ∈ l, x.2.isTrap = true) → l.foldl (settleMember is k) u = u := by
      intro l k
      induction l with
      | nil => intros; rfl
      | cons x l ih =>
        intro u hl
        simp only [List.foldl_cons]
        have hx := hl x (List.mem_cons_self ..)
        have : settleMember is k u x = u := by
          obtain ⟨m, f⟩ := x
          cases f <;> first | rfl | simp [Fate.isTrap] at hx
        rw [this]
        exact ih u fun y hy => hl y (List.mem_cons_of_mem _ hy)
    simp only [hk fs _ s h]
    have hst : ∀ k, (fs.filter fun x => x.2.target is.next = some k) = [] := by
      intro k
      rw [List.filter_eq_nil_iff]
      intro x hx
      have := h x hx
      cases hf : x.2 <;> simp_all [Fate.isTrap, Fate.target]
    simp only [hst, List.map_nil]
    have hr : ∀ g : (Member × Fate) → Option TrapReq, (∀ x ∈ fs, g x = some (x.2.req is x.1)) →
        fs.filterMap g = fs.map fun x => x.2.req is x.1 := by
      intro g hg
      rw [← List.filterMap_eq_map]
      exact List.filterMap_congr fun x hx => by simp [hg x hx]
    refine ⟨_, congrArg (takeTraps _ is.blk) ((congrArg sortTraps (hr _ ?_)).trans (sortTraps_sorted _ hh.order))⟩
    intro x hx
    have := h x hx
    obtain ⟨m, f⟩ := x
    cases f <;> first | rfl | simp [Fate.isTrap] at this
  obtain ⟨c, e⟩ := e
  rw [e]
  have hb : is.block (noteIssue s is [] fs.length c) = is.block s := rfl
  have hx : ∀ b, (noteIssue s is [] fs.length c).ctxOf b = s.ctxOf b := fun _ => rfl
  have T := takeTraps_traps (noteIssue s is [] fs.length c) is _
    ⟨hh.block, fun r hr th hth => hh.free r hr th hth, hh.order, hh.now⟩
  refine ⟨onlyThreads_trans (noteIssue_only s is _ [] fs.length c) T.toOnlyThreads, ?_⟩
  intro r hr th hth
  exact T.thread r hr th hth

/-! ## An issue some of whose members trap -/

/-- The requests of the trapping members. -/
def trapReqs (is : Issue) (fs : List (Member × Fate)) : List TrapReq :=
  fs.filterMap fun x => if x.2.isTrap then some (x.2.req is x.1) else none

theorem modThread_same (s : State) (k t : Nat) : s.modThread k t id = s := by
  unfold State.modThread State.modBlock
  rw [tmod_id]
  intro b _
  unfold Block.modThread
  rw [tmod_id b.threads t id fun _ _ => rfl]

theorem foldl_settle_all (is : Issue) (keep : Pc) (s : State) (fs : List (Member × Fate)) :
    fs.foldl (settleMember is keep) s = s.modThreads is.blk (fateChanges is keep fs) := by
  induction fs generalizing s with
  | nil => rfl
  | cons x fs ih =>
    simp only [List.foldl_cons]
    rw [ih]
    have e : settleMember is keep s x = s.modThread is.blk x.1.tlin (afterFate is keep x.1 x.2) := by
      obtain ⟨m, f⟩ := x
      cases f <;> first | rfl | exact (modThread_same s _ _).symm
    rw [e]; rfl

theorem trapReqs_mem {is : Issue} {fs : List (Member × Fate)} {r : TrapReq} (h : r ∈ trapReqs is fs) :
    ∃ x ∈ fs, x.2.isTrap = true ∧ r = x.2.req is x.1 ∧ r.tlin = x.1.tlin := by
  obtain ⟨x, hx, e⟩ := List.mem_filterMap.1 h
  cases hi : x.2.isTrap with
  | false => simp [hi] at e
  | true =>
    simp only [hi, if_true, Option.some.injEq] at e
    refine ⟨x, hx, hi, e.symm, ?_⟩
    rw [← e]
    cases x.2 <;> rfl

/-- A finished issue: the members that do not trap are as their fates leave them, and the others enter their handler. -/
theorem finish_mixed (s : State) (is : Issue) (fs : List (Member × Fate)) (hd : ((fs.map Prod.fst).map Member.tlin).Nodup)
    (hh : trapReqs is fs ≠ [] → Handled s is (trapReqs is fs)) :
    OnlyThreads s (finish s is fs) is ((fs.map Prod.fst).map Member.tlin) ∧
    (∀ x ∈ fs, x.2.isTrap = false → ∀ th, (is.block s).thread x.1.tlin = some th →
      (is.block (finish s is fs)).thread x.1.tlin = some (afterFate is (keptPc is fs) x.1 x.2 th)) ∧
    (∀ x ∈ fs, x.2.isTrap = true → ∀ th, (is.block s).thread x.1.tlin = some th →
      (is.block (finish s is fs)).thread x.1.tlin = some
        { th with status := .ready, pc := (s.ctxOf (is.block s)).tvec.truncate 57, age := 0, ring := [], mask := none, late := none,
                  rp := unpopped th, trap := enteredRegs (trapReqs is fs) (x.2.req is x.1) th }) := by
  by_cases hn : trapReqs is fs = []
  · have hno : ∀ x ∈ fs, x.2.isTrap = false := by
      intro x hx
      cases hi : x.2.isTrap with
      | false => rfl
      | true =>
        have : x.2.req is x.1 ∈ trapReqs is fs := List.mem_filterMap.2 ⟨x, hx, by simp [hi]⟩
        rw [hn] at this; cases this
    obtain ⟨h1, h2⟩ := finish_settled s is fs hd hno
    refine ⟨h1, fun x hx _ => h2 x hx, fun x hx hi => ?_⟩
    rw [hno x hx] at hi; cases hi
  have H := hh hn
  have e : ∃ stay n c, finish s is fs =
      takeTraps (noteIssue (s.modThreads is.blk (fateChanges is (keptPc is fs) fs)) is stay n c) is.blk (trapReqs is fs) := by
    unfold finish
    simp only [foldl_settle_all]
    have hr : ∀ g : (Member × Fate) → Option TrapReq, (∀ x, g x = if x.2.isTrap then some (x.2.req is x.1) else none) →
        sortTraps (fs.filterMap g) = trapReqs is fs := by
      intro g hg
      have : fs.filterMap g = trapReqs is fs := List.filterMap_congr fun x _ => hg x
      rw [this, sortTraps_sorted _ H.order]
    refine ⟨_, _, _, congrArg (takeTraps _ is.blk) (hr _ ?_)⟩
    intro x
    obtain ⟨m, f⟩ := x
    cases f <;> rfl
  obtain ⟨stay, n, c, e⟩ := e
  rw [e]
  generalize hu : noteIssue (s.modThreads is.blk (fateChanges is (keptPc is fs) fs)) is stay n c = u
  have hkeys : (fateChanges is (keptPc is fs) fs).map Prod.fst = (fs.map Prod.fst).map Member.tlin := by
    simp [fateChanges, Function.comp_def]
  have hou : OnlyThreads s u is ((fs.map Prod.fst).map Member.tlin) := by
    rw [← hu]
    exact onlyThreads_trans (modThreads_only s is _ _ (by rw [hkeys]; exact fun _ h => h)) (noteIssue_only _ is _ stay n c)
  have hth : ∀ x ∈ fs, ∀ th, (is.block s).thread x.1.tlin = some th →
      (is.block u).thread x.1.tlin = some (afterFate is (keptPc is fs) x.1 x.2 th) := by
    intro x hx th hth
    rw [← hu]
    have hb : is.block (noteIssue (s.modThreads is.blk (fateChanges is (keptPc is fs) fs)) is stay n c)
        = is.block (s.modThreads is.blk (fateChanges is (keptPc is fs) fs)) := rfl
    rw [hb]
    rcases Issue.block_modThreads s is (fateChanges is (keptPc is fs) fs) with hb | ⟨hn, _⟩
    · rw [hb, Block.thread_modThreads _ (fateChanges is (keptPc is fs) fs) x.1.tlin (afterFate is (keptPc is fs) x.1 x.2)
        (by rw [hkeys]; exact hd) (List.mem_map.2 ⟨x, hx, rfl⟩), hth]
      rfl
    · simp [Block.thread, hn] at hth
  have hctx : ∀ b b' : Block, b'.ctx = b.ctx → u.ctxOf b' = s.ctxOf b := by
    intro b b' hb
    have : u.ctxs = s.ctxs := by rw [hou.rest]
    simp [State.ctxOf, this, hb]
  have hbu : u.block is.blk = some (is.block u) ∧ (is.block u).ctx = (is.block s).ctx ∧ (is.block u).dyer = (is.block s).dyer := by
    obtain ⟨b, hb, _, _⟩ := H.block
    refine ⟨?_, by rw [hou.block], by rw [hou.block]⟩
    have : u.block is.blk = (s.block is.blk).map fun b => b.modThreads (fateChanges is (keptPc is fs) fs) := by
      rw [← hu]
      show (s.modThreads is.blk _).block is.blk = _
      rw [State.modThreads_eq, State.block_modBlock_self]
    rw [hb] at this
    simp [Issue.block, this]
  have hHu : Handled u is (trapReqs is fs) := by
    obtain ⟨b, hb, hdy, hv⟩ := H.block
    have eb : is.block s = b := by simp [Issue.block, hb]
    refine ⟨⟨is.block u, hbu.1, by rw [hbu.2.2, eb]; exact hdy, ?_⟩, ?_, H.order, H.now⟩
    · rw [hctx b (is.block u) (by rw [hbu.2.1, eb])]; exact hv
    · intro r hr th ht
      obtain ⟨x, hx, hi, er, el⟩ := trapReqs_mem hr
      cases hs : (is.block s).thread x.1.tlin with
      | none =>
        exfalso
        rw [el] at ht
        have hb : is.block u = (is.block s).modThreads (fateChanges is (keptPc is fs) fs) := by
          rw [← hu]
          show is.block (s.modThreads is.blk _) = _
          rcases Issue.block_modThreads s is (fateChanges is (keptPc is fs) fs) with hb' | ⟨hn, hb'⟩
          · exact hb'
          · exfalso
            have : (s.modThreads is.blk (fateChanges is (keptPc is fs) fs)).block is.blk = some (is.block (s.modThreads is.blk (fateChanges is (keptPc is fs) fs))) := by
              rw [State.modThreads_eq]
              simp [Issue.block, State.block_modBlock_self, hb]
            have e2 : is.block (s.modThreads is.blk (fateChanges is (keptPc is fs) fs)) = (is.block s).modThreads (fateChanges is (keptPc is fs) fs) := by
              rw [State.modThreads_eq]
              simp [Issue.block, State.block_modBlock_self, hb]
            have e3 : is.block u = is.block (s.modThreads is.blk (fateChanges is (keptPc is fs) fs)) := by rw [← hu]; rfl
            rw [e3, hb'] at ht
            rw [hs] at ht; cases ht
        rw [hb, Block.thread_modThreads _ (fateChanges is (keptPc is fs) fs) x.1.tlin (afterFate is (keptPc is fs) x.1 x.2)
          (by rw [hkeys]; exact hd) (List.mem_map.2 ⟨x, hx, rfl⟩), hs] at ht
        cases ht
      | some th0 =>
        have h1 := hth x hx th0 hs
        rw [el, h1] at ht
        have h0 : afterFate is (keptPc is fs) x.1 x.2 th0 = th0 := by
          cases hf : x.2 <;> first | rfl | (rw [hf] at hi; simp [Fate.isTrap] at hi)
        rw [h0] at ht
        have e := Option.some.inj ht
        rw [← e]
        exact H.free r hr th0 (by rw [el]; exact hs)
  have T := takeTraps_traps u is _ hHu
  have hsub : ∀ y ∈ (trapReqs is fs).map TrapReq.tlin, y ∈ (fs.map Prod.fst).map Member.tlin := by
    intro y hy
    obtain ⟨r, hr, rfl⟩ := List.mem_map.1 hy
    obtain ⟨x, hx, _, _, el⟩ := trapReqs_mem hr
    exact List.mem_map.2 ⟨x.1, List.mem_map.2 ⟨x, hx, rfl⟩, el.symm⟩
  have T' : OnlyThreads u (takeTraps u is.blk (trapReqs is fs)) is ((fs.map Prod.fst).map Member.tlin) :=
    ⟨fun y hy => T.others y fun h => hy (hsub y h), T.block, T.blocks, T.cores, T.rest⟩
  have inj : ∀ x ∈ fs, ∀ y ∈ fs, x.1.tlin = y.1.tlin → x = y := by
    intro x hx y hy he
    rw [List.map_map] at hd
    exact List.inj_on_of_nodup_map hd hx hy he
  refine ⟨onlyThreads_trans hou T', ?_, ?_⟩
  · intro x hx hi th ht
    have hnot : x.1.tlin ∉ (trapReqs is fs).map TrapReq.tlin := by
      intro h
      obtain ⟨r, hr, er⟩ := List.mem_map.1 h
      obtain ⟨y, hy, hyi, _, el⟩ := trapReqs_mem hr
      have := inj x hx y hy (by rw [← er, el])
      subst this
      rw [hi] at hyi; cases hyi
    rw [T.others _ hnot]
    exact hth x hx th ht
  · intro x hx hi th ht
    have hr : x.2.req is x.1 ∈ trapReqs is fs := List.mem_filterMap.2 ⟨x, hx, by simp [hi]⟩
    have el : (x.2.req is x.1).tlin = x.1.tlin := by cases x.2 <;> rfl
    have h0 : afterFate is (keptPc is fs) x.1 x.2 th = th := by
      cases hf : x.2 <;> first | rfl | (rw [hf] at hi; simp [Fate.isTrap] at hi)
    have h1 := hth x hx th ht
    rw [h0] at h1
    have h2 := T.thread _ hr th (by rw [el]; exact h1)
    rw [el] at h2
    rw [h2, hctx (is.block s) (is.block u) hbu.2.1]

/-- Going on does not look at threads that are not there. -/
theorem goes_congr {s t : State} {is : Issue} {ms : List Member} {own own' : Member → Thread → Thread} (h : Goes s t is ms own)
    (e : ∀ m ∈ ms, m.on = true → ∀ th, (is.block s).thread m.tlin = some th → own m th = own' m th) : Goes s t is ms own' := by
  refine ⟨h.toOnlyThreads, ?_⟩
  intro m hm th hth
  obtain ⟨ring, r⟩ := h.thread m hm th hth
  refine ⟨ring, ?_⟩
  rw [r]
  cases hon : m.on with
  | false => rfl
  | true => rw [if_pos rfl, if_pos rfl, e m hm hon th hth]

/-- The thread of a member that is there. -/
theorem Issue.thread_some {s : State} {is : Issue} {t : Nat} {th : Thread} (h : (is.block s).thread t = some th) : is.thread s t = th := by
  simp [Issue.thread, h]

/-- Members that trap and members that go on (R113, R129, R151). -/
theorem finish_splits (s : State) (is : Issue) (ms : List Member) (fate : Member → Fate) (trap : Member → Option TrapReq)
    (own : Member → Thread → Thread) (hd : (ms.map Member.tlin).Nodup)
    (ht : ∀ m ∈ ms, m.on = true → match trap m with
      | some r => (fate m).isTrap = true ∧ (fate m).req is m = r
      | none => (fate m).onwards = true ∧ ∀ th, own m th = (fate m).own is.q th)
    (hh : collected ms trap ≠ [] → Handled s is (collected ms trap)) :
    Splits s (finish s is (ms.map fun m => (m, if m.on then fate m else .next))) is ms trap (fun _ th => th) own := by
  have hk : (ms.map fun m => (m, if m.on then fate m else Fate.next)).map Prod.fst = ms := by simp [Function.comp_def]
  have hr : trapReqs is (ms.map fun m => (m, if m.on then fate m else .next)) = collected ms trap := by
    unfold trapReqs collected
    rw [List.filterMap_map]
    refine List.filterMap_congr fun m hm => ?_
    cases hon : m.on with
    | false => simp [hon, Fate.isTrap]
    | true =>
      have := ht m hm hon
      cases e : trap m with
      | none =>
        rw [e] at this
        simp [hon, Fate.onwards_trap this.1]
      | some r =>
        rw [e] at this
        simp [hon, this.1, this.2]
  obtain ⟨h1, h2, h3⟩ := finish_mixed s is (ms.map fun m => (m, if m.on then fate m else .next)) (by rw [hk]; exact hd)
    (by rw [hr]; exact hh)
  rw [hk] at h1
  have hkeep : keptPc is (ms.map fun m => (m, if m.on then fate m else .next)) = is.next := by
    apply keepTarget_const
    intro p hp
    obtain ⟨x, hx, e⟩ := List.mem_filterMap.1 hp
    obtain ⟨m, hm, rfl⟩ := List.mem_map.1 hx
    cases hon : m.on with
    | false => simp [hon, Fate.target] at e; exact e.symm
    | true =>
      have := ht m hm hon
      cases et : trap m with
      | none =>
        rw [et] at this
        simp only [hon, if_true, Fate.onwards_target this.1, Option.some.injEq] at e
        exact e.symm
      | some r =>
        rw [et] at this
        simp only [hon, if_true] at e
        cases hf : fate m <;> rw [hf] at this e <;> simp_all [Fate.isTrap, Fate.target]
  refine ⟨h1, ?_, ?_⟩
  · intro m hm hn th hth
    have hx : (m, if m.on then fate m else Fate.next) ∈ ms.map fun m => (m, if m.on then fate m else Fate.next) :=
      List.mem_map.2 ⟨m, hm, rfl⟩
    have hon : (if m.on then fate m else Fate.next).onwards = true ∧
        ∀ th, (if m.on then own m th else th) = if m.on then (if m.on then fate m else Fate.next).own is.q th else th := by
      cases ho : m.on with
      | false => exact ⟨rfl, fun _ => rfl⟩
      | true =>
        have := ht m hm ho
        rw [hn ho] at this
        simpa using this
    have e := h2 _ hx (Fate.onwards_trap hon.1) th hth
    obtain ⟨ring, r⟩ := goOn_onward is m th (if m.on then fate m else Fate.next).result is.next
    refine ⟨ring, ?_⟩
    simp only at e
    rw [e, afterFate_target is _ is.next _ _ _ (Fate.onwards_target hon.1 _), hkeep, if_pos rfl, r, hon.2 th]
    rfl
  · intro m hm hon r er th hth
    have hx : (m, if m.on then fate m else Fate.next) ∈ ms.map fun m => (m, if m.on then fate m else Fate.next) :=
      List.mem_map.2 ⟨m, hm, rfl⟩
    have := ht m hm hon
    rw [er] at this
    have e := h3 _ hx (by simpa [hon] using this.1) th hth
    simp only [hon, if_true, this.2, hr] at e
    exact e

/-- A change of the members' own threads first, and then a split. -/
theorem splits_after_threads {s t : State} {is : Issue} {ms : List Member} (chg : Member → Thread → Thread)
    {trap : Member → Option TrapReq} {own : Member → Thread → Thread} (hd : (ms.map Member.tlin).Nodup)
    (hr : ∀ m th, chainHead (chg m th).ring = chainHead th.ring ∧ (chg m th).trap = th.trap)
    (h : Splits (s.modThreads is.blk (ms.map fun m => (m.tlin, if m.on then chg m else id))) t is ms trap (fun _ th => th) own) :
    Splits s t is ms trap chg fun m th => own m (chg m th) := by
  have hk : ((ms.map fun m => (m.tlin, if m.on then chg m else id)) : List (Nat × (Thread → Thread))).map Prod.fst = ms.map Member.tlin := by
    simp [Function.comp_def]
  have T := modThreads_only s is (ms.map Member.tlin) (ms.map fun m => (m.tlin, if m.on then chg m else id)) (by rw [hk]; exact fun _ h => h)
  have hth : ∀ m ∈ ms, ∀ th, (is.block s).thread m.tlin = some th →
      (is.block (s.modThreads is.blk (ms.map fun m => (m.tlin, if m.on then chg m else id)))).thread m.tlin
        = some ((if m.on then chg m else id) th) := by
    intro m hm th hth
    rcases Issue.block_modThreads s is (ms.map fun m => (m.tlin, if m.on then chg m else id)) with hb | ⟨hn, _⟩
    · rw [hb, Block.thread_modThreads _ (ms.map fun m => (m.tlin, if m.on then chg m else id)) m.tlin (if m.on then chg m else id)
        (by rw [hk]; exact hd) (List.mem_map.2 ⟨m, hm, rfl⟩), hth]
      rfl
    · simp [Block.thread, hn] at hth
  refine ⟨onlyThreads_trans T h.toOnlyThreads, ?_, ?_⟩
  · intro m hm hn th ht
    obtain ⟨ring, e⟩ := h.goes m hm hn _ (hth m hm th ht)
    refine ⟨ring, ?_⟩
    rw [e]
    cases m.on with
    | false => rfl
    | true => rfl
  · intro m hm hon r er th ht
    have e := h.traps m hm hon r er _ (hth m hm th ht)
    rw [e]
    have hc : (s.modThreads is.blk (ms.map fun m => (m.tlin, if m.on then chg m else id))).ctxOf
        (is.block (s.modThreads is.blk (ms.map fun m => (m.tlin, if m.on then chg m else id)))) = s.ctxOf (is.block s) := by
      have h1 : (s.modThreads is.blk (ms.map fun m => (m.tlin, if m.on then chg m else id))).ctxs = s.ctxs := by rw [T.rest]
      have h2 : (is.block (s.modThreads is.blk (ms.map fun m => (m.tlin, if m.on then chg m else id)))).ctx = (is.block s).ctx := by
        rw [T.block]
      simp [State.ctxOf, h1, h2]
    rw [hc, hon, if_pos rfl]
    have e2 : enteredRegs (collected ms trap) r (chg m th) = enteredRegs (collected ms trap) r th := by
      unfold enteredRegs
      rw [(hr m th).1, (hr m th).2]
    rw [e2]

/-! ## The front thread -/

/-- A front trap whose handler runs (R337). -/
theorem finishFront_trap (s : State) (is : FrontIssue) (b : Block) (cause : BitVec 8) (taddr : Quad) (detail : Nat) (tpc : Option Pc)
    (h : s.block is.blk = some b) (hh : FrontHandled s b) :
    FrontTraps s (finishFront s is (.trap cause taddr detail tpc)) is b cause (tpc.getD is.g.start) taddr detail := by
  have e : finishFront s is (.trap cause taddr detail tpc) =
      (s.modCore is.core fun c => { c with lastFcx := is.fcx, frontBusy := (s.core is.core).cycle + 1 }).modFront is.blk fun f =>
        { f with trap := { trapRegs f.trap ⟨0, cause, tpc.getD is.g.start, taddr, detail, none⟩ (tinfoWord 1 0 detail) [] none with tchain := 0 },
                 pc := (s.ctxOf b).ftvec.truncate 57, status := .run, late := none, latched := none, mark := none } := by
    unfold finishFront
    simp only [takeFrontTrap, State.block_modCore, h, hh.dyer]
    unfold ordinaryFrontTrap
    have hv : ((s.modCore is.core fun c => { c with lastFcx := is.fcx, frontBusy := (s.core is.core).cycle + 1 }).ctxOf b) = s.ctxOf b := rfl
    have hi : b.front.trap.inHandler = false := hh.free
    simp only [hv, hi, hh.vec, decide_false, Bool.or_false, Bool.false_eq_true, if_false]
  rw [e]
  have ho := finishFront_only s is b h (fun f =>
    { f with trap := { trapRegs f.trap ⟨0, cause, tpc.getD is.g.start, taddr, detail, none⟩ (tinfoWord 1 0 detail) [] none with tchain := 0 },
             pc := (s.ctxOf b).ftvec.truncate 57, status := .run, late := none, latched := none, mark := none }) (s.core is.core).cycle
  have et : tinfoWord 1 0 detail = BitVec.ofNat 32 (2 ^ 26 + detail % 2 ^ 16) := by
    unfold tinfoWord; norm_num
  rw [et] at ho ⊢
  exact ho

end Sys2Proof.Machine
end

