-- ==== Sys2Proof/Laws/Arith.lean ====
section
/-! SUPPORT. The issue of a word that computes a result: from a function of the thread, the group and the sources to the threads
after it. -/

namespace Sys2Proof.Machine

open Safety

theorem fates_members (ms : List Member) (g : Member → Fate) :
    ((ms.map fun m => (m, if m.on then g m else Fate.next)).map Prod.fst) = ms := by simp [Function.comp_def]

/-- An integer word in lanes. -/
theorem issue_int {s s₁ : State} {i : Instr} {is : Issue} {ms : List Member} (h : LaneReady s i s₁ is ms)
    (g : Thread → Group → Vals → Option Quad) (f : Thread → Group → Vals → Quad) (hg : ∀ th v, g th is.g v = some (f th is.g v))
    (front : State → FrontIssue → State × FrontFate) :
    ∃ t, issue s i (eachMember (intMember g)) front = .next t ∧ Goes s₁ t is ms fun m th => writeResult (shape i) th (f th is.g m.v) := by
  rw [issue_ready h]
  refine ⟨_, rfl, ?_⟩
  have hq := (prepare_go h.passes).2.2
  have e := eachMember_const s₁ is (intMember g) (fun m => .done (f (is.thread s₁ m.tlin) is.g m.v)) ms (by
    intro m _ _
    simp [intMember, hg])
  rw [e]
  have G := finish_goes s₁ is (ms.map fun m => (m, if m.on then Fate.done (f (is.thread s₁ m.tlin) is.g m.v) else .next))
    (fun m th => writeResult (shape i) th (f (is.thread s₁ m.tlin) is.g m.v))
    (by rw [fates_members]; exact h.distinct)
    (by
      intro x hx
      obtain ⟨m, _, rfl⟩ := List.mem_map.1 hx
      cases m.on <;> rfl)
    (by
      intro x hx hon th
      obtain ⟨m, _, rfl⟩ := List.mem_map.1 hx
      have : m.on = true := hon
      simp [this, Fate.own, Fate.result, withResult, hq])
  rw [fates_members] at G
  exact goes_congr G fun m _ _ th hth => by rw [Issue.thread_some hth]

theorem boolBit_flag (b : Bool) : BitVec.ofNat 64 (boolBit b) = flag b := by cases b <;> rfl
theorem intCond_holds (c : BitVec 3) (x y : Int) : intCond c.toNat x y = holds c x y := by
  unfold intCond holds
  generalize c.toNat = n
  match n with
  | 0 => rfl
  | 1 => simp
  | 2 => rfl
  | 3 => rfl
  | 4 => rfl
  | _ + 5 => rfl

theorem plop_truth (t : BitVec 4) (x y : Bool) (a b : Bool) : plopValue t.toNat x a y b = flag (truth t (x != a) (y != b)) := by
  unfold plopValue flag truth
  have : ∀ n, t.toNat / 2 ^ n % 2 = if t.getLsbD n then 1 else 0 := by
    intro n
    simp [BitVec.getLsbD, Nat.testBit, Nat.shiftRight_eq_div_pow, Nat.one_and_eq_mod_two]
    have := Nat.mod_two_eq_zero_or_one (t.toNat / 2 ^ n)
    rcases this with h | h <;> simp [h]
  rw [this]
  cases h1 : (x != a) <;> cases h2 : (y != b) <;> simp [boolBit] <;> split <;> rfl

/-- A word with one result in front code. -/
theorem issue_frontDone {s : State} {i : Instr} {is : FrontIssue} {b : Block} (h : FrontReady s i is b) (body : Body)
    (front : State → FrontIssue → State × FrontFate) (v : Quad) (hv : front (closeGroup s) is = (closeGroup s, .done v)) :
    ∃ t, issue s i body front = .next t ∧ FrontGoes (closeGroup s) t is b (writeFront is.q b.front v) is.next := by
  rw [issue_front h, hv]
  exact ⟨_, rfl, finishFront_done (closeGroup s) is b v h.block⟩

/-- The shape of a front issue is that of its instruction. -/
theorem front_q {s : State} {i : Instr} {is : FrontIssue} {b : Block} (h : FrontReady s i is b) : is.q = shape i := by
  have hp := h.passes
  unfold frontPrepare at hp
  split at hp
  · cases hp
  · rename_i is' hf
    have e : is'.q = shape i := by
      unfold findFront at hf
      split at hf
      · obtain ⟨w, _, e⟩ := Option.map_eq_some_iff.1 hf
        rw [← e]
      · cases hf
    dsimp only at hp
    split at hp
    · cases hp
    · cases hp
    · split at hp
      · split at hp
        · cases hp; exact e
        · cases hp
      · cases hp; exact e

/-- Whether a handler may run does not depend on the threads' other state. -/
theorem handled_threads {s : State} {is : Issue} {rs : List TrapReq} (l : List (Nat × (Thread → Thread)))
    (hl : ∀ x ∈ l, ∀ th, (x.2 th).trap = th.trap) (h : Handled s is rs) : Handled (s.modThreads is.blk l) is rs := by
  obtain ⟨b, hb, hd, hv⟩ := h.block
  have e : (s.modThreads is.blk l).block is.blk = some (b.modThreads l) := by
    rw [State.modThreads_eq, State.block_modBlock_self, hb]; rfl
  have ei : is.block (s.modThreads is.blk l) = b.modThreads l := by simp [Issue.block, e]
  have es : is.block s = b := by simp [Issue.block, hb]
  have fr := Block.modThreads_frame b l
  refine ⟨⟨b.modThreads l, e, by rw [fr]; exact hd, ?_⟩, ?_, h.order, h.now⟩
  · have : ((s.modThreads is.blk l).ctxOf (b.modThreads l)) = s.ctxOf b := by
      have h1 : (s.modThreads is.blk l).ctxs = s.ctxs := by rw [State.modThreads_eq]; rfl
      have h2 : (b.modThreads l).ctx = b.ctx := by rw [fr]
      simp [State.ctxOf, h1, h2]
    rw [this]; exact hv
  · intro r hr th hth
    rw [ei] at hth
    have key : ∀ (l : List (Nat × (Thread → Thread))), (∀ x ∈ l, ∀ th, (x.2 th).trap = th.trap) → ∀ (b : Block) th,
        (b.modThreads l).thread r.tlin = some th → ∃ th0, b.thread r.tlin = some th0 ∧ th0.trap = th.trap := by
      intro l
      induction l with
      | nil => intro _ b th h; exact ⟨th, h, rfl⟩
      | cons x l ih =>
        intro hl b th h
        have e : b.modThreads (x :: l) = (b.modThread x.1 x.2).modThreads l := rfl
        rw [e] at h
        obtain ⟨th0, h0, et⟩ := ih (fun y hy => hl y (List.mem_cons_of_mem _ hy)) _ _ h
        rw [Block.thread_modThread] at h0
        split at h0
        · obtain ⟨th1, h1, rfl⟩ := Option.map_eq_some_iff.1 h0
          rename_i he
          exact ⟨th1, by rw [he]; exact h1, by rw [← et, hl x (List.mem_cons_self ..)]⟩
        · exact ⟨th0, h0, et⟩
    obtain ⟨th0, h0, et⟩ := key l hl b th hth
    rw [← et]
    exact h.free r hr th0 (by rw [es]; exact h0)

/-- A floating-point word: who raises an enabled exception traps, and the others write their results (R151). -/
theorem issue_float {s s₁ : State} {i : Instr} {is : Issue} {ms : List Member} (h : LaneReady s i s₁ is ms)
    (f : Thread → Group → Vals → FRes) (front : State → FrontIssue → State × FrontFate) :
    let r := fun (m : Member) => f (is.thread s₁ m.tlin) is.g m.v
    let trap := fun (m : Member) =>
      let en := (is.thread s₁ m.tlin).trapen
      if (bit en 5 = true ∧ (r m).snan = true) ∨ (r m).flags &&& en.truncate 5 ≠ 0
      then some (⟨m.tlin, causeFpe, is.g.start, 0, (r m).flags.toNat + (if (r m).snan then 32 else 0), none⟩ : TrapReq) else none
    (collected ms trap ≠ [] → Handled s₁ is (collected ms trap)) →
    ∃ t, issue s i (eachMember (floatMember f)) front = .next t ∧
      Splits s₁ t is ms trap (fun m th => { th with flg := th.flg ||| (r m).flags }) fun m th =>
        writeResult (shape i) { th with flg := th.flg ||| (r m).flags } (BitVec.ofNat 64 (r m).val) := by
  intro r trap hh
  rw [issue_ready h]
  refine ⟨_, rfl, ?_⟩
  have hq := (prepare_go h.passes).2.2
  have e := eachMember_threads is (floatMember f) (fun th0 m th => th.raise (f th0 is.g m.v).flags)
    (fun th0 m => if fpeTraps th0 (f th0 is.g m.v) then .trap causeFpe 0 (fpeDetail (f th0 is.g m.v)) none
       else .done (BitVec.ofNat 64 (f th0 is.g m.v).val)) (by
      intro s m
      unfold floatMember
      dsimp only
      split <;> rfl) ms s₁ h.distinct
  rw [e]
  refine splits_after_threads (fun m th => th.raise (r m).flags) (own := fun m th => writeResult (shape i) th (BitVec.ofNat 64 (r m).val)) h.distinct (fun _ _ => ⟨rfl, rfl⟩) ?_
  refine finish_splits _ is ms _ trap _ h.distinct ?_ ?_
  · intro m _ _
    have ht : fpeTraps (is.thread s₁ m.tlin) (r m) = true ↔ trap m ≠ none := by
      simp only [fpeTraps, trap]
      split <;> simp_all [and_comm]
    simp only [trap, r] at ht ⊢
    split
    · rename_i rq er
      have := ht.2 (by rw [er]; simp)
      simp only [this, if_true]
      split at er
      · cases er
        refine ⟨rfl, ?_⟩
        simp [Fate.req, fpeDetail, boolBit]
      · cases er
    · rename_i er
      have : fpeTraps (is.thread s₁ m.tlin) (f (is.thread s₁ m.tlin) is.g m.v) = false := by
        cases hc : fpeTraps (is.thread s₁ m.tlin) (f (is.thread s₁ m.tlin) is.g m.v) with
        | false => rfl
        | true => exact absurd er (ht.1 hc)
      simp only [this, Bool.false_eq_true, if_false]
      exact ⟨rfl, fun th => by simp [Fate.own, Fate.result, withResult, hq]⟩
  · intro hc
    refine handled_threads _ ?_ (hh hc)
    intro x hx th
    obtain ⟨m, _, rfl⟩ := List.mem_map.1 hx
    cases m.on <;> rfl
/-- The meaning of every floating-point word is its rule, member by member. -/
theorem exec_floatRule (i : Instr) (f : Thread → Group → Vals → FRes) (h : floatRule i = some f) (s : State) :
    exec i s = issue s i (eachMember (floatMember f)) noFront := by
  cases i
  all_goals first
    | (simp only [floatRule, reduceCtorEq] at h; done)
    | (simp only [floatRule, Option.some.injEq] at h; subst h; rfl)
    | (simp only [floatRule, Option.some.injEq] at h; subst h
       simp only [exec, execCvtF64I64, floatOp]
       refine congrArg (fun g => issue s _ (eachMember (floatMember g)) noFront) ?_
       funext th g v
       simp [clamped])

end Sys2Proof.Machine
end

