-- ==== Sys2Proof/Laws/Bodies.lean ====
section
/-! SUPPORT. The issue of a word by what its body answers: all members go on, go to targets, leave or trap after the body has
changed the state. -/

namespace Sys2Proof.Machine

open Safety

theorem map_members {α : Type} (ms : List Member) (g : Member → α) : (ms.map fun m => (m, g m)).map Prod.fst = ms := by
  simp [Function.comp_def]

/-- A body after which every member goes on. -/
theorem issue_next {s s₁ u : State} {i : Instr} {is : Issue} {ms : List Member} (h : LaneReady s i s₁ is ms) (body : Body)
    (front : State → FrontIssue → State × FrontFate) (hb : body s₁ is ms = (u, ms.map fun m => (m, .next))) :
    ∃ t, issue s i body front = .next t ∧ Goes u t is ms fun _ th => th := by
  rw [issue_ready h, hb]
  refine ⟨_, rfl, ?_⟩
  have G := finish_goes u is (ms.map fun m => (m, Fate.next)) (fun _ th => th) (by rw [map_members]; exact h.distinct)
    (by intro x hx; obtain ⟨m, _, rfl⟩ := List.mem_map.1 hx; rfl)
    (by intro x hx _ th; obtain ⟨m, _, rfl⟩ := List.mem_map.1 hx; rfl)
  rw [map_members] at G
  exact G

/-- A body that gives each member whose guard is true a result. -/
theorem issue_done {s s₁ u : State} {i : Instr} {is : Issue} {ms : List Member} (h : LaneReady s i s₁ is ms) (body : Body)
    (front : State → FrontIssue → State × FrontFate) (v : Member → Quad)
    (hb : body s₁ is ms = (u, ms.map fun m => (m, if m.on then .done (v m) else .next))) :
    ∃ t, issue s i body front = .next t ∧ Goes u t is ms fun m th => writeResult (shape i) th (v m) := by
  rw [issue_ready h, hb]
  refine ⟨_, rfl, ?_⟩
  have hq := (prepare_go h.passes).2.2
  have G := finish_goes u is (ms.map fun m => (m, if m.on then Fate.done (v m) else .next))
    (fun m th => writeResult (shape i) th (v m)) (by rw [map_members]; exact h.distinct)
    (by intro x hx; obtain ⟨m, _, rfl⟩ := List.mem_map.1 hx; cases m.on <;> rfl)
    (by
      intro x hx hon th
      obtain ⟨m, _, rfl⟩ := List.mem_map.1 hx
      have : m.on = true := hon
      simp [this, Fate.own, Fate.result, withResult, hq])
  rw [map_members] at G
  exact G

/-- A body that sends each member to a target. -/
theorem issue_goto {s s₁ u : State} {i : Instr} {is : Issue} {ms : List Member} (h : LaneReady s i s₁ is ms) (body : Body)
    (front : State → FrontIssue → State × FrontFate) (fate : Member → Fate) (tgt : Member → Pc)
    (hb : body s₁ is ms = (u, ms.map fun m => (m, fate m))) (hf : ∀ m ∈ ms, fate m = .goto (tgt m) ∨ (fate m = .next ∧ tgt m = is.next)) :
    ∃ t, issue s i body front = .next t ∧ GoesTo u t is ms tgt (keptPc is (ms.map fun m => (m, fate m))) fun _ th => th := by
  rw [issue_ready h, hb]
  refine ⟨_, rfl, ?_⟩
  have ht : ∀ m ∈ ms, (fate m).target is.next = some (tgt m) ∧ (fate m).result = none := by
    intro m hm
    rcases hf m hm with e | ⟨e, e'⟩
    · rw [e]; exact ⟨rfl, rfl⟩
    · rw [e, e']; exact ⟨rfl, rfl⟩
  have G := finish_goesTo u is (ms.map fun m => (m, fate m)) tgt (fun _ th => th) (by rw [map_members]; exact h.distinct)
    (by intro x hx; obtain ⟨m, hm, rfl⟩ := List.mem_map.1 hx; exact (ht m hm).1)
    (by
      intro x hx _ th
      obtain ⟨m, hm, rfl⟩ := List.mem_map.1 hx
      simp [Fate.own, withResult, (ht m hm).2])
  rw [map_members] at G
  exact G

/-- A body after which every member leaves the warp. -/
theorem issue_leaves {s s₁ u : State} {i : Instr} {is : Issue} {ms : List Member} (h : LaneReady s i s₁ is ms) (body : Body)
    (front : State → FrontIssue → State × FrontFate) (dest : Member → Status × Pc)
    (hb : body s₁ is ms = (u, ms.map fun m => (m, .leave (dest m).1 (dest m).2))) :
    ∃ t, issue s i body front = .next t ∧ Leaves u t is ms dest := by
  rw [issue_ready h, hb]
  refine ⟨_, rfl, ?_⟩
  have G := finish_leaves u is (ms.map fun m => (m, Fate.leave (dest m).1 (dest m).2)) dest (by rw [map_members]; exact h.distinct)
    (by intro x hx; obtain ⟨m, _, rfl⟩ := List.mem_map.1 hx; rfl)
  rw [map_members] at G
  exact G

/-- A body after which every member traps. -/
theorem issue_traps {s s₁ u : State} {i : Instr} {is : Issue} {ms : List Member} (h : LaneReady s i s₁ is ms) (body : Body)
    (front : State → FrontIssue → State × FrontFate) (fate : Member → Fate)
    (hb : body s₁ is ms = (u, ms.map fun m => (m, fate m))) (hf : ∀ m ∈ ms, (fate m).isTrap = true)
    (hh : Handled u is (ms.map fun m => (fate m).req is m)) :
    ∃ t, issue s i body front = .next t ∧ Traps u t is (ms.map fun m => (fate m).req is m) := by
  rw [issue_ready h, hb]
  refine ⟨_, rfl, ?_⟩
  have e : (ms.map fun m => (m, fate m)).map (fun x => x.2.req is x.1) = ms.map fun m => (fate m).req is m := by
    simp [Function.comp_def]
  have G := finish_traps u is (ms.map fun m => (m, fate m))
    (by intro x hx; obtain ⟨m, hm, rfl⟩ := List.mem_map.1 hx; exact hf m hm) (by rw [e]; exact hh)
  rw [e] at G
  exact G

/-- The tie rule of R95: the fall-through side keeps the slot. -/
theorem keepTarget_tie (next : Pc) (ts : List Pc) (hm : next ∈ ts) (h : ts.count next = ts.count (keepTarget true next ts)) :
    keepTarget true next ts = next := by
  have key : ∀ (l : List Pc) (k : Pc), (∀ p, ts.count p ≤ ts.count next) → (k = next ∨ next ∈ l) →
      l.foldl (fun k p => if (ts.count k < ts.count p || (ts.count k = ts.count p && (p = next : Bool))) then p else k) k = next := by
    intro l
    induction l with
    | nil => intro k _ hk; rcases hk with hk | hk; exact hk; cases hk
    | cons a l ih =>
      intro k hmax hk
      simp only [List.foldl_cons]
      apply ih _ hmax
      by_cases ha : a = next
      · subst ha
        left
        have := hmax k
        split
        · rfl
        · rename_i hc
          simp only [Bool.or_eq_true, Bool.and_eq_true, decide_eq_true_eq, not_or, not_and, not_true_eq_false, imp_false] at hc
          exact absurd (by omega) hc.2
      · rcases hk with rfl | hk
        · left
          have := hmax a
          split
          · rename_i hc
            simp only [Bool.or_eq_true, Bool.and_eq_true, decide_eq_true_eq, ha, and_false, or_false] at hc
            omega
          · rfl
        · rcases List.mem_cons.1 hk with e | hk
          · exact absurd e.symm ha
          · exact Or.inr hk
  have hmax : ∀ p, ts.count p ≤ ts.count next := by
    intro p; rw [h]; exact keepTarget_most _ _ _ _
  exact key ts _ hmax (Or.inr hm)

/-- A body in front code. -/
theorem issue_frontFate {s : State} {i : Instr} {is : FrontIssue} {b : Block} (h : FrontReady s i is b) (body : Body)
    (front : State → FrontIssue → State × FrontFate) : ∃ t, issue s i body front = .next t ∧
      t = finishFront (front (closeGroup s) is).1 is (front (closeGroup s) is).2 := by
  rw [issue_front h]
  exact ⟨_, rfl, rfl⟩

/-- The block and the front thread of a front issue that is ready. -/
theorem front_block {s : State} {i : Instr} {is : FrontIssue} {b : Block} (h : FrontReady s i is b) :
    is.block (closeGroup s) = b ∧ is.front (closeGroup s) = b.front ∧ (closeGroup s).block is.blk = some b := by
  have : (closeGroup s).block is.blk = some b := h.block
  refine ⟨by simp [FrontIssue.block, this], by simp [FrontIssue.front, FrontIssue.block, this], this⟩

/-! ## States that look the same -/

/-- Two states with the same blocks and cores under every number, and the same otherwise. -/
structure Same (s t : State) : Prop where
  blocks : ∀ k, t.block k = s.block k
  cores  : ∀ c, t.core c = s.core c
  rest   : t = { s with blocks := t.blocks, cores := t.cores }

theorem same_refl (s : State) : Same s s := ⟨fun _ => rfl, fun _ => rfl, rfl⟩

theorem same_symm {s t : State} (h : Same s t) : Same t s :=
  ⟨fun k => (h.blocks k).symm, fun c => (h.cores c).symm, by have := h.rest; rw [this]⟩

theorem same_block {s t : State} (h : Same s t) (is : Issue) : is.block t = is.block s := by
  unfold Issue.block; rw [h.blocks]

theorem same_ctxOf {s t : State} (h : Same s t) (b : Block) : t.ctxOf b = s.ctxOf b := by
  have := h.rest; rw [this]; rfl

theorem onlyThreads_same {s s' t : State} {is : Issue} {ts : List Nat} (h : Same s s') (g : OnlyThreads s t is ts) : OnlyThreads s' t is ts := by
  constructor
  · intro x hx; rw [g.others x hx, same_block h]
  · rw [g.block, same_block h]
  · intro k hk; rw [g.blocks k hk, h.blocks k]
  · intro c; rw [g.cores c, h.cores c]
  · have a := g.rest; have b := h.rest
    rw [a, b]

theorem goes_same {s s' t : State} {is : Issue} {ms : List Member} {own : Member → Thread → Thread} (h : Same s s')
    (g : Goes s t is ms own) : Goes s' t is ms own := by
  refine ⟨onlyThreads_same h g.toOnlyThreads, ?_⟩
  intro m hm th hth; rw [same_block h] at hth; exact g.thread m hm th hth

theorem goesTo_same {s s' t : State} {is : Issue} {ms : List Member} {tgt : Member → Pc} {keep : Pc} {own : Member → Thread → Thread}
    (h : Same s s') (g : GoesTo s t is ms tgt keep own) : GoesTo s' t is ms tgt keep own := by
  refine ⟨onlyThreads_same h g.toOnlyThreads, g.most, ?_⟩
  intro m hm th hth; rw [same_block h] at hth; exact g.thread m hm th hth

theorem leaves_same {s s' t : State} {is : Issue} {ms : List Member} {dest : Member → Status × Pc} (h : Same s s')
    (g : Leaves s t is ms dest) : Leaves s' t is ms dest := by
  refine ⟨onlyThreads_same h g.toOnlyThreads, ?_⟩
  intro m hm th hth; rw [same_block h] at hth; exact g.thread m hm th hth

theorem traps_same {s s' t : State} {is : Issue} {rs : List TrapReq} (h : Same s s') (g : Traps s t is rs) : Traps s' t is rs := by
  refine ⟨onlyThreads_same h g.toOnlyThreads, ?_⟩
  intro r hr th hth; rw [same_block h] at hth
  rw [same_block h, same_ctxOf h]; exact g.thread r hr th hth

theorem handled_same {s s' : State} {is : Issue} {rs : List TrapReq} (h : Same s s') (g : Handled s is rs) : Handled s' is rs := by
  obtain ⟨b, hb, hd, hv⟩ := g.block
  refine ⟨⟨b, by rw [h.blocks, hb], hd, by rw [same_ctxOf h]; exact hv⟩, ?_, g.order, g.now⟩
  intro r hr th hth; rw [same_block h] at hth; exact g.free r hr th hth

theorem onlyFront_same {s s' t : State} {is : FrontIssue} {b b' : Block} (h : Same s s') (g : OnlyFront s t is b b') :
    OnlyFront s' t is b b' := by
  refine ⟨by rw [h.blocks]; exact g.before, g.after, ?_, ?_, ?_⟩
  · intro k hk; rw [g.blocks k hk, h.blocks k]
  · intro c; rw [g.cores c, h.cores c]
  · have a := g.rest; have b := h.rest
    rw [a, b]

theorem frontGoes_same {s s' t : State} {is : FrontIssue} {b : Block} {f : Front} {pc : Pc} (h : Same s s')
    (g : FrontGoes s t is b f pc) : FrontGoes s' t is b f pc := by
  obtain ⟨hz, at_, g⟩ := g; exact ⟨hz, at_, onlyFront_same h g⟩

/-- Changing a block that is there is setting it. -/
theorem modBlock_same (s : State) (k : Nat) (b : Block) (f : Block → Block) (h : s.block k = some b) :
    Same (s.modBlock k f) (s.setBlock k (f b)) := by
  refine ⟨?_, fun _ => rfl, rfl⟩
  intro j
  by_cases e : j = k
  · subst e; rw [State.block_setBlock_self, State.block_modBlock_self, h]; rfl
  · rw [State.block_setBlock_ne _ _ e, State.block_modBlock_ne _ _ e]

/-! ## From a meaning to its members: the shape in which a statement asks for it -/

theorem run_next {s s₁ u v : State} {i : Instr} {is : Issue} {ms : List Member} {body : Body}
    {front : State → FrontIssue → State × FrontFate} (h : LaneReady s i s₁ is ms) (hx : exec i s = issue s i body front)
    (hb : body s₁ is ms = (u, ms.map fun m => (m, .next))) (hs : Same u v) :
    ∃ t, exec i s = .next t ∧ Goes v t is ms fun _ th => th := by
  obtain ⟨t, e, g⟩ := issue_next h body front hb
  exact ⟨t, hx.trans e, goes_same hs g⟩

theorem run_done {s s₁ u v : State} {i : Instr} {is : Issue} {ms : List Member} {body : Body}
    {front : State → FrontIssue → State × FrontFate} (h : LaneReady s i s₁ is ms) (hx : exec i s = issue s i body front)
    (w : Member → Quad) (hb : body s₁ is ms = (u, ms.map fun m => (m, if m.on then .done (w m) else .next))) (hs : Same u v) :
    ∃ t, exec i s = .next t ∧ Goes v t is ms fun m th => writeResult (shape i) th (w m) := by
  obtain ⟨t, e, g⟩ := issue_done h body front w hb
  exact ⟨t, hx.trans e, goes_same hs g⟩

theorem run_leaves {s s₁ u v : State} {i : Instr} {is : Issue} {ms : List Member} {body : Body}
    {front : State → FrontIssue → State × FrontFate} (h : LaneReady s i s₁ is ms) (hx : exec i s = issue s i body front)
    (dest : Member → Status × Pc) (hb : body s₁ is ms = (u, ms.map fun m => (m, .leave (dest m).1 (dest m).2))) (hs : Same u v) :
    ∃ t, exec i s = .next t ∧ Leaves v t is ms dest := by
  obtain ⟨t, e, g⟩ := issue_leaves h body front dest hb
  exact ⟨t, hx.trans e, leaves_same hs g⟩

theorem run_traps {s s₁ u v : State} {i : Instr} {is : Issue} {ms : List Member} {body : Body}
    {front : State → FrontIssue → State × FrontFate} (h : LaneReady s i s₁ is ms) (hx : exec i s = issue s i body front)
    (fate : Member → Fate) (hb : body s₁ is ms = (u, ms.map fun m => (m, fate m))) (hf : ∀ m ∈ ms, (fate m).isTrap = true)
    (hs : Same u v) (hh : Handled v is (ms.map fun m => (fate m).req is m)) :
    ∃ t, exec i s = .next t ∧ Traps v t is (ms.map fun m => (fate m).req is m) := by
  obtain ⟨t, e, g⟩ := issue_traps h body front fate hb hf (handled_same (same_symm hs) hh)
  exact ⟨t, hx.trans e, traps_same hs g⟩

theorem run_goto {s s₁ u v : State} {i : Instr} {is : Issue} {ms : List Member} {body : Body}
    {front : State → FrontIssue → State × FrontFate} (h : LaneReady s i s₁ is ms) (hx : exec i s = issue s i body front)
    (fate : Member → Fate) (tgt : Member → Pc) (hb : body s₁ is ms = (u, ms.map fun m => (m, fate m)))
    (hf : ∀ m ∈ ms, fate m = .goto (tgt m) ∨ (fate m = .next ∧ tgt m = is.next)) (hs : Same u v) :
    ∃ t keep, exec i s = .next t ∧ GoesTo v t is ms tgt keep fun _ th => th := by
  obtain ⟨t, e, g⟩ := issue_goto h body front fate tgt hb hf
  exact ⟨t, _, hx.trans e, goesTo_same hs g⟩

/-! ## A warp of one -/

theorem eachMember_one (f : State → Issue → Member → State × Fate) (s : State) (is : Issue) (m : Member) (h : m.on = true) :
    eachMember f s is [m] = ((f s is m).1, [(m, (f s is m).2)]) := by
  simp [eachMember, h]

/-- What a fate that goes on does to its thread. -/
theorem goes_after_one {s t : State} {is : Issue} {m : Member} (hon : m.on = true) (chg own : Thread → Thread)
    (g : Goes (s.modThread is.blk m.tlin chg) t is [m] fun _ th => own th) : Goes s t is [m] fun _ th => own (chg th) := by
  have hb := Issue.block_modThreads s is [(m.tlin, chg)]
  refine ⟨onlyThreads_trans (modThread_only s is [m.tlin] m.tlin chg (by simp)) g.toOnlyThreads, ?_⟩
  intro m' hm' th hth
  obtain rfl := List.mem_singleton.1 hm'
  have : (is.block (s.modThread is.blk m'.tlin chg)).thread m'.tlin = some (chg th) := by
    rcases hb with hb | ⟨hn, hb⟩
    · have hb' : is.block (s.modThread is.blk m'.tlin chg) = (is.block s).modThread m'.tlin chg := hb
      rw [hb', Block.thread_modThread, if_pos rfl, hth]; rfl
    · rw [Block.thread, hn] at hth; simp [tget] at hth
  obtain ⟨ring, r⟩ := g.thread m' (by simp) _ this
  simp only [hon, if_true] at r ⊢
  exact ⟨ring, r⟩

theorem goesTo_after_one {s t : State} {is : Issue} {m : Member} {tgt : Member → Pc} {keep : Pc} (hon : m.on = true)
    (chg own : Thread → Thread) (hst : ∀ th, (chg th).status = th.status)
    (g : GoesTo (s.modThread is.blk m.tlin chg) t is [m] tgt keep fun _ th => own th) :
    GoesTo s t is [m] tgt keep fun _ th => own (chg th) := by
  have hb := Issue.block_modThreads s is [(m.tlin, chg)]
  refine ⟨onlyThreads_trans (modThread_only s is [m.tlin] m.tlin chg (by simp)) g.toOnlyThreads, g.most, ?_⟩
  intro m' hm' th hth
  obtain rfl := List.mem_singleton.1 hm'
  have : (is.block (s.modThread is.blk m'.tlin chg)).thread m'.tlin = some (chg th) := by
    rcases hb with hb | ⟨hn, hb⟩
    · have hb' : is.block (s.modThread is.blk m'.tlin chg) = (is.block s).modThread m'.tlin chg := hb
      rw [hb', Block.thread_modThread, if_pos rfl, hth]; rfl
    · rw [Block.thread, hn] at hth; simp [tget] at hth
  obtain ⟨ring, r⟩ := g.thread m' (by simp) _ this
  simp only [hon, if_true, hst] at r ⊢
  exact ⟨ring, r⟩

theorem solo_is {m : Member} {s s₁ : State} {i : Instr} {is : Issue} {th : Thread} (h : Solo s i s₁ is m th) :
    is.thread s₁ m.tlin = th := Issue.thread_some h.thread

theorem solo_block {m : Member} {s s₁ : State} {i : Instr} {is : Issue} {th : Thread} (h : Solo s i s₁ is m th) :
    ∃ b, s₁.block is.blk = some b ∧ is.block s₁ = b ∧ b.thread m.tlin = some th := by
  have := h.thread
  unfold Issue.block at *
  cases e : s₁.block is.blk with
  | none => rw [e] at this; simp [Block.thread] at this
  | some b => rw [e] at this; exact ⟨b, rfl, by simp, this⟩

/-- A word of one thread that traps after its body has changed the state. -/
theorem solo_trap {s s₁ u v : State} {i : Instr} {is : Issue} {m : Member} {th : Thread} {body : Body}
    {front : State → FrontIssue → State × FrontFate} (h : Solo s i s₁ is m th) (hx : exec i s = issue s i body front)
    (c : BitVec 8) (a : Quad) (d : Nat) (hb : body s₁ is [m] = (u, [(m, .trap c a d none)])) (hs : Same u v)
    (hh : Handled v is (soleTrap is m c a d)) : ∃ t, exec i s = .next t ∧ Traps v t is (soleTrap is m c a d) :=
  run_traps h.ready hx (fun _ => .trap c a d none) hb (fun _ _ => rfl) hs hh

/-- A word of one thread that goes on after its body has changed the state and the thread. -/
theorem solo_goes {s s₁ u v : State} {i : Instr} {is : Issue} {m : Member} {th : Thread} {body : Body}
    {front : State → FrontIssue → State × FrontFate} (h : Solo s i s₁ is m th) (hx : exec i s = issue s i body front)
    (chg : Thread → Thread) (hb : body s₁ is [m] = (u, [(m, .next)])) (hs : Same u (v.modThread is.blk m.tlin chg)) :
    ∃ t, exec i s = .next t ∧ Goes v t is [m] fun _ th => chg th := by
  obtain ⟨t, e, g⟩ := run_next h.ready hx hb hs
  exact ⟨t, e, goes_after_one h.on chg id g⟩

/-- A word of one thread that goes to a target after its body has changed the state and the thread. -/
theorem solo_goto {s s₁ u v : State} {i : Instr} {is : Issue} {m : Member} {th : Thread} {body : Body}
    {front : State → FrontIssue → State × FrontFate} (h : Solo s i s₁ is m th) (hx : exec i s = issue s i body front)
    (chg : Thread → Thread) (hst : ∀ th, (chg th).status = th.status) (p : Pc) (hb : body s₁ is [m] = (u, [(m, .goto p)]))
    (hs : Same u (v.modThread is.blk m.tlin chg)) :
    ∃ t keep, exec i s = .next t ∧ GoesTo v t is [m] (fun _ => p) keep fun _ th => chg th := by
  obtain ⟨t, k, e, g⟩ := run_goto h.ready hx (fun _ => .goto p) (fun _ => p) hb (fun _ _ => .inl rfl) hs
  exact ⟨t, k, e, goesTo_after_one h.on chg id hst g⟩

/-! ## Front words -/

theorem run_front {s u : State} {i : Instr} {is : FrontIssue} {b : Block} {body : Body}
    {front : State → FrontIssue → State × FrontFate} {f : FrontFate} (h : FrontReady s i is b) (hx : exec i s = issue s i body front)
    (hf : front (closeGroup s) is = (u, f)) : exec i s = .next (finishFront u is f) := by
  rw [hx, issue_front h, hf]

theorem run_front_trap {s u : State} {i : Instr} {is : FrontIssue} {b b' : Block} {body : Body}
    {front : State → FrontIssue → State × FrontFate} {c : BitVec 8} {a : Quad} {d : Nat} {tpc : Option Pc} (h : FrontReady s i is b)
    (hx : exec i s = issue s i body front) (hf : front (closeGroup s) is = (u, .trap c a d tpc)) (hu : u.block is.blk = some b')
    (hh : FrontHandled u b') : ∃ t, exec i s = .next t ∧ FrontTraps u t is b' c (tpc.getD is.g.start) a d :=
  ⟨_, run_front h hx hf, finishFront_trap _ _ _ _ _ _ _ hu hh⟩

/-- A front thread that goes on, after its body has changed the state and the front thread. -/
theorem frontGoes_after {v u t : State} {is : FrontIssue} {b : Block} (hv : v.block is.blk = some b) (chg f : Front → Front) (pc : Pc)
    (hs : Same u (v.modFront is.blk chg))
    (g : ∀ b', u.block is.blk = some b' → FrontGoes u t is b' (f b'.front) pc) : FrontGoes v t is b (f (chg b.front)) pc := by
  have hu : u.block is.blk = some { b with front := chg b.front } := by
    rw [← hs.blocks, State.block_modFront_self, hv]; rfl
  obtain ⟨hz, at_, G⟩ := frontGoes_same hs (g _ hu)
  refine ⟨hz, at_, hv, G.after, ?_, ?_, G.rest⟩
  · intro k hk; rw [G.blocks k hk, State.block_modFront_ne _ _ hk]
  · intro c; rw [G.cores c]; rfl

end Sys2Proof.Machine
end

