-- ==== Sys2Proof/Laws/Access.lean ====
section
/-! SUPPORT. What issuing one global access comes to when nothing holds it back (R218, R219, R230, R250): a read that the L1 serves, a
store into a line that the core owns, a request that leaves. -/

namespace Sys2Proof.Machine

open Safety

theorem same_trans {s t u : State} (h : Same s t) (g : Same t u) : Same s u :=
  ⟨fun k => (g.blocks k).trans (h.blocks k), fun c => (g.cores c).trans (h.cores c), by
    have a := h.rest; have b := g.rest; rw [b, a]⟩

/-- Changing a core twice. -/
theorem modCore_modCore_same (s : State) (c : Nat) (f g : Core → Core) :
    Same ((s.modCore c f).modCore c g) (s.modCore c fun k => g (f k)) := by
  refine ⟨fun _ => rfl, ?_, rfl⟩
  intro d
  by_cases e : d = c
  · subst e; rw [State.core_modCore_self, State.core_modCore_self, State.core_modCore_self]
  · rw [State.core_modCore_ne _ _ e, State.core_modCore_ne _ _ e, State.core_modCore_ne _ _ e]

theorem modCore_same {s t : State} (h : Same s t) (c : Nat) (f : Core → Core) : Same (s.modCore c f) (t.modCore c f) := by
  refine ⟨h.blocks, ?_, ?_⟩
  · intro d
    by_cases e : d = c
    · subst e; rw [State.core_modCore_self, State.core_modCore_self, h.cores]
    · rw [State.core_modCore_ne _ _ e, State.core_modCore_ne _ _ e, h.cores]
  · have := h.rest
    unfold State.modCore State.setCore
    rw [this]

theorem modBlock_congr_same {s t : State} (h : Same s t) (k : Nat) (f : Block → Block) : Same (s.modBlock k f) (t.modBlock k f) := by
  refine ⟨?_, h.cores, ?_⟩
  · intro j
    by_cases e : j = k
    · subst e; rw [State.block_modBlock_self, State.block_modBlock_self, h.blocks]
    · rw [State.block_modBlock_ne _ _ e, State.block_modBlock_ne _ _ e, h.blocks]
  · have := h.rest
    unfold State.modBlock
    rw [this]

/-- Equal changes of one core. -/
theorem modCore_ext (s : State) (c : Nat) (f g : Core → Core) (h : f (s.core c) = g (s.core c)) : s.modCore c f = s.modCore c g := by
  unfold State.modCore; rw [h]

theorem net_same {s t : State} (h : Same s t) (n : List Msg) : Same { s with net := n } { t with net := n } :=
  ⟨h.blocks, h.cores, by have := h.rest; rw [this]⟩

/-! ## Checks -/

theorem reaches_check {s : State} {core ctx : Nat} {va : Quad} {w n : Nat} {k : AccKind} {pa : Nat} {coh : BitVec 2}
    (h : Reaches s core ctx va w n k pa coh) : accessCheck s core ctx va w n k.writes = none := by
  unfold accessCheck
  rw [if_neg (by simpa using h.aligned), if_neg (by have := h.inside; omega), h.lash]

theorem throughRange_none {s : State} {core : Nat} {a : Acc} (k : State → State × Go)
    (h : rangeOf s (((s.block a.blk).map Block.ctx).getD 0) a.va.toNat = none) : throughRange s core a k = k s := by
  unfold throughRange
  simp only [h]

theorem filling_free {s : State} {a : Acc} (h : rangeOf s (((s.block a.blk).map Block.ctx).getD 0) a.va.toNat = none) :
    filling s a = false := by
  unfold filling
  simp only [h]

/-- Only a load or store of 16 bytes is performed apart (R269). -/
theorem torn_narrow {s : State} {a : Acc} (h : a.size ≠ 16) : torn s a = false := by
  simp [torn, h]

theorem notHead_free {s : State} {b : Block} (h : (s.launchOf b).det = false) : notHead s b = false := by
  simp [notHead, h]

theorem noteWrite_free {s : State} {a : Acc} {b : Block} (hb : s.block a.blk = some b) (h : (s.launchOf b).det = false) : noteWrite s a = s := by
  unfold noteWrite
  rw [hb]; simp [h]

theorem readConflict_free {s : State} {a : Acc} {b : Block} (hb : s.block a.blk = some b) (h : (s.launchOf b).det = false) :
    readConflict s a = s := by
  unfold readConflict
  rw [hb]; simp [h]

theorem sameCoh_held {s : State} {core line : Nat} {coh : BitVec 2} {l : L1Line} (h : tget (s.core core).l1 line = some l) (hc : l.coh = coh) :
    sameCoh s core line coh = s := by
  unfold sameCoh; rw [h]; simp [hc]

theorem sameCoh_none {s : State} {core line : Nat} {coh : BitVec 2} (h : tget (s.core core).l1 line = none) :
    sameCoh s core line coh = s := by
  unfold sameCoh; rw [h]

theorem core_accs_mem {s : State} {core blk : Nat} (h : ∀ c ∈ s.cores, ∀ x ∈ c.2.accs, x.blk ≠ blk) :
    ∀ x ∈ (s.core core).accs, x.blk ≠ blk := by
  intro x hx
  unfold State.core at hx
  cases e : tget s.cores core with
  | none => rw [e] at hx; simp [Core.accs] at hx
  | some c => rw [e] at hx; exact h (core, c) (tget_mem e) x hx

/-- No access holds back a translated one of a block that has none open. -/
theorem isHeld_free {s : State} {core : Nat} {a : Acc} {b : Block} (hu : Unhindered s core a.blk b)
    (hw : a.walking = false) (hd : a.due = 0) : isHeld s core a = false := by
  unfold isHeld
  rw [hw, hd, Bool.false_or, decide_eq_false (Nat.not_lt_zero _), Bool.false_or, List.any_eq_false]
  intro c hc
  rw [Bool.not_eq_true, List.any_eq_false]
  intro x hx
  have := hu.alone c hc x hx
  simp [sameAgent, sameIssue, this]

theorem notePass_free {s : State} {core : Nat} {a : Acc} (h : ∀ x ∈ (s.core core).accs, x.blk ≠ a.blk) : notePass s core a = s := by
  unfold notePass
  have : ((s.core core).accs.filter fun b => sameAgent b a && b.id < a.id) = [] := by
    rw [List.filter_eq_nil_iff]
    intro x hx
    simp [sameAgent, h x hx]
  rw [this]; simp

/-- An access that nothing holds back is tried at once. -/
theorem turn_free {s : State} {core : Nat} {a : Acc} {b : Block} (hu : Unhindered s core a.blk b) (hw : a.walking = false)
    (hd : a.due = 0) (hn : (∀ x ∈ ((tryGo s core a).1.core core).accs, x.blk ≠ a.blk)) : turn s core a = tryGo s core a := by
  unfold turn
  rw [isHeld_free hu hw hd]
  simp only [Bool.false_eq_true, if_false]
  generalize tryGo s core a = r at hn ⊢
  obtain ⟨t, g⟩ := r
  cases g <;> simp only [notePass_free hn, ite_self]

/-- An access that waits for no release and whose launch is not deterministic. -/
theorem tryGo_free {s : State} {core : Nat} {a : Acc} {b : Block} (hb : s.block a.blk = some b) (hu : Unhindered s core a.blk b)
    (hr : a.rel = false ∨ a.scope = 0 ∨ releasable s a.blk a.id = true) (hf : filling s a = false) : tryGo s core a =
    match a.kind with
      | .wbr drop => (writeBackRanges s core a.blk a.who drop a.ranges, .done 0)
      | .store =>
        if a.coh = 2 then
          throughRange (sameCoh s core a.line 2) core a fun s => request (noteWrite s a) core a (.writeHome core a) false
        else if a.coh = 1 then goSelf s core a
        else goTracked s core a
      | .reduce _ _ => if a.scope = 0 && a.coh ≠ 2 then goLocalAtomic s core a else goFarAtomic s core a
      | .atomic _ _ => if a.scope = 0 && a.coh ≠ 2 then goLocalAtomic s core a else goFarAtomic s core a
      | _ => if a.atHome then
            throughRange (sameCoh s core a.line a.coh) core a fun s => request s core a (.readHome core a) false
          else goLoad s core a := by
  have h0 : (syncHeld s a || earlyHeld s core a || queueHeld s core a) = false := by
    simp [syncHeld, earlyHeld, queueHeld, hb, hu.syncs, hu.early, hu.stores]
  have h1 : (a.rel && decide (a.scope ≠ 0) && !false && !releasable s a.blk a.id) = false := by
    rcases hr with h | h | h <;> simp [h]
  unfold tryGo
  rw [hb]
  dsimp only
  rw [notHead_free hu.free, h0, h1, hf]
  cases a.kind <;> simp
  all_goals (try split) <;> (try rfl)
  all_goals cases goLoad s core a with | mk t g => cases g <;> rfl

/-! ## Reads that the L1 serves -/

theorem l1Read_serves {c : Core} {line : Nat} {l : L1Line} {pa n v : Nat} {coh : BitVec 2} (hs : c.stores = []) (hl : tget c.l1 line = some l)
    (h : Serves l pa n coh v) : l1Read c line coh (byteMask (pa % 128) n) = some (mergeBytes 0 0 l.data) ∧
      l1Bad c line (byteMask (pa % 128) n) = false := by
  unfold l1Read l1Bad overlay
  rw [hs, hl]
  simp only [List.foldl_nil, h.coh, if_true]
  constructor
  · rw [if_pos]
    · cases coh == 1 <;> simp
    · have := h.valid
      split <;> simpa using this
  · simp [h.clean]

theorem spread_zero (n : Nat) : spread n 0 = 0 := by
  induction n with
  | zero => rfl
  | succ n ih => simp [spread, ih]

theorem mergeBytes_none (x y : BitVec 1024) : mergeBytes 0 x y = y := by
  show ((x &&& BitVec.ofNat 1024 (spread 128 0)) ||| (y &&& ~~~BitVec.ofNat 1024 (spread 128 0))) = y
  rw [spread_zero, show BitVec.ofNat 1024 0 = 0#1024 from rfl, BitVec.and_zero, BitVec.not_zero, BitVec.and_allOnes, BitVec.zero_or]

theorem goLoad_serves {s : State} {core : Nat} {a : Acc} {l : L1Line} {v : Nat} (hs : (s.core core).stores = [])
    (hl : tget (s.core core).l1 a.line = some l) (h : Serves l a.pa a.size a.coh v) : goLoad s core a = (s, .done v) := by
  unfold goLoad
  simp only [sameCoh_held hl h.coh]
  have hr := l1Read_serves hs hl h
  have e1 : l1Read (s.core core) a.line a.coh a.mask = some l.data := by
    have := hr.1; rw [mergeBytes_none] at this; exact this
  have e2 : l1Bad (s.core core) a.line a.mask = false := hr.2
  rw [e1]
  simp only [e2, Bool.false_eq_true, if_false]
  rw [h.value, sliceOf, Acc.off, Nat.shiftRight_eq_div_pow]

/-- A plain read of a line in the L1. -/
theorem issue_serves {s : State} {core : Nat} {a : Acc} {b : Block} {l : L1Line} {v : Nat} (hb : s.block a.blk = some b)
    (hu : Unhindered s core a.blk b) (hwk : a.walking = false) (hd : a.due = 0) (hfl : filling s a = false) (ht₀ : torn s a = false)
    (hk : a.kind.writes = false ∧ ∀ d, a.kind ≠ .wbr d) (hr : a.rel = false) (hc : ¬(a.coh = 2 ∨ (a.coh = 1 ∧ a.acq = true ∧ a.scope ≠ 0)))
    (hl : tget (s.core core).l1 a.line = some l) (h : Serves l a.pa a.size a.coh v) : issueAccess s core a = (s, .value v) := by
  have hf : a.atHome = false := by
    simp only [not_or, not_and] at hc
    unfold Acc.atHome
    cases ha : a.acq <;> simp_all
  have ht : tryGo s core a = (s, .done v) := by
    rw [tryGo_free hb hu (.inl hr) hfl]
    cases e : a.kind <;> rw [e] at hk <;> simp [AccKind.writes] at hk <;>
      simp only [hf, Bool.false_eq_true, if_false, goLoad_serves hu.stores hl h]
  unfold issueAccess
  rw [ht₀, turn_free hu hwk hd (by rw [ht]; exact core_accs_mem hu.alone), ht]
  simp only [Bool.false_eq_true, if_false]
  simp only [readConflict_free hb hu.free, ite_self]

/-! ## Stores into a line that the core owns -/

theorem drain_owned {s : State} {core : Nat} {a : Acc} {l : L1Line} (hs : (s.core core).stores = []) (hl : tget (s.core core).l1 a.line = some l)
    (hc : l.coh = a.coh) (hw : l.writable = true) :
    Same (drain (enqueueStore s core a) core) (withLine s core a.line (writeLine l a.mask a.placed true false)) := by
  have e1 : ((enqueueStore s core a).core core) = { s.core core with stores := [⟨a.line, a.mask, a.placed, a⟩] } := by
    unfold enqueueStore; rw [State.core_modCore_self, hs]; rfl
  have e2 : drainStores [⟨a.line, a.mask, a.placed, a⟩] (enqueueStore s core a) core =
      ((enqueueStore s core a).setCore core { s.core core with stores := [⟨a.line, a.mask, a.placed, a⟩], l1 := tset (s.core core).l1 a.line (writeLine l a.mask a.placed true false) }).modCore core
        fun c => { c with stores := [] } := by
    simp only [drainStores, e1, hl]
    simp [hc, hw]
  have e3 : drain (enqueueStore s core a) core = askAgain (drainStores [⟨a.line, a.mask, a.placed, a⟩] (enqueueStore s core a) core) core := by
    unfold drain; rw [e1]
  rw [e3, e2]
  have e4 : ∀ (u : State), (u.core core).stores = [] → askAgain u core = u := by
    intro u hu; unfold askAgain; rw [hu]
  rw [e4 _ (by rw [State.core_modCore_self])]
  refine ⟨fun _ => rfl, ?_, rfl⟩
  intro d
  by_cases e : d = core
  · subst e
    rw [State.core_modCore_self, State.core_setCore_self, withLine, State.core_modCore_self]
    simp only [hs.symm]
  · rw [State.core_modCore_ne _ _ e, State.core_setCore_ne _ _ e, withLine, State.core_modCore_ne _ _ e]
    unfold enqueueStore
    rw [State.core_modCore_ne _ _ e]

theorem issue_ownStore {s : State} {core : Nat} {a : Acc} {l : L1Line} {b : Block} (hb : s.block a.blk = some b)
    (hu : Unhindered s core a.blk b) (hwk : a.walking = false) (hd₀ : a.due = 0) (hfl : filling s a = false) (ht₀ : torn s a = false)
    (hk : a.kind = .store) (hc : a.coh = 0 ∨ a.coh = 3)
    (hr : a.rel = false ∨ a.scope = 0 ∨ releasable s a.blk a.id = true)
    (hl : tget (s.core core).l1 a.line = some l) (hlc : l.coh = a.coh) (hw : l.writable = true) :
    ∃ u, issueAccess s core a = (u, .value 0) ∧ Same u (withLine s core a.line (writeLine l a.mask a.placed true false)) := by
  have hc2 : a.coh ≠ 2 := by rcases hc with h | h <;> rw [h] <;> decide
  have hc1 : a.coh ≠ 1 := by rcases hc with h | h <;> rw [h] <;> decide
  have hh : heldWritable (s.core core) a.line a.coh = true := by
    unfold heldWritable; rw [hl]; simp [hw, hlc]
  have hd := drain_owned hu.stores hl hlc hw
  have ht : tryGo s core a = (drain (enqueueStore s core a) core, .done 0) := by
    rw [tryGo_free hb hu hr hfl, hk]
    simp only [hc2, hc1, if_false]
    unfold goTracked
    simp only [sameCoh_held hl hlc, hh, if_true, noteWrite_free hb hu.free]
  refine ⟨drain (enqueueStore s core a) core, ?_, hd⟩
  unfold issueAccess
  rw [ht₀, turn_free hu hwk hd₀, ht]
  · simp [hk, AccKind.reads]
  · rw [ht]
    intro x hx
    have e : (drain (enqueueStore s core a) core).core core = (withLine s core a.line (writeLine l a.mask a.placed true false)).core core :=
      (hd.cores core).symm
    rw [e, withLine, State.core_modCore_self] at hx
    exact core_accs_mem hu.alone x hx

/-- The line after a store of a value, as the statements say it. -/
theorem writeLine_stored (l : L1Line) (a : Acc) (v : Nat) (h : a.data = BitVec.ofNat 128 v) (hv : v < 2 ^ 128) :
    writeLine l a.mask a.placed true false = stored l a.pa a.size v := by
  unfold writeLine stored Acc.mask Acc.placed Acc.off
  rw [h, BitVec.toNat_ofNat, Nat.mod_eq_of_lt hv, Nat.shiftLeft_eq]
  rfl

/-! ## Requests that leave -/

theorem request_sent {s : State} {core : Nat} {a : Acc} {m : Msg} {merges : Bool} (hn : merges = true → m ∉ s.net)
    (he : hasEntry (s.core core) a.line = false) (hf : entryFree (s.core core) = true) : request s core a m merges =
    ({ s.setCore core { s.core core with entries := (s.core core).entries ++ [{ line := a.line }] } with net := s.net ++ [m] },
      .sent { a with sent := true }) := by
  unfold request
  have : (merges && s.net.any fun x => x = m) = false := by
    cases merges with
    | false => rfl
    | true =>
      have := hn rfl
      simp only [Bool.true_and, List.any_eq_false, decide_eq_true_eq]
      intro x hx e; subst e; exact this hx
  simp only [this, he, hf, Bool.false_eq_true, if_false, if_true]

/-- A request and its place among the pending accesses. -/
theorem requested_same (s : State) (core : Nat) (a : Acc) (m : Msg) :
    Same (({ s.setCore core { s.core core with entries := (s.core core).entries ++ [{ line := a.line }] } with net := s.net ++ [m] } : State).modCore core
      fun c => { c with pend := c.pend ++ [{ a with sent := true }] }) (requested s core a m) := by
  exact net_same (modCore_modCore_same s core (fun c => { c with entries := c.entries ++ [{ line := a.line }] })
    fun c => { c with pend := c.pend ++ [{ a with sent := true }] }) (s.net ++ [m])

end Sys2Proof.Machine
end

