-- ==== Sys2Proof/Laws/Events.lean ====
section
/-! SUPPORT. An event of the agenda is an instruction of the table, and running it is running that instruction. -/

namespace Sys2Proof.Machine

/-- Running an event is running its row. -/
theorem runEvent_eq_exec (e : Event) (s : State) : runEvent e s = exec e.instr s := by cases e <;> rfl

end Sys2Proof.Machine
end

