-- ==== Sys2Proof/Laws/Memory.lean ====
section
/-! SUPPORT. Bytes of memory: reading after storing, and the canonical form that every memory operation keeps. -/

namespace Sys2Proof.Machine

namespace Memory

theorem get_set (m : Memory) (a b : Nat) (v : Byte) (h : m.wf = true) :
    (m.set a v).get b = if b = a then v else m.get b := by
  suffices H : ∀ (m : Memory) (k : Option Nat), wfFrom k m = true →
      (m.set a v).get b = if b = a then v else m.get b from H m none h
  intro m
  induction m with
  | nil => intro k _; by_cases e : v = Memory.default <;> simp [Memory.set, Memory.get, e, eq_comm]
  | cons p m ih =>
    obtain ⟨c, w⟩ := p
    intro k hk
    have hm : wfFrom (some c) m = true := by cases k <;> simp_all [wfFrom]
    have low : ∀ (m : Memory) (c x : Nat), wfFrom (some c) m = true → x ≤ c → m.get x = Memory.default := by
      intro m
      induction m with
      | nil => intros; rfl
      | cons q m ihm =>
        obtain ⟨d, u⟩ := q
        intro c x hw hx
        simp only [wfFrom, Bool.and_eq_true, decide_eq_true_eq] at hw
        have : d ≠ x := by omega
        simp only [Memory.get, if_neg this]
        exact ihm d x hw.2 (by omega)
    unfold Memory.set
    split
    · rename_i ha
      by_cases e : v = Memory.default
      · rw [if_pos e]
        split
        · rename_i eb; subst eb
          have : c ≠ b := by omega
          simp only [Memory.get, if_neg this]
          rw [low m c b hm (by omega), e]
        · rfl
      · rw [if_neg e]
        by_cases eb : b = a
        · subst eb; simp [Memory.get]
        · simp [Memory.get, eb, Ne.symm eb]
    · split
      · rename_i e1 e2; subst e2
        by_cases e : v = Memory.default
        · rw [if_pos e]
          split
          · rename_i eb; subst eb; rw [low m _ _ hm (Nat.le_refl _), e]
          · rename_i eb; simp [Memory.get, Ne.symm eb]
        · rw [if_neg e]
          by_cases eb : b = a
          · subst eb; simp [Memory.get]
          · simp [Memory.get, eb, Ne.symm eb]
      · rename_i e1 e2
        by_cases eb : c = b
        · subst eb; simp [Memory.get, Ne.symm e2]
        · simp only [Memory.get, if_neg eb]; exact ih _ hm

/-- A bound below every key may be weakened. -/
theorem wfFrom_mono {m : Memory} {a : Nat} {k : Option Nat} (h : wfFrom (some a) m = true) (hk : ∀ b, k = some b → b ≤ a) :
    wfFrom k m = true := by
  cases m with
  | nil => cases k <;> rfl
  | cons p m =>
    obtain ⟨c, w⟩ := p
    simp only [wfFrom, Bool.and_eq_true, decide_eq_true_eq] at h
    cases k with
    | none => simp [wfFrom, h.1.2, h.2]
    | some b => have := hk b rfl; simp [wfFrom, h.1.2, h.2]; omega

theorem wfFrom_set (m : Memory) (k : Option Nat) (a : Nat) (v : Byte) (h : wfFrom k m = true) (hk : ∀ b, k = some b → b < a) :
    wfFrom k (m.set a v) = true := by
  induction m generalizing k with
  | nil =>
    by_cases e : v = Memory.default
    · simp [Memory.set, e, h]
    · cases k with
      | none => simp [Memory.set, e, wfFrom]
      | some b => simp [Memory.set, e, wfFrom, hk b rfl]
  | cons p m ih =>
    obtain ⟨c, w⟩ := p
    have hw : w ≠ Memory.default := by cases k <;> simp_all [wfFrom]
    have hm : wfFrom (some c) m = true := by cases k <;> simp_all [wfFrom]
    have hc : ∀ b, k = some b → b < c := by intro b e; subst e; simp_all [wfFrom]
    have put : ∀ (x : Memory) (d : Nat) (u : Byte), u ≠ Memory.default → wfFrom (some d) x = true →
        (∀ b, k = some b → b < d) → wfFrom k ((d, u) :: x) = true := by
      intro x d u hu hx hd
      cases k with
      | none => simp [wfFrom, hu, hx]
      | some b => simp [wfFrom, hu, hx, hd b rfl]
    unfold Memory.set
    split
    · rename_i ha
      split
      · exact h
      · rename_i e
        exact put _ a v e (by simp [wfFrom, ha, hw, hm]) hk
    · split
      · rename_i e1 e2; subst e2
        split
        · exact wfFrom_mono hm fun b e => Nat.le_of_lt (hc b e)
        · rename_i e; exact put m a v e hm hc
      · rename_i e1 e2
        exact put _ c w hw (ih (some c) hm (by intro b e; cases e; omega)) hc

theorem wf_set {m : Memory} (a : Nat) (v : Byte) (h : m.wf = true) : (m.set a v).wf = true :=
  wfFrom_set m none a v h (by simp)

theorem wf_setBytes (bs : List Byte) : ∀ {m : Memory} (a : Nat), m.wf = true → (m.setBytes a bs).wf = true := by
  induction bs with
  | nil => intro m a h; exact h
  | cons b bs ih => intro m a h; exact ih (a + 1) (wf_set a b h)

theorem wf_setNum {m : Memory} (a n v : Nat) (h : m.wf = true) : (m.setNum a n v).wf = true := wf_setBytes _ a h

theorem wf_setMasked (n : Nat) : ∀ {m : Memory} (a mask v : Nat), m.wf = true → (m.setMasked a n mask v).wf = true := by
  induction n with
  | zero => intro m a mask v h; exact h
  | succ n ih =>
    intro m a mask v h
    unfold Memory.setMasked
    split
    · exact ih _ _ _ (wf_set _ _ h)
    · exact ih _ _ _ h

/-- A byte outside those that are stored keeps its value. -/
theorem get_setBytes_outside (bs : List Byte) : ∀ {m : Memory} (a b : Nat), m.wf = true →
    (b < a ∨ a + bs.length ≤ b) → (m.setBytes a bs).get b = m.get b := by
  induction bs with
  | nil => intros; rfl
  | cons x bs ih =>
    intro m a b h hb
    simp only [List.length_cons] at hb
    have e : b ≠ a := by omega
    unfold Memory.setBytes
    rw [ih (a + 1) b (wf_set a x h) (by omega), get_set m a b x h, if_neg e]

/-- The stored bytes read back. -/
theorem bytes_setBytes (bs : List Byte) : ∀ {m : Memory} (a : Nat), m.wf = true → (m.setBytes a bs).bytes a bs.length = bs := by
  induction bs with
  | nil => intros; rfl
  | cons x bs ih =>
    intro m a h
    have hw := wf_set a x h
    show (Memory.setBytes (m.set a x) (a + 1) bs).get a :: Memory.bytes (Memory.setBytes (m.set a x) (a + 1) bs) (a + 1) bs.length = x :: bs
    rw [ih (a + 1) hw, get_setBytes_outside bs (a + 1) a hw (by omega), get_set m a a x h, if_pos rfl]

theorem length_leBytes (n v : Nat) : (leBytes n v).length = n := by
  induction n generalizing v with
  | zero => rfl
  | succ n ih => simp [leBytes, ih]

theorem leValue_leBytes (n v : Nat) : leValue (leBytes n v) = v % 2 ^ (8 * n) := by
  induction n generalizing v with
  | zero => simp [leBytes, leValue]; omega
  | succ n ih =>
    simp only [leBytes, leValue, ih, BitVec.toNat_ofNat]
    rw [show 8 * (n + 1) = 8 + 8 * n by omega, pow_add, Nat.mod_mul]
    norm_num

/-- A stored number reads back as it was stored, little-endian. -/
theorem num_setNum {m : Memory} (a n v : Nat) (h : m.wf = true) : (m.setNum a n v).num a n = v % 2 ^ (8 * n) := by
  have := bytes_setBytes (leBytes n v) a h
  rw [length_leBytes] at this
  simp only [Memory.setNum, Memory.num, this, leValue_leBytes]

end Memory

end Sys2Proof.Machine
end

