-- ==== Sys2Proof/Laws/PerInstr.lean ====
section
/-! SUPPORT. One lemma per constructor: the word of an instruction tells its own length (R34). -/

namespace Sys2Proof.Laws.Encoding

/-- R34: bit 0 of an instruction's word is 0 exactly for the words of 16 bits, whose size the issue of the instruction
counts on. An event has no word. -/
def Statement (i : Instr) : Prop := ∀ w, encode i = some w → wordBytes w = Machine.sigBytes (Machine.shape i)

/-- A field above bit 0 leaves the low bit alone. -/
theorem or_place_mod_two {a n k : Nat} (v : BitVec n) (hk : 0 < k) : (a ||| place v k) % 2 = a % 2 := by
  obtain ⟨j, rfl⟩ := Nat.exists_eq_add_of_lt hk
  have h : (place v (0 + j + 1)).testBit 0 = false := by simp [place]
  have e := Nat.testBit_or a (place v (0 + j + 1)) 0
  rw [h, Bool.or_false] at e
  simp only [Nat.testBit_zero, decide_eq_decide] at e
  omega

/-- The length of a 32-bit word, and of a 16-bit word. -/
theorem wordBytes_odd {w : Nat} (h : w % 2 = 1) : wordBytes w = 4 := by simp [wordBytes, h]
theorem wordBytes_even {w : Nat} (h : w % 2 = 0) : wordBytes w = 2 := by simp [wordBytes, h]

theorem iadd (b : BitVec 8) (a : BitVec 8) (n : BitVec 1) (d : BitVec 6) : Statement (.iadd b a n d) := by
  intro w h; cases h; exact (wordBytes_odd (by simp (disch := decide) only [or_place_mod_two])).trans rfl
theorem isub (b : BitVec 8) (a : BitVec 8) (n : BitVec 1) (d : BitVec 6) : Statement (.isub b a n d) := by
  intro w h; cases h; exact (wordBytes_odd (by simp (disch := decide) only [or_place_mod_two])).trans rfl
theorem irsub (b : BitVec 8) (a : BitVec 8) (n : BitVec 1) (d : BitVec 6) : Statement (.irsub b a n d) := by
  intro w h; cases h; exact (wordBytes_odd (by simp (disch := decide) only [or_place_mod_two])).trans rfl
theorem iaddc (b : BitVec 8) (a : BitVec 8) (n : BitVec 1) (d : BitVec 6) : Statement (.iaddc b a n d) := by
  intro w h; cases h; exact (wordBytes_odd (by simp (disch := decide) only [or_place_mod_two])).trans rfl
theorem imul (b : BitVec 8) (a : BitVec 8) (n : BitVec 1) (d : BitVec 6) : Statement (.imul b a n d) := by
  intro w h; cases h; exact (wordBytes_odd (by simp (disch := decide) only [or_place_mod_two])).trans rfl
theorem imulh (b : BitVec 8) (a : BitVec 8) (n : BitVec 1) (d : BitVec 6) : Statement (.imulh b a n d) := by
  intro w h; cases h; exact (wordBytes_odd (by simp (disch := decide) only [or_place_mod_two])).trans rfl
theorem nmulh (b : BitVec 8) (a : BitVec 8) (n : BitVec 1) (d : BitVec 6) : Statement (.nmulh b a n d) := by
  intro w h; cases h; exact (wordBytes_odd (by simp (disch := decide) only [or_place_mod_two])).trans rfl
theorem imad (b : BitVec 8) (a : BitVec 8) (n : BitVec 1) (d : BitVec 6) : Statement (.imad b a n d) := by
  intro w h; cases h; exact (wordBytes_odd (by simp (disch := decide) only [or_place_mod_two])).trans rfl
theorem imin (b : BitVec 8) (a : BitVec 8) (n : BitVec 1) (d : BitVec 6) : Statement (.imin b a n d) := by
  intro w h; cases h; exact (wordBytes_odd (by simp (disch := decide) only [or_place_mod_two])).trans rfl
theorem imax (b : BitVec 8) (a : BitVec 8) (n : BitVec 1) (d : BitVec 6) : Statement (.imax b a n d) := by
  intro w h; cases h; exact (wordBytes_odd (by simp (disch := decide) only [or_place_mod_two])).trans rfl
theorem nmin (b : BitVec 8) (a : BitVec 8) (n : BitVec 1) (d : BitVec 6) : Statement (.nmin b a n d) := by
  intro w h; cases h; exact (wordBytes_odd (by simp (disch := decide) only [or_place_mod_two])).trans rfl
theorem nmax (b : BitVec 8) (a : BitVec 8) (n : BitVec 1) (d : BitVec 6) : Statement (.nmax b a n d) := by
  intro w h; cases h; exact (wordBytes_odd (by simp (disch := decide) only [or_place_mod_two])).trans rfl
theorem and32 (b : BitVec 8) (a : BitVec 8) (n : BitVec 1) (d : BitVec 6) : Statement (.and32 b a n d) := by
  intro w h; cases h; exact (wordBytes_odd (by simp (disch := decide) only [or_place_mod_two])).trans rfl
theorem or32 (b : BitVec 8) (a : BitVec 8) (n : BitVec 1) (d : BitVec 6) : Statement (.or32 b a n d) := by
  intro w h; cases h; exact (wordBytes_odd (by simp (disch := decide) only [or_place_mod_two])).trans rfl
theorem xor32 (b : BitVec 8) (a : BitVec 8) (n : BitVec 1) (d : BitVec 6) : Statement (.xor32 b a n d) := by
  intro w h; cases h; exact (wordBytes_odd (by simp (disch := decide) only [or_place_mod_two])).trans rfl
theorem andn (b : BitVec 8) (a : BitVec 8) (n : BitVec 1) (d : BitVec 6) : Statement (.andn b a n d) := by
  intro w h; cases h; exact (wordBytes_odd (by simp (disch := decide) only [or_place_mod_two])).trans rfl
theorem shl (b : BitVec 8) (a : BitVec 8) (n : BitVec 1) (d : BitVec 6) : Statement (.shl b a n d) := by
  intro w h; cases h; exact (wordBytes_odd (by simp (disch := decide) only [or_place_mod_two])).trans rfl
theorem shr (b : BitVec 8) (a : BitVec 8) (n : BitVec 1) (d : BitVec 6) : Statement (.shr b a n d) := by
  intro w h; cases h; exact (wordBytes_odd (by simp (disch := decide) only [or_place_mod_two])).trans rfl
theorem sar (b : BitVec 8) (a : BitVec 8) (n : BitVec 1) (d : BitVec 6) : Statement (.sar b a n d) := by
  intro w h; cases h; exact (wordBytes_odd (by simp (disch := decide) only [or_place_mod_two])).trans rfl
theorem rotl (b : BitVec 8) (a : BitVec 8) (n : BitVec 1) (d : BitVec 6) : Statement (.rotl b a n d) := by
  intro w h; cases h; exact (wordBytes_odd (by simp (disch := decide) only [or_place_mod_two])).trans rfl
theorem bfx (b : BitVec 8) (a : BitVec 8) (n : BitVec 1) (d : BitVec 6) : Statement (.bfx b a n d) := by
  intro w h; cases h; exact (wordBytes_odd (by simp (disch := decide) only [or_place_mod_two])).trans rfl
theorem bfxn (b : BitVec 8) (a : BitVec 8) (n : BitVec 1) (d : BitVec 6) : Statement (.bfxn b a n d) := by
  intro w h; cases h; exact (wordBytes_odd (by simp (disch := decide) only [or_place_mod_two])).trans rfl
theorem bfi (b : BitVec 8) (a : BitVec 8) (n : BitVec 1) (d : BitVec 6) : Statement (.bfi b a n d) := by
  intro w h; cases h; exact (wordBytes_odd (by simp (disch := decide) only [or_place_mod_two])).trans rfl
theorem prmt (b : BitVec 8) (a : BitVec 8) (n : BitVec 1) (d : BitVec 6) : Statement (.prmt b a n d) := by
  intro w h; cases h; exact (wordBytes_odd (by simp (disch := decide) only [or_place_mod_two])).trans rfl
theorem popc (a : BitVec 8) (n : BitVec 1) (d : BitVec 6) : Statement (.popc a n d) := by
  intro w h; cases h; exact (wordBytes_odd (by simp (disch := decide) only [or_place_mod_two])).trans rfl
theorem clz (a : BitVec 8) (n : BitVec 1) (d : BitVec 6) : Statement (.clz a n d) := by
  intro w h; cases h; exact (wordBytes_odd (by simp (disch := decide) only [or_place_mod_two])).trans rfl
theorem brev (a : BitVec 8) (n : BitVec 1) (d : BitVec 6) : Statement (.brev a n d) := by
  intro w h; cases h; exact (wordBytes_odd (by simp (disch := decide) only [or_place_mod_two])).trans rfl
theorem iabs (a : BitVec 8) (n : BitVec 1) (d : BitVec 6) : Statement (.iabs a n d) := by
  intro w h; cases h; exact (wordBytes_odd (by simp (disch := decide) only [or_place_mod_two])).trans rfl
theorem isetpI32 (b : BitVec 8) (a : BitVec 8) (c : BitVec 3) (p : BitVec 3) : Statement (.isetpI32 b a c p) := by
  intro w h; cases h; exact (wordBytes_odd (by simp (disch := decide) only [or_place_mod_two])).trans rfl
theorem isetpN32 (b : BitVec 8) (a : BitVec 8) (c : BitVec 3) (p : BitVec 3) : Statement (.isetpN32 b a c p) := by
  intro w h; cases h; exact (wordBytes_odd (by simp (disch := decide) only [or_place_mod_two])).trans rfl
theorem isetpI64 (b : BitVec 8) (a : BitVec 8) (c : BitVec 3) (p : BitVec 3) : Statement (.isetpI64 b a c p) := by
  intro w h; cases h; exact (wordBytes_odd (by simp (disch := decide) only [or_place_mod_two])).trans rfl
theorem isetpN64 (b : BitVec 8) (a : BitVec 8) (c : BitVec 3) (p : BitVec 3) : Statement (.isetpN64 b a c p) := by
  intro w h; cases h; exact (wordBytes_odd (by simp (disch := decide) only [or_place_mod_two])).trans rfl
theorem mov (a : BitVec 8) (n : BitVec 1) (d : BitVec 6) : Statement (.mov a n d) := by
  intro w h; cases h; exact (wordBytes_odd (by simp (disch := decide) only [or_place_mod_two])).trans rfl
theorem sel (b : BitVec 8) (a : BitVec 8) (n : BitVec 1) (d : BitVec 6) : Statement (.sel b a n d) := by
  intro w h; cases h; exact (wordBytes_odd (by simp (disch := decide) only [or_place_mod_two])).trans rfl
theorem movh (a : BitVec 8) (n : BitVec 1) (d : BitVec 6) : Statement (.movh a n d) := by
  intro w h; cases h; exact (wordBytes_odd (by simp (disch := decide) only [or_place_mod_two])).trans rfl
theorem plop (t : BitVec 4) (j : BitVec 1) (y : BitVec 3) (i : BitVec 1) (x : BitVec 3) (p : BitVec 3) : Statement (.plop t j y i x p) := by
  intro w h; cases h; exact (wordBytes_odd (by simp (disch := decide) only [or_place_mod_two])).trans rfl
theorem iaddW (b : BitVec 8) (a : BitVec 8) (n : BitVec 1) (d : BitVec 6) : Statement (.iaddW b a n d) := by
  intro w h; cases h; exact (wordBytes_odd (by simp (disch := decide) only [or_place_mod_two])).trans rfl
theorem isubW (b : BitVec 8) (a : BitVec 8) (n : BitVec 1) (d : BitVec 6) : Statement (.isubW b a n d) := by
  intro w h; cases h; exact (wordBytes_odd (by simp (disch := decide) only [or_place_mod_two])).trans rfl
theorem imulW (b : BitVec 8) (a : BitVec 8) (n : BitVec 1) (d : BitVec 6) : Statement (.imulW b a n d) := by
  intro w h; cases h; exact (wordBytes_odd (by simp (disch := decide) only [or_place_mod_two])).trans rfl
theorem imadW (b : BitVec 8) (a : BitVec 8) (n : BitVec 1) (d : BitVec 6) : Statement (.imadW b a n d) := by
  intro w h; cases h; exact (wordBytes_odd (by simp (disch := decide) only [or_place_mod_two])).trans rfl
theorem shlW (b : BitVec 8) (a : BitVec 8) (n : BitVec 1) (d : BitVec 6) : Statement (.shlW b a n d) := by
  intro w h; cases h; exact (wordBytes_odd (by simp (disch := decide) only [or_place_mod_two])).trans rfl
theorem shrW (b : BitVec 8) (a : BitVec 8) (n : BitVec 1) (d : BitVec 6) : Statement (.shrW b a n d) := by
  intro w h; cases h; exact (wordBytes_odd (by simp (disch := decide) only [or_place_mod_two])).trans rfl
theorem sarW (b : BitVec 8) (a : BitVec 8) (n : BitVec 1) (d : BitVec 6) : Statement (.sarW b a n d) := by
  intro w h; cases h; exact (wordBytes_odd (by simp (disch := decide) only [or_place_mod_two])).trans rfl
theorem imulx (b : BitVec 8) (a : BitVec 8) (n : BitVec 1) (d : BitVec 6) : Statement (.imulx b a n d) := by
  intro w h; cases h; exact (wordBytes_odd (by simp (disch := decide) only [or_place_mod_two])).trans rfl
theorem idiv (b : BitVec 8) (a : BitVec 8) (n : BitVec 1) (d : BitVec 6) : Statement (.idiv b a n d) := by
  intro w h; cases h; exact (wordBytes_odd (by simp (disch := decide) only [or_place_mod_two])).trans rfl
theorem ndiv (b : BitVec 8) (a : BitVec 8) (n : BitVec 1) (d : BitVec 6) : Statement (.ndiv b a n d) := by
  intro w h; cases h; exact (wordBytes_odd (by simp (disch := decide) only [or_place_mod_two])).trans rfl
theorem irem (b : BitVec 8) (a : BitVec 8) (n : BitVec 1) (d : BitVec 6) : Statement (.irem b a n d) := by
  intro w h; cases h; exact (wordBytes_odd (by simp (disch := decide) only [or_place_mod_two])).trans rfl
theorem nrem (b : BitVec 8) (a : BitVec 8) (n : BitVec 1) (d : BitVec 6) : Statement (.nrem b a n d) := by
  intro w h; cases h; exact (wordBytes_odd (by simp (disch := decide) only [or_place_mod_two])).trans rfl
theorem iadds (b : BitVec 8) (a : BitVec 8) (n : BitVec 1) (d : BitVec 6) : Statement (.iadds b a n d) := by
  intro w h; cases h; exact (wordBytes_odd (by simp (disch := decide) only [or_place_mod_two])).trans rfl
theorem isubs (b : BitVec 8) (a : BitVec 8) (n : BitVec 1) (d : BitVec 6) : Statement (.isubs b a n d) := by
  intro w h; cases h; exact (wordBytes_odd (by simp (disch := decide) only [or_place_mod_two])).trans rfl
theorem nadds (b : BitVec 8) (a : BitVec 8) (n : BitVec 1) (d : BitVec 6) : Statement (.nadds b a n d) := by
  intro w h; cases h; exact (wordBytes_odd (by simp (disch := decide) only [or_place_mod_two])).trans rfl
theorem nsubs (b : BitVec 8) (a : BitVec 8) (n : BitVec 1) (d : BitVec 6) : Statement (.nsubs b a n d) := by
  intro w h; cases h; exact (wordBytes_odd (by simp (disch := decide) only [or_place_mod_two])).trans rfl
theorem logt (b : BitVec 8) (a : BitVec 8) (n : BitVec 1) (d : BitVec 6) : Statement (.logt b a n d) := by
  intro w h; cases h; exact (wordBytes_odd (by simp (disch := decide) only [or_place_mod_two])).trans rfl
theorem bmrg (b : BitVec 8) (a : BitVec 8) (n : BitVec 1) (d : BitVec 6) : Statement (.bmrg b a n d) := by
  intro w h; cases h; exact (wordBytes_odd (by simp (disch := decide) only [or_place_mod_two])).trans rfl
theorem fshl (b : BitVec 8) (a : BitVec 8) (n : BitVec 1) (d : BitVec 6) : Statement (.fshl b a n d) := by
  intro w h; cases h; exact (wordBytes_odd (by simp (disch := decide) only [or_place_mod_two])).trans rfl
theorem fshr (b : BitVec 8) (a : BitVec 8) (n : BitVec 1) (d : BitVec 6) : Statement (.fshr b a n d) := by
  intro w h; cases h; exact (wordBytes_odd (by simp (disch := decide) only [or_place_mod_two])).trans rfl
theorem fadd (b : BitVec 8) (a : BitVec 8) (n : BitVec 1) (d : BitVec 6) : Statement (.fadd b a n d) := by
  intro w h; cases h; exact (wordBytes_odd (by simp (disch := decide) only [or_place_mod_two])).trans rfl
theorem fsub (b : BitVec 8) (a : BitVec 8) (n : BitVec 1) (d : BitVec 6) : Statement (.fsub b a n d) := by
  intro w h; cases h; exact (wordBytes_odd (by simp (disch := decide) only [or_place_mod_two])).trans rfl
theorem fmul (b : BitVec 8) (a : BitVec 8) (n : BitVec 1) (d : BitVec 6) : Statement (.fmul b a n d) := by
  intro w h; cases h; exact (wordBytes_odd (by simp (disch := decide) only [or_place_mod_two])).trans rfl
theorem ffma (b : BitVec 8) (a : BitVec 8) (n : BitVec 1) (d : BitVec 6) : Statement (.ffma b a n d) := by
  intro w h; cases h; exact (wordBytes_odd (by simp (disch := decide) only [or_place_mod_two])).trans rfl
theorem fmin (b : BitVec 8) (a : BitVec 8) (n : BitVec 1) (d : BitVec 6) : Statement (.fmin b a n d) := by
  intro w h; cases h; exact (wordBytes_odd (by simp (disch := decide) only [or_place_mod_two])).trans rfl
theorem fmax (b : BitVec 8) (a : BitVec 8) (n : BitVec 1) (d : BitVec 6) : Statement (.fmax b a n d) := by
  intro w h; cases h; exact (wordBytes_odd (by simp (disch := decide) only [or_place_mod_two])).trans rfl
theorem fminn (b : BitVec 8) (a : BitVec 8) (n : BitVec 1) (d : BitVec 6) : Statement (.fminn b a n d) := by
  intro w h; cases h; exact (wordBytes_odd (by simp (disch := decide) only [or_place_mod_two])).trans rfl
theorem fmaxn (b : BitVec 8) (a : BitVec 8) (n : BitVec 1) (d : BitVec 6) : Statement (.fmaxn b a n d) := by
  intro w h; cases h; exact (wordBytes_odd (by simp (disch := decide) only [or_place_mod_two])).trans rfl
theorem fsetp (b : BitVec 8) (a : BitVec 8) (c : BitVec 3) (p : BitVec 3) : Statement (.fsetp b a c p) := by
  intro w h; cases h; exact (wordBytes_odd (by simp (disch := decide) only [or_place_mod_two])).trans rfl
theorem fsetpSig (b : BitVec 8) (a : BitVec 8) (c : BitVec 3) (p : BitVec 3) : Statement (.fsetpSig b a c p) := by
  intro w h; cases h; exact (wordBytes_odd (by simp (disch := decide) only [or_place_mod_two])).trans rfl
theorem fdiv (b : BitVec 8) (a : BitVec 8) (n : BitVec 1) (d : BitVec 6) : Statement (.fdiv b a n d) := by
  intro w h; cases h; exact (wordBytes_odd (by simp (disch := decide) only [or_place_mod_two])).trans rfl
theorem fsqrt (a : BitVec 8) (n : BitVec 1) (d : BitVec 6) : Statement (.fsqrt a n d) := by
  intro w h; cases h; exact (wordBytes_odd (by simp (disch := decide) only [or_place_mod_two])).trans rfl
theorem frcp (a : BitVec 8) (n : BitVec 1) (d : BitVec 6) : Statement (.frcp a n d) := by
  intro w h; cases h; exact (wordBytes_odd (by simp (disch := decide) only [or_place_mod_two])).trans rfl
theorem frsq (a : BitVec 8) (n : BitVec 1) (d : BitVec 6) : Statement (.frsq a n d) := by
  intro w h; cases h; exact (wordBytes_odd (by simp (disch := decide) only [or_place_mod_two])).trans rfl
theorem fex2 (a : BitVec 8) (n : BitVec 1) (d : BitVec 6) : Statement (.fex2 a n d) := by
  intro w h; cases h; exact (wordBytes_odd (by simp (disch := decide) only [or_place_mod_two])).trans rfl
theorem flg2 (a : BitVec 8) (n : BitVec 1) (d : BitVec 6) : Statement (.flg2 a n d) := by
  intro w h; cases h; exact (wordBytes_odd (by simp (disch := decide) only [or_place_mod_two])).trans rfl
theorem fsin (a : BitVec 8) (n : BitVec 1) (d : BitVec 6) : Statement (.fsin a n d) := by
  intro w h; cases h; exact (wordBytes_odd (by simp (disch := decide) only [or_place_mod_two])).trans rfl
theorem fcos (a : BitVec 8) (n : BitVec 1) (d : BitVec 6) : Statement (.fcos a n d) := by
  intro w h; cases h; exact (wordBytes_odd (by simp (disch := decide) only [or_place_mod_two])).trans rfl
theorem fabs (a : BitVec 8) (n : BitVec 1) (d : BitVec 6) : Statement (.fabs a n d) := by
  intro w h; cases h; exact (wordBytes_odd (by simp (disch := decide) only [or_place_mod_two])).trans rfl
theorem fneg (a : BitVec 8) (n : BitVec 1) (d : BitVec 6) : Statement (.fneg a n d) := by
  intro w h; cases h; exact (wordBytes_odd (by simp (disch := decide) only [or_place_mod_two])).trans rfl
theorem fcpys (b : BitVec 8) (a : BitVec 8) (n : BitVec 1) (d : BitVec 6) : Statement (.fcpys b a n d) := by
  intro w h; cases h; exact (wordBytes_odd (by simp (disch := decide) only [or_place_mod_two])).trans rfl
theorem fclass (a : BitVec 8) (n : BitVec 1) (d : BitVec 6) : Statement (.fclass a n d) := by
  intro w h; cases h; exact (wordBytes_odd (by simp (disch := decide) only [or_place_mod_two])).trans rfl
theorem frnd (a : BitVec 8) (n : BitVec 1) (d : BitVec 6) : Statement (.frnd a n d) := by
  intro w h; cases h; exact (wordBytes_odd (by simp (disch := decide) only [or_place_mod_two])).trans rfl
theorem fscale (b : BitVec 8) (a : BitVec 8) (n : BitVec 1) (d : BitVec 6) : Statement (.fscale b a n d) := by
  intro w h; cases h; exact (wordBytes_odd (by simp (disch := decide) only [or_place_mod_two])).trans rfl
theorem fexpo (a : BitVec 8) (n : BitVec 1) (d : BitVec 6) : Statement (.fexpo a n d) := by
  intro w h; cases h; exact (wordBytes_odd (by simp (disch := decide) only [or_place_mod_two])).trans rfl
theorem hadd2 (b : BitVec 8) (a : BitVec 8) (n : BitVec 1) (d : BitVec 6) : Statement (.hadd2 b a n d) := by
  intro w h; cases h; exact (wordBytes_odd (by simp (disch := decide) only [or_place_mod_two])).trans rfl
theorem hmul2 (b : BitVec 8) (a : BitVec 8) (n : BitVec 1) (d : BitVec 6) : Statement (.hmul2 b a n d) := by
  intro w h; cases h; exact (wordBytes_odd (by simp (disch := decide) only [or_place_mod_two])).trans rfl
theorem hfma2 (b : BitVec 8) (a : BitVec 8) (n : BitVec 1) (d : BitVec 6) : Statement (.hfma2 b a n d) := by
  intro w h; cases h; exact (wordBytes_odd (by simp (disch := decide) only [or_place_mod_two])).trans rfl
theorem hmax2 (b : BitVec 8) (a : BitVec 8) (n : BitVec 1) (d : BitVec 6) : Statement (.hmax2 b a n d) := by
  intro w h; cases h; exact (wordBytes_odd (by simp (disch := decide) only [or_place_mod_two])).trans rfl
theorem badd2 (b : BitVec 8) (a : BitVec 8) (n : BitVec 1) (d : BitVec 6) : Statement (.badd2 b a n d) := by
  intro w h; cases h; exact (wordBytes_odd (by simp (disch := decide) only [or_place_mod_two])).trans rfl
theorem bmul2 (b : BitVec 8) (a : BitVec 8) (n : BitVec 1) (d : BitVec 6) : Statement (.bmul2 b a n d) := by
  intro w h; cases h; exact (wordBytes_odd (by simp (disch := decide) only [or_place_mod_two])).trans rfl
theorem bfma2 (b : BitVec 8) (a : BitVec 8) (n : BitVec 1) (d : BitVec 6) : Statement (.bfma2 b a n d) := by
  intro w h; cases h; exact (wordBytes_odd (by simp (disch := decide) only [or_place_mod_two])).trans rfl
theorem bmax2 (b : BitVec 8) (a : BitVec 8) (n : BitVec 1) (d : BitVec 6) : Statement (.bmax2 b a n d) := by
  intro w h; cases h; exact (wordBytes_odd (by simp (disch := decide) only [or_place_mod_two])).trans rfl
theorem dadd (b : BitVec 8) (a : BitVec 8) (n : BitVec 1) (d : BitVec 6) : Statement (.dadd b a n d) := by
  intro w h; cases h; exact (wordBytes_odd (by simp (disch := decide) only [or_place_mod_two])).trans rfl
theorem dsub (b : BitVec 8) (a : BitVec 8) (n : BitVec 1) (d : BitVec 6) : Statement (.dsub b a n d) := by
  intro w h; cases h; exact (wordBytes_odd (by simp (disch := decide) only [or_place_mod_two])).trans rfl
theorem dmul (b : BitVec 8) (a : BitVec 8) (n : BitVec 1) (d : BitVec 6) : Statement (.dmul b a n d) := by
  intro w h; cases h; exact (wordBytes_odd (by simp (disch := decide) only [or_place_mod_two])).trans rfl
theorem dfma (b : BitVec 8) (a : BitVec 8) (n : BitVec 1) (d : BitVec 6) : Statement (.dfma b a n d) := by
  intro w h; cases h; exact (wordBytes_odd (by simp (disch := decide) only [or_place_mod_two])).trans rfl
theorem dmin (b : BitVec 8) (a : BitVec 8) (n : BitVec 1) (d : BitVec 6) : Statement (.dmin b a n d) := by
  intro w h; cases h; exact (wordBytes_odd (by simp (disch := decide) only [or_place_mod_two])).trans rfl
theorem dmax (b : BitVec 8) (a : BitVec 8) (n : BitVec 1) (d : BitVec 6) : Statement (.dmax b a n d) := by
  intro w h; cases h; exact (wordBytes_odd (by simp (disch := decide) only [or_place_mod_two])).trans rfl
theorem dminn (b : BitVec 8) (a : BitVec 8) (n : BitVec 1) (d : BitVec 6) : Statement (.dminn b a n d) := by
  intro w h; cases h; exact (wordBytes_odd (by simp (disch := decide) only [or_place_mod_two])).trans rfl
theorem dmaxn (b : BitVec 8) (a : BitVec 8) (n : BitVec 1) (d : BitVec 6) : Statement (.dmaxn b a n d) := by
  intro w h; cases h; exact (wordBytes_odd (by simp (disch := decide) only [or_place_mod_two])).trans rfl
theorem dsetp (b : BitVec 8) (a : BitVec 8) (s : BitVec 1) (c : BitVec 3) (p : BitVec 3) : Statement (.dsetp b a s c p) := by
  intro w h; cases h; exact (wordBytes_odd (by simp (disch := decide) only [or_place_mod_two])).trans rfl
theorem dclass (a : BitVec 8) (n : BitVec 1) (d : BitVec 6) : Statement (.dclass a n d) := by
  intro w h; cases h; exact (wordBytes_odd (by simp (disch := decide) only [or_place_mod_two])).trans rfl
theorem dabs (a : BitVec 8) (n : BitVec 1) (d : BitVec 6) : Statement (.dabs a n d) := by
  intro w h; cases h; exact (wordBytes_odd (by simp (disch := decide) only [or_place_mod_two])).trans rfl
theorem dneg (a : BitVec 8) (n : BitVec 1) (d : BitVec 6) : Statement (.dneg a n d) := by
  intro w h; cases h; exact (wordBytes_odd (by simp (disch := decide) only [or_place_mod_two])).trans rfl
theorem ddiv (b : BitVec 8) (a : BitVec 8) (n : BitVec 1) (d : BitVec 6) : Statement (.ddiv b a n d) := by
  intro w h; cases h; exact (wordBytes_odd (by simp (disch := decide) only [or_place_mod_two])).trans rfl
theorem dsqrt (a : BitVec 8) (n : BitVec 1) (d : BitVec 6) : Statement (.dsqrt a n d) := by
  intro w h; cases h; exact (wordBytes_odd (by simp (disch := decide) only [or_place_mod_two])).trans rfl
theorem drcp (a : BitVec 8) (n : BitVec 1) (d : BitVec 6) : Statement (.drcp a n d) := by
  intro w h; cases h; exact (wordBytes_odd (by simp (disch := decide) only [or_place_mod_two])).trans rfl
theorem drsq (a : BitVec 8) (n : BitVec 1) (d : BitVec 6) : Statement (.drsq a n d) := by
  intro w h; cases h; exact (wordBytes_odd (by simp (disch := decide) only [or_place_mod_two])).trans rfl
theorem drnd (a : BitVec 8) (n : BitVec 1) (d : BitVec 6) : Statement (.drnd a n d) := by
  intro w h; cases h; exact (wordBytes_odd (by simp (disch := decide) only [or_place_mod_two])).trans rfl
theorem dscale (b : BitVec 8) (a : BitVec 8) (n : BitVec 1) (d : BitVec 6) : Statement (.dscale b a n d) := by
  intro w h; cases h; exact (wordBytes_odd (by simp (disch := decide) only [or_place_mod_two])).trans rfl
theorem cvtF32I32 (a : BitVec 8) (n : BitVec 1) (d : BitVec 6) : Statement (.cvtF32I32 a n d) := by
  intro w h; cases h; exact (wordBytes_odd (by simp (disch := decide) only [or_place_mod_two])).trans rfl
theorem cvtF32N32 (a : BitVec 8) (n : BitVec 1) (d : BitVec 6) : Statement (.cvtF32N32 a n d) := by
  intro w h; cases h; exact (wordBytes_odd (by simp (disch := decide) only [or_place_mod_two])).trans rfl
theorem cvtI32F32 (a : BitVec 8) (n : BitVec 1) (d : BitVec 6) : Statement (.cvtI32F32 a n d) := by
  intro w h; cases h; exact (wordBytes_odd (by simp (disch := decide) only [or_place_mod_two])).trans rfl
theorem cvtN32F32 (a : BitVec 8) (n : BitVec 1) (d : BitVec 6) : Statement (.cvtN32F32 a n d) := by
  intro w h; cases h; exact (wordBytes_odd (by simp (disch := decide) only [or_place_mod_two])).trans rfl
theorem cvtF64F32 (a : BitVec 8) (n : BitVec 1) (d : BitVec 6) : Statement (.cvtF64F32 a n d) := by
  intro w h; cases h; exact (wordBytes_odd (by simp (disch := decide) only [or_place_mod_two])).trans rfl
theorem cvtF32F64 (a : BitVec 8) (n : BitVec 1) (d : BitVec 6) : Statement (.cvtF32F64 a n d) := by
  intro w h; cases h; exact (wordBytes_odd (by simp (disch := decide) only [or_place_mod_two])).trans rfl
theorem cvtF64I64 (a : BitVec 8) (n : BitVec 1) (d : BitVec 6) : Statement (.cvtF64I64 a n d) := by
  intro w h; cases h; exact (wordBytes_odd (by simp (disch := decide) only [or_place_mod_two])).trans rfl
theorem cvtI64F64 (a : BitVec 8) (n : BitVec 1) (d : BitVec 6) : Statement (.cvtI64F64 a n d) := by
  intro w h; cases h; exact (wordBytes_odd (by simp (disch := decide) only [or_place_mod_two])).trans rfl
theorem cvtF16F32 (a : BitVec 8) (n : BitVec 1) (d : BitVec 6) : Statement (.cvtF16F32 a n d) := by
  intro w h; cases h; exact (wordBytes_odd (by simp (disch := decide) only [or_place_mod_two])).trans rfl
theorem cvtF32F16 (a : BitVec 8) (n : BitVec 1) (d : BitVec 6) : Statement (.cvtF32F16 a n d) := by
  intro w h; cases h; exact (wordBytes_odd (by simp (disch := decide) only [or_place_mod_two])).trans rfl
theorem cvtBf16F32 (a : BitVec 8) (n : BitVec 1) (d : BitVec 6) : Statement (.cvtBf16F32 a n d) := by
  intro w h; cases h; exact (wordBytes_odd (by simp (disch := decide) only [or_place_mod_two])).trans rfl
theorem cvtF32Bf16 (a : BitVec 8) (n : BitVec 1) (d : BitVec 6) : Statement (.cvtF32Bf16 a n d) := by
  intro w h; cases h; exact (wordBytes_odd (by simp (disch := decide) only [or_place_mod_two])).trans rfl
theorem cvtF8F32 (a : BitVec 8) (n : BitVec 1) (d : BitVec 6) : Statement (.cvtF8F32 a n d) := by
  intro w h; cases h; exact (wordBytes_odd (by simp (disch := decide) only [or_place_mod_two])).trans rfl
theorem cvtF32F8 (a : BitVec 8) (n : BitVec 1) (d : BitVec 6) : Statement (.cvtF32F8 a n d) := by
  intro w h; cases h; exact (wordBytes_odd (by simp (disch := decide) only [or_place_mod_two])).trans rfl
theorem cvtE2m1F32 (a : BitVec 8) (n : BitVec 1) (d : BitVec 6) : Statement (.cvtE2m1F32 a n d) := by
  intro w h; cases h; exact (wordBytes_odd (by simp (disch := decide) only [or_place_mod_two])).trans rfl
theorem cvtF32E2m1 (a : BitVec 8) (n : BitVec 1) (d : BitVec 6) : Statement (.cvtF32E2m1 a n d) := by
  intro w h; cases h; exact (wordBytes_odd (by simp (disch := decide) only [or_place_mod_two])).trans rfl
theorem ballot (i : BitVec 1) (p : BitVec 3) (d : BitVec 6) : Statement (.ballot i p d) := by
  intro w h; cases h; exact (wordBytes_odd (by simp (disch := decide) only [or_place_mod_two])).trans rfl
theorem voteAny (i : BitVec 1) (p : BitVec 3) (q : BitVec 3) : Statement (.voteAny i p q) := by
  intro w h; cases h; exact (wordBytes_odd (by simp (disch := decide) only [or_place_mod_two])).trans rfl
theorem voteAll (i : BitVec 1) (p : BitVec 3) (q : BitVec 3) : Statement (.voteAll i p q) := by
  intro w h; cases h; exact (wordBytes_odd (by simp (disch := decide) only [or_place_mod_two])).trans rfl
theorem voteEq (i : BitVec 1) (p : BitVec 3) (q : BitVec 3) : Statement (.voteEq i p q) := by
  intro w h; cases h; exact (wordBytes_odd (by simp (disch := decide) only [or_place_mod_two])).trans rfl
theorem lxchAt (b : BitVec 8) (a : BitVec 8) (d : BitVec 6) : Statement (.lxchAt b a d) := by
  intro w h; cases h; exact (wordBytes_odd (by simp (disch := decide) only [or_place_mod_two])).trans rfl
theorem lxchBack (b : BitVec 8) (a : BitVec 8) (d : BitVec 6) : Statement (.lxchBack b a d) := by
  intro w h; cases h; exact (wordBytes_odd (by simp (disch := decide) only [or_place_mod_two])).trans rfl
theorem lxchFwd (b : BitVec 8) (a : BitVec 8) (d : BitVec 6) : Statement (.lxchFwd b a d) := by
  intro w h; cases h; exact (wordBytes_odd (by simp (disch := decide) only [or_place_mod_two])).trans rfl
theorem lxchXor (b : BitVec 8) (a : BitVec 8) (d : BitVec 6) : Statement (.lxchXor b a d) := by
  intro w h; cases h; exact (wordBytes_odd (by simp (disch := decide) only [or_place_mod_two])).trans rfl
theorem reduxAdd (a : BitVec 8) (d : BitVec 6) : Statement (.reduxAdd a d) := by
  intro w h; cases h; exact (wordBytes_odd (by simp (disch := decide) only [or_place_mod_two])).trans rfl
theorem reduxMin (a : BitVec 8) (d : BitVec 6) : Statement (.reduxMin a d) := by
  intro w h; cases h; exact (wordBytes_odd (by simp (disch := decide) only [or_place_mod_two])).trans rfl
theorem reduxMax (a : BitVec 8) (d : BitVec 6) : Statement (.reduxMax a d) := by
  intro w h; cases h; exact (wordBytes_odd (by simp (disch := decide) only [or_place_mod_two])).trans rfl
theorem matchAny (a : BitVec 8) (d : BitVec 6) : Statement (.matchAny a d) := by
  intro w h; cases h; exact (wordBytes_odd (by simp (disch := decide) only [or_place_mod_two])).trans rfl
theorem ld (o : BitVec 4) (z : BitVec 3) (s : BitVec 3) (r : BitVec 2) (a : BitVec 6) (d : BitVec 6) : Statement (.ld o z s r a d) := by
  intro w h; cases h; exact (wordBytes_odd (by simp (disch := decide) only [or_place_mod_two])).trans rfl
theorem st (o : BitVec 4) (z : BitVec 3) (s : BitVec 3) (r : BitVec 2) (a : BitVec 6) (d : BitVec 6) : Statement (.st o z s r a d) := by
  intro w h; cases h; exact (wordBytes_odd (by simp (disch := decide) only [or_place_mod_two])).trans rfl
theorem pref (o : BitVec 4) (s : BitVec 3) (a : BitVec 6) (l : BitVec 2) : Statement (.pref o s a l) := by
  intro w h; cases h; exact (wordBytes_odd (by simp (disch := decide) only [or_place_mod_two])).trans rfl
theorem atom (t : BitVec 3) (o : BitVec 4) (s : BitVec 3) (r : BitVec 2) (a : BitVec 6) (d : BitVec 6) : Statement (.atom t o s r a d) := by
  intro w h; cases h; exact (wordBytes_odd (by simp (disch := decide) only [or_place_mod_two])).trans rfl
theorem red (t : BitVec 3) (o : BitVec 4) (s : BitVec 3) (r : BitVec 2) (a : BitVec 6) (d : BitVec 6) : Statement (.red t o s r a d) := by
  intro w h; cases h; exact (wordBytes_odd (by simp (disch := decide) only [or_place_mod_two])).trans rfl
theorem fence (s : BitVec 3) (r : BitVec 2) : Statement (.fence s r) := by
  intro w h; cases h; exact (wordBytes_odd (by simp (disch := decide) only [or_place_mod_two])).trans rfl
theorem drain (p : BitVec 2) : Statement (.drain p) := by
  intro w h; cases h; exact (wordBytes_odd (by simp (disch := decide) only [or_place_mod_two])).trans rfl
theorem wbr (s : BitVec 3) (a : BitVec 6) (d : BitVec 6) : Statement (.wbr s a d) := by
  intro w h; cases h; exact (wordBytes_odd (by simp (disch := decide) only [or_place_mod_two])).trans rfl
theorem invr (s : BitVec 3) (a : BitVec 6) (d : BitVec 6) : Statement (.invr s a d) := by
  intro w h; cases h; exact (wordBytes_odd (by simp (disch := decide) only [or_place_mod_two])).trans rfl
theorem lds (z : BitVec 2) (h : BitVec 6) (a : BitVec 8) (d : BitVec 6) : Statement (.lds z h a d) := by
  intro w h; cases h; exact (wordBytes_odd (by simp (disch := decide) only [or_place_mod_two])).trans rfl
theorem sts (z : BitVec 2) (h : BitVec 6) (a : BitVec 8) (d : BitVec 6) : Statement (.sts z h a d) := by
  intro w h; cases h; exact (wordBytes_odd (by simp (disch := decide) only [or_place_mod_two])).trans rfl
theorem atoms (z : BitVec 2) (h : BitVec 6) (a : BitVec 8) (d : BitVec 6) : Statement (.atoms z h a d) := by
  intro w h; cases h; exact (wordBytes_odd (by simp (disch := decide) only [or_place_mod_two])).trans rfl
theorem tinfo (h : BitVec 6) (a : BitVec 8) (d : BitVec 6) : Statement (.tinfo h a d) := by
  intro w h; cases h; exact (wordBytes_odd (by simp (disch := decide) only [or_place_mod_two])).trans rfl
theorem ldf (z : BitVec 2) (h : BitVec 6) (a : BitVec 8) (d : BitVec 6) : Statement (.ldf z h a d) := by
  intro w h; cases h; exact (wordBytes_odd (by simp (disch := decide) only [or_place_mod_two])).trans rfl
theorem lde (z : BitVec 2) (h : BitVec 6) (a : BitVec 8) (d : BitVec 6) : Statement (.lde z h a d) := by
  intro w h; cases h; exact (wordBytes_odd (by simp (disch := decide) only [or_place_mod_two])).trans rfl
theorem stf (z : BitVec 2) (h : BitVec 6) (a : BitVec 8) (d : BitVec 6) : Statement (.stf z h a d) := by
  intro w h; cases h; exact (wordBytes_odd (by simp (disch := decide) only [or_place_mod_two])).trans rfl
theorem stx (z : BitVec 2) (h : BitVec 6) (a : BitVec 8) (d : BitVec 6) : Statement (.stx z h a d) := by
  intro w h; cases h; exact (wordBytes_odd (by simp (disch := decide) only [or_place_mod_two])).trans rfl
theorem talloc (h : BitVec 6) (a : BitVec 8) (d : BitVec 6) : Statement (.talloc h a d) := by
  intro w h; cases h; exact (wordBytes_odd (by simp (disch := decide) only [or_place_mod_two])).trans rfl
theorem tfree (h : BitVec 6) : Statement (.tfree h) := by
  intro w h; cases h; exact (wordBytes_odd (by simp (disch := decide) only [or_place_mod_two])).trans rfl
theorem feset (h : BitVec 6) (a : BitVec 8) (d : BitVec 6) : Statement (.feset h a d) := by
  intro w h; cases h; exact (wordBytes_odd (by simp (disch := decide) only [or_place_mod_two])).trans rfl
theorem texport (h : BitVec 6) (a : BitVec 8) : Statement (.texport h a) := by
  intro w h; cases h; exact (wordBytes_odd (by simp (disch := decide) only [or_place_mod_two])).trans rfl
theorem br (d : BitVec 15) (n : BitVec 1) (p : BitVec 3) : Statement (.br d n p) := by
  intro w h; cases h; exact (wordBytes_odd (by simp (disch := decide) only [or_place_mod_two])).trans rfl
theorem bruAny (d : BitVec 15) (n : BitVec 1) (p : BitVec 3) : Statement (.bruAny d n p) := by
  intro w h; cases h; exact (wordBytes_odd (by simp (disch := decide) only [or_place_mod_two])).trans rfl
theorem bruAll (d : BitVec 15) (n : BitVec 1) (p : BitVec 3) : Statement (.bruAll d n p) := by
  intro w h; cases h; exact (wordBytes_odd (by simp (disch := decide) only [or_place_mod_two])).trans rfl
theorem bruNone (d : BitVec 15) (n : BitVec 1) (p : BitVec 3) : Statement (.bruNone d n p) := by
  intro w h; cases h; exact (wordBytes_odd (by simp (disch := decide) only [or_place_mod_two])).trans rfl
theorem bruUni (d : BitVec 15) (n : BitVec 1) (p : BitVec 3) : Statement (.bruUni d n p) := by
  intro w h; cases h; exact (wordBytes_odd (by simp (disch := decide) only [or_place_mod_two])).trans rfl
theorem jmp (d : BitVec 24) : Statement (.jmp d) := by
  intro w h; cases h; exact (wordBytes_odd (by simp (disch := decide) only [or_place_mod_two])).trans rfl
theorem call (d : BitVec 24) : Statement (.call d) := by
  intro w h; cases h; exact (wordBytes_odd (by simp (disch := decide) only [or_place_mod_two])).trans rfl
theorem dcall (a : BitVec 8) : Statement (.dcall a) := by
  intro w h; cases h; exact (wordBytes_odd (by simp (disch := decide) only [or_place_mod_two])).trans rfl
theorem djmp (a : BitVec 8) : Statement (.djmp a) := by
  intro w h; cases h; exact (wordBytes_odd (by simp (disch := decide) only [or_place_mod_two])).trans rfl
theorem ret : Statement .ret := by
  intro w h; cases h; exact (wordBytes_odd (by simp (disch := decide) only)).trans rfl
theorem exit : Statement .exit := by
  intro w h; cases h; exact (wordBytes_odd (by simp (disch := decide) only)).trans rfl
theorem ktie (k : BitVec 4) : Statement (.ktie k) := by
  intro w h; cases h; exact (wordBytes_odd (by simp (disch := decide) only [or_place_mod_two])).trans rfl
theorem join (k : BitVec 4) : Statement (.join k) := by
  intro w h; cases h; exact (wordBytes_odd (by simp (disch := decide) only [or_place_mod_two])).trans rfl
theorem kreset (k : BitVec 4) : Statement (.kreset k) := by
  intro w h; cases h; exact (wordBytes_odd (by simp (disch := decide) only [or_place_mod_two])).trans rfl
theorem barSync (c : BitVec 8) (p : BitVec 5) (i : BitVec 4) : Statement (.barSync c p i) := by
  intro w h; cases h; exact (wordBytes_odd (by simp (disch := decide) only [or_place_mod_two])).trans rfl
theorem barArrive (c : BitVec 8) (p : BitVec 5) (i : BitVec 4) : Statement (.barArrive c p i) := by
  intro w h; cases h; exact (wordBytes_odd (by simp (disch := decide) only [or_place_mod_two])).trans rfl
theorem barWait (p : BitVec 5) (i : BitVec 4) : Statement (.barWait p i) := by
  intro w h; cases h; exact (wordBytes_odd (by simp (disch := decide) only [or_place_mod_two])).trans rfl
theorem mxacq (d : BitVec 6) : Statement (.mxacq d) := by
  intro w h; cases h; exact (wordBytes_odd (by simp (disch := decide) only [or_place_mod_two])).trans rfl
theorem mxrel (d : BitVec 6) : Statement (.mxrel d) := by
  intro w h; cases h; exact (wordBytes_odd (by simp (disch := decide) only [or_place_mod_two])).trans rfl
theorem mxzero (d : BitVec 6) : Statement (.mxzero d) := by
  intro w h; cases h; exact (wordBytes_odd (by simp (disch := decide) only [or_place_mod_two])).trans rfl
theorem mxvc (a : BitVec 8) (d : BitVec 6) : Statement (.mxvc a d) := by
  intro w h; cases h; exact (wordBytes_odd (by simp (disch := decide) only [or_place_mod_two])).trans rfl
theorem mmaC8 (b : BitVec 8) (a : BitVec 8) (d : BitVec 6) : Statement (.mmaC8 b a d) := by
  intro w h; cases h; exact (wordBytes_odd (by simp (disch := decide) only [or_place_mod_two])).trans rfl
theorem mmaX8 (b : BitVec 8) (a : BitVec 8) (d : BitVec 6) : Statement (.mmaX8 b a d) := by
  intro w h; cases h; exact (wordBytes_odd (by simp (disch := decide) only [or_place_mod_two])).trans rfl
theorem mmaC16 (b : BitVec 8) (a : BitVec 8) (d : BitVec 6) : Statement (.mmaC16 b a d) := by
  intro w h; cases h; exact (wordBytes_odd (by simp (disch := decide) only [or_place_mod_two])).trans rfl
theorem mmaC16h (b : BitVec 8) (a : BitVec 8) (d : BitVec 6) : Statement (.mmaC16h b a d) := by
  intro w h; cases h; exact (wordBytes_odd (by simp (disch := decide) only [or_place_mod_two])).trans rfl
theorem mxld (b : BitVec 8) (a : BitVec 6) (d : BitVec 6) : Statement (.mxld b a d) := by
  intro w h; cases h; exact (wordBytes_odd (by simp (disch := decide) only [or_place_mod_two])).trans rfl
theorem mxst (b : BitVec 8) (a : BitVec 6) (d : BitVec 6) : Statement (.mxst b a d) := by
  intro w h; cases h; exact (wordBytes_odd (by simp (disch := decide) only [or_place_mod_two])).trans rfl
theorem mxrecomb (b : BitVec 8) (a : BitVec 6) (d : BitVec 6) : Statement (.mxrecomb b a d) := by
  intro w h; cases h; exact (wordBytes_odd (by simp (disch := decide) only [or_place_mod_two])).trans rfl
theorem mxscale (a : BitVec 8) (d : BitVec 6) : Statement (.mxscale a d) := by
  intro w h; cases h; exact (wordBytes_odd (by simp (disch := decide) only [or_place_mod_two])).trans rfl
theorem sktake (b : BitVec 8) (a : BitVec 8) (d : BitVec 6) : Statement (.sktake b a d) := by
  intro w h; cases h; exact (wordBytes_odd (by simp (disch := decide) only [or_place_mod_two])).trans rfl
theorem skgive (b : BitVec 8) (a : BitVec 8) : Statement (.skgive b a) := by
  intro w h; cases h; exact (wordBytes_odd (by simp (disch := decide) only [or_place_mod_two])).trans rfl
theorem skreadx (a : BitVec 8) (d : BitVec 6) : Statement (.skreadx a d) := by
  intro w h; cases h; exact (wordBytes_odd (by simp (disch := decide) only [or_place_mod_two])).trans rfl
theorem skinit (b : BitVec 8) (a : BitVec 8) : Statement (.skinit b a) := by
  intro w h; cases h; exact (wordBytes_odd (by simp (disch := decide) only [or_place_mod_two])).trans rfl
theorem prdef (a : BitVec 8) (d : BitVec 6) : Statement (.prdef a d) := by
  intro w h; cases h; exact (wordBytes_odd (by simp (disch := decide) only [or_place_mod_two])).trans rfl
theorem prdone (a : BitVec 8) : Statement (.prdone a) := by
  intro w h; cases h; exact (wordBytes_odd (by simp (disch := decide) only [or_place_mod_two])).trans rfl
theorem previct (b : BitVec 8) (a : BitVec 8) : Statement (.previct b a) := by
  intro w h; cases h; exact (wordBytes_odd (by simp (disch := decide) only [or_place_mod_two])).trans rfl
theorem prq (a : BitVec 8) (d : BitVec 6) : Statement (.prq a d) := by
  intro w h; cases h; exact (wordBytes_odd (by simp (disch := decide) only [or_place_mod_two])).trans rfl
theorem trap (a : BitVec 8) : Statement (.trap a) := by
  intro w h; cases h; exact (wordBytes_odd (by simp (disch := decide) only [or_place_mod_two])).trans rfl
theorem bkpt : Statement .bkpt := by
  intro w h; cases h; exact (wordBytes_odd (by simp (disch := decide) only)).trans rfl
theorem rett : Statement .rett := by
  intro w h; cases h; exact (wordBytes_odd (by simp (disch := decide) only)).trans rfl
theorem sleep (a : BitVec 8) : Statement (.sleep a) := by
  intro w h; cases h; exact (wordBytes_odd (by simp (disch := decide) only [or_place_mod_two])).trans rfl
theorem csrr (c : BitVec 8) (d : BitVec 6) : Statement (.csrr c d) := by
  intro w h; cases h; exact (wordBytes_odd (by simp (disch := decide) only [or_place_mod_two])).trans rfl
theorem csrw (c : BitVec 8) (a : BitVec 8) : Statement (.csrw c a) := by
  intro w h; cases h; exact (wordBytes_odd (by simp (disch := decide) only [or_place_mod_two])).trans rfl
theorem flgr (d : BitVec 6) : Statement (.flgr d) := by
  intro w h; cases h; exact (wordBytes_odd (by simp (disch := decide) only [or_place_mod_two])).trans rfl
theorem flgc (a : BitVec 8) : Statement (.flgc a) := by
  intro w h; cases h; exact (wordBytes_odd (by simp (disch := decide) only [or_place_mod_two])).trans rfl
theorem dqpush (a : BitVec 8) : Statement (.dqpush a) := by
  intro w h; cases h; exact (wordBytes_odd (by simp (disch := decide) only [or_place_mod_two])).trans rfl
theorem launch (a : BitVec 8) : Statement (.launch a) := by
  intro w h; cases h; exact (wordBytes_odd (by simp (disch := decide) only [or_place_mod_two])).trans rfl
theorem fexit : Statement .fexit := by
  intro w h; cases h; exact (wordBytes_odd (by simp (disch := decide) only)).trans rfl
theorem fwaitev (a : BitVec 8) (d : BitVec 6) : Statement (.fwaitev a d) := by
  intro w h; cases h; exact (wordBytes_odd (by simp (disch := decide) only [or_place_mod_two])).trans rfl
theorem tceLoad (b : BitVec 6) (a : BitVec 6) : Statement (.tceLoad b a) := by
  intro w h; cases h; exact (wordBytes_odd (by simp (disch := decide) only [or_place_mod_two])).trans rfl
theorem tceStore (b : BitVec 6) (a : BitVec 6) : Statement (.tceStore b a) := by
  intro w h; cases h; exact (wordBytes_odd (by simp (disch := decide) only [or_place_mod_two])).trans rfl
theorem tceMcast (b : BitVec 6) (a : BitVec 6) : Statement (.tceMcast b a) := by
  intro w h; cases h; exact (wordBytes_odd (by simp (disch := decide) only [or_place_mod_two])).trans rfl
theorem tceSlice (b : BitVec 6) (a : BitVec 6) : Statement (.tceSlice b a) := by
  intro w h; cases h; exact (wordBytes_odd (by simp (disch := decide) only [or_place_mod_two])).trans rfl
theorem tceGather (b : BitVec 6) (a : BitVec 6) : Statement (.tceGather b a) := by
  intro w h; cases h; exact (wordBytes_odd (by simp (disch := decide) only [or_place_mod_two])).trans rfl
theorem tceScatter (b : BitVec 6) (a : BitVec 6) : Statement (.tceScatter b a) := by
  intro w h; cases h; exact (wordBytes_odd (by simp (disch := decide) only [or_place_mod_two])).trans rfl
theorem tceFill (b : BitVec 6) (a : BitVec 6) : Statement (.tceFill b a) := by
  intro w h; cases h; exact (wordBytes_odd (by simp (disch := decide) only [or_place_mod_two])).trans rfl
theorem colReduce (b : BitVec 6) (a : BitVec 6) : Statement (.colReduce b a) := by
  intro w h; cases h; exact (wordBytes_odd (by simp (disch := decide) only [or_place_mod_two])).trans rfl
theorem colAllred (b : BitVec 6) (a : BitVec 6) : Statement (.colAllred b a) := by
  intro w h; cases h; exact (wordBytes_odd (by simp (disch := decide) only [or_place_mod_two])).trans rfl
theorem colBcast (b : BitVec 6) (a : BitVec 6) : Statement (.colBcast b a) := by
  intro w h; cases h; exact (wordBytes_odd (by simp (disch := decide) only [or_place_mod_two])).trans rfl
theorem colAgather (b : BitVec 6) (a : BitVec 6) : Statement (.colAgather b a) := by
  intro w h; cases h; exact (wordBytes_odd (by simp (disch := decide) only [or_place_mod_two])).trans rfl
theorem colRscat (b : BitVec 6) (a : BitVec 6) : Statement (.colRscat b a) := by
  intro w h; cases h; exact (wordBytes_odd (by simp (disch := decide) only [or_place_mod_two])).trans rfl
theorem colCbar (a : BitVec 6) : Statement (.colCbar a) := by
  intro w h; cases h; exact (wordBytes_odd (by simp (disch := decide) only [or_place_mod_two])).trans rfl
theorem wrange (d : BitVec 6) : Statement (.wrange d) := by
  intro w h; cases h; exact (wordBytes_odd (by simp (disch := decide) only [or_place_mod_two])).trans rfl
theorem fetchw (a : BitVec 6) : Statement (.fetchw a) := by
  intro w h; cases h; exact (wordBytes_odd (by simp (disch := decide) only [or_place_mod_two])).trans rfl
theorem fixup (a : BitVec 6) (d : BitVec 6) : Statement (.fixup a d) := by
  intro w h; cases h; exact (wordBytes_odd (by simp (disch := decide) only [or_place_mod_two])).trans rfl
theorem scret (a : BitVec 6) : Statement (.scret a) := by
  intro w h; cases h; exact (wordBytes_odd (by simp (disch := decide) only [or_place_mod_two])).trans rfl
theorem powq (d : BitVec 6) : Statement (.powq d) := by
  intro w h; cases h; exact (wordBytes_odd (by simp (disch := decide) only [or_place_mod_two])).trans rfl
theorem extI (i : BitVec 24) : Statement (.extI i) := by
  intro w h; cases h; exact (wordBytes_odd (by simp (disch := decide) only [or_place_mod_two])).trans rfl
theorem extC (s : BitVec 3) (n : BitVec 4) (t : BitVec 1) (r : BitVec 3) (c : BitVec 8) : Statement (.extC s n t r c) := by
  intro w h; cases h; exact (wordBytes_odd (by simp (disch := decide) only [or_place_mod_two])).trans rfl
theorem guard (i : BitVec 1) (p : BitVec 3) : Statement (.guard i p) := by
  intro w h; cases h; exact (wordBytes_even (by simp (disch := decide) only [or_place_mod_two])).trans rfl
theorem nop16 (s : BitVec 5) (d : BitVec 5) : Statement (.nop16 s d) := by
  intro w h; cases h; exact (wordBytes_even (by simp (disch := decide) only [or_place_mod_two])).trans rfl
theorem mov16 (s : BitVec 5) (d : BitVec 5) : Statement (.mov16 s d) := by
  intro w h; cases h; exact (wordBytes_even (by simp (disch := decide) only [or_place_mod_two])).trans rfl
theorem iadd16 (s : BitVec 5) (d : BitVec 5) : Statement (.iadd16 s d) := by
  intro w h; cases h; exact (wordBytes_even (by simp (disch := decide) only [or_place_mod_two])).trans rfl
theorem isub16 (s : BitVec 5) (d : BitVec 5) : Statement (.isub16 s d) := by
  intro w h; cases h; exact (wordBytes_even (by simp (disch := decide) only [or_place_mod_two])).trans rfl
theorem imul16 (s : BitVec 5) (d : BitVec 5) : Statement (.imul16 s d) := by
  intro w h; cases h; exact (wordBytes_even (by simp (disch := decide) only [or_place_mod_two])).trans rfl
theorem and16 (s : BitVec 5) (d : BitVec 5) : Statement (.and16 s d) := by
  intro w h; cases h; exact (wordBytes_even (by simp (disch := decide) only [or_place_mod_two])).trans rfl
theorem or16 (s : BitVec 5) (d : BitVec 5) : Statement (.or16 s d) := by
  intro w h; cases h; exact (wordBytes_even (by simp (disch := decide) only [or_place_mod_two])).trans rfl
theorem xor16 (s : BitVec 5) (d : BitVec 5) : Statement (.xor16 s d) := by
  intro w h; cases h; exact (wordBytes_even (by simp (disch := decide) only [or_place_mod_two])).trans rfl
theorem shl16 (s : BitVec 5) (d : BitVec 5) : Statement (.shl16 s d) := by
  intro w h; cases h; exact (wordBytes_even (by simp (disch := decide) only [or_place_mod_two])).trans rfl
theorem shr16 (s : BitVec 5) (d : BitVec 5) : Statement (.shr16 s d) := by
  intro w h; cases h; exact (wordBytes_even (by simp (disch := decide) only [or_place_mod_two])).trans rfl
theorem sar16 (s : BitVec 5) (d : BitVec 5) : Statement (.sar16 s d) := by
  intro w h; cases h; exact (wordBytes_even (by simp (disch := decide) only [or_place_mod_two])).trans rfl
theorem imin16 (s : BitVec 5) (d : BitVec 5) : Statement (.imin16 s d) := by
  intro w h; cases h; exact (wordBytes_even (by simp (disch := decide) only [or_place_mod_two])).trans rfl
theorem imax16 (s : BitVec 5) (d : BitVec 5) : Statement (.imax16 s d) := by
  intro w h; cases h; exact (wordBytes_even (by simp (disch := decide) only [or_place_mod_two])).trans rfl
theorem fadd16 (s : BitVec 5) (d : BitVec 5) : Statement (.fadd16 s d) := by
  intro w h; cases h; exact (wordBytes_even (by simp (disch := decide) only [or_place_mod_two])).trans rfl
theorem fsub16 (s : BitVec 5) (d : BitVec 5) : Statement (.fsub16 s d) := by
  intro w h; cases h; exact (wordBytes_even (by simp (disch := decide) only [or_place_mod_two])).trans rfl
theorem fmul16 (s : BitVec 5) (d : BitVec 5) : Statement (.fmul16 s d) := by
  intro w h; cases h; exact (wordBytes_even (by simp (disch := decide) only [or_place_mod_two])).trans rfl
theorem fmax16 (s : BitVec 5) (d : BitVec 5) : Statement (.fmax16 s d) := by
  intro w h; cases h; exact (wordBytes_even (by simp (disch := decide) only [or_place_mod_two])).trans rfl
theorem warpFormation (core quad : Nat) : Statement (.warpFormation core quad) := by
  intro w h; cases h
theorem agedThread (core quad : Nat) : Statement (.agedThread core quad) := by
  intro w h; cases h
theorem loadDataReturn (n : Nat) : Statement (.loadDataReturn n) := by
  intro w h; cases h
theorem rejectionRetry (blk tlin : Nat) : Statement (.rejectionRetry blk tlin) := by
  intro w h; cases h
theorem agedEntryGrant (core : Nat) : Statement (.agedEntryGrant core) := by
  intro w h; cases h
theorem ownershipGrant (n : Nat) : Statement (.ownershipGrant n) := by
  intro w h; cases h
theorem invalidationAck (n : Nat) : Statement (.invalidationAck n) := by
  intro w h; cases h
theorem fenceAccept (ag : Agent) : Statement (.fenceAccept ag) := by
  intro w h; cases h
theorem drainAccept (ag : Agent) : Statement (.drainAccept ag) := by
  intro w h; cases h
theorem coh01RetentionEviction (core line : Nat) : Statement (.coh01RetentionEviction core line) := by
  intro w h; cases h
theorem sleepExpiry (blk : Nat) (who : Option Nat) : Statement (.sleepExpiry blk who) := by
  intro w h; cases h
theorem knotRelease (blk k : Nat) : Statement (.knotRelease blk k) := by
  intro w h; cases h
theorem knotTimeout (blk k : Nat) : Statement (.knotTimeout blk k) := by
  intro w h; cases h
theorem barrierComplete (blk b : Nat) : Statement (.barrierComplete blk b) := by
  intro w h; cases h
theorem barrierTimeout (blk b : Nat) : Statement (.barrierTimeout blk b) := by
  intro w h; cases h
theorem blockRetire (blk : Nat) : Statement (.blockRetire blk) := by
  intro w h; cases h
theorem readSharedRequest (n : Nat) : Statement (.readSharedRequest n) := by
  intro w h; cases h
theorem ownershipRequest (n : Nat) : Statement (.ownershipRequest n) := by
  intro w h; cases h
theorem homeWriteback (n : Nat) : Statement (.homeWriteback n) := by
  intro w h; cases h
theorem homeAtomic (n : Nat) : Statement (.homeAtomic n) := by
  intro w h; cases h
theorem clusterAtomic (n : Nat) : Statement (.clusterAtomic n) := by
  intro w h; cases h
theorem hbmRequestIssue (slice : Nat) : Statement (.hbmRequestIssue slice) := by
  intro w h; cases h
theorem hbmDataReturn (n : Nat) (err : EccOutcome) : Statement (.hbmDataReturn n err) := by
  intro w h; cases h
theorem sidinRequest (r : SidinReq) : Statement (.sidinRequest r) := by
  intro w h; cases h
theorem newHead (launch : Nat) : Statement (.newHead launch) := by
  intro w h; cases h
theorem belayLimitExpiry (launch : Nat) : Statement (.belayLimitExpiry launch) := by
  intro w h; cases h
theorem skeinRefillRequest (ctx k : Nat) : Statement (.skeinRefillRequest ctx k) := by
  intro w h; cases h
theorem hankReturn (n : Nat) : Statement (.hankReturn n) := by
  intro w h; cases h
theorem skeinGrant (n : Nat) : Statement (.skeinGrant n) := by
  intro w h; cases h
theorem prRequest (n : Nat) : Statement (.prRequest n) := by
  intro w h; cases h
theorem dyerSlotGrant (die depth : Nat) : Statement (.dyerSlotGrant die depth) := by
  intro w h; cases h
theorem prdefPropagated (n : Nat) : Statement (.prdefPropagated n) := by
  intro w h; cases h
theorem fillComplete (ctx : Nat) (va : BitVec 64) : Statement (.fillComplete ctx va) := by
  intro w h; cases h
theorem fwaitevComplete (blk : Nat) : Statement (.fwaitevComplete blk) := by
  intro w h; cases h
theorem dqRoom (blk : Nat) : Statement (.dqRoom blk) := by
  intro w h; cases h
theorem fetchwDelivery (n : Nat) : Statement (.fetchwDelivery n) := by
  intro w h; cases h
theorem commandAcceptance (core n : Nat) : Statement (.commandAcceptance core n) := by
  intro w h; cases h
theorem tceComplete (core id : Nat) : Statement (.tceComplete core id) := by
  intro w h; cases h
theorem mxCommandStart (core : Nat) : Statement (.mxCommandStart core) := by
  intro w h; cases h
theorem mxCommandComplete (core : Nat) : Statement (.mxCommandComplete core) := by
  intro w h; cases h
theorem acDeadlockSwapout (core : Nat) : Statement (.acDeadlockSwapout core) := by
  intro w h; cases h
theorem colJoin (core id : Nat) (peers : List PeerCmd) : Statement (.colJoin core id peers) := by
  intro w h; cases h
theorem colComplete (core id : Nat) : Statement (.colComplete core id) := by
  intro w h; cases h
theorem cbarComplete (core id : Nat) : Statement (.cbarComplete core id) := by
  intro w h; cases h
theorem launchPortWrite (off len : Nat) (data : BitVec 512) : Statement (.launchPortWrite off len data) := by
  intro w h; cases h
theorem stagingTimeout (launch : Nat) : Statement (.stagingTimeout launch) := by
  intro w h; cases h
theorem blockPlacement : Statement .blockPlacement := by
  intro w h; cases h
theorem quantumEnd : Statement .quantumEnd := by
  intro w h; cases h
theorem swapOut (blk : Nat) : Statement (.swapOut blk) := by
  intro w h; cases h
theorem walkResult (n : Nat) : Statement (.walkResult n) := by
  intro w h; cases h
theorem faultRetry (seq : BitVec 32) : Statement (.faultRetry seq) := by
  intro w h; cases h
theorem faultFail (seq : BitVec 32) : Statement (.faultFail seq) := by
  intro w h; cases h
theorem faultTimeout (seq : BitVec 32) : Statement (.faultTimeout seq) := by
  intro w h; cases h
theorem fqheadWrite (v : BitVec 32) : Statement (.fqheadWrite v) := by
  intro w h; cases h
theorem fqsizeWrite (v : BitVec 32) : Statement (.fqsizeWrite v) := by
  intro w h; cases h
theorem tlbInvalidateRange (v : BitVec 64) : Statement (.tlbInvalidateRange v) := by
  intro w h; cases h
theorem tlbInvalidateAll (v : BitVec 64) : Statement (.tlbInvalidateAll v) := by
  intro w h; cases h
theorem tlbInvalidateDone : Statement .tlbInvalidateDone := by
  intro w h; cases h
theorem ctxCreate (v : BitVec 64) : Statement (.ctxCreate v) := by
  intro w h; cases h
theorem ctxDestroy (v : BitVec 64) : Statement (.ctxDestroy v) := by
  intro w h; cases h
theorem ctxCommandDone : Statement .ctxCommandDone := by
  intro w h; cases h
theorem cxlMemAccess (pa : Nat) (wr : Option (List Byte)) (len : Nat) : Statement (.cxlMemAccess pa wr len) := by
  intro w h; cases h
theorem hostSnoop (line : Nat) (inval : Bool) : Statement (.hostSnoop line inval) := by
  intro w h; cases h
theorem hostLineResponse (n : Nat) (r : HostAnswer) : Statement (.hostLineResponse n r) := by
  intro w h; cases h
theorem plannedReset (v : BitVec 32) : Statement (.plannedReset v) := by
  intro w h; cases h
theorem cxlReset : Statement .cxlReset := by
  intro w h; cases h
theorem linkDown : Statement .linkDown := by
  intro w h; cases h
theorem watchdogReset : Statement .watchdogReset := by
  intro w h; cases h
theorem thermalTrip : Statement .thermalTrip := by
  intro w h; cases h
theorem clrpoison (v : BitVec 32) : Statement (.clrpoison v) := by
  intro w h; cases h
theorem rowRefresh (row : Nat) : Statement (.rowRefresh row) := by
  intro w h; cases h
theorem patrolScrub (line : Nat) (err : EccOutcome) : Statement (.patrolScrub line err) := by
  intro w h; cases h
theorem activationThreshold (row : Nat) : Statement (.activationThreshold row) := by
  intro w h; cases h
theorem rhtWrite (v : BitVec 32) : Statement (.rhtWrite v) := by
  intro w h; cases h
theorem celogRead : Statement .celogRead := by
  intro w h; cases h
theorem islcmdWrite (n : Nat) (v : BitVec 64) : Statement (.islcmdWrite n v) := by
  intro w h; cases h
theorem islstatRead (n : Nat) : Statement (.islstatRead n) := by
  intro w h; cases h
theorem vfsChangeComplete (n : Nat) : Statement (.vfsChangeComplete n) := by
  intro w h; cases h
theorem islandGate (n : Nat) : Statement (.islandGate n) := by
  intro w h; cases h
theorem energyWindow (n : Nat) (mj : BitVec 32) : Statement (.energyWindow n mj) := by
  intro w h; cases h
theorem temperatureBandChange (n : Nat) (band : BitVec 3) : Statement (.temperatureBandChange n band) := by
  intro w h; cases h
theorem firmwareVerify (ok : Bool) : Statement (.firmwareVerify ok) := by
  intro w h; cases h
theorem die0Trained : Statement .die0Trained := by
  intro w h; cases h
theorem hbmLayoutMove : Statement .hbmLayoutMove := by
  intro w h; cases h
theorem domcfgWrite (v : BitVec 64) : Statement (.domcfgWrite v) := by
  intro w h; cases h
theorem attestationRequest (v : BitVec 32) : Statement (.attestationRequest v) := by
  intro w h; cases h
theorem attestationDone : Statement .attestationDone := by
  intro w h; cases h
theorem registerWrite (off : Nat) (v : BitVec 64) : Statement (.registerWrite off v) := by
  intro w h; cases h
theorem writeAcknowledgement (n : Nat) : Statement (.writeAcknowledgement n) := by
  intro w h; cases h
theorem skeinHomeOperation (n : Nat) : Statement (.skeinHomeOperation n) := by
  intro w h; cases h
theorem powerOnReset : Statement .powerOnReset := by
  intro w h; cases h
theorem linkUp (width : Nat) (gts : Nat) : Statement (.linkUp width gts) := by
  intro w h; cases h

end Sys2Proof.Laws.Encoding
end

