-- ==== Sys2Proof/Tests/Slice0.lean ====
section
/-! SUPPORT. Tests of the model on words and values taken from the spec, and the witnesses of the statements' hypotheses. -/

namespace Sys2Proof.Tests

set_option Elab.async false

open Sys2Proof.Machine Sys2Proof.Safety

/-- Words written out from the encoding tables (R41 to R59): IADD to ISETP_I64. -/
theorem test_decode_words1 : ([
    (32, 0x29534301, .iadd 165 77 0 6),
    (32, 0x494c0381, .isub 37 48 0 7),
    (32, 0x9b44db81, .irsub 109 19 0 55),
    (32, 0xf588c581, .iaddc 214 35 0 11),
    (32, 0x36478e03, .imul 217 30 0 28),
    (32, 0x47f2ce03, .imulh 31 203 0 28),
    (32, 0x85d11a83, .nmulh 23 68 0 53),
    (32, 0xd24f0b83, .imad 73 60 0 23),
    (32, 0x0d180605, .imin 52 96 0 12),
    (32, 0x48079f85, .imax 32 30 0 63),
    (32, 0xb6a81d05, .nmin 218 160 0 58),
    (32, 0xee664b85, .nmax 185 153 0 23),
    (32, 0x1f0a5f87, .and32 124 41 0 63),
    (32, 0x6bf94487, .or32 175 229 0 9),
    (32, 0x8f359587, .xor32 60 214 0 43),
    (32, 0xd37e8287, .andn 77 250 0 5),
    (32, 0x09e81609, .shl 39 160 0 44),
    (32, 0x7fba4589, .shr 254 233 0 11),
    (32, 0xa2bc8389, .sar 138 242 0 7),
    (32, 0xe7b91889, .rotl 158 228 0 49),
    (32, 0x2c42d68b, .bfx 177 11 0 45),
    (32, 0x558ec38b, .bfxn 86 59 0 7),
    (32, 0x9be4cf8b, .bfi 111 147 0 31),
    (32, 0xf2f2050b, .prmt 203 200 0 10),
    (32, 0x0015598d, .popc 85 0 51),
    (32, 0x40239b8d, .clz 142 0 55),
    (32, 0x8023968d, .brev 142 0 45),
    (32, 0xc030898d, .iabs 194 0 19),
    (32, 0x0a96898f, .isetpI32 42 90 2 3),
    (32, 0x5dc1850f, .isetpN32 119 6 1 2),
    (32, 0xa1a4010f, .isetpI64 134 144 0 2)] : List (Nat × Nat × Instr)).all
    (fun x => decodeTableWord x.1 x.2.1 = some x.2.2) = true := by decide

/-- Words written out from the encoding tables (R41 to R59): ISETP_N64 to FMAX. -/
theorem test_decode_words2 : ([
    (32, 0xf5af550f, .isetpN64 214 189 5 2),
    (32, 0x0006d911, .mov 27 0 50),
    (32, 0x72f30691, .sel 203 204 0 13),
    (32, 0x803d8391, .movh 246 0 7),
    (32, 0xd8c28091, .plop 6 0 3 1 2 1),
    (32, 0x2b868013, .iaddW 174 26 0 0),
    (32, 0x534cc193, .isubW 77 51 0 3),
    (32, 0x891a8993, .imulW 36 106 0 19),
    (32, 0xe06c5e13, .imadW 129 177 0 60),
    (32, 0x0f8edd95, .shlW 62 59 0 59),
    (32, 0x7d7dc515, .shrW 245 247 0 10),
    (32, 0x924d1095, .sarW 73 52 0 33),
    (32, 0xfd548d15, .imulx 245 82 0 26),
    (32, 0x2e52d317, .idiv 185 75 0 38),
    (32, 0x4ba14a97, .ndiv 46 133 0 21),
    (32, 0xad9c8e17, .irem 182 114 0 28),
    (32, 0xd8de8e97, .nrem 99 122 0 29),
    (32, 0x19bf0199, .iadds 102 252 0 3),
    (32, 0x43a3d099, .isubs 14 143 0 33),
    (32, 0x98ec1619, .nadds 99 176 0 44),
    (32, 0xee8a4699, .nsubs 186 41 0 13),
    (32, 0x1d3c159b, .logt 116 240 0 43),
    (32, 0x5a3dde9b, .bmrg 104 247 0 61),
    (32, 0xac0ad89b, .fshl 176 43 0 49),
    (32, 0xd9bd1b9b, .fshr 102 244 0 55),
    (32, 0x2a8b1d9d, .fadd 170 44 0 59),
    (32, 0x734aca9d, .fsub 205 43 0 21),
    (32, 0x90439d9d, .fmul 65 14 0 59),
    (32, 0xd2bc899d, .ffma 74 242 0 19),
    (32, 0x10c2869f, .fmin 67 10 0 13),
    (32, 0x51f78d9f, .fmax 71 222 0 27)] : List (Nat × Nat × Instr)).all
    (fun x => decodeTableWord x.1 x.2.1 = some x.2.2) = true := by decide

/-- Words written out from the encoding tables (R41 to R59): FMINN to DFMA. -/
theorem test_decode_words3 : ([
    (32, 0x83a0129f, .fminn 14 128 0 37),
    (32, 0xdee99a9f, .fmaxn 123 166 0 53),
    (32, 0x10c7d7a1, .fsetp 67 31 5 7),
    (32, 0x75d08821, .fsetpSig 215 66 2 0),
    (32, 0x385749a3, .fdiv 225 93 0 19),
    (32, 0x40161e23, .fsqrt 88 0 60),
    (32, 0x800f54a3, .frcp 61 0 41),
    (32, 0xc03dc3a3, .frsq 247 0 7),
    (32, 0x001fd1a5, .fex2 127 0 35),
    (32, 0x40055ca5, .flg2 21 0 57),
    (32, 0x80039c25, .fsin 14 0 56),
    (32, 0xc02991a5, .fcos 166 0 35),
    (32, 0x0039cfa7, .fabs 231 0 31),
    (32, 0x40211ca7, .fneg 132 0 57),
    (32, 0x91b55927, .fcpys 70 213 0 50),
    (32, 0xc03884a7, .fclass 226 0 9),
    (32, 0x001ec4a9, .frnd 123 0 9),
    (32, 0x5b26c9a9, .fscale 108 155 0 19),
    (32, 0x802ed029, .fexpo 187 0 32),
    (32, 0x11bbc62b, .hadd2 70 239 0 12),
    (32, 0x72fe4e2b, .hmul2 203 249 0 28),
    (32, 0x94b715ab, .hfma2 82 220 0 43),
    (32, 0xf5d9142b, .hmax2 215 100 0 40),
    (32, 0x0beed5ad, .badd2 47 187 0 43),
    (32, 0x7ab858ad, .bmul2 234 225 0 49),
    (32, 0xaa65c72d, .bfma2 169 151 0 14),
    (32, 0xdd4d50ad, .bmax2 117 53 0 33),
    (32, 0x22c5112f, .dadd 139 20 0 34),
    (32, 0x50b619af, .dsub 66 216 0 51),
    (32, 0x933f45af, .dmul 76 253 0 11),
    (32, 0xe3875b2f, .dfma 142 29 0 54)] : List (Nat × Nat × Instr)).all
    (fun x => decodeTableWord x.1 x.2.1 = some x.2.2) = true := by decide

/-- Words written out from the encoding tables (R41 to R59): DMIN to BALLOT. -/
theorem test_decode_words4 : ([
    (32, 0x096245b1, .dmin 37 137 0 11),
    (32, 0x614a8431, .dmax 133 42 0 8),
    (32, 0xa1cf80b1, .dminn 135 62 0 1),
    (32, 0xeb754831, .dmaxn 173 213 0 16),
    (32, 0x059e8a33, .dsetp 22 122 0 2 4),
    (32, 0x40064cb3, .dclass 25 0 25),
    (32, 0x8027cd33, .dabs 159 0 26),
    (32, 0xc0250b33, .dneg 148 0 22),
    (32, 0x22ac5035, .ddiv 138 177 0 32),
    (32, 0x40048135, .dsqrt 18 0 2),
    (32, 0x80184fb5, .drcp 97 0 31),
    (32, 0xc0391bb5, .drsq 228 0 55),
    (32, 0x003f53b7, .drnd 253 0 39),
    (32, 0x5b9d4cb7, .dscale 110 117 0 25),
    (32, 0x0011d639, .cvtF32I32 71 0 44),
    (32, 0x4006c0b9, .cvtF32N32 27 0 1),
    (32, 0x80091bb9, .cvtI32F32 36 0 55),
    (32, 0xc014c539, .cvtN32F32 83 0 10),
    (32, 0x0030cfbb, .cvtF64F32 195 0 31),
    (32, 0x40259d3b, .cvtF32F64 150 0 58),
    (32, 0x8017913b, .cvtF64I64 94 0 34),
    (32, 0xc03910bb, .cvtI64F64 228 0 33),
    (32, 0x002e94bd, .cvtF16F32 186 0 41),
    (32, 0x401f53bd, .cvtF32F16 125 0 39),
    (32, 0x801bcbbd, .cvtBf16F32 111 0 23),
    (32, 0xc000183d, .cvtF32Bf16 0 0 48),
    (32, 0x000a91bf, .cvtF8F32 42 0 35),
    (32, 0x4019803f, .cvtF32F8 102 0 0),
    (32, 0x800b85bf, .cvtE2m1F32 46 0 11),
    (32, 0xc01242bf, .cvtF32E2m1 73 0 5),
    (32, 0x00021341, .ballot 1 0 38)] : List (Nat × Nat × Instr)).all
    (fun x => decodeTableWord x.1 x.2.1 = some x.2.2) = true := by decide

/-- Words written out from the encoding tables (R41 to R59): VOTE_ANY to FESET. -/
theorem test_decode_words5 : ([
    (32, 0x4002c0c1, .voteAny 1 3 1),
    (32, 0x800182c1, .voteAll 0 6 5),
    (32, 0xc0028241, .voteEq 1 2 4),
    (32, 0x12859b43, .lxchAt 74 22 54),
    (32, 0x51c20ec3, .lxchBack 71 8 29),
    (32, 0x8ac3c2c3, .lxchFwd 43 15 5),
    (32, 0xd12e06c3, .lxchXor 68 184 13),
    (32, 0x00301cc5, .reduxAdd 192 57),
    (32, 0x40064145, .reduxMin 25 2),
    (32, 0x801f5f45, .reduxMax 125 62),
    (32, 0xc021c045, .matchAny 135 0),
    (32, 0xe24f1049, .ld 14 1 1 0 60 32),
    (32, 0x20c75d4b, .st 2 0 3 0 29 58),
    (32, 0xf00200cd, .pref 15 0 8 1),
    (32, 0x22c4954f, .atom 1 1 3 0 18 42),
    (32, 0x328f63cf, .red 1 9 2 0 61 7),
    (32, 0x00600051, .fence 1 2),
    (32, 0x02000051, .drain 0),
    (32, 0x04cf92d1, .wbr 3 62 37),
    (32, 0x070eddd1, .invr 4 59 59),
    (32, 0x33d993d3, .lds 3 15 102 39),
    (32, 0x4f0212d3, .sts 0 60 8 37),
    (32, 0xb2799153, .atoms 3 9 230 34),
    (32, 0xcc5acd53, .tinfo 49 107 26),
    (32, 0x02d210d5, .ldf 0 11 72 33),
    (32, 0x6423c755, .lde 2 16 143 14),
    (32, 0xa77f9f55, .stf 2 29 254 62),
    (32, 0xf0d44055, .stx 3 3 81 0),
    (32, 0x0fb999d7, .talloc 62 230 51),
    (32, 0x49800057, .tfree 38),
    (32, 0x84b55657, .feset 18 213 44)] : List (Nat × Nat × Instr)).all
    (fun x => decodeTableWord x.1 x.2.1 = some x.2.2) = true := by decide

/-- Words written out from the encoding tables (R41 to R59): TEXPORT to SKTAKE. -/
theorem test_decode_words6 : ([
    (32, 0xcc284057, .texport 48 161),
    (32, 0x3de70059, .br 7923 1 0),
    (32, 0xa62bc05b, .bruAny 21269 1 6),
    (32, 0x3d7600db, .bruAll 7867 0 0),
    (32, 0x9465a15b, .bruNone 18994 1 5),
    (32, 0x2145c1db, .bruUni 4258 1 6),
    (32, 0x271dfd5d, .jmp 2563581),
    (32, 0xb8aee4dd, .call 12103396),
    (32, 0x0036c05f, .dcall 219),
    (32, 0x4023005f, .djmp 140),
    (32, 0x8000005f, .ret),
    (32, 0xc000005f, .exit),
    (32, 0x00000261, .ktie 1),
    (32, 0x000010e1, .join 8),
    (32, 0x00000761, .kreset 3),
    (32, 0x006a4863, .barSync 26 18 4),
    (32, 0x01fe3ae3, .barArrive 127 17 13),
    (32, 0x00028d63, .barWait 20 6),
    (32, 0x000017e5, .mxacq 47),
    (32, 0x40001b65, .mxrel 54),
    (32, 0x800001e5, .mxzero 3),
    (32, 0xc0330d65, .mxvc 204 26),
    (32, 0x0a465a67, .mmaC8 41 25 52),
    (32, 0x79919267, .mmaX8 230 70 36),
    (32, 0xbe064867, .mmaC16 248 25 16),
    (32, 0xd5fc5ae7, .mmaC16h 87 241 53),
    (32, 0x2bc91369, .mxld 175 36 38),
    (32, 0x608859e9, .mxst 130 33 51),
    (32, 0x9e899ee9, .mxrecomb 122 38 61),
    (32, 0xc03247e9, .mxscale 201 15),
    (32, 0x155484eb, .sktake 85 82 9)] : List (Nat × Nat × Instr)).all
    (fun x => decodeTableWord x.1 x.2.1 = some x.2.2) = true := by decide

/-- Words written out from the encoding tables (R41 to R59): SKGIVE to COL_RSCAT. -/
theorem test_decode_words7 : ([
    (32, 0x5abf806b, .skgive 106 254),
    (32, 0x801c1ceb, .skreadx 112 57),
    (32, 0xeab9806b, .skinit 170 230),
    (32, 0x003688ed, .prdef 218 17),
    (32, 0x4018806d, .prdone 98),
    (32, 0x9f0b806d, .previct 124 46),
    (32, 0xc01655ed, .prq 89 43),
    (32, 0x000b8071, .trap 46),
    (32, 0x40000071, .bkpt),
    (32, 0x80000071, .rett),
    (32, 0xc028c071, .sleep 163),
    (32, 0x1e8017f3, .csrr 122 47),
    (32, 0x6119c073, .csrw 132 103),
    (32, 0x80000173, .flgr 2),
    (32, 0xc034c073, .flgc 211),
    (32, 0x00310075, .dqpush 196),
    (32, 0x4034c075, .launch 211),
    (32, 0x80000075, .fexit),
    (32, 0xc01ad875, .fwaitev 107 48),
    (32, 0x01156077, .tceLoad 34 43),
    (32, 0x023fe077, .tceStore 7 63),
    (32, 0x051dc077, .tceMcast 35 46),
    (32, 0x06836077, .tceSlice 16 27),
    (32, 0x085c4077, .tceGather 11 34),
    (32, 0x0afe2077, .tceScatter 31 49),
    (32, 0x0d9f2077, .tceFill 51 57),
    (32, 0x01bce079, .colReduce 55 39),
    (32, 0x02120079, .colAllred 2 16),
    (32, 0x0426c079, .colBcast 4 54),
    (32, 0x07e7c079, .colAgather 60 62),
    (32, 0x08012079, .colRscat 0 9)] : List (Nat × Nat × Instr)).all
    (fun x => decodeTableWord x.1 x.2.1 = some x.2.2) = true := by decide

/-- Words written out from the encoding tables (R41 to R59): COL_CBAR to FMAX16. -/
theorem test_decode_words8 : ([
    (32, 0x0a064079, .colCbar 50),
    (32, 0x00001dfb, .wrange 59),
    (32, 0x0207207b, .fetchw 57),
    (32, 0x0403e6fb, .fixup 31 13),
    (32, 0x0603807b, .scret 28),
    (32, 0x080009fb, .powq 19),
    (32, 0x4ddbe37f, .extI 5102563),
    (32, 0x01e000ff, .extC 1 14 0 0 0),
    (16, 0x000000fc, .guard 0 3),
    (16, 0x000014fe, .nop16 2 19),
    (16, 0x00004400, .mov16 8 16),
    (16, 0x0000d9c2, .iadd16 27 7),
    (16, 0x00003104, .isub16 6 4),
    (16, 0x00009b06, .imul16 19 12),
    (16, 0x0000c408, .and16 24 16),
    (16, 0x0000700a, .or16 14 0),
    (16, 0x000004cc, .xor16 0 19),
    (16, 0x0000ec4e, .shl16 29 17),
    (16, 0x0000a3d0, .shr16 20 15),
    (16, 0x0000f3d2, .sar16 30 15),
    (16, 0x00007854, .imin16 15 1),
    (16, 0x0000d4d6, .imax16 26 19),
    (16, 0x00001858, .fadd16 3 1),
    (16, 0x000067da, .fsub16 12 31),
    (16, 0x0000d15c, .fmul16 26 5),
    (16, 0x0000839e, .fmax16 16 14)] : List (Nat × Nat × Instr)).all
    (fun x => decodeTableWord x.1 x.2.1 = some x.2.2) = true := by decide

/-! ## Small states -/

/-- A context with handlers at 0x20000 and 0x30000. -/
def ctx0 : Ctx := { placeCtx with tvec := 0x20000, ftvec := 0x30000 }

/-- Thread 0 of block 0 stands at its group, alone in its warp. -/
def th0 : Thread := placeThread

/-- Block 0. -/
def blk0 : Block := placeBlock

/-- The state in which that thread issues. -/
def st (b : Block) : State :=
  { placeWord State.reset 32 0 with ctxs := [(0, ctx0)], blocks := [(0, b)], cur := .lane 0 0 0, agenda := [] }

/-- The same with the thread's fields changed. -/
def stTh (t : Thread) : State := st { blk0 with threads := [(0, t)] }

/-- Two threads, 0 and 1, at the same group. -/
def st2 (t u : Thread) : State :=
  { st { blk0 with threads := [(0, t), (1, { u with status := .active 0 1 })] } with
    cores := [(0, { quads := [(0, { slots := [(0, { blk := 0, members := [(0, 0), (1, 1)] })] })] })] }

/-- The front thread issues. -/
def stFront (f : Front) : State := { st { blk0 with front := f } with cur := .front 0 0 }

/-- A group of these halfword prefixes stands open. -/
def grouped (s : State) (g : Group → Group) : State :=
  { s with grp := some (g { start := BitVec.ofNat 57 placePc, next := BitVec.ofNat 57 placePc }) }

/-- What the checks of a lane group come to, tested. -/
def lgo (s : State) (i : Instr) (p : State → Issue → List Member → Bool) : Bool :=
  match prepare s i with
  | .go s₁ is ms [] => decide (ms.map Member.tlin).Nodup && p s₁ is ms
  | _ => false

theorem ready_of_lgo {s : State} {i : Instr} {p : State → Issue → List Member → Bool} (h : lgo s i p = true) :
    ∃ s₁ is ms, LaneReady s i s₁ is ms ∧ p s₁ is ms = true := by
  unfold lgo at h
  split at h
  · rename_i s₁ is ms e
    simp only [Bool.and_eq_true, decide_eq_true_eq] at h
    exact ⟨s₁, is, ms, ⟨e, h.1⟩, h.2⟩
  · cases h

/-- A test of `Handled`. -/
def canTrap (s : State) (is : Issue) (rs : List TrapReq) : Bool :=
  (match s.block is.blk with
   | some b => decide (b.dyer = none) && decide ((s.ctxOf b).tvec ≠ 0)
   | none => false)
  && rs.all (fun r => decide (r.resume = none) && (match (is.block s).thread r.tlin with
    | some th => !bit th.trap.tstat 0
    | none => true))
  && decide (rs.Pairwise fun x y => x.tlin < y.tlin)

theorem handled_of {s : State} {is : Issue} {rs : List TrapReq} (h : canTrap s is rs = true) : Handled s is rs := by
  simp only [canTrap, Bool.and_eq_true, List.all_eq_true, decide_eq_true_eq] at h
  obtain ⟨⟨hb, hr⟩, ho⟩ := h
  refine ⟨?_, ?_, ho, fun r m => (hr r m).1⟩
  · split at hb
    · rename_i b e
      simp only [Bool.and_eq_true, decide_eq_true_eq] at hb
      exact ⟨b, e, hb.1, hb.2⟩
    · cases hb
  · intro r m th e
    have := (hr r m).2
    rw [e] at this
    simpa using this


/-- A test of `Reaches`. -/
def reaches (s : State) (core ctx : Nat) (va : Quad) (width n : Nat) (k : AccKind) (pa : Nat) (coh : BitVec 2) : Bool :=
  decide (va.toNat % width = 0) && decide (va.toNat < 2 ^ 57) &&
  decide (lashedBy (s.core core) (.global ctx va.toNat (va.toNat + n)) k.writes = none) &&
  decide (translateTlb s (s.core core).dtlb ctx k.accessMode va.toNat = .ok pa coh) && decide (rangeOf s ctx va.toNat = none)

theorem reaches_of {s : State} {core ctx : Nat} {va : Quad} {width n : Nat} {k : AccKind} {pa : Nat} {coh : BitVec 2}
    (h : reaches s core ctx va width n k pa coh = true) : Reaches s core ctx va width n k pa coh := by
  simp only [reaches, Bool.and_eq_true, decide_eq_true_eq] at h
  exact ⟨h.1.1.1.1, h.1.1.1.2, h.1.1.2, h.1.2, h.2⟩

/-- A test of `Unhindered`. -/
def unhindered (s : State) (core blk : Nat) (b : Block) : Bool :=
  s.cores.all (fun c => c.2.accs.all fun x => decide (x.blk ≠ blk)) &&
  decide (b.syncs = []) && decide ((s.core core).early = []) && decide ((s.core core).stores = []) && !(s.launchOf b).det

theorem unhindered_of {s : State} {core blk : Nat} {b : Block} (h : unhindered s core blk b = true) : Unhindered s core blk b := by
  simp only [unhindered, Bool.and_eq_true, List.all_eq_true, decide_eq_true_eq, Bool.not_eq_true'] at h
  exact ⟨h.1.1.1.1, h.1.1.1.2, h.1.1.2, h.1.2, h.2⟩

/-- A test of `Serves`. -/
def serves (l : L1Line) (pa n : Nat) (coh : BitVec 2) (v : Nat) : Bool :=
  decide (l.coh = coh) && decide (byteMask (pa % 128) n &&& ~~~l.valid = 0) && decide (l.poison &&& byteMask (pa % 128) n = 0) &&
  decide (v = l.data.toNat / 2 ^ (8 * (pa % 128)) % 2 ^ (8 * n))

theorem serves_of {l : L1Line} {pa n : Nat} {coh : BitVec 2} {v : Nat} (h : serves l pa n coh v = true) : Serves l pa n coh v := by
  simp only [serves, Bool.and_eq_true, decide_eq_true_eq] at h
  exact ⟨h.1.1.1, h.1.1.2, h.1.2, h.2⟩

/-- A test of `Solo`, and of what else a statement asks of it. -/
def sgo (s : State) (i : Instr) (p : State → Issue → Member → Thread → Bool) : Bool :=
  lgo s i fun s₁ is ms => match ms with
    | [m] => (match (is.block s₁).thread m.tlin with
      | some th => m.on && th.status.isActive && p s₁ is m th
      | none => false)
    | _ => false

theorem solo_of_sgo {s : State} {i : Instr} {p : State → Issue → Member → Thread → Bool} (h : sgo s i p = true) :
    ∃ s₁ is m th, Solo s i s₁ is m th ∧ p s₁ is m th = true := by
  obtain ⟨s₁, is, ms, hr, hp⟩ := ready_of_lgo h
  split at hp
  · rename_i m
    split at hp
    · rename_i th e
      simp only [Bool.and_eq_true] at hp
      exact ⟨s₁, is, m, th, ⟨hr, hp.1.1, e, hp.1.2⟩, hp.2⟩
    · cases hp
  · cases hp

/-- A test of `FrontReady`, and of what else a statement asks of it. -/
def fgo (s : State) (i : Instr) (p : State → FrontIssue → Block → Bool) : Bool :=
  match frontPrepare s i with
  | .inr (u, is) => (match s.block is.blk with
    | some b => decide (u = closeGroup s) && p (closeGroup s) is b
    | none => false)
  | .inl _ => false

theorem front_of_fgo {s : State} {i : Instr} {p : State → FrontIssue → Block → Bool} (h : fgo s i p = true) :
    ∃ is b, FrontReady s i is b ∧ p (closeGroup s) is b = true := by
  unfold fgo at h
  split at h
  · rename_i u is e
    split at h
    · rename_i b eb
      simp only [Bool.and_eq_true, decide_eq_true_eq] at h
      exact ⟨is, b, ⟨by rw [e, h.1], eb⟩, h.2⟩
    · cases h
  · cases h

/-- A test of `FrontHandled`. -/
def frontCanTrap (s : State) (b : Block) : Bool :=
  decide (b.dyer = none) && decide ((s.ctxOf b).ftvec ≠ 0) && !bit b.front.trap.tstat 0

theorem front_handled_of {s : State} {b : Block} (h : frontCanTrap s b = true) : FrontHandled s b := by
  simp only [frontCanTrap, Bool.and_eq_true, decide_eq_true_eq, Bool.not_eq_true'] at h
  exact ⟨h.1.1, h.1.2, h.2⟩

/-- A test of `ReachesTile`. -/
def reachesTile (s : State) (core blk h o size span : Nat) (k : TileAcc) (p : Spot) : Bool :=
  decide (o % 2 ^ 20 % (if k = .setState then 4 else size) = 0) && decide (spotOf s core blk h (o / 2 ^ 30 % 4) = some p) &&
  decide (o / 2 ^ 20 % 2 ^ 10 = 0 ∧ o % 2 ^ 20 + span ≤ p.tile.size) && decide (k ≠ .load → o / 2 ^ 30 % 4 = 0) &&
  decide (k = .atomic ∨ k.fullEmpty = true → p.tile.ac = false) && decide (k.fullEmpty = true → size ≠ 2) &&
  decide (tileLash s o span k p = none)

theorem reachesTile_of {s : State} {core blk h o size span : Nat} {k : TileAcc} {p : Spot}
    (e : reachesTile s core blk h o size span k p = true) : ReachesTile s core blk h o size span k p := by
  simp only [reachesTile, Bool.and_eq_true, decide_eq_true_eq] at e
  exact ⟨⟨e.1.1.1.1.1.1, e.1.1.1.1.1.2, e.1.1.1.1.2, e.1.1.1.2, e.1.1.2, e.1.2⟩, e.2⟩

/-- A test of `Servable`. -/
def canServe (s : State) (n line : Nat) (own : Bool) : Bool :=
  inOrder s n && !granting s line && !(restOpen s line && (s.net[n]?).any Msg.ofSelf) && lineAt s line own &&
    ((tget s.home line).isSome || missRoom s line)

theorem servable_of {s : State} {n line : Nat} {own : Bool} (h : canServe s n line own = true) : Servable s n line own := by
  simp only [canServe, Bool.and_eq_true, Bool.or_eq_true, Bool.not_eq_true'] at h
  refine ⟨h.1.1.1.1, h.1.1.1.2, fun r m e => ?_, h.1.2, h.2⟩
  have := h.1.1.2
  rw [r, e] at this
  simpa using this

/-- The next state of an instruction, tested. -/
def next (i : Instr) (s : State) (p : State → Bool) : Bool :=
  match exec i s with
  | .next t => p t
  | _ => false

/-! ## Well-formedness -/

/-- A term that breaks each check of WellFormed is refused, and the same term with the check met is not. -/
theorem test_ill_formed :
    [.iadd 0 0 1 5, .isetpI32 0 0 6 0, .ld 0 7 0 0 0 0, .ld 0 0 0 2 0 0, .ld 0 0 6 0 0 0, .st 0 5 0 0 0 0, .st 0 0 0 1 0 0,
      .st 0 0 7 0 0 0, .pref 0 0 0 2, .pref 0 6 0 0, .atom 4 0 0 0 0 0, .atom 6 6 0 0 0 0, .atom 0 8 0 0 0 0, .atom 3 10 0 0 0 0,
      .atom 0 0 6 0 0 0, .red 1 7 0 0 0 0, .red 0 0 6 0 0 0, .fence 0 0, .fence 6 1, .wbr 6 0 0, .invr 7 0 0, .barSync 0 0 0,
      .barArrive 0 0 0, .barWait 0 0, .extC 6 0 0 0 0].all (fun i => !Instr.wellFormed i) = true ∧
    [.iadd 0 0 1 0, .isetpI32 0 0 5 0, .ld 0 6 5 1 0 0, .st 0 4 5 2 0 0, .pref 0 5 0 1, .atom 3 5 5 0 0 0, .atom 5 6 0 0 0 0,
      .atom 1 8 0 0 0 0, .atom 4 10 0 0 0 0, .red 1 8 5 0 0 0, .fence 5 1, .wbr 5 0 0, .invr 5 0 0, .barSync 0 1 0,
      .barArrive 0 1 0, .barWait 1 0, .extC 5 0 0 0 0].all Instr.wellFormed = true := by decide

/-! ## One step on a small state -/

/-- Register `r` of thread 0 of block 0. -/
def reg0 (t : State) (r : Nat) : Word := (((t.block 0).bind fun b => b.thread 0).map fun th => th.reg r).getD 0

/-- The general registers v1 to v4 of a thread. -/
def regs4 (a b c d : Word) : Thread := { th0 with regs := [0, a, b, c, d] ++ List.replicate 59 0 }

/-- Register `r` of the front thread. -/
def freg0 (t : State) (r : Nat) : Quad := ((t.block 0).map fun b => b.front.reg r).getD 0

/-- R124: 0xFFFFFFFF + 2 wraps to 1. -/
theorem test_iadd_wraps : next (.iadd 2 1 0 3) (stTh (regs4 0xFFFFFFFF 2 0 0)) (fun t => reg0 t 3 = 1) = true := by decide +kernel

/-- R124: ISUB is A − B, IRSUB is B − A. -/
theorem test_isub : (next (.isub 2 1 0 3) (stTh (regs4 5 7 0 0)) (fun t => reg0 t 3 = 0xFFFFFFFE) &&
    next (.irsub 2 1 0 3) (stTh (regs4 5 7 0 0)) fun t => reg0 t 3 = 2) = true := by decide +kernel

/-- R128: −2^31 ÷ −1 is −2^31, and its remainder 0. -/
theorem test_idiv_corner : (next (.idiv 2 1 0 3) (stTh (regs4 0x80000000 0xFFFFFFFF 0 0)) (fun t => reg0 t 3 = 0x80000000) &&
    next (.irem 2 1 0 3) (stTh (regs4 0x80000000 0xFFFFFFFF 0 0)) fun t => reg0 t 3 = 0) = true := by decide +kernel

/-- R127: quotients truncate toward zero; −7 ÷ 2 is −3 and leaves −1. -/
theorem test_idiv_truncates : (next (.idiv 2 1 0 3) (stTh (regs4 0xFFFFFFF9 2 0 0)) (fun t => reg0 t 3 = 0xFFFFFFFD) &&
    next (.irem 2 1 0 3) (stTh (regs4 0xFFFFFFF9 2 0 0)) fun t => reg0 t 3 = 0xFFFFFFFF) = true := by decide +kernel

/-- R129, R200: a divisor of 0 takes IDIVZ, cause 0x0A, at the group, and the destination keeps its value. -/
theorem test_idiv_by_zero : next (.idiv 2 1 0 3) (stTh (regs4 7 0 9 0)) (fun t => reg0 t 3 = 9 &&
    ((t.block 0).bind fun b => b.thread 0).any fun th => th.trap.tcause = 0x0A && th.trap.tpc = 0x10100 && th.pc = 0x20000) = true := by
  decide +kernel

/-- R133: a shift by 32 or more gives 0, or the sign. -/
theorem test_shifts_saturate : (next (.shl 2 1 0 3) (stTh (regs4 1 32 0 0)) (fun t => reg0 t 3 = 0) &&
    next (.sar 2 1 0 3) (stTh (regs4 0x80000000 200 0 0)) fun t => reg0 t 3 = 0xFFFFFFFF) = true := by decide +kernel

/-- R123: the same word adds 64 bits in front code. -/
theorem test_iadd_front : next (.iadd 2 1 0 3) (stFront { blk0.front with regs := [0, 0xFFFFFFFF, 1] ++ List.replicate 61 0 })
    (fun t => freg0 t 3 = 0x100000000) = true := by decide +kernel

/-- R147, R148: 1 + 2 is 3 in FP32, and 1 ÷ 3 rounds to 0x3EAAAAAB. -/
theorem test_fp32 : (next (.fadd 2 1 0 3) (stTh (regs4 0x3F800000 0x40000000 0 0)) (fun t => reg0 t 3 = 0x40400000) &&
    next (.fdiv 2 1 0 3) (stTh (regs4 0x3F800000 0x40400000 0 0)) fun t => reg0 t 3 = 0x3EAAAAAB) = true := by decide +kernel

/-- R217, R222: a load that misses at COH 00 asks for a shared copy of its line, 0x20080 ÷ 128, and its register is pending. -/
theorem test_load_miss : next (.ld 0 2 0 0 2 4) (stTh (regs4 0 0x20080 0 0)) (fun t => t.net = [.readShared 0 0x401 0] &&
    ((t.block 0).bind fun b => b.thread 0).any fun th => th.pending = 0x10) = true := by decide +kernel

/-- R349: SCRET ORs its operand into the return word of the launch. -/
theorem test_scret : next (.scret 1) (stFront { blk0.front with regs := [0, 5] ++ List.replicate 62 0 })
    (fun t => (t.launches.map fun l => l.2.ret) = [5]) = true := by decide +kernel

/-! ## Witnesses: the checks of a group

`lgo`, `sgo` and `fgo` say that a group is `LaneReady`, `Solo` or `FrontReady` with what the statement asks beside it
(`ready_of_lgo`, `solo_of_sgo`, `front_of_fgo`). -/

/-- The bytes of a word at the pc of an open group. -/
def opened (w : Nat) : State := grouped { stTh th0 with mem := Memory.setBytes [] placePc (leBytes 4 w) } id

/-- A turn that arbitration is to give: core 0, whose island runs, and an agenda of one item. -/
def turning (s : State) (a : Act) : State :=
  { s with agenda := [a], dev := { s.dev with svcl := 2, islands := [(0, { cmd := 2, vfs := 2 })] } }

/-- A word inside a group; turns that the agenda gives, that arbitration picks, and that nobody takes; an event; a delivery, with a
message and without; the judging; and a new cycle of a package that runs, that halts and that is to reset. -/
theorem test_witness_StepRunsTheDecodedWord : (Runs (opened 0x29534301) (opened 0x29534301) ∧
    WordAt (opened 0x29534301) (leBytes 4 0x29534301) ∧
    decodeBytes (leBytes 4 0x29534301 ++ []) = some (.instr (.iadd 165 77 0 6), [])) ∧
    (let s := State.reset.withFetchWord 32 0x29534301
     s.grp = none ∧ s.agenda = [.issue (.lane 0 0 0)] ∧ (nextWord { s with agenda := [], cur := .lane 0 0 0 }).isSome = true) ∧
    (let s := turning (stTh th0) (.arbLane 0 0)
     s.grp = none ∧ (arbitrate { s with agenda := [] } 0 0).2 = some 0) ∧
    (let s := turning (stFront blk0.front) (.arbFront 0)
     s.grp = none ∧ arbitrateFront { s with agenda := [] } 0 = some 0) ∧
    (arbitrate State.reset 0 0).2 = none ∧ arbitrateFront State.reset 0 = none ∧ servable State.reset = none ∧
    (State.reset.grp = none ∧ State.reset.agenda = [] ∧ State.reset.dev.halted = false ∧ State.reset.dev.resetting = false) := by
  refine ⟨⟨.inside _ rfl, .long 0 blk0 (BitVec.ofNat 57 placePc) placePc (placePc + 2) 0 0 ?_ ?_ ?_ ?_ ?_ ?_ ?_ ?_, ?_⟩, ?_⟩ <;>
    decide +kernel

/-- At time 0 nothing is held back: an acknowledgement on its way is delivered. -/
theorem test_witness_StepRunsTheDecodedWord_delivery :
    servable { State.reset with net := [.ack 0 none 0 none] } = some (.writeAcknowledgement 0) := by
  have e : msgEvent { State.reset with net := [.ack 0 none 0 none] } 0 (.ack 0 none 0 none) = some (.writeAcknowledgement 0) := by
    decide +kernel
  have h : heldNow State.reset.now 0 none = false := by simp [heldNow, State.reset]
  simp only [servable, servableFrom, e, Msg.holdBound, Nat.mul_zero]
  exact if_neg (by rw [h]; exact Bool.false_ne_true)

/-- A word that is no instruction inside a group, one that opens a group, and a GUARD with a reserved bit set. -/
theorem test_witness_WordThatIsNoInstructionTraps : (Runs (opened 0xFE00007B) (opened 0xFE00007B) ∧
    WordAt (opened 0xFE00007B) (leBytes 4 0xFE00007B) ∧
    decodeBytes (leBytes 4 0xFE00007B ++ []) = some (.illegal 0xFE00007B, []) ∧ prefixWord 0xFE00007B = false) ∧
    ([opened 0xFE00007B, stTh th0].all fun s => (findIssue s .bkpt).any fun is => canTrap (gathered s is) is
      (allTrap (gathered s is) is causeIllegal)) = true ∧
    (Runs { stTh th0 with agenda := [.issue (.lane 0 0 0)] } { stTh th0 with agenda := [], cur := .lane 0 0 0 }) ∧
    (let s := stFront blk0.front
     (findFront s .bkpt).any (fun is => decide ((s.block is.blk).isSome)) = true ∧ frontCanTrap s blk0 = true) ∧
    decodeBytes (leBytes 2 0x08FC) = some (.illegal 0x08FC, []) ∧ prefixWord 0x08FC = true ∧
    (agentPc (opened 0x29534301)).isSome = true := by
  refine ⟨⟨.inside _ rfl, .long 0 blk0 (BitVec.ofNat 57 placePc) placePc (placePc + 2) 0 0 ?_ ?_ ?_ ?_ ?_ ?_ ?_ ?_, ?_, ?_⟩, ?_,
    .issue _ _ rfl rfl, ?_⟩ <;> decide +kernel

/-- A canonical memory, a step that gives a next state, and an instruction with an encoding. -/
theorem test_witness_StepKeepsMemoryCanonical : (stTh th0).mem.wf = true ∧ (opened 0x29534301).mem.wf = true ∧
    (match step (opened 0x29534301) with
     | .next _ => true
     | _ => false) = true ∧ encode (.iadd 165 77 0 6) = some 0x29534301 ∧ agentPc (stTh th0) = some (BitVec.ofNat 57 placePc) := by
  decide +kernel

/-- Both issues of GroupPassesItsChecks: a warp with a guard that one member fails, a home-bound group in place, and a front
thread whose guard is true and false. -/
theorem test_witness_GroupPassesItsChecks :
    (let s := grouped (st2 { th0 with preds := 1 } th0) fun g => { g with guard := some (0, false) }
     (findIssue s (.iadd 2 1 0 3)).any fun is =>
      let s₁ := gathered s is
      let ws := (is.warp s₁).members
      decide (decodeTrap false (s₁.launchOf (is.block s₁)).regsPer is.g (.iadd 2 1 0 3) is.q = none) && decide (ws ≠ []) &&
      ws.all fun m => decide ((is.thread s₁ m.1).pending &&& groupRegs false is.q is.g = 0) && !(is.thread s₁ m.1).held) = true ∧
    (let s := stTh { th0 with mask := some 1, auto := true }
     (findIssue s (.ballot 0 0 1)).any fun is =>
      decide (is.q.cls = .home) && inPlace (gathered s is) is (is.warp (gathered s is)).members) = true ∧
    ([fun g => g, fun g => { g with guard := some (0, false) }].all fun f =>
      let s := grouped (stFront blk0.front) f
      (findFront s (.iadd 2 1 0 3)).any fun is => decide ((s.block is.blk).isSome) && decide (blk0.front.late = none) &&
        decide (decodeTrap true 64 is.g (.iadd 2 1 0 3) is.q = none)) = true := by decide +kernel

/-- A group with two GUARDs, in lanes and in front code. -/
theorem test_witness_DecodeTraps :
    (let s := grouped (stTh th0) fun g => { g with twice := true }
     (findIssue s (.iadd 2 1 0 3)).any fun is =>
      decide (decodeTrap false ((gathered s is).launchOf (is.block (gathered s is))).regsPer is.g (.iadd 2 1 0 3) is.q = some causeIllprefix) &&
      canTrap (gathered s is) is (allTrap (gathered s is) is causeIllprefix)) = true ∧
    (let s := grouped (stFront blk0.front) fun g => { g with twice := true }
     (findFront s (.iadd 2 1 0 3)).any fun is => decide (decodeTrap true 64 is.g (.iadd 2 1 0 3) is.q = some causeIllprefix) &&
      frontCanTrap s blk0) = true := by decide +kernel

/-! ## Witnesses: results and control flow -/

/-- Some member is on. -/
def some_ (_ : State) (_ : Issue) (ms : List Member) : Bool := ms.any Member.on

/-- All members are on. -/
def all_ (_ : State) (_ : Issue) (ms : List Member) : Bool := !ms.isEmpty && ms.all Member.on

theorem test_witness_IntegerResults : lgo (stTh (regs4 1 2 3 4)) (.iadd 2 1 0 3) some_ = true ∧
    lgo (stTh th0) (.nop16 0 0) some_ = true ∧ fgo (stFront blk0.front) (.iadd 2 1 0 3) (fun _ _ _ => true) = true ∧
    fgo (stFront blk0.front) (.imulx 2 1 0 4) (fun _ _ _ => true) = true ∧
    fgo (stFront blk0.front) (.nop16 0 0) (fun _ _ _ => true) = true ∧ (laneRule (.iadd 2 1 0 3)).isSome = true ∧
    (frontRule (.iadd 2 1 0 3)).isSome = true := by decide +kernel

/-- A member with a divisor of 0, and one without. -/
theorem test_witness_Division :
    (lgo (st2 (regs4 7 0 0 0) (regs4 7 2 0 0)) (.idiv 2 1 0 3) fun s is ms =>
      let trap := fun (m : Member) =>
        if (m.v.b.truncate 32 : Word) = 0 then some ⟨m.tlin, causeIdivz, is.g.start, 0, 0, none⟩ else none
      decide ((collected ms trap).length = 1) && canTrap s is (collected ms trap)) = true ∧
    (fgo (stFront { blk0.front with regs := [0, 7, 2] ++ List.replicate 61 0 }) (.idiv 2 1 0 3) fun _ is _ => decide (is.v.b ≠ 0)) = true ∧
    (fgo (stFront blk0.front) (.idiv 2 1 0 3) fun s is b => decide (is.v.b = 0) && frontCanTrap s b) = true := by decide +kernel

/-- An invalid operation with its trap enabled, and one without flags. -/
theorem test_witness_FloatingPointResults :
    (lgo (stTh { regs4 0x7F800000 0xFF800000 0 0 with trapen := 0x3F }) (.fadd 2 1 0 3) fun s is ms =>
      canTrap s is (collected ms fun m => some ⟨m.tlin, causeFpe, is.g.start, 0, 1, none⟩)) = true ∧
    lgo (stTh (regs4 0x3F800000 0x40000000 0 0)) (.fadd 2 1 0 3) some_ = true := by decide +kernel

theorem test_witness_PureWordsShiftTheRing : (lgo (stTh (regs4 1 2 3 4)) (.iadd 2 1 0 3) fun _ is _ =>
    (operands (shape (.iadd 2 1 0 3)) is.g).all fun x => decide (x.1 ≠ 0x84 ∧ x.1 ≠ 0x85)) = true := by decide +kernel

theorem test_witness_LaneGroupResults : lgo (stTh { th0 with preds := 1 }) (.ballot 0 0 1) some_ = true ∧
    lgo (stTh (regs4 1 2 3 4)) (.reduxAdd 1 2) some_ = true ∧ (groupRule (.ballot 0 0 1)).isSome = true := by decide +kernel

/-- A table whose entry 0 is lane code at its start and whose entry 1 is front code. -/
def tabled (s : State) : State :=
  { s with
    launches := [(0, { record := placeRecord ||| (BitVec.ofNat 1024 2 <<< 0x50), next := 1 })]
    mem := Memory.setBytes [] 0x10000 [0, 2, 0, 0, 1, 2, 0, 0] }

theorem test_witness_BranchesInLanes : lgo (st2 { th0 with preds := 1 } th0) (.br 8 0 0) all_ = true ∧
    lgo (st2 { th0 with preds := 1 } th0) (.bruUni 8 0 0) all_ = true ∧ lgo (stTh th0) (.bruAny 8 0 0) all_ = true ∧
    lgo (stTh th0) (.bruAll 8 0 0) all_ = true ∧ lgo (stTh th0) (.bruNone 8 0 0) all_ = true ∧ lgo (stTh th0) (.jmp 8) all_ = true := by
  decide +kernel

theorem test_witness_ExitLeavesTheBlock : lgo (st2 th0 th0) .exit (fun s is _ => (s.block is.blk).isSome) = true := by decide +kernel

theorem test_witness_Knots :
    (let s := st { blk0 with knots := [(3, { expected := [1], arrived := [1], t0 := 5 })] }
     lgo s (.ktie 3) (fun s is _ => (s.block is.blk).isSome) = true ∧ lgo s (.join 3) (fun s is _ => (s.block is.blk).isSome) = true ∧
     (lgo s (.kreset 3) fun s is ms => (s.block is.blk).any fun b =>
       ms.all (fun m => !(b.knot 3).arrived.contains m.tlin) && decide (b.knot 3).arrived.Nodup) = true) := by decide +kernel

/-- DJMP and DCALL of entry 0 in lanes and of entry 1 in front code, a call with a full and an empty return stack, and the
front thread's branches. -/
theorem test_witness_ControlFlowInFrontCode :
    (let f := { blk0.front with regs := [0, 1] ++ List.replicate 62 0 }
     let full := { blk0.front with stack := List.replicate 32 0 }
     (lgo (tabled (stTh th0)) (.djmp 1) fun s is ms => ms.all fun m =>
       (tableTarget s is.core (is.block s) 0 (m.v.a.toNat % 2 ^ 32)).isSome) = true ∧
     (fgo (tabled (stFront f)) (.djmp 1) fun s is b => (tableTarget s is.core b 1 (is.v.a.toNat % 2 ^ 32)).isSome) = true ∧
     (fgo (tabled (stFront f)) (.dcall 1) fun s is b => (tableTarget s is.core b 1 (is.v.a.toNat % 2 ^ 32)).isSome) = true ∧
     [.bruAny 8 0 0, .bruAll 8 0 0, .bruUni 8 0 0, .bruNone 8 0 0, .jmp 8, .call 8].all (fun i => fgo (stFront f) i fun _ _ _ => true) = true ∧
     (fgo (stFront full) (.call 8) fun s _ b => decide (b.front.stack.length = 32) && frontCanTrap s b) = true ∧
     (fgo (stFront full) .ret fun _ _ b => decide (b.front.stack ≠ [])) = true ∧
     (fgo (stFront f) .ret fun s _ b => decide (b.front.stack = []) && frontCanTrap s b) = true) := by decide +kernel

/-! ## Witnesses: calls, barriers, traps, control registers -/

/-- A line of the L1 that the core owns, all its bytes valid. -/
def line1 (coh : BitVec 2) (data : BitVec 1024) : L1Line := { coh := coh, writable := true, valid := BitVec.allOnes 128, data := data }

/-- The core of block 0 with fields changed. -/
def cored (s : State) (f : Core → Core) : State := s.modCore 0 f

/-- A lane stack from 0x30000 to 0x30080, its top slot in the L1. -/
def stack (csp : Quad) (v : Nat) : State :=
  cored (stTh { th0 with csp := csp, csplo := 0x30000, csphi := 0x30080 }) fun c =>
    { c with l1 := [(0x600, line1 0 (BitVec.ofNat 1024 v))] }

/-- A push below CSPLO and at it, by CALL and DCALL; a pop at CSPHI, of an even address and of an odd one. -/
theorem test_witness_CallsAndReturnsInLanes :
    (sgo (stack 0x30000 0) (.call 8) fun s is m th =>
      decide (th.csp - 8 < th.csplo) && canTrap s is (soleTrap is m causeProtect (th.csp - 8) 1)) = true ∧
    (sgo (stack 0x30008 0) (.call 8) fun s is _ th => decide (th.csplo ≤ th.csp - 8) &&
      reaches s is.core (is.block s).ctx (th.csp - 8) 8 8 .store 0x30000 0 && unhindered s is.core is.blk (is.block s) &&
      decide ((tget (s.core is.core).l1 0x600).isSome)) = true ∧
    (sgo (tabled (stack 0x30008 0)) (.dcall 1) fun s is m _ => (tableTarget s is.core (is.block s) 0 (m.v.a.toNat % 2 ^ 32)).isSome) = true ∧
    (sgo (stack 0x30080 0) .ret fun s is m th => decide (th.csphi ≤ th.csp) && canTrap s is (soleTrap is m causeProtect th.csp 2)) = true ∧
    ([0x20000, 0x20001].all fun v => sgo (stack 0x30000 v) .ret fun s is m th => decide (th.csp < th.csphi) &&
      reaches s is.core (is.block s).ctx th.csp 8 8 .pop 0x30000 0 && unhindered s is.core is.blk (is.block s) &&
      (tget (s.core is.core).l1 0x600).any (fun l => serves l 0x30000 8 0 v) &&
      canTrap s is (soleTrap is m causeMisalign (BitVec.ofNat 64 v) 0)) = true := by decide +kernel

/-- Arrivals in live mode and with the counts 1 and 1,024; counts 0 and 1,025; and BAR.WAIT before an arrival, in its phase and
after it. -/
theorem test_witness_BarriersInLanes :
    ([0, 1, 1024, 1025].all fun n => [.barSync 1 1 0, .barArrive 1 1 0].all fun i => sgo (stTh (regs4 n 0 0 0)) i fun s is m th =>
      decide (m.v.a.toNat % 2 ^ 32 = n.toNat) && (s.block is.blk).isSome && !bit th.arv 0 &&
      canTrap s is (soleTrap is m causeIllopnd 0 0)) = true ∧
    sgo (stTh th0) (.barSync 0x40 1 0) (fun _ _ _ _ => true) = true ∧
    sgo (stTh th0) (.barWait 1 0) (fun _ _ _ th => !bit th.arv 0) = true ∧
    (sgo (stTh { th0 with arv := 1 }) (.barWait 1 0) fun s is _ th => bit th.arv 0 && decide (bit th.aph 0 = ((is.block s).bar 0).phase)) = true ∧
    (sgo (stTh { th0 with arv := 1, aph := 1 }) (.barWait 1 0) fun s is _ th =>
      bit th.arv 0 && decide (bit th.aph 0 ≠ ((is.block s).bar 0).phase)) = true := by decide +kernel

theorem test_witness_SoftwareTraps :
    ([.trap 1, .bkpt].all fun i => lgo (stTh th0) i fun s is ms => ms.any Member.on &&
      canTrap s is (collected ms fun m => some ⟨m.tlin, causeBkpt, is.g.start, 0, 0, none⟩)) = true ∧
    ([.trap 1, .bkpt].all fun i => fgo (stFront blk0.front) i fun s _ b => frontCanTrap s b) = true := by decide +kernel

theorem test_witness_ReturnFromTheHandler :
    (let h : TrapRegs := { tstat := 1, tpc := 0x10100 }
     (lgo (stTh { th0 with trap := h }) .rett fun s is ms => ms.all Member.on && ms.all fun m =>
       bit (is.thread s m.tlin).trap.tstat 0 && !bit (is.thread s m.tlin).trap.tpc 0) = true ∧
     (sgo (stTh th0) .rett fun s is m th => !bit th.trap.tstat 0 && canTrap s is (soleTrap is m causeIllegal 0 0)) = true ∧
     (fgo (stFront { blk0.front with trap := h }) .rett fun _ _ b => bit b.front.trap.tstat 0 && !bit b.front.trap.tpc 0) = true ∧
     (fgo (stFront blk0.front) .rett fun s _ b => !bit b.front.trap.tstat 0 && frontCanTrap s b) = true) := by decide +kernel

/-- TVEC 0, and a thread in its handler. -/
theorem test_witness_FatalTrapStopsTheContext :
    (lgo { stTh th0 with ctxs := [(0, placeCtx)] } .bkpt fun s is ms => !ms.isEmpty && ms.all Member.on &&
      (s.block is.blk).any fun b => decide (b.dyer = none) && (tget s.ctxs b.ctx).isSome && decide ((s.ctxOf b).tvec = 0)) = true ∧
    (lgo (stTh { th0 with trap := { tstat := 1 } }) .bkpt fun s is ms => !ms.isEmpty && ms.all fun m =>
      m.on && bit (is.thread s m.tlin).trap.tstat 0) = true := by decide +kernel

theorem test_witness_SleepWaits : lgo (stTh th0) (.sleep 1) all_ = true ∧ fgo (stFront blk0.front) (.sleep 1) (fun _ _ _ => true) = true := by
  decide +kernel

theorem test_witness_ControlRegisters : lgo (stTh th0) (.csrr 8 2) some_ = true ∧ lgo (stTh th0) (.flgr 1) some_ = true ∧
    sgo (stTh th0) (.csrw 0x48 1) (fun _ _ _ _ => true) = true ∧ sgo (stTh th0) (.csrw 1 2) (fun _ _ _ _ => true) = true ∧
    lgo (stTh th0) (.flgc 1) some_ = true ∧ fgo (stFront blk0.front) (.csrr 0x40 1) (fun _ _ _ => true) = true ∧
    fgo (stFront blk0.front) (.csrw 0x18 1) (fun _ _ _ => true) = true ∧ blk0.place.isSome = true := by decide +kernel

/-! ## Witnesses: global memory -/

/-- A thread whose v2:v3 holds 0x30000 and whose v4 holds 7. -/
def near : Thread := regs4 0 0x30000 0 7

/-- The heap window at a COH: local HBM, and host memory for COH 3. -/
def cohed (c : BitVec 2) (s : State) : State :=
  { s with ctxs := [(0, { ctx0 with hwcoh := c, hwo := if c = 3 then 2 ^ 51 else 0 })] }

/-- The physical address of 0x30000. -/
def paOf (c : BitVec 2) : Nat := (if c = 3 then 2 ^ 51 else 0) + 0x30000

/-- The line at 0x30000 in the L1. -/
def cached (c : BitVec 2) (s : State) : State := cored (cohed c s) fun k => { k with l1 := [(paOf c / 128, line1 c 0)] }

/-- What the statements of memory ask of an access of `n` bytes at 0x30000. -/
def access (k : AccKind) (n : Nat) (c : BitVec 2) (s : State) (is : Issue) : Bool :=
  reaches s is.core (is.block s).ctx 0x30000 n n k (paOf c) c && unhindered s is.core is.blk (is.block s)

/-- Neither the line nor an entry for it is there, and an entry is free. -/
def missing (s : State) (core : Nat) (c : BitVec 2 := 0) : Bool :=
  decide (tget (s.core core).l1 (paOf c / 128) = none) && !hasEntry (s.core core) (paOf c / 128) && entryFree (s.core core) && decide (s.net = [])

/-- The L1 serves `n` bytes at 0x30000. -/
def hits (s : State) (core n : Nat) (c : BitVec 2) : Bool := (tget (s.core core).l1 (paOf c / 128)).any fun l => serves l 0x30000 n c 0 && l.writable

theorem test_witness_LoadsInLanes :
    (sgo (cached 0 (stTh near)) (.ld 0 2 0 0 2 4) fun s is _ _ => access .load 4 0 s is && hits s is.core 4 0) = true ∧
    (sgo (cached 3 (stTh near)) (.ld 0 3 0 0 2 4) fun s is _ _ => access .load 8 3 s is && hits s is.core 8 3) = true ∧
    (sgo (cohed 1 (stTh near)) (.ld 0 2 0 0 2 4) fun s is _ _ => access .load 4 1 s is && missing s is.core) = true ∧
    (sgo (cohed 1 (stTh near)) (.ld 0 2 2 1 2 4) fun s is _ _ => access .load 4 1 s is && missing s is.core &&
      decide (scopeOf is.g 2 ≠ 0)) = true ∧
    (sgo (cohed 2 (stTh near)) (.ld 0 2 0 0 2 4) fun s is _ _ => access .load 4 2 s is && missing s is.core) = true := by decide +kernel

theorem test_witness_StoresInLanes :
    ([0, 1, 3].all fun c => sgo (cached c (stTh near)) (.st 0 2 0 0 2 4) fun s is _ _ => access .store 4 c s is && hits s is.core 4 c) = true ∧
    ([0, 3, 2].all fun c => sgo (cohed c (stTh near)) (.st 0 2 0 0 2 4) fun s is _ _ => access .store 4 c s is && missing s is.core c) = true ∧
    (sgo (cohed 0 (stTh near)) (.st 0 2 3 2 2 4) fun s is _ _ => access .store 4 0 s is && releasable s is.blk s.nextAcc) = true := by
  decide +kernel

theorem test_witness_Atomics :
    ([Instr.atom 1 0 0 0 2 4, .red 1 0 0 0 2 4].all fun i => sgo (cached 0 (stTh near)) i fun s is _ _ =>
      access (if i = .atom 1 0 0 0 2 4 then .atomic 0 1 else .reduce 0 1) 4 0 s is && hits s is.core 4 0 && decide (scopeOf is.g 0 = 0)) = true ∧
    ([1, 2].all fun sc => sgo (cohed 0 (stTh near)) (.atom 1 0 sc 3 2 4) fun s is _ _ => access (.atomic 0 1) 4 0 s is &&
      missing s is.core && decide (scopeOf is.g sc = sc.toNat) && releasable s is.blk s.nextAcc) = true ∧
    (sgo (cohed 2 (stTh near)) (.atom 1 0 0 0 2 4) fun s is _ _ => access (.atomic 0 1) 4 2 s is && missing s is.core) = true := by
  decide +kernel

/-- A command of a Copy Engine that writes 128 bytes from 0x30000. -/
def lash0 (s : State) : State := cored s fun c =>
  { c with cmds := [{ id := 9, blk := 7, path := 0, kind := .mxzero 0, dsts := [.global 0 0x30000 0x30080], accepted := true }] }

/-- A misaligned address, 2^57, a lashed one, a read-only page, and one that no TLB entry maps. -/
theorem test_witness_AccessChecksInLanes :
    (sgo (stTh (regs4 0 0x30001 0 7)) (.st 0 2 0 0 2 4) fun s is m _ => canTrap s is (soleTrap is m causeMisalign 0x30001 0)) = true ∧
    (sgo (stTh (regs4 0 0 0x2000000 7)) (.st 0 2 0 0 2 4) fun s is m th => decide ((th.pair 2).toNat = 2 ^ 57) &&
      canTrap s is (soleTrap is m causeProtect (th.pair 2) 3)) = true ∧
    (sgo (lash0 (stTh near)) (.ld 0 2 0 0 2 4) fun s is _ _ =>
      decide (lashedBy (s.core is.core) (.global 0 0x30000 0x30004) false = some 0)) = true ∧
    (sgo { stTh near with ctxs := [(0, { ctx0 with hww := false })] } (.st 0 2 0 0 2 4) fun s is _ _ =>
      match translateTlb s (s.core is.core).dtlb 0 .write 0x30000 with
      | .protect _ => true
      | _ => false) = true ∧
    (sgo { stTh near with ctxs := [(0, { ctx0 with hwl := 0 })] } (.ld 0 2 0 0 2 4) fun s is _ _ =>
      decide (translateTlb s (s.core is.core).dtlb 0 .read 0x30000 = .miss)) = true ∧
    (globalAccess (.ld 0 2 0 0 2 4) near { start := 0, next := 0 }).isSome = true := by decide +kernel

/-- The front thread with s2 = 0x30000 and s4 = 7. -/
def nearFront : Front := { blk0.front with regs := [0, 0, 0x30000, 0, 7] ++ List.replicate 59 0 }

theorem test_witness_AccessesInFrontCode :
    (fgo (cached 0 (stFront nearFront)) (.ld 0 2 0 0 2 4) fun s is b => unhindered s is.core is.blk b &&
      reaches s is.core b.ctx 0x30000 4 4 .load 0x30000 0 && hits s is.core 4 0) = true ∧
    (fgo (cohed 0 (stFront nearFront)) (.ld 0 2 0 0 2 4) fun s is b => unhindered s is.core is.blk b &&
      reaches s is.core b.ctx 0x30000 4 4 .load 0x30000 0 && missing s is.core) = true ∧
    (fgo (cached 0 (stFront nearFront)) (.st 0 2 0 2 2 4) fun s is b => unhindered s is.core is.blk b &&
      reaches s is.core b.ctx 0x30000 4 4 .store 0x30000 0 && hits s is.core 4 0 && releasable s is.blk s.nextAcc) = true ∧
    ([Instr.atom 1 0 1 0 2 4, .red 1 0 2 2 2 4].all fun i => fgo (cohed 0 (stFront nearFront)) i fun s is b =>
      unhindered s is.core is.blk b && reaches s is.core b.ctx 0x30000 4 4 (.atomic 0 1) 0x30000 0 && missing s is.core &&
      releasable s is.blk s.nextAcc) = true := by decide +kernel

/-- A thread with a pending access, and a core with a command on path 2. -/
def waitingAccess (s : State) : State := cored s fun c =>
  { c with pend := [{ id := 3, blk := 0, who := some 0, grp := 0, kind := .load, va := 0, size := 4 }, { id := 4, blk := 0, who := none, grp := 0, kind := .load, va := 0, size := 4 }]
           cmds := [{ id := 9, blk := 0, path := 2, kind := .mxzero 0, accepted := true }] }

theorem test_witness_FencesAndRangeWords :
    ([1, 2, 3].all fun r => lgo (stTh th0) (.fence 3 r) fun s is ms => ms.all fun m => fenceOk s is.blk (some m.tlin) r.toNat 3 s.nextAcc) = true ∧
    (lgo (waitingAccess (stTh th0)) (.fence 3 1) fun s is ms => (ms.any fun m => !fenceOk s is.blk (some m.tlin) 1 3 s.nextAcc) &&
      (tget ((s.core is.core).quad is.quad).slots is.slot).isSome) = true ∧
    (lgo (waitingAccess (stTh th0)) (.drain 2) fun s is ms => ms.any Member.on &&
      (tget ((s.core is.core).quad is.quad).slots is.slot).isSome && (s.core is.core).cmds.any fun c => c.path = 2) = true ∧
    (fgo (stFront blk0.front) (.fence 3 3) fun s is _ => fenceOk s is.blk none 3 3 s.nextAcc) = true ∧
    (fgo (waitingAccess (stFront blk0.front)) (.fence 3 1) fun s is _ => !fenceOk s is.blk none 1 3 s.nextAcc) = true ∧
    (fgo (waitingAccess (stFront blk0.front)) (.drain 2) fun s is _ => (s.core is.core).cmds.any fun c => c.path = 2) = true ∧
    (fgo { st { blk0 with faults := [⟨1, causeTile, 0, 3, 0, false⟩] } with cur := .front 0 0 } (.drain 1) fun s _ b =>
      (takeRecord b fun q => q = 1).isSome && frontCanTrap s b) = true ∧
    (sgo (stTh (regs4 0 0 0x2000000 7)) (.pref 0 0 2 0) fun s is m th => canTrap s is (soleTrap is m causeProtect (th.pair 2) 3)) = true ∧
    (sgo (stTh near) (.pref 0 0 2 0) fun s is _ _ => missing s is.core && decide (translate s 0 .read 0x30000 = .ok 0x30000 0) &&
      decide (rangeOf s 0 0x30000 = none)) = true ∧
    (sgo { stTh near with ctxs := [(0, { ctx0 with hwl := 0 })] } (.pref 0 0 2 0) fun s _ _ _ =>
      match translate s 0 .read 0x30000 with
      | .ok _ _ => false
      | _ => true) = true ∧
    ([Instr.wbr 3 2 4, .invr 3 2 4].all fun i =>
      sgo (cored (cohed 1 (stTh near)) fun c => { c with l1 := [(0x600, { line1 1 0 with dirty := 1 })] }) i fun s is _ th =>
        decide ((th.reg 4).toNat = 7) && decide (translate s 0 .write 0x30000 = .ok 0x30000 1) && decide (scopeOf is.g 3 ≠ 0) &&
        decide (lashedBy (s.core is.core) (.global 0 0x30000 0x30007) true = none)) = true ∧
    ([Instr.wbr 0 2 4, .invr 0 2 4].all fun i => sgo (stTh near) i fun _ is _ _ => decide (scopeOf is.g 0 = 0)) = true := by decide +kernel

/-! ## Witnesses: tiles, skeins, procedural ranges -/

/-- A shape word: level, element size code, columns, rows. -/
def shaped (ac eb cols rows : Nat) : Word := BitVec.ofNat 32 (ac * 2 ^ 31 + eb * 2 ^ 26 + (cols - 1) * 2 ^ 13 + (rows - 1))

/-- A scratchpad tile of 256 bytes whose first word is full, and an accumulator tile of 32 by 8 words. -/
def sp0 : Tile := { shape := shaped 0 2 4 16, full := [0] }
def ac0 : Tile := { shape := shaped 1 2 8 32 }

/-- The thread's block holds the tile at handle 3. -/
def tiled (t : Thread) (x : Tile) : State := st { blk0 with threads := [(0, t)], tiles := [(3, x)] }

/-- Core 1 exports a tile of block 7 in slot 3; the block is resident there or swapped out. -/
def peered (x : Tile) (here : Bool) (s : State) : State :=
  { s with cores := s.cores ++ [(1, { exports := [(3, (7, 3))] })]
           blocks := s.blocks ++ [(7, { blk0 with place := if here then some ⟨1, 0, 0, 0⟩ else none, tiles := [(3, { x with slot := some 3 })] })] }

/-- The group holds an EXT.C with this third source. -/
def withC (c : Nat) (s : State) : State := grouped s fun g => { g with exts := [.c (BitVec.ofNat 19 c)] }

/-- A tile access of one thread reaches its tile. -/
def tgo (s : State) (i : Instr) (p : State → Issue → Nat → Spot → Bool := fun _ _ _ _ => true) : Bool :=
  sgo s i fun s is m th => (tileAccess i th).any fun (k, h, n, span) =>
    let o := m.v.a.toNat % 2 ^ 32
    (spotOf s is.core is.blk h.toNat (o / 2 ^ 30 % 4)).any fun x => reachesTile s is.core is.blk h.toNat o n span k x && p s is o x

/-- A tile access of one thread takes a trap. -/
def ttraps (s : State) (i : Instr) (c : BitVec 8) (d : Nat) (p : State → Issue → Nat → TileAcc → Nat → Nat → Nat → Bool) : Bool :=
  sgo s i fun s is m th => (tileAccess i th).any fun (k, h, n, span) =>
    let o := m.v.a.toNat % 2 ^ 32
    p s is o k h.toNat n span && canTrap s is (soleTrap is m c (BitVec.ofNat 64 o) d)

/-- The tile that an access names. -/
def named (s : State) (is : Issue) (o h : Nat) (p : Spot → Bool) : Bool := (spotOf s is.core is.blk h (o / 2 ^ 30 % 4)).any p

theorem test_witness_ScratchpadAccesses :
    ([0, 252].all fun o => tgo (tiled (regs4 o 0 0 7) sp0) (.lds 0 3 1 10)) = true ∧
    tgo (peered sp0 true (tiled (regs4 0x400000FC 0 0 7) sp0)) (.lds 0 3 1 10) (fun s _ _ p => ((s.block p.blk).bind Block.place).isSome) = true ∧
    tgo (peered sp0 false (tiled (regs4 0x40000000 0 0 7) sp0)) (.lds 0 3 1 10) (fun s _ _ p => ((s.block p.blk).bind Block.place).isNone) = true ∧
    tgo (tiled (regs4 252 0 0 7) sp0) (.sts 0 3 1 4) = true ∧ tgo (withC 0x20 (tiled (regs4 248 0 0 7) sp0)) (.atoms 1 3 1 4) = true ∧
    ttraps (tiled (regs4 2 0 0 7) sp0) (.lds 0 3 1 10) causeMisalign 0 (fun _ _ o _ _ n _ => decide (o % n ≠ 0)) = true ∧
    ttraps (tiled (regs4 0 0 0 7) sp0) (.lds 0 4 1 10) causeTile 1 (fun s is o _ h _ _ => !named s is o h fun _ => true) = true ∧
    ([0x100, 0x100000].all fun o => ttraps (tiled (regs4 o 0 0 7) sp0) (.sts 0 3 1 4) causeTile 2 fun s is o _ h _ span =>
      named s is o h fun p => !decide (o / 2 ^ 20 % 2 ^ 10 = 0 ∧ o % 2 ^ 20 + span ≤ p.tile.size)) = true ∧
    ([(.sts 0 3 1 4, id), (.atoms 0 3 1 4, withC 0)].all fun (i, f) => ttraps (f (peered sp0 true (tiled (regs4 0x40000000 0 0 7) sp0))) i causeTile 7
      fun s is o _ h _ _ => named s is o h fun _ => true) = true ∧
    ttraps (withC 0 (tiled (regs4 0 0 0 7) ac0)) (.atoms 0 3 1 4) causeTile 16 (fun s is o _ h _ _ => named s is o h fun p => p.tile.ac) = true ∧
    ttraps (peered sp0 true (tiled (regs4 0x40000000 0 0 7) sp0)) (.ldf 0 3 1 10) causeFemisuse 2 (fun s is o _ h _ _ =>
      named s is o h fun _ => true) = true ∧
    ttraps (tiled (regs4 0 0 0 7) ac0) (.ldf 0 3 1 10) causeFemisuse 1 (fun s is o _ h _ _ => named s is o h fun p => p.tile.ac) = true ∧
    ttraps (tiled (regs4 0 0 0 7) sp0) (.stx 3 3 1 4) causeFemisuse 3 (fun s is o _ h n _ => named s is o h fun p =>
      !p.tile.ac && decide (n = 2)) = true ∧
    (let s := cored (tiled (regs4 0 0 0 7) sp0) fun c =>
      { c with cmds := [{ id := 9, blk := 0, path := 0, kind := .mxzero 0, dsts := [.tile 0 3 0 256], accepted := true }] }
     ttraps s (.lds 0 3 1 10) causeLashed 64 fun s is o k h _ span =>
      named s is o h fun p => decide (tileLash s o span k p = some 0)) = true := by decide +kernel

theorem test_witness_FullEmptyAccesses :
    ([(0, true), (4, false)].all fun (o, full) => [Instr.ldf 0 3 1 10, .lde 0 3 1 10, .stf 0 3 1 4, .stx 0 3 1 4].all fun i =>
      tgo (tiled (regs4 (BitVec.ofNat 32 o) 0 0 7) sp0) i fun _ _ o p => decide (p.tile.full.contains (o % 2 ^ 20 / 4) = full)) = true ∧
    tgo (tiled (regs4 0 0 0 0x80000040) sp0) (.feset 3 1 4) = true ∧
    (sgo (tiled (regs4 0 0 0 0x40000000) sp0) (.feset 3 1 4) fun s is m th => decide (field (th.reg 4) 30 18 ≠ 0) &&
      canTrap s is (soleTrap is m causeIllopnd 0 0)) = true ∧
    (let s := tiled { th0 with status := .waiting (.fullEmpty 3 4 2) } sp0
     (s.block 0).any fun b => (tget b.tiles 3).isSome) = true := by decide +kernel

/-- A launch whose record has bits changed. -/
def launched (s : State) (f : BitVec 1024 → BitVec 1024) : State := { s with launches := [(0, { record := f placeRecord, next := 1 })] }

/-- Handles 3, 4 and more hold tiles. -/
def tiles (t : Thread) (xs : Tab Tile) : State := st { blk0 with threads := [(0, t)], tiles := xs }

/-- A core without room for another tile entry, or another AC tile. -/
def crowded (s : State) (n ac : Nat) : State :=
  { s with blocks := s.blocks ++ [(7, { blk0 with tiles := (List.range n).map fun k => (k, if k < ac then ac0 else sp0) })] }

def tileOf (s : State) (is : Issue) (h : Nat) : Option Tile := s.tile is.blk h

/-- A command on the whole of tile 3. -/
def lashTile (s : State) : State := cored s fun c =>
  { c with cmds := [{ id := 9, blk := 0, path := 0, kind := .mxzero 0, dsts := [.tile 0 3 0 256], accepted := true }] }

theorem test_witness_TileManagement :
    ([0x40, 0x43].all fun q => lgo (tiled th0 sp0) (.tinfo 3 q 10) fun _ _ _ => true) = true ∧
    (sgo (tiles (regs4 0x40000000 0 0 7) []) (.talloc 3 1 10) fun s is m _ => decide (shapeOk (m.v.a.truncate 32) = false) &&
      canTrap s is (soleTrap is m causeTile 3 6)) = true ∧
    (sgo (tiled (regs4 sp0.shape 0 0 7) sp0) (.talloc 3 1 10) fun s is m _ => decide (shapeOk (m.v.a.truncate 32) = true) &&
      (tileOf s is 3).any fun x => decide (x.shape = m.v.a.truncate 32)) = true ∧
    (sgo (tiled (regs4 sp0.shape 0 0 7) ac0) (.talloc 3 1 10) fun s is m _ => decide (shapeOk (m.v.a.truncate 32) = true) &&
      ((tileOf s is 3).any fun x => decide (x.shape ≠ m.v.a.truncate 32)) && canTrap s is (soleTrap is m causeTile 3 3)) = true ∧
    (sgo (launched (tiles (regs4 (shaped 0 2 4 17) 0 0 7) []) fun r => r - (786432 - 256) <<< 0x60) (.talloc 3 1 10)
      fun s is m _ => decide ((s.launchOf (is.block s)).scrb = 256) && decide (shapeBytes (m.v.a.truncate 32) = 272) &&
      canTrap s is (soleTrap is m causeTile 3 4)) = true ∧
    (sgo (crowded (tiles (regs4 sp0.shape 0 0 7) ((List.range 9).map fun k => (k + 4, { sp0 with shape := 0 }))) 250 0) (.talloc 3 1 10)
      fun s is m _ => decide (256 ≤ entriesUsed s is.core) && canTrap s is (soleTrap is m causeTile 3 5)) = true ∧
    (sgo (launched (crowded (tiles (regs4 ac0.shape 0 0 7) []) 64 64) fun r => r - 64 <<< 0x48) (.talloc 3 1 10) fun s is _ _ =>
      decide (acFree s is.core is.blk 0 (is.block s) = false) && decide ((is.block s).tiles.length < 8)) = true ∧
    ([sp0.shape, ac0.shape].all fun w => sgo (tiles (regs4 w 0 0 7) []) (.talloc 3 1 10) fun s is m _ =>
      shapeOk (m.v.a.truncate 32) && acFree s is.core is.blk 0 (is.block s)) = true ∧
    (sgo (tiles th0 []) (.tfree 3) fun s is _ _ => (tileOf s is 3).isNone) = true ∧
    (sgo (tiled th0 sp0) (.tfree 3) fun s is _ _ => decide (lashedBy (s.core is.core) (.tile is.blk 3 0 256) true = none)) = true ∧
    (sgo (st { blk0 with threads := [(0, th0), (1, { th0 with status := .waiting (.fullEmpty 3 4 2) })], tiles := [(3, sp0)] }) (.tfree 3)
      fun s is _ _ => decide (((is.block s).thread 1).map Thread.status = some (.waiting (.fullEmpty 3 4 2))) &&
      canTrap s is [⟨1, causeTile, BitVec.ofNat 57 placePc, BitVec.ofNat 64 4, 9, none⟩]) = true ∧
    (sgo (lashTile (tiled th0 sp0)) (.tfree 3) fun s is m _ =>
      decide (lashedBy (s.core is.core) (.tile is.blk 3 0 256) true = some 0) && canTrap s is (soleTrap is m causeLashed 0 96)) = true := by
  decide +kernel

/-- Slot 5 of core 0 exports a tile. -/
def exporting (s : State) (e : Nat × Nat) : State := cored s fun c => { c with exports := [(5, e)] }

theorem test_witness_TileExports :
    (let go := fun (s : State) (p : State → Issue → Member → Bool) => sgo s (.texport 3 1) fun s is m _ => p s is m
     let bad := fun (c : BitVec 8) (a d : Nat) (s : State) (is : Issue) (m : Member) => canTrap s is (soleTrap is m c (BitVec.ofNat 64 a) d)
     let sp1 := { sp0 with slot := some 5 }
     let sp2 := { sp0 with slot := some 6 }
     go (tiled (regs4 0x80 0 0 0) sp0) (bad causeIllopnd 0 0) ∧ go (tiles (regs4 0x45 0 0 0) []) (bad causeTile 3 1) ∧
     go (tiled (regs4 0x45 0 0 0) ac0) (bad causeTile 3 10) ∧
     (go (exporting (tiled (regs4 0x45 0 0 0) sp1) (0, 3)) fun s is _ => decide (tget (s.core is.core).exports 5 = some (is.blk, 3))) ∧
     (go (exporting (tiled (regs4 0x45 0 0 0) sp0) (7, 3)) fun s is m =>
       decide (tget (s.core is.core).exports 5 = some (7, 3)) && bad causeTile 3 8 s is m) ∧
     (go (tiled (regs4 0x45 0 0 0) sp0) fun s is _ => decide (tget (s.core is.core).exports 5 = none)) ∧
     (go (tiled (regs4 0x45 0 0 0) sp2) fun s is _ => decide (lashedBy (s.core is.core) (.tile is.blk 3 0 256) true = none)) ∧
     (go (lashTile (tiled (regs4 0x45 0 0 0) sp2)) (bad causeLashed 0 96)) ∧
     (go (tiled (regs4 5 0 0 0) sp0) fun s is _ => decide (tget (s.core is.core).exports 5 = none)) ∧
     (go (exporting (tiled (regs4 5 0 0 0) sp0) (7, 3)) fun s is _ => decide (tget (s.core is.core).exports 5 = some (7, 3))) ∧
     (go (exporting (tiled (regs4 5 0 0 0) sp1) (0, 3)) fun s is _ => decide (tget (s.core is.core).exports 5 = some (is.blk, 3))) ∧
     (go (lashTile (exporting (tiled (regs4 5 0 0 0) sp1) (0, 3))) (bad causeLashed 0 96))) := by decide +kernel

/-- The hanks of core 0. -/
def hanked (t : Thread) (h : List Hank) (q : List SkeinItem := []) : State := cored (stTh t) fun c => { c with hanks := h, skeinQ := q }

theorem test_witness_SkeinWordsInLanes :
    (let go := fun (t : Thread) (h : List Hank) (q : List SkeinItem) (is : List Instr) => is.all fun i => sgo (hanked t h q) i fun _ _ _ _ => true
     let words : List Instr := [.sktake 2 1 10, .skgive 2 1, .skreadx 1 10, .skinit 2 1]
     let early : SkeinItem := ⟨0, 5, ⟨0, 0, 9, 0, .readx, false⟩, true⟩
     (words.all fun i => sgo (hanked (regs4 256 9 0 0) []) i fun s is m _ => canTrap s is (soleTrap is m causeSkein 256 1)) ∧
     go (regs4 255 0 0 0) [] [] words ∧ go (regs4 5 0 0 0) [⟨0, 5, 9, false, false⟩] [] words ∧
     go (regs4 5 9 0 0) [⟨0, 5, 9, false, false⟩] [] words ∧ go (regs4 5 10 0 0) [⟨0, 5, 9, false, false⟩] [] words ∧
     go (regs4 5 10 0 0) [⟨0, 5, 9, true, false⟩] [] words ∧ go (regs4 5 10 0 0) [⟨0, 5, 9, false, true⟩] [] words ∧
     go (regs4 5 65527 0 0) [⟨0, 5, 9, false, false⟩] [] words ∧ go (regs4 5 65528 0 0) [⟨0, 5, 9, false, false⟩] [] words ∧
     go (regs4 5 10 0 0) [] [] words ∧ go (regs4 5 10 0 0) [] [early] words) := by decide +kernel

/-- A procedural range of 64 KiB blocks from 0x100000, its first block in a state. -/
def ranged (f : FillBlock) (s : State) : State :=
  { s with ctxs := [(0, { ctx0 with ranges := [(3, { base := 0x100000, size := 0x20000, kimg := 0, arg := 0, blksh := 16, dx := 1, budget := 2, blocks := [(0x100000, f)] })] })] }

def dyeing (d : Dyer) (a : Word) : State := st { blk0 with threads := [(0, regs4 0 a 0 0)], dyer := some d }

theorem test_witness_ProceduralWordsInLanes :
    ([0xFFFFF, 0x100000, 0x11FFFF, 0x120000].all fun a => lgo (ranged {} (stTh (regs4 0 a 0 0))) (.prq 2 10) fun _ _ _ => true) = true ∧
    (sgo (stTh near) (.prdone 2) fun s is m _ => decide ((is.block s).dyer = none) && canTrap s is (soleTrap is m causeIllopnd 0 0)) = true ∧
    ([true, false].all fun d => sgo (dyeing ⟨0, 3, 0x100000, 1, 0, d, false⟩ 0x100000) (.prdone 2) fun s is _ th =>
      decide ((is.block s).dyer = some ⟨0, 3, 0x100000, 1, 0, d, false⟩) && decide ((th.pair 2).toNat = 0x100000)) = true ∧
    ([(0, Fill.filled), (1, .filled), (1, .steeping)].all fun (n, f) =>
      sgo (ranged { fill := f } (stTh (regs4 0 0x10FFFF 0 n))) (.previct 4 2) fun s is m th => !notHead s (is.block s) &&
        decide (m.v.b.toNat = n.toNat) && decide (((fillsIn s 0 (th.pair 2).toNat ((th.pair 2).toNat + n.toNat)).map fun x => x.2.2.fill) = [f])) = true ∧
    (sgo (launched { stTh near with blocks := [(0, { blk0 with b := 1 })] } fun r => r ||| 1 <<< 0x1C8) (.previct 4 2) fun s is _ _ =>
      notHead s (is.block s)) = true ∧
    (sgo (cached 0 (stTh near)) (.prdef 2 10) fun s is _ _ => unhindered s is.core is.blk (is.block s) &&
      reaches s is.core 0 0x30000 64 64 .prdef 0x30000 0 && (tget (s.core is.core).l1 0x600).any fun l => serves l 0x30000 64 0 0) = true ∧
    (sgo (cohed 0 (stTh near)) (.prdef 2 10) fun s is _ _ => unhindered s is.core is.blk (is.block s) &&
      reaches s is.core 0 0x30000 64 64 .prdef 0x30000 0 && missing s is.core) = true := by decide +kernel

/-! ## Witnesses: the Matrix Engine and the front thread's words -/

/-- An instruction whose participants trap alike, and what thread 0 then holds. -/
def mtraps (s : State) (i : Instr) (c : BitVec 8) (a d : Nat) : Bool :=
  (lgo s i fun s is ms => ms.any Member.on && canTrap s is (collected ms (partTrap is c a d))) &&
  next i s fun t => ((t.block 0).bind (Block.thread · 0)).any fun th =>
    decide (th.trap.tcause = c.zeroExtend 32 ∧ th.trap.taddr = BitVec.ofNat 64 a ∧ th.trap.tinfo.toNat % 65536 = d)

/-- A warp of threads 0 and 1 whose block holds a tile at handle 3. -/
def pairOn (t u : Thread) (x : Tile) : State :=
  { tiled t x with
    blocks := [(0, { blk0 with threads := [(0, t), (1, { u with status := .active 0 1 })], tiles := [(3, x)] })]
    cores := [(0, { quads := [(0, { slots := [(0, { blk := 0, members := [(0, 0), (1, 1)] })] })] })] }

theorem test_witness_MatrixTokensAndElements :
    ([Instr.mxacq 3, .mxrel 3, .mxzero 3, .mxvc 1 3, .mxld 1 3 10, .mxst 1 3 10, .mxscale 1 3, .mmaC8 10 8 3].all fun i =>
      mtraps (tiles th0 []) i causeTile 3 1 && mtraps (tiled th0 sp0) i causeTile 3 16) = true ∧
    ([(true, 0), (false, 0), (false, 1)].all fun (t, n) => lgo (tiled th0 { ac0 with threads := t, infl := n }) (.mxacq 3) some_) = true ∧
    lgo (tiled th0 ac0) (.mxrel 3) some_ = true ∧ ([32, 33].all fun v => lgo (tiled (regs4 v 0 0 0) ac0) (.mxvc 1 3) some_) = true ∧
    ([Instr.mxld 1 3 11, .mxst 1 3 11].all fun i => mtraps (tiled th0 { ac0 with shape := shaped 1 3 4 32 }) i causeIllopnd 0 0) = true ∧
    ([Instr.mxld 1 3 11, .mxst 1 3 11].all fun i => mtraps (tiled th0 ac0) i causeToken 3 1) = true ∧
    ([Instr.mxld 1 3 11, .mxst 1 3 11].all fun i => lgo (pairOn (regs4 7 0 0 0) (regs4 8 0 0 0) { ac0 with threads := true }) i fun s is ms =>
      let rs := collected ms fun m => if m.v.b.toNat % 2 ^ 32 < 8 then none else partTrap is causeTile (m.v.b.toNat % 2 ^ 32) 20 m
      decide (rs.map TrapReq.tlin = [1]) && canTrap s is rs) = true := by decide +kernel

/-- A command of an instruction is accepted, and with the engine's queue full it is not. -/
def commands (s : State) (i : Instr) : Bool :=
  let own := fun (c : Cmd) => c.kind ≠ .col 0 0 0
  let full := cored s fun c => { c with cmds := List.replicate 16 { id := 9, blk := 7, path := 2, kind := .col 0 0 0, accepted := true } }
  lgo s i some_ && (next i s fun t => (t.core 0).cmds.any fun c => own c && c.accepted) &&
  lgo full i some_ && next i full fun t => !((t.core 0).cmds.any own) && decide (((t.block 0).bind (Block.thread · 0)).map Thread.status ≠ some (.active 0 0))

/-- The tiles of an MMA: D at 3, A and B with K columns at 8 and 10, sidecars at 9 and 11. -/
def mmaTiles (d : Tile) (eb k : Nat) (g : Nat) : State :=
  tiles th0 [(3, d), (8, { shape := shaped 0 eb k 32 }), (9, { shape := shaped 0 1 (2 * k / g) 32 }), (10, { shape := shaped 0 eb k 8 }),
    (11, { shape := shaped 0 1 (2 * k / g) 32 })]

/-- The word of RECOMB in v1, with tiles 3 (f64), 4 (i32) and the exponents in 8 and 10. -/
def recombTiles (w : Word) (x y : Tile) : State :=
  tiles (regs4 w 0 0 0) [(3, x), (4, y), (8, { shape := shaped 0 1 32 1 }), (10, { shape := shaped 0 1 8 1 })]

theorem test_witness_MatrixCommandsIssue :
    (let held := { ac0 with threads := true }
     let ac8 : Tile := { shape := shaped 1 3 8 32 }
     mtraps (tiled th0 held) (.mxzero 3) causeToken 3 2 ∧ commands (tiled th0 ac0) (.mxzero 3) ∧
     mtraps (tiled th0 ac8) (.mxscale 1 3) causeIllopnd 0 0 ∧ mtraps (tiled th0 held) (.mxscale 1 3) causeToken 3 2 ∧
     commands (tiled th0 ac0) (.mxscale 1 3) ∧ commands (tiled th0 ac8) (.mxscale 2 3) ∧
     ([0x400000, 0x4000, 0x20].all fun w => mtraps (recombTiles w ac8 ac0) (.mxrecomb 1 4 3) causeIllopnd 0 0) ∧
     mtraps (recombTiles 0xA0800 ac8 ac8) (.mxrecomb 1 4 3) causeTile 3 21 ∧
     mtraps (recombTiles 0xA0800 { ac8 with threads := true } ac0) (.mxrecomb 1 4 3) causeToken 3 2 ∧
     mtraps (recombTiles 0xA081F ac8 held) (.mxrecomb 1 4 3) causeToken 4 2 ∧ commands (recombTiles 0xA081F ac8 ac0) (.mxrecomb 1 4 3)) := by
  decide +kernel

theorem test_witness_MatrixCommandsIssue_mma :
    (let held := { ac0 with threads := true }
     mtraps (tiled th0 ac0) (.mmaC8 10 8 3) causeTile 8 1 ∧ mtraps (mmaTiles ac0 1 16 32) (.mmaC16 10 8 1) causeTile 1 1 ∧
     mtraps (mmaTiles ac0 1 32 32) (.mmaC8 10 8 3) causeTile 8 17 ∧ mtraps (mmaTiles ac0 0 32 32) (.mmaC16h 10 8 3) causeTile 8 17 ∧
     mtraps (tiles th0 [(3, ac0), (8, { shape := shaped 0 0 32 32 }), (10, { shape := shaped 0 0 31 8 })]) (.mmaX8 10 8 3) causeTile 10 17 ∧
     mtraps (mmaTiles { shape := shaped 1 2 7 32 } 0 32 32) (.mmaX8 10 8 3) causeTile 3 17 ∧
     mtraps (mmaTiles ac0 0 32 16) (.mmaC8 10 8 3) causeTile 9 18 ∧
     mtraps (tiles th0 [(3, ac0), (8, { shape := shaped 0 0 64 32 }), (9, { shape := shaped 0 1 2 32 }), (10, { shape := shaped 0 0 64 8 }),
       (11, { shape := shaped 0 1 4 32 })]) (.mmaC8 10 8 3) causeTile 11 18 ∧
     mtraps (mmaTiles held 0 32 32) (.mmaC8 10 8 3) causeToken 3 2 ∧
     mtraps (mmaTiles { ac0 with kacc := 131041 } 0 32 32) (.mmaX8 10 8 3) causeTile 3 19 ∧
     commands (mmaTiles { ac0 with kacc := 131040 } 0 32 32) (.mmaX8 10 8 3) ∧ commands (mmaTiles ac0 0 32 32) (.mmaC8 10 8 3) ∧
     commands (mmaTiles ac0 1 16 32) (.mmaC16 10 8 3) ∧ commands (mmaTiles ac0 1 16 32) (.mmaC16h 10 8 3)) := by decide +kernel

/-- The front thread with s2 = 0x30000 and s4 = 0x40000, the descriptor it has read, and tiles 3 and 4. -/
def engine (v : Option Nat) (a : Quad := 0x30000) (f : Block → Block := id) : State :=
  let s := st (f { blk0 with front := { blk0.front with regs := [0, 0, a, 0, 0x40000] ++ List.replicate 59 0, latched := v }
                             tiles := [(3, { shape := shaped 0 0 4 16 }), (4, { shape := shaped 0 1 4 16 })] })
  { cohed 0 s with cur := .front 0 0, dev := { s.dev with svcl := 2 } }

/-- A descriptor that each word of the Tensor Copy Engine takes, and each of the Collective Engine. -/
def tceWitness (sub : Nat) : Nat :=
  if sub = 2 then 3 + 2 ^ 48 else if sub = 3 then 3 + 10 * 2 ^ 8 + 2 * 2 ^ 16 + 2 ^ 40
  else if sub = 4 ∨ sub = 5 then 3 + 2 ^ 128 + 0x50000 * 2 ^ 192 + 2 ^ 320 else 3
def colWitness (sub : Nat) : Nat := if sub = 5 then 1 else 1 + 2 ^ 288 + 2 ^ 352 + 0x50000 * 2 ^ 384

/-- A recorded fault of a path, and a front thread's own store on its way. -/
def faulted (p : Nat) (b : Block) : Block := { b with faults := [⟨p, causeTile, 0, 3, 0, false⟩] }
def storing (s : State) : State := cored s fun c => { c with pend := [{ id := 3, blk := 0, who := none, grp := 0, kind := .store, va := 0, size := 4, data := 0 }] }

theorem test_witness_EngineCommandsIssue :
    ([0, 1].all fun p => (List.range 7).all fun k => fgo (engine none 0 (faulted p)) (tceWord k 4 2) fun s _ b =>
      (takeRecord b fun p => p ≤ 1).isSome && frontCanTrap s b) = true ∧
    ((List.range 7).all fun k => fgo (engine none 0x30020) (tceWord k 4 2) fun s _ b => frontCanTrap s b) = true ∧
    ((List.range 7).all fun k => fgo (engine (some (tceWitness k + 2 ^ 30))) (tceWord k 4 2) fun s is b => frontCanTrap s b &&
      (tceCheck s is.core is.blk k (tceDesc (BitVec.ofNat 512 (tceWitness k + 2 ^ 30))) 0x40000).isSome) = true ∧
    ([true, false].all fun r => (List.range 7).all fun k => fgo ((if r then id else storing) (engine (some (tceWitness k)))) (tceWord k 4 2) fun s is _ =>
      let d := BitVec.ofNat 512 (tceWitness k)
      (tceCheck s is.core is.blk k (tceDesc d) 0x40000).isNone && decide (tceReady s is.core (tceCommand s is.core is.blk k d 0x40000) = r)) = true ∧
    ((List.range 6).all fun k => (fgo (engine none 0 (faulted 3)) (colWord k 4 2) fun s _ b =>
      (takeRecord b fun p => p = 3).isSome && frontCanTrap s b && !notHead s b) &&
      (fgo (engine none 0x30020) (colWord k 4 2) fun s _ b => frontCanTrap s b) &&
      (fgo (engine (some 0)) (colWord k 4 2) fun s _ b => frontCanTrap s b && (colCheck s k (colDesc 0) 0x40000).isSome)) = true ∧
    ([true, false].all fun r => (List.range 6).all fun k => fgo ((if r then id else storing) (engine (some (colWitness k)))) (colWord k 4 2) fun s is _ =>
      let d := BitVec.ofNat 512 (colWitness k)
      let dst := if k = 5 then 0 else 0x40000
      (colCheck s k (colDesc d) dst.toNat).isNone && decide (colReady s is.core (colCommand s is.blk k d dst) = r)) = true ∧
    ((List.range 6).all fun k => fgo (launched (engine none 0x30000 fun b => { b with b := 1 }) fun r => r ||| 1 <<< 0x1C8) (colWord k 4 2)
      fun s _ b => notHead s b) = true ∧
    ([tceWord 0 4 2, colWord 0 4 2].all fun i => (fgo (engine none) i fun s is b => unhindered s is.core is.blk b && missing s is.core &&
        reaches s is.core b.ctx 0x30000 64 64 .desc 0x30000 0) &&
      fgo (cored (engine none) fun c => { c with l1 := [(0x600, line1 0 0)] }) i fun s is b => unhindered s is.core is.blk b && hits s is.core 64 0) = true := by
  decide +kernel

/-- Front code with s2 set, its block changed. -/
def fronted (a : Quad) (f : Block → Block := id) : State :=
  { cohed 0 (st (f { blk0 with front := { blk0.front with regs := [0, 0, a] ++ List.replicate 61 0 } })) with cur := .front 0 0 }

theorem test_witness_QueueLaunchAndEventWords :
    ([127, 128].all fun n => fgo (fronted 9 fun b => { b with front := { b.front with wp := BitVec.ofNat 8 n } }) (.dqpush 2) fun _ _ b =>
      decide (dqOccupancy b = n)) = true ∧ fgo (stFront blk0.front) .fexit (fun _ _ _ => true) = true ∧
    ([0x8000, 0x4000, 0x2000, 0x2081, 0x1010, 0x10000, 0x20000].all fun e => fgo (fronted e) (.fwaitev 2 5) fun s _ b => frontCanTrap s b) = true ∧
    ([0x000F, 0x1000, 0x11000, 0x2001, 0x2080, 0x3000, 0x3400].all fun e => fgo (fronted e) (.fwaitev 2 5) fun _ _ _ => true) = true ∧
    (fgo (fronted 0x40) (.launch 2) fun s _ b => frontCanTrap s b) = true ∧
    (fgo (launched (fronted 0x30000 fun b => { b with b := 1 }) fun r => r ||| 1 <<< 0x1C8) (.launch 2) fun s _ b => notHead s b) = true ∧
    (fgo (storing (fronted 0x30000)) (.launch 2) fun s is b => !notHead s b && !fenceOk s is.blk none 2 3 s.nextAcc) = true ∧
    (fgo (cored (fronted 0x30000) fun c => { c with l1 := [(0x600, line1 0 0)] }) (.launch 2) fun s is b => fenceOk s is.blk none 2 3 s.nextAcc &&
      unhindered s is.core is.blk b && reaches s is.core b.ctx 0x30000 128 128 .record 0x30000 0 && hits s is.core 128 0) = true ∧
    (fgo (fronted 0x30000) (.launch 2) fun s is b => fenceOk s is.blk none 2 3 s.nextAcc && unhindered s is.core is.blk b &&
      reaches s is.core b.ctx 0x30000 128 128 .record 0x30000 0 && missing s is.core) = true := by decide +kernel

/-- Block 1 of 3 of a work-split launch of 10 items, 4 to a tile. -/
def split (s : State) : State := launched s fun r =>
  r ||| BitVec.ofNat 1024 (1 <<< 0x1C0) ||| BitVec.ofNat 1024 (10 <<< (8 * 0x50)) ||| BitVec.ofNat 1024 (4 <<< (8 * 0x58))

theorem test_witness_SchedulerWords :
    fgo (fronted 9) (.wrange 4) (fun _ _ _ => true) = true ∧
    (fgo (split (fronted 9)) (.wrange 4) fun s _ b => decide ((s.launchOf b).mode = 1)) = true ∧
    (fgo (split (fronted 3)) (.fixup 2 5) fun s _ b => decide (ceilDiv (s.launchOf b).wt (s.launchOf b).wipt = 3) && frontCanTrap s b) = true ∧
    ([true, false].all fun r => fgo ((if r then id else storing) (split (fronted 2))) (.fixup 2 5) fun s is b =>
      !notHead s b && decide (fenceOk s is.blk none 2 3 s.nextAcc = r)) = true ∧
    (fgo (fronted 2) (.fixup 2 5) fun s is b => fenceOk s is.blk none 2 3 s.nextAcc && decide ((s.launchOf b).mode ≠ 1)) = true ∧
    (fgo (fronted 0x4000000) (.fetchw 2) fun s _ b => frontCanTrap s b) = true ∧
    (fgo (fronted 0x300008) (.fetchw 2) fun s _ b => frontCanTrap s b) = true ∧
    (fgo (fronted 0x300000) (.fetchw 2) fun s is b => frontCanTrap s b && (s.tile is.blk 3).isNone) = true ∧
    ([0, 2].all fun m => fgo (launched (fronted 0x3000F0 fun b => { b with tiles := [(3, sp0)] }) fun r => r ||| BitVec.ofNat 1024 (m <<< 0x1C0))
      (.fetchw 2) fun s is b => decide ((s.launchOf b).mode = m) &&
        (spotOf s is.core is.blk 3 0).any fun p => reachesTile s is.core is.blk 3 0xF0 16 16 .storeAny p) = true ∧
    (fgo (fronted 0x100000000) (.scret 2) fun s _ b => frontCanTrap s b) = true ∧
    fgo (fronted 0xFFFFFFFF) (.scret 2) (fun _ _ _ => true) = true ∧ fgo (fronted 0) (.powq 5) (fun _ _ _ => true) = true := by decide +kernel

/-! ## Witnesses: events of the device and of memory -/

/-- An event gives this state. -/
def runs (i : Instr) (s t : State) : Bool := next i s fun u => decide (u = t)

/-- The registers of the device changed. -/
def dev0 (f : Dev → Dev) : State := { State.reset with dev := f State.reset.dev }

/-- An event changes the registers of the device so. -/
def devRuns (i : Instr) (s : State) (f : Dev → Dev) : Bool := runs i s { s with dev := f s.dev }

theorem test_witness_DeviceRegisterEvents :
    devRuns (.registerWrite 0x78 0x1FFFFFFFFFFFFFF) (dev0 id) (fun d => { d with tlbva := 0x1FFFFFFFFFF0000 }) = true ∧
    devRuns (.registerWrite 0x78 1) (dev0 fun d => { d with tlbinv := 1 <<< 63 }) id = true ∧
    devRuns (.registerWrite 0x218 5) (dev0 fun d => { d with nonce := 7 }) (fun d => { d with nonce := 7 + 5 <<< 192 }) = true ∧
    devRuns (.registerWrite 0x220 5) (dev0 id) id = true ∧ devRuns (.fqheadWrite 2) (dev0 fun d => { d with fqtail := 19 }) id = true ∧
    devRuns (.fqheadWrite 3) (dev0 fun d => { d with fqtail := 19 }) (fun d => { d with fqhead := 3 }) = true ∧
    devRuns (.fqsizeWrite 65536) (dev0 id) (fun d => { d with fqsize := 65536 }) = true ∧ devRuns (.fqsizeWrite 17) (dev0 id) id = true ∧
    devRuns (.rhtWrite 256) (dev0 id) (fun d => { d with rht := 256 }) = true ∧ devRuns (.rhtWrite 255) (dev0 id) id = true ∧
    devRuns (.rhtWrite 65536) (dev0 id) id = true ∧ devRuns (.clrpoison 4) (dev0 fun d => { d with poisoned := [3] }) id = false ∧
    devRuns (.domcfgWrite 0x12345) (dev0 fun d => { d with svcl := 1 }) (fun d => { d with domcfg := 0x2345 }) = true ∧
    devRuns (.domcfgWrite 0x12345) (dev0 fun d => { d with svcl := 2 }) id = true ∧
    devRuns .die0Trained (dev0 fun d => { d with stages := 3 }) (fun d => { d with trained := true, svcl := 1, msix := [1] }) = true ∧
    devRuns .die0Trained (dev0 id) (fun d => { d with trained := true }) = true ∧
    devRuns (.firmwareVerify true) (dev0 fun d => { d with stages := 1 }) (fun d => { d with stages := 2 }) = true ∧
    devRuns (.firmwareVerify true) (dev0 fun d => { d with stages := 2, trained := true })
      (fun d => { d with stages := 3, svcl := 1, msix := [1] }) = true ∧
    devRuns (.firmwareVerify false) (dev0 id) (fun d => { d with atterr := true }) = true ∧
    devRuns (.firmwareVerify true) (dev0 fun d => { d with atterr := true }) id = true ∧
    devRuns (.attestationRequest 1) (dev0 id) (fun d => { d with attbusy := true }) = true ∧
    devRuns (.attestationRequest 2) (dev0 id) id = true ∧ (dev0 fun d => { d with attbusy := true }).dev.attbusy = true ∧
    devRuns (.linkUp 8 32) (dev0 id) (fun d => { d with linkUp := true, linkWidth := 8, linkSpeed := 32 }) = true := by decide +kernel

/-- Island 39 is a core's, 40 is not; on island 0 a clock code of 1 is refused while only die 0 is trained. -/
theorem test_witness_DeviceRegisterEvents_islands :
    (let isl := fun (n : Nat) (f : Island → Island) (s : State) => { s.dev with islands := tset s.dev.islands n (f (s.island n)) }
     let one := dev0 fun d => { d with svcl := 1 }
     runs (.islcmdWrite 39 2) one { one with dev := isl 39 (fun x => { x with cmd := 2 }) one } = true ∧
     runs (.islcmdWrite 39 0x701) one { one with dev := isl 39 (fun x => { x with cmd := 0x700, rej := true }) one } = true ∧
     runs (.islcmdWrite 40 4) one { one with dev := isl 40 (fun x => { x with cmd := 7, rej := true }) one } = true ∧
     runs (.islcmdWrite 40 5) one { one with dev := isl 40 (fun x => { x with cmd := 5 }) one } = true ∧
     runs (.vfsChangeComplete 40) one { one with dev := isl 40 (fun x => { x with vfs := 7 }) one } = true ∧
     (let up : State := { one with dev := isl 39 (fun x => { x with vfs := 3 }) one }
      up.core 39 = {} ∧ runs (.islandGate 39) up { up with dev := isl 39 (fun x => { x with vfs := 0 }) up } = true) ∧
     runs (.energyWindow 39 1) one { one with dev := isl 39 (fun x => { x with energy := 1, ovb := false }) one } = true ∧
     runs (.temperatureBandChange 5 7) one
       { one with dev := { isl 5 (fun x => { x with tband := 7 }) one with msix := [3] } } = true) := by decide +kernel

/-- A device in service with line 3 of local HBM in its home and a host line that it owns. -/
def served : State :=
  { State.reset with
    dev := { State.reset.dev with svcl := 2, hostOwned := [2 ^ 44], poisoned := [2 ^ 44 + 1] }
    home := [(3, {})], mem := [(384, 9)] }

/-- A message of the network, in service. -/
def sent (m : Msg) (f : State → State := id) : State := f { served with net := [m] }

theorem test_witness_HostResetAndHbmEvents :
    (hbmChoice { served with hbm := [⟨0, 3, 0, false, false, true⟩] } 0).isSome = true ∧
    ({ served with hbm := [⟨0, 3, 0, true, false, true⟩] } : State).hbm[0]? = some ⟨0, 3, 0, true, false, true⟩ ∧
    (let s := dev0 fun d => { d with svcl := 1 }
     decide (domErr s = false) = true ∧ devRuns .hbmLayoutMove s (fun d => { d with moving := true }) = true ∧
     devRuns .hbmLayoutMove { s with dev := { s.dev with moving := true } } (fun d => { d with moving := false, svcl := 2, msix := [1] }) = true) ∧
    region served (128 * 3) = .localHbm ∧ hbmCheck served 3 .uncorrectable = { served with poison := [3] } ∧
    lineReady served (lineOf 0x180) = true ∧
    runs (.cxlMemAccess 0x180 none 128) served { served with reply := homeBytes served 0x180 128, replyBad := false } = true ∧
    next (.cxlMemAccess 0x1FF (some [5]) 1) served (fun t => decide (t.mem = [(384, 9), (511, 5)])) = true ∧
    runs (.cxlMemAccess (2 ^ 51) none 1) served served = true ∧
    (let m := { served with dev := { served.dev with moving := true } }
     runs (.cxlMemAccess 0x180 none 128) m m = true) ∧
    runs (.hostSnoop (2 ^ 44 + 1) true) served { served with reply := [], replyBad := true } = true ∧
    runs (.hostSnoop (2 ^ 44 + 2) true) served { served with reply := [], replyBad := false } = true ∧
    next (.hostSnoop (2 ^ 44) true) served (fun t => decide (t.dev.hostOwned = [])) = true ∧
    next (.hostLineResponse 0 (.data (List.replicate 128 7))) (sent (.hostLine (2 ^ 44 + 5) none)) (fun t => decide (t.net = [])) = true ∧
    next (.hostLineResponse 0 (.data (List.replicate 128 7)))
      (sent (.hostLine (2 ^ 44 + 5) (some (0, { id := 1, blk := 0, who := none, grp := 0, kind := .load, va := 0, size := 4 }))))
      (fun t => decide (t.net = [.value 0 { id := 1, blk := 0, who := none, grp := 0, kind := .load, va := 0, size := 4 } 0x07070707 false])) = true ∧
    next (.plannedReset 0x0A5E) served (fun _ => true) = true := by decide +kernel

/-- An access at byte 0x180, in line 3. -/
def acc3 (k : AccKind) : Acc := { id := 1, blk := 0, who := some 0, grp := 0, kind := k, va := 0x180, pa := 0x180, size := 4, data := 5 }

/-- One of a host line. -/
def accHost (k : AccKind) : Acc := { acc3 k with pa := 2 ^ 51, coh := 2 }

theorem test_witness_MemorySystemEvents :
    (let bare := sent (.readShared 0 3 0) fun s => { s with home := [] }
     lineReady bare 3 = false ∧ inOrder bare 0 = true ∧ granting bare 3 = false ∧ runs (.readSharedRequest 0) bare (fetchLine bare 3) = true) ∧
    ([0, 1].all fun c => canServe (sent (.readShared 0 3 c)) 0 3 false) = true ∧
    (let s := sent (.readShared 41 3 0) fun s => { s with proxies := [(proxyKey (coreDie 41) 3, { data := 7 })] }
     canServe s 0 3 false = true ∧ (tget (taken s 0 3).proxies (proxyKey (coreDie 41) 3)).isSome = true ∧
     next (.readSharedRequest 0) s (fun t => decide (t.net = [.fill 41 3 0 7 false])) = true) ∧
    (tget (taken (sent (.readShared 0 3 0)) 0 3).proxies (proxyKey (coreDie 0) 3) = none ∧
     next (.readSharedRequest 0) (sent (.readShared 0 3 0)) (fun t => decide (t.net = [.fill 0 3 0 9 false])) = true) ∧
    (toHost served (acc3 .load) = false ∧ canServe (sent (.readHome 0 (acc3 .load))) 0 3 false = true ∧
     next (.readSharedRequest 0) (sent (.readHome 0 (acc3 .load))) (fun t => decide (t.net = [.value 0 (acc3 .load) 9 false])) = true) ∧
    (canServe (sent (.ownership 0 3)) 0 3 true = true ∧
     next (.ownershipRequest 0) (sent (.ownership 0 3)) (fun t => decide (t.net = [.grant 0 3])) = true) ∧
    canServe (sent (.writeback 0 3 0xFF 0x0506070805060708 (some (0, some 1)) [])) 0 3 true = true ∧
    (canServe (sent (.rest 0 3 0xF 0x05060708 (some (0, some 1)) [])) 0 3 true = true ∧
     next (.homeWriteback 0) (sent (.rest 0 3 0xF 0x05060708 (some (0, some 1)) [])) (fun t =>
       decide (t.net = [.ack 0 none 0 (some 1)] ∧ t.mem = [(384, 8), (385, 7), (386, 6), (387, 5)])) = true) ∧
    (canServe (sent (.writeHome 0 (acc3 .store))) 0 3 true = true ∧
     next (.homeWriteback 0) (sent (.writeHome 0 (acc3 .store))) (fun t => decide (t.net = [.ack 0 (some 1) 0 (some 0)] ∧ t.mem = [(384, 5)])) = true) ∧
    ([false, true].all fun bad => let s := sent (.atomic 0 (acc3 (.atomic 0 0))) fun s => { s with poison := if bad then [3] else [] }
     canServe s 0 3 true && decide (lineBad (dropCopies (taken s 0 3) 3) 3 = bad)) = true ∧
    (let s := sent (.clusterAtomic 0 (acc3 (.reduce 0 0)))
     canServe s 0 3 true = true ∧ lineBad (clusterTake (clusterRecall (taken s 0 3) 0 3) 0 3 0) 3 = false) ∧
    (let s : State := { served with net := [.atomic 0 (acc3 (.atomic 0 0)), .clusterAtomic 4 (acc3 (.reduce 0 0))] }
     otherPlace s 3 none = some 1 ∧ (atomicBetween { s with net := s.net.drop 1 } 3 none).mem = [(384, 14)] ∧
     otherPlace { s with net := [] } 3 none = none) := by
  decide +kernel

theorem test_witness_MemorySystemEvents_answers :
    (let a := { accHost (.atomic 0 0) with scope := 5 }
     toHost served a = true ∧ inOrder (sent (.atomic 0 a)) 0 = true ∧ missRoom served a.line = true ∧
     next (.homeAtomic 0) (sent (.atomic 0 a)) (fun t => decide (t.net = [.hostLine a.line (some (0, a))])) = true) ∧
    (inOrder (sent (.fill 0 3 0 7 false)) 0 = true ∧ ownsLine (sent (.fill 0 3 0 7 false)) 0 3 = false ∧
     next (.loadDataReturn 0) (sent (.fill 0 3 0 7 false)) (fun t => decide (((tget (t.core 0).l1 3).map L1Line.data) = some 7)) = true) ∧
    ([true, false].all fun b => next (.loadDataReturn 0) (sent (.value 0 (acc3 (.atomic 0 0)) 9 b)) fun t => decide (t.net = [])) = true ∧
    next (.ownershipGrant 0) (sent (.grant 0 3)) (fun t => decide (((tget (t.core 0).l1 3).map fun l => (l.writable, l.data)) = some (true, 9))) = true ∧
    next (.invalidationAck 0) (sent (.proxyInv 1 3 0) fun s => { s with proxies := [(proxyKey 1 3, { data := 7 })] }) (fun t => decide (t.proxies = [])) = true ∧
    (let s := sent (.ack 0 (some 1) 0 (some 0)) fun s => { s with cores := [(0, { pend := [acc3 .store] })] }
     next (.writeAcknowledgement 0) s fun t => decide ((t.core 0).pend = [])) = true ∧
    next (.writeAcknowledgement 0) (sent (.ack 0 none 0 (some 0))) (fun t => decide (t.net = [])) = true ∧
    ([(2 ^ 20 - 1, 1), (2 ^ 20, 0)].all fun (n, k) =>
      next (.coh01RetentionEviction 0 3) { served with cores := [(0, { cycle := n, l1 := [(3, { coh := 1, valid := 1 })] })] }
        fun t => decide ((t.core 0).l1.length = k)) = true ∧
    (let s := { served with dev := { served.dev with domcfg := 1 } }
     1 < domainSize s ∧ 1 ≠ ownDev s ∧ lineReady s (lineOf 0x1FC) = true ∧
     next (.sidinRequest ⟨1, 0x180, .read 128⟩) s (fun t => decide (t.reply.take 2 = [9, 0])) = true ∧
     next (.sidinRequest ⟨1, 0x1FF, .write [5]⟩) s (fun t => decide (t.mem = [(384, 9), (511, 5)])) = true ∧
     next (.sidinRequest ⟨1, 0x180, .atomic 0 0 6 0⟩) s (fun t => decide (t.reply = [9, 0, 0, 0] ∧ t.mem = [(384, 15)])) = true) := by decide +kernel

/-! ## Witnesses: events of threads, blocks, skeins and ranges -/

/-- The slots of quadrant 0 of core 0. -/
def slotted (s : State) (w : Tab Warp) : State := { s with cores := [(0, { quads := [(0, { slots := w })] })] }

/-- Eight warps of block 9, which is not there. -/
def eight : Tab Warp := (List.range 8).map fun k => (k, { blk := 9, members := [], lastIssue := k })

theorem test_witness_WarpFormationEvents :
    (let s := slotted (stTh { th0 with status := .ready }) []
     (bestCohort s 0 0).isSome = true ∧ (freeSlots s 0 0).head? = some 0 ∧
     next (.warpFormation 0 0) s (fun t => decide ((((t.core 0).quad 0).slots.map fun w => w.2.members) = [[(0, 0)]])) = true) ∧
    (freeSlots (slotted (stTh { th0 with status := .ready }) eight) 0 0 = [] ∧ bestCohort (slotted (stTh th0) []) 0 0 = none) ∧
    (oldestAged (stTh th0) 0 0 [] = none ∧ runs (.agedThread 0 0) (stTh th0) (stTh th0) = true) ∧
    (let s := stTh { th0 with age := 2 ^ 20 }
     (oldestAged s 0 0 ((List.range 8).filter (slotReady s 0 0))).isSome = true) ∧
    (let t := { th0 with status := .ready, age := 2 ^ 20 }
     (oldestAged (slotted (stTh t) []) 0 0 []).isSome = true ∧
     (oldestAged (slotted (stTh t) eight) 0 0 []).isSome = true ∧ victimSlot (slotted (stTh t) eight) 0 0 = some 0 ∧
     next (.agedThread 0 0) (slotted (stTh t) eight) (fun u => decide ((tget ((u.core 0).quad 0).slots 0).map Warp.blk = some 0)) = true ∧
     victimSlot (slotted (stTh t) (eight.map fun w => (w.1, { w.2 with fencing := some (1, 1) }))) 0 0 = none) ∧
    ([(5, Status.waiting (.rejected 6)), (6, .ready)].all fun (n, x) =>
      next (.rejectionRetry 0 0) { stTh { th0 with status := .waiting (.rejected 6) } with now := n } fun t =>
        decide (((t.block 0).bind (Block.thread · 0)).map Thread.status = some x)) = true ∧
    (let w : Walk := { core := 0, quad := 0, acc := { acc3 .load with pa := 0x30000, va := 0x30000, grp := BitVec.ofNat 57 placePc, dest := some ⟨1, 1, false⟩ }, next := 0 }
     let s := cored (stTh { th0 with status := .waiting .agedQueue }) fun c => { c with aged := [w] }
     let full := cored s fun c => { c with entries := (List.range 8).map fun k => { line := k, aged := true } }
     runs (.agedEntryGrant 0) full full = true ∧
     (resumeAccess (s.setCore 0 { s.core 0 with aged := [], entries := [{ line := 0x600, aged := true }] }) w).isSome = true) := by decide +kernel

/-- Thread 0 of block 0, the block itself, or its front thread waits. -/
def fr (x : FrontStatus) : State := stFront { blk0.front with status := x }

/-- What thread 0 or the front thread then is. -/
def status0 (t : State) : Option Status := ((t.block 0).bind (Block.thread · 0)).map Thread.status
def frontStatus (t : State) : Option FrontStatus := (t.block 0).map fun b => b.front.status

theorem test_witness_WaitsEnd :
    (let w := fun (f : Warp → Warp) => [(0, f { blk := 0, members := [(0, 0)] })]
     let fence := slotted (stTh th0) (w fun w => { w with fencing := some (2, 3, 0) })
     let drain := slotted (stTh th0) (w fun w => { w with draining := some (2, [9]) })
     let busy := cored drain fun c => { c with cmds := [{ id := 9, blk := 0, path := 2, kind := .mxzero 0, accepted := true }] }
     fenceOk fence 0 (some 0) 2 3 0 = true ∧ fenceOk (waitingAccess fence) 0 (some 0) 1 3 0 = false ∧
     next (.fenceAccept (.lane 0 0 0)) fence (fun t => decide ((((t.core 0).quad 0).slots.map fun w => w.2.fencing) = [none])) = true ∧
     next (.drainAccept (.lane 0 0 0)) drain (fun t => decide ((((t.core 0).quad 0).slots.map fun w => w.2.draining) = [none])) = true ∧
     runs (.drainAccept (.lane 0 0 0)) busy busy = true) ∧
    (frontBlock (fr (.stalled (.fence 2 3 0))) 0 0 = some 0 ∧
     next (.fenceAccept (.front 0 0)) (fr (.stalled (.fence 2 3 0))) (fun t => decide (frontStatus t = some .run)) = true ∧
     next (.drainAccept (.front 0 0)) (fr (.stalled (.drain 1 5 []))) (fun t => decide (frontStatus t = some .run)) = true ∧
     next (.drainAccept (.front 0 0)) { st { blk0 with front := { blk0.front with status := .stalled (.drain 1 5 []) }, faults := [⟨1, causeTile, 0, 3, 0, false⟩] } with cur := .front 0 0 }
       (fun t => decide (((t.block 0).map fun b => (b.front.trap.tcause, b.front.trap.tpc)) = some (causeTile.zeroExtend 32, 5))) = true) ∧
    ([(4, Status.waiting (.sleep 5)), (5, .ready)].all fun (n, x) =>
      next (.sleepExpiry 0 (some 0)) (st { blk0 with cycles := n, threads := [(0, { th0 with status := .waiting (.sleep 5) })] }) fun t =>
        decide (status0 t = some x)) = true ∧
    ([(4, FrontStatus.stalled (.sleep 5)), (5, .run)].all fun (n, x) =>
      next (.sleepExpiry 0 none) (st { blk0 with cycles := n, front := { blk0.front with status := .stalled (.sleep 5) } }) fun t =>
        decide (frontStatus t = some x)) = true ∧
    ([(.ready, Status.knotted 3), (.exited, .ready)].all fun ((y : Status), x) =>
      next (.knotRelease 0 3) (st { blk0 with threads := [(0, { th0 with status := .knotted 3 }), (1, { th0 with status := y })]
                                              knots := [(3, { expected := [0, 1], arrived := [0] })] }) fun t => decide (status0 t = some x)) = true ∧
    ([(255, Status.knotted 3), (256, .ready)].all fun (n, x) =>
      next (.knotTimeout 0 3) (st { blk0 with cycles := n, threads := [(0, { th0 with status := .knotted 3 }), (1, { th0 with status := .ready })]
                                              knots := [(3, { expected := [0, 1], arrived := [0] })] }) fun t => decide (status0 t = some x)) = true ∧
    (let s := fun (c : List Cmd) => cored (st { blk0 with threads := [(0, { th0 with status := .barred 2, arv := 4 })]
                                                          bars := [(2, { waiters := [0], count := 1, path := 4, needs := some [9] })] })
        fun k => { k with cmds := c }
     next (.barrierComplete 0 2) (s []) (fun t => decide (status0 t = some .ready)) = true ∧
     next (.barrierComplete 0 2) (s [{ id := 9, blk := 0, path := 1, kind := .mxzero 0 }]) (fun t => decide (status0 t = some (.barred 2))) = true) ∧
    ([(7, Status.barred 2), (8, .ready)].all fun (n, x) =>
      next (.barrierTimeout 0 2) (st { blk0 with cycles := n, barlim := 8, threads := [(0, { th0 with status := .barred 2 })]
                                                 bars := [(2, { waiters := [0], count := 1 })] }) fun t => decide (status0 t = some x)) = true ∧
    ([(0, 0, 2, true), (1, 1, 2, true), (1, 0, 2, false), (2, 0, 128, true), (2, 0, 129, false), (3, 0, 1, true), (3, 0, 0, false)].all fun (k, ph, arg, go) =>
      next (.fwaitevComplete 0) (fr (.stalled (.event 5 k ph arg))) fun t => decide ((frontStatus t = some .run) ↔ go = true)) = true ∧
    ([(127, true), (128, false)].all fun (n, go) =>
      next (.dqRoom 0) (stFront { blk0.front with status := .stalled (.dqRoom 7), wp := BitVec.ofNat 8 n }) fun t => decide ((frontStatus t = some .run) ↔ go = true)) = true ∧
    (let s := { st { blk0 with tiles := [(3, sp0)] } with net := [.fetchw 0 3 0] }
     next (.fetchwDelivery 0) s (fun t => decide (t.net = [])) = true ∧
     next (.fetchwDelivery 0) { s with launches := [(0, { record := placeRecord })] } (fun t => decide (t.net = [])) = true) := by decide +kernel

/-- A skein 5 of context 0 at its home, and messages. -/
def skeined (x : Skein) (ms : List Msg) (h : List Hank := []) : State :=
  { cored (stTh { th0 with status := .waiting (.regs 1) }) (fun c => { c with hanks := h }) with ctxs := [(0, { ctx0 with skeins := [(5, x)] })], net := ms }

def takeOf (n : Nat) : SkeinReq := ⟨0, 0, 0, 0, .take n, false⟩

/-- The messages of a skein and its pool. -/
def pooled (t : State) : Nat × Bool := ((t.skein 0 5).pool, (t.skein 0 5).round.isSome)

theorem test_witness_SkeinEvents :
    (let i := Instr.skeinRefillRequest 0 5
     let gives := fun (x : Skein) (g : Option Nat) => next i (skeined { x with queue := [takeOf 4] } []) fun t => decide (t.net = [.skeinGrant 0 5 (takeOf 4) g])
     runs i (skeined {} []) (skeined {} []) = true ∧ gives {} none = true ∧ gives { live := true, pool := 4 } (some 4) = true ∧
     gives { live := true, pool := 100 } (some 50) = true ∧ gives { live := true, pool := 3, scarce := true } none = true ∧
     next i (skeined { live := true, pool := 3, holders := [1], queue := [takeOf 4] } []) (fun t => (pooled t).2) = true) ∧
    ([(some [0], false), (some [0, 1], true)].all fun (r, more) => next (.hankReturn 0) (skeined { live := true, pool := 9, round := r } [.hank 0 0 5 7 true])
      fun t => decide (pooled t = (16, more))) = true ∧
    ([(true, 16), (false, 9)].all fun (l, n) => next (.hankReturn 0) (skeined { live := l, pool := 9 } [.hank 0 0 5 7 false])
      fun t => decide ((pooled t).1 = n)) = true ∧
    next (.hankReturn 0) (skeined { live := true, pool := skeinMax } [.hank 0 0 5 1 false]) (fun t => (t.skein 0 5).ovf) = true ∧
    next (.skeinGrant 0) (skeined {} [.skeinGrant 0 5 (takeOf 4) none]) (fun t => decide (status0 t = some .ready)) = true ∧
    (next (.skeinGrant 0) (skeined { live := true } [.skeinGrant 0 5 (takeOf 4) (some 6)] [⟨0, 5, 1, false, false⟩]) fun t =>
      decide ((((t.core 0).hank 0 5).map Hank.hank) = some 3)) = true ∧
    (next (.skeinGrant 0) (skeined { live := true, round := some [0] } [.skeinGrant 0 5 (takeOf 4) (some 6)] [⟨0, 5, 1, false, false⟩]) fun t =>
      decide (t.net = [.hank 0 0 5 3 true])) = true ∧
    (let op := fun (x : Skein) (o : SkeinOp) => next (.skeinHomeOperation 0) (skeined x [.skeinOp 0 5 ⟨0, 0, 0, 0, o, false⟩])
     op { live := true, pool := 9 } (.give 7) (fun t => decide (pooled t = (16, false))) = true ∧ op {} .readx (fun t => decide (status0 t = some .ready)) = true ∧
     op { live := true } .readx (fun t => decide ((t.skein 0 5).queue.length ≤ 1)) = true ∧ op {} (.init 8) (fun t => decide (pooled t = (8, false))) = true ∧
     op {} (.init 0xFFFFFFFF) (fun t => !(t.skein 0 5).live) = true ∧
     op { live := true, pool := 3, holders := [1] } (.init 8) (fun t => (pooled t).2) = true) := by decide +kernel

/-- A request for the procedural block at 0x100000. -/
def asked (f : FillBlock) (coh : BitVec 2) (dyer : Option Nat) (w : Bool := false) : State :=
  { ranged f (stTh th0) with net := [.prRequest 0 3 0x100000 (.acc 0 { acc3 .load with va := 0x100000, pa := 0x100000 }) w dyer 0x100000 coh] }

/-- The fill of that block. -/
def fill0 (t : State) : FillBlock := getFill t 0 3 0x100000

theorem test_witness_ProceduralRangeEvents :
    (next (.prRequest 0) { asked {} 0 none with blocks := [(0, { blk0 with state := .stopped })] } fun t => decide ((fill0 t).fill = .unfilled ∧ t.net = [])) = true ∧
    ([(FillBlock.mk .filled [] [] 0 false none false 0 [], (0 : BitVec 2), (none : Option Nat), Fill.filled), ({ fill := .poisoned 1 0 }, 0, none, .poisoned 1 0),
      ({}, 1, none, .poisoned 1 causeProtect), ({}, 3, some 0x110000, .poisoned 1 causeProtect), ({}, 2, none, .unfilled)].all fun (f, c, d, x) =>
      next (.prRequest 0) (asked f c d) fun t => x = .unfilled || decide ((fill0 t).fill = x)) = true ∧
    ([({}, none), ({}, some 0x110000), ({ fill := .steeping }, none), ({ fill := .steeping }, some 0x110000)].all fun ((f : FillBlock), d) =>
      next (.prRequest 0) (asked f 0 d) fun t => decide ((fill0 t).fill ≠ .unfilled ∧ (f.fill = .steeping → (fill0 t).waiters.length = 1))) = true ∧
    (let x : Dyer := ⟨0, 3, 0x110000, 4, 0, false, false⟩
     let f : FillBlock := { fill := .steeping, ancestors := [1, 2, 3] }
     let s := asked {} 0 (some 0x110000)
     let t : State := { s with ctxs := s.ctxs.map fun c => (c.1, { c.2 with ranges := c.2.ranges.map fun r => (r.1, { r.2 with blocks := r.2.blocks ++ [(0x110000, f)] }) })
                               blocks := s.blocks ++ [(5, { blk0 with dyer := some x })] }
     3 < (insertNat (ancestorsAt t 0 0x110000) 0x110000).length ∧
     next (.prRequest 0) t fun u => decide ((getFill u 0 3 0x110000).fill = .poisoned 2 causePrfill)) ∧
    ([true, false].all fun w => next (.prRequest 0) (asked { fill := .steeping } 0 (some 0x100000) w) fun t =>
      decide ((fill0 t).fill = if w then .steeping else .poisoned 3 causePrfill)) = true ∧
    (next (.prRequest 0) (asked { fill := .steeping, ancestors := [0x110000] } 0 (some 0x110000)) fun t => decide (t.net = [])) = true ∧
    (slotWaiter (ranged { fill := .steeping, queued := none } (stTh th0)) 0 1 = none ∧
     (slotWaiter (ranged { fill := .steeping, queued := some 0, pa := 0x100000 } (stTh th0)) 0 1).isSome = true ∧
     dyersAt (stTh th0) 0 1 = 0) ∧
    ([true, false].all fun e => next (.fillComplete 0 0x100000) (ranged { fill := .steeping, ending := e } (stTh th0)) fun t =>
      decide ((fill0 t).fill = if e then .filled else .steeping)) = true ∧
    (let a : Acc := { acc3 .prdef with dest := some ⟨9, 1, false⟩ }
     let desc : Nat → State := fun v => { stTh th0 with ctxs := [(0, { ctx0 with ranges := [(3, { base := 0x100000, size := 0x20000, kimg := 0, arg := 0, blksh := 16, dx := 1, budget := 2 })] })]
                                                        net := [.prdef 0 a (BitVec.ofNat 512 v)] }
     next (.prdefPropagated 0) (desc 3) (fun t => decide (t.net = [])) = true ∧ next (.prdefPropagated 0) (desc 0) (fun t => decide (t.net = [])) = true) := by
  decide +kernel

/-- A deterministic launch of two blocks whose head is 0. -/
def belayed (f : Launch → Launch) (bs : Tab Block) : State :=
  { stTh th0 with launches := [(0, f { record := placeRecord + BitVec.ofNat 1024 (1 <<< 0x140) + BitVec.ofNat 1024 (1 <<< 0x1C8), next := 2 })], blocks := bs }

theorem test_witness_DeterministicHeadEvents :
    (let w : Staged := { seq := 0, die := 0, pa := 0x180, va := 0x180, op := .store [5] }
     let s := belayed (fun l => { l with retired := [0] }) [(0, { blk0 with b := 1, stage := [w] })]
     (s.launches.any fun l => l.2.det && decide (l.2.nblocks = 2)) = true ∧ (blockOf s 0 1).isSome = true ∧
     next (.newHead 0) s (fun t => decide (t.mem = [(384, 5)])) = true ∧
     next (.newHead 0) (belayed (fun l => { l with retired := [0], kept := [(1, [w])] }) []) (fun t => decide (t.mem = [(384, 5)])) = true ∧
     (let u := belayed (fun l => { l with headFrom := 1 }) [(0, { blk0 with cycles := 67108865 }), (1, { blk0 with b := 1, stage := [w] })]
      (match stagedAbove u 0 (((u.launches.head?).map Prod.snd).getD { record := 0 }) with
       | (1, [_]) :: [] => true
       | _ => false) = true ∧
      next (.belayLimitExpiry 0) u (fun t => decide (((t.block 0).bind (Block.thread · 0)).map (fun h => h.trap.tcause) = some (causeBelaytmo.zeroExtend 32))) = true)) := by
  decide +kernel

/-! ## Witnesses: events of the engines, the Dispatcher and translation -/

/-- Block 0 with tiles 3 and 4, whose core holds these commands. -/
def commanded (cs : List Cmd) (f : State → State := id) : State := f (cored (engine none) fun c => { c with cmds := cs })

def tceCmd (sub : Nat) (ok : Bool) : Cmd :=
  { id := 9, blk := 0, path := if sub = 1 ∨ sub = 5 then 1 else 0, kind := .tce sub (BitVec.ofNat 512 (tceWitness sub)) 0x40000, accepted := ok }
def colCmd (sub : Nat) (ok start : Bool) : Cmd :=
  { id := 9, blk := 0, path := 3, kind := .col sub (BitVec.ofNat 512 (colWitness sub)) 0x40000, accepted := ok, started := start }

/-- The commands that remain on core 0, as accepted or not. -/
def held0 (t : State) : List Bool := (t.core 0).cmds.map Cmd.accepted

/-- A collective of devices 0 and 1. -/
def twoCmd : Cmd := { colCmd 0 true false with kind := .col 0 (BitVec.ofNat 512 (colWitness 0 + 2)) 0x40000 }
def two (c : Cmd) : State := commanded [c] fun s => { s with dev := { s.dev with domcfg := 1 } }
def peer1 (k : BitVec 32) (op : Nat) : PeerCmd := { dev := 1, colid := k, sub := 0, count := 1, op := op, type := 0, root := 0, leaves := [[7]], faults := false }

theorem test_witness_EngineAndCollectiveEvents :
    (let i := Instr.commandAcceptance 0 9
     ([tceCmd 0 false, colCmd 0 false false].all fun c => (next i (commanded [c]) fun t => decide (held0 t = [true])) &&
       next i (commanded [c] storing) fun t => decide (held0 t = [false])) = true) ∧
    ([[], [{ tceCmd 6 true with blocked := true }]].all fun cs => runs (.tceComplete 0 9) (commanded cs) (commanded cs)) = true ∧
    (next (.tceComplete 0 9) (commanded [tceCmd 6 true]) fun t => decide ((t.core 0).cmds = [])) = true ∧
    (([0, 1, 3, 4, 5] : List Nat).all fun k => ((commanded [tceCmd k true]).core 0).cmds.any fun c =>
      c.accepted && !c.blocked && decide (c.path ≤ 1)) = true ∧
    (let row := readRow (commanded []) (tceCmd 0 true) 0 0 1 (tceDesc 3) 0x40000 0
     usesHandle 0 (tceDesc 3) 0 = true ∧ peerBits (tceDesc 3) 0 = [] ∧ (tceDesc 3).rows = 1 ∧
     (match row with
      | .ok _ => true
      | _ => false) = true ∧
     next (.tceComplete 0 9) (commanded [tceCmd 0 true] fun s => { s with mem := [(0x40000, 5)] })
       (fun t => decide (((t.tile 0 3).map fun x => x.bytes) = some [(0, 5)])) = true) ∧
    ((match reach (commanded []) 0 0 true 0x40000 1 with
      | .ok _ => true
      | _ => false) = true ∧ notHead (commanded []) blk0 = false ∧ ((commanded []).tile 0 3).isSome = true) ∧
    (let j := fun (c : Cmd) (ps : List PeerCmd) => next (.colJoin 0 9 ps) (two c)
     ((colFind (two twoCmd) 0 9).isSome = true ∧ ((colDesc (BitVec.ofNat 512 (colWitness 0 + 2))).members = [0, 1]) ∧
      j twoCmd [] (fun t => decide ((t.core 0).cmds.map Cmd.started = [false])) = true ∧
      j twoCmd [peer1 0 1] (fun t => decide (((t.block 0).map fun b => b.faults.map EngineFault.detail) = some [33])) = true ∧
      j twoCmd [peer1 0 0] (fun t => decide ((t.core 0).cmds.map Cmd.started = [true])) = true)) ∧
    ([true, false].all fun b => (next (.colComplete 0 9) (commanded [colCmd 0 true b]) fun t => decide ((t.core 0).cmds = [] ↔ b = true)) &&
      next (.cbarComplete 0 9) (commanded [colCmd 5 true b]) fun t => decide ((t.core 0).cmds = [] ↔ b = true)) = true := by decide +kernel

/-- A command of the Matrix Engine on the tiles of an MMA. -/
def mxCmd (k : CmdKind) (run : Option Nat) : State :=
  cored (mmaTiles { ac0 with infl := 1 } 0 32 32) fun c =>
    { c with cmds := [{ id := 9, blk := 0, path := 2, kind := k, accepted := true, started := run.isSome, ends := run.getD 0 }] }

/-- The ends of the commands that have started. -/
def ends0 (t : State) : List Nat := ((t.core 0).cmds.filter Cmd.started).map Cmd.ends

theorem test_witness_MatrixEngineEvents :
    (let start := fun (s : State) (n : List Nat) => next (.mxCommandStart 0) s fun t => decide (ends0 t = n)
     let mma := fun (ty : Nat) => CmdKind.mma ty 3 (0, 8) (0, 10) (0, 9) (0, 11) [0, 1] 32
     start (mxCmd (mma 0) none) [1] = true ∧ start (mxCmd (mma 1) none) [1] = true ∧ start (mxCmd (mma 2) none) [2] = true ∧
     start (mxCmd (.mxzero 3) none) [16] = true ∧ start (mxCmd (.mxscale 3 [] 32) none) [4] = true ∧
     start (mxCmd (.mxrecomb 3 3 8 10 0 [] 32) none) [4] = true ∧
     start (cored (mxCmd (.mxzero 3) none) fun c => { c with cmds := c.cmds ++ [{ id := 8, blk := 0, path := 2, kind := .mxzero 3, accepted := true, started := true, ends := 1 }] }) [1] = true ∧
     start (cored (mxCmd (.mxzero 3) none) fun c => { c with cmds := c.cmds.map fun x => { x with srcs := [.tile 7 3 0 4] } }) [16] = true ∧
     start (cored (mxCmd (.mxzero 3) none) fun c => { c with cmds := [] }) [] = true) ∧
    ([(23, true), (24, false)].all fun (n, stays) => next (.mxCommandComplete 0) (cored (mxCmd (.mxzero 3) (some 0)) fun c => { c with cycle := n })
      fun t => decide (((t.core 0).cmds ≠ [] ↔ stays = true) ∧ ((t.tile 0 3).map Tile.infl = some (if stays then 1 else 0)))) = true := by
  decide +kernel

/-- Launches wait, and core 0 runs. -/
def waiting1 (on : Bool) : State :=
  { State.reset with
    dev := { State.reset.dev with svcl := 2, islands := if on then [(0, { cmd := 0xFFFF00000707, vfs := 7 })] else [] }
    ctxs := [(0, ctx0)], launches := [(0, { record := placeRecord })] }

/-- The block of the state leaves its core. -/
def leaves (f : Block → Block) : State :=
  { stTh th0 with dev := { State.reset.dev with svcl := 2, spsize := 2 ^ 30, spbase := 2 ^ 30 }
                  blocks := [(0, f { blk0 with threads := [(0, { th0 with status := .ready })] })], cores := [(0, {})] }

theorem test_witness_DispatcherEvents :
    (let i := fun (off len : Nat) => Instr.launchPortWrite off len 5
     let up := dev0 fun d => { d with svcl := 1 }
     ([(0, 63), (32, 64), (65536, 64)].all fun (o, n) => runs (i o n) up up) = true ∧ runs (i 0 64) (dev0 id) (dev0 id) = true ∧
     runs (i 65472 64) up { up with dev := { up.dev with port := [(1023, 5)] } } = true ∧
     next (i 65472 64) { up with dev := { up.dev with port := [(1022, 3)] } } (fun t => decide (t.dev.portFull = [(511, 0)])) = true ∧
     (let full : State := { up with dev := { up.dev with port := [(1022, 3), (1023, 5)], portFull := [(511, 4)] } }
      decide (({ takeRecordAt { full with now := 5 } (511, 4) with now := 0 } : State) = full) = true ∧
      (takeRecordAt { full with now := 6 } (511, 4)).dev.port = [])) ∧
    ([(20999, true), (21000, false)].all fun (n, stays) =>
      let s := { waiting1 true with launches := [(0, { record := placeRecord, staging := true })], now := n }
      (s.launches.any fun l => decide (stagingArrived s l.2 = true)) || next (.stagingTimeout 0) s fun t => t.launches.any fun l => l.2.staging == stays) = true ∧
    ((ranked (checkReserve (waiting1 true))).length = 1 ∧
     next .blockPlacement (waiting1 true) (fun t => decide (t.blocks.map (fun b => b.2.place.map Place.core) = [some 0])) = true) ∧
    (runs .blockPlacement (waiting1 false) (waiting1 false) = true ∧
     ((ranked (waiting1 false)).all fun w => decide (eligible (waiting1 false) w = []) && !w.aged (waiting1 false)) = true ∧
     ((ranked { waiting1 false with now := 15 * 210000 }).all fun w => w.aged { waiting1 false with now := 15 * 210000 }) = true ∧
     ranked State.reset = []) ∧
    ([(209999, 0), (210000, 210000)].all fun (n, q) => next .quantumEnd { waiting1 false with now := n } fun t => decide (t.dev.qfrom = q)) = true ∧
    (runs (.swapOut 0) (leaves id) (leaves id) = true ∧
     next (.swapOut 0) (leaves fun b => { b with leaving := true }) (fun t => decide ((t.block 0).map Block.flushed = some true)) = true ∧
     next (.swapOut 0) (leaves fun b => { b with leaving := true, flushed := true }) (fun t => decide ((t.block 0).map Block.state = some .swapped)) = true ∧
     (let s := cored (leaves fun b => { b with leaving := true }) fun c => { c with cmds := [tceCmd 0 true] }
      next (.swapOut 0) s (fun t => decide ((t.block 0).map Block.flushed = some false)) = true)) ∧
    (runs (.blockRetire 0) (leaves id) (leaves id) = true ∧
     ([none, some ⟨0, 3, 0x100000, 1, 0, true, false⟩, some ⟨0, 3, 0x100000, 1, 0, false, false⟩].all fun d => next (.blockRetire 0)
       (leaves fun b => { b with threads := [(0, { th0 with status := .exited })], front := { b.front with status := .done }, dyer := d })
       fun t => t.blocks.all fun b => decide (b.2.state ≠ .resident)) = true) ∧
    (runs (.acDeadlockSwapout 0) (leaves id) (leaves id) = true ∧
     (let stuck := fun (b : Block) => { b with threads := [(0, { th0 with status := .waiting (.alloc 3) })], front := { b.front with status := .done } }
      next (.acDeadlockSwapout 0) (leaves stuck) (fun t => decide ((t.block 0).map (fun b => (b.leaving, b.acOut)) = some (true, true))) = true ∧
      (beginSwap { leaves stuck with dev := State.reset.dev } 0).2 = false ∧
      logHeld { leaves stuck with walks := [⟨0, 0, acc3 .load, 0, none, false, false⟩] } 0 = true)) := by decide +kernel

/-- A load of thread 0 that waits for its translation. -/
def walking (a : Quad) (k : AccKind) (f : Ctx → Ctx := id) : State :=
  { stTh { th0 with status := .waiting .replay } with
    ctxs := [(0, f { ctx0 with hww := false })]
    walks := [{ core := 0, quad := 0, acc := { acc3 k with va := a, pa := 0, grp := BitVec.ofNat 57 placePc, dest := some ⟨1, 1, false⟩ }, next := BitVec.ofNat 57 (placePc + 4) }] }

/-- A fault record that joined nothing, written at time 5. -/
def rec1 (c : Nat) : FaultRec := { seq := 7, ctx := 0, va := 0, kind := 0, cause := c, level := 1, posted := some 5, joined := [.acc 0 0 (acc3 .load)] }

theorem test_witness_TranslationEvents :
    ((walking 0x30000 .load).walks[0]?.isSome = true ∧
     ([true, false].all fun open_ => let w := { acc3 .load with va := 0x30000, pa := 0, grp := BitVec.ofNat 57 placePc, dest := some ⟨1, 1, false⟩, walking := true }
      next (.walkResult 0) (cored (walking 0x30000 .load) fun c => { c with pend := if open_ then [w] else [] }) fun t =>
        decide (t.net = [.readShared 0 0x600 0] ∧ t.walks = [] ∧ (t.core 0).pend.map Acc.sent = [true])) = true ∧
     next (.walkResult 0) (walking 0x30000 .store) (fun t => decide (((t.block 0).bind (Block.thread · 0)).map (fun h => (h.trap.tcause, h.trap.taddr)) =
       some (causeProtect.zeroExtend 32, 0x30000))) = true ∧
     next (.walkResult 0) (walking 0x30000 .load fun c => { c with hwl := 0 }) (fun t => decide (t.frecs.length = 1)) = true ∧
     (let s := (walking 0x30000 .load fun c => { c with hwl := 0 }).modThread 0 0 fun t => { t with held := true }
      runs (.walkResult 0) s s) = true ∧
     (let s := cored (walking 0x30000 .load) fun c => { c with entries := List.replicate 248 { line := 5 } }
      next (.walkResult 0) s (fun t => decide ((t.core 0).aged.length = 1 ∧ t.walks = [])) = true)) ∧
    ([1, 2, 3].all fun c => [Instr.faultRetry 7, .faultFail 7, .faultTimeout 7].all fun i =>
      next i { stTh th0 with frecs := [rec1 c], now := 5 + 100000 * 2100 } fun t => decide (t.frecs = [])) = true ∧
    (next (.faultTimeout 7) { stTh th0 with frecs := [rec1 1], now := 4 + 100000 * 2100 } fun t => decide (t.frecs.length = 1)) = true ∧
    ([Instr.faultRetry 8, .faultFail 8, .faultTimeout 8].all fun i =>
      runs i { stTh th0 with frecs := [rec1 1] } { stTh th0 with frecs := [rec1 1] }) = true ∧
    (let e : TlbEntry := { ctx := 0, vpn := 3, shift := 16, ppn := 3, coh := 0, x := false, w := false }
     let s := { stTh th0 with cores := [(0, { dtlb := [e] })], dev := { State.reset.dev with tlbva := 0x20000 } }
     next (.tlbInvalidateAll (1 <<< 62)) { s with walkCache := [⟨1, 8, 1⟩] } (fun t => decide ((t.core 0).dtlb = [] ∧ t.walkCache = [] ∧ bit t.dev.tlbinv 63 = true)) = true ∧
     next (.tlbInvalidateRange 1) s (fun t => decide ((t.core 0).dtlb = [e])) = true ∧ next (.tlbInvalidateRange 2) s (fun t => decide ((t.core 0).dtlb = [])) = true ∧
     runs (.tlbInvalidateRange (5 <<< 56)) s { s with dev := { s.dev with tlbinv := 5 <<< 56 } } = true ∧ runs (.tlbInvalidateAll 2) s s = true ∧ runs (.tlbInvalidateRange (1 <<< 62)) s s = true ∧
     next .tlbInvalidateDone { s with dev := { s.dev with tlbinv := 1 <<< 63 } } (fun t => decide (t.dev.tlbinv = 0)) = true ∧ runs .tlbInvalidateDone s s = true) ∧
    (let c := fun (k : Nat) => BitVec.ofNat 64 (2 ^ 6 + k)
     next (.ctxCreate (c 1)) (stTh th0) (fun t => decide (t.dev.fqbusy = true ∧ (tget t.ctxs 1).isSome)) = true ∧
     next (.ctxCreate (c 0)) (stTh th0) (fun t => t.dev.fqerr) = true ∧
     next (.ctxDestroy (BitVec.ofNat 64 (2 ^ 7))) (stTh th0) (fun t => t.dev.fqbusy) = true ∧
     next (.ctxDestroy (BitVec.ofNat 64 (2 ^ 7 + 1))) (stTh th0) (fun t => t.dev.fqerr) = true ∧
     runs (.ctxCreate (BitVec.ofNat 64 (2 ^ 7))) (stTh th0) (stTh th0) = true ∧ runs (.ctxDestroy (c 0)) (stTh th0) (stTh th0) = true ∧
     runs .ctxCommandDone (stTh th0) (stTh th0) = true ∧
     (let cmd := fun (v : Nat) => { stTh th0 with dev := { State.reset.dev with fqbusy := true, ctxcmd := some (BitVec.ofNat 64 v) }, blocks := [], launches := [], cores := [] }
      next .ctxCommandDone (cmd (2 ^ 6)) (fun t => decide (t.dev.fqbusy = false)) = true ∧
      next .ctxCommandDone (cmd (2 ^ 7)) (fun t => decide (t.dev.fqbusy = false)) = true ∧
      next .ctxCommandDone { cmd (2 ^ 7) with frecs := [rec1 1] } (fun t => decide (t.dev.fqbusy = false ∧ t.frecs = [])) = true ∧
      next .ctxCommandDone { cmd (2 ^ 7) with frecs := [{ rec1 1 with joined := [.completion 0] }] } (fun t => t.dev.fqbusy) = true)) := by decide +kernel

theorem test_witness_WorkSplitRanges :
    (let l : Launch := { record := placeRecord + BitVec.ofNat 1024 (2 <<< 0x140) + BitVec.ofNat 1024 (10 <<< (8 * 0x50)) + BitVec.ofNat 1024 (4 <<< (8 * 0x58)) }
     l.nblocks = 3 ∧ l.wt = 10 ∧ l.wipt = 4 ∧ (List.range 4).map (splitStart l) = [0, 3, 6, 10] ∧ (List.range 3).map (contributors l) = [2, 2, 1]) := by
  decide +kernel

/-! ## Witnesses: sources, results and memory -/

theorem test_witness_SourceCodesRead :
    (let t := { th0 with ring := [⟨5, true, false, 0, true⟩], rp := 3 }
     let src := fun (rp : BitVec 8) (c : Nat) (p : Pos) =>
       laneSource (stTh t) { blk0 with dq := 7 :: List.replicate 127 0, front := { blk0.front with wp := 128 } } 0 0 { t with rp := rp } (BitVec.ofNat 8 c, p)
     src 0 0x80 .i64 = .val 5 ∧ src 0 0x80 .i32 = .bad ∧ src 0 0x83 .i64 = .bad ∧ src 0 0x84 .i32 = .val 7 ∧ src 128 0x85 .i32 = .wait ∧
     src 0 0x50 .i32 = .val 16 ∧ src 0 0x51 .i32 = .val 0xFFFFFFFF ∧ src 0 0x5F .i64 = .val 0xFFFFFFFFFFFFFFF1 ∧ src 0 0x7A .i32 = .val 0x80000000) := by
  decide +kernel

/-- A word with a predicate destination, one with nw, one with a register and one with a pair. -/
theorem test_witness_ResultsReachTheirDestination :
    ([({ pd := some 6 } : Sig), { pd := some 7 }, { nw := true }, { dst := (63, 1) }, { dst := (62, 2) }].all fun q =>
      q.pd.isSome || q.nw || decide (q.dst.1 + q.dst.2 ≤ th0.regs.length)) = true := by decide +kernel

theorem test_witness_ResetLeaves : State.reset.dev.svcl = 0 ∧ State.reset.mem.wf = true := by decide +kernel

/-- A word of a context that is not there; an agent with a next word, inside a group and not. -/
theorem test_witness_StepStopsOnlyOnADeadContext :
    (let s : State := { opened 0x29534301 with ctxs := [] }
     s.grp ≠ none ∧ (nextWord s).isSome = true ∧ ctxLive s 0 = false ∧
     (match step s with
      | .fault .contextNotLive => true
      | _ => false) = true) := by decide +kernel

theorem test_witness_PrefixesJoinTheGroup : (agentPc (stTh th0)).isSome = true ∧ (agentPc (opened 0x29534301)).isSome = true := by decide +kernel

/-- A memory in canonical form that is written. -/
theorem test_witness_MemoryReadAfterWrite :
    Memory.wf [(3, 9)] = true ∧ (Memory.setBytes [(3, 9)] 2 [5, 0]) = [(2, 5)] ∧ (encode (.iadd 165 77 0 6)).isSome = true := by decide +kernel

/-- R434, R437: a walk of four levels finds its leaf; the leaf enters the data TLB, the three entries above it the walk cache. -/
theorem test_walk_fills_the_walk_cache :
    (let s := walking 0x30000 .load fun c => { c with hwl := 0, root := 0x40000 }
     let table := fun (m : Memory) (x : Nat × Nat) => m.setBytes x.1 (leBytes 8 x.2)
     next (.walkResult 0) { s with mem := [(0x40000, 0x44001), (0x44000, 0x48001), (0x48000, 0x4C001), (0x4C018, 0x50003)].foldl table s.mem }
       (fun t => decide (t.net = [.readShared 0 0xA00 0] ∧ t.walkCache = [⟨0, 0x48000, 0x4C001⟩, ⟨0, 0x44000, 0x48001⟩, ⟨0, 0x40000, 0x44001⟩] ∧
         (t.core 0).dtlb.map (fun e => (e.vpn, e.ppn)) = [(3, 5)]))) = true := by decide +kernel
/-! ## Witnesses: clauses with a condition of their own -/

/-- A member whose access waits for a log entry issues a pure group that does not touch its pending register (R442); a front
group of no ordering whose guard is false. -/
theorem test_witness_GroupPassesItsChecks_held :
    (let s := grouped (stTh { regs4 1 2 3 4 with held := true, pending := 0x80 }) id
     (findIssue s (.iadd 2 1 0 3)).any fun is => let s₁ := gathered s is
      (is.warp s₁).members.all fun m => decide ((is.thread s₁ m.1).pending &&& is.regs = 0) && (is.thread s₁ m.1).held &&
        is.allowed (is.thread s₁ m.1).pending) = true ∧
    orderOf { start := 0, next := 0 } (.iadd 2 1 0 3) = (0, 0) := by decide +kernel

/-- A slot whose RET has found its address in the L1. -/
def popping (v : Quad) : State :=
  let s := stack 0x30000 0
  s.modQuad 0 0 fun q => { q with slots := tmod q.slots 0 fun w => { w with pops := [(0, true, v)] } }

/-- CALL with CSP below 8; the group at which RET waits; an even and an odd address that reach their thread. -/
theorem test_witness_CallsAndReturnsInLanes_pops :
    (sgo (stTh th0) (.call 8) fun s is m th => decide (th.csp.toNat < th.csplo.toNat + 8) &&
      canTrap s is (soleTrap is m causeProtect (th.csp - 8) 1)) = true ∧
    (sgo (stack 0x30008 0) (.call 8) fun _ _ _ th => decide (th.csplo.toNat + 8 ≤ th.csp.toNat)) = true ∧
    (sgo (stack 0x30000 0x20000) .ret fun s is _ _ => decide ((is.warp s).pops = []) &&
      (tget ((s.core is.core).quad is.quad).slots is.slot).isSome) = true ∧
    ([0x20000, 0x20001].all fun v => (tget (((popping v).core 0).quad 0).slots 0).any fun w =>
      decide (w.members = [(0, 0)] ∧ w.pops = [(0, true, v)] ∧ w.from_ ≤ ((popping v).core 0).cycle) &&
      canTrap (popping v) (retIssue (popping v) 0 0 0 w) (soleTrap (retIssue (popping v) 0 0 0 w) { tlin := 0, lane := 0, on := true } causeMisalign v 0)) = true ∧
    (((settlePops (popping 0x20000) 0 0 0).block 0).bind (Block.thread · 0)).map (fun t => (t.pc, t.csp)) = some (0x20000, 0x30008) ∧
    (((settlePops (popping 0x20001) 0 0 0).block 0).bind (Block.thread · 0)).map (fun t => t.trap.tcause) =
      some (causeMisalign.zeroExtend 32) := by decide +kernel

/-- An atomic in a COH 01 line; a request that is not yet on its way. -/
theorem test_witness_Atomics_local : (sgo (cached 1 (stTh near)) (.atom 1 0 0 0 2 4) fun s is _ _ =>
    access (.atomic 0 1) 4 1 s is && hits s is.core 4 1) = true ∧
    ([0, 1, 3].all fun c => sgo (cohed c (stTh near)) (.ld 0 2 0 0 2 4) fun s is _ _ =>
      decide (.readShared is.core (paOf c / 128) c ∉ (asking (accessed s is.core) is.core (paOf c / 128) c).net)) = true := by
  decide +kernel

/-- A page table of one leaf for 0x30000, with the low bits `e`. -/
def paged (e : Nat) (s : State) : State :=
  { s with ctxs := [(0, { ctx0 with hwl := 0, root := 0x40000 })]
           mem := [(0x40000, 0x44001), (0x44000, 0x48001), (0x48000, 0x4C001), (0x4C018, e)].foldl
             (fun m x => m.setBytes x.1 (leBytes 8 x.2)) s.mem }

/-- The walk of an access that the TLB misses: a page at 0x50000, one beyond every region, and none, with an empty log and a
full one. -/
theorem test_witness_AccessChecksInLanes_walks :
    (let go := fun (s : State) (p : State → Issue → Bool) => sgo s (.ld 0 2 0 0 2 4) fun s is _ _ =>
       decide (lashedBy (s.core is.core) (.global 0 0x30000 0x30004) false = none) &&
       decide (translateTlb s (s.core is.core).dtlb 0 .read 0x30000 = .miss) && p s is
     go (paged 0x50003 (stTh near)) (fun s _ => decide (translate s 0 .read 0x30000 = .ok 0x50000 0)) ∧
     go (paged 0x20000000050003 (stTh near)) (fun s _ => match translate s 0 .read 0x30000 with
       | .protect _ => true
       | _ => false) ∧
     go (paged 0 (stTh near)) (fun s is => decide (translate s 0 .read 0x30000 = .fault 1 0) &&
       decide (((s.core is.core).quad is.quad).log.length < 64)) ∧
     go ((paged 0 (stTh near)).modQuad 0 0 fun q => { q with log := List.replicate 64 (acc3 .load) }) (fun s is =>
       decide (64 ≤ ((s.core is.core).quad is.quad).log.length))) := by decide +kernel

/-- A load whose member the guard turns off: without an ordering, and with an acquire that holds and one that waits. -/
theorem test_witness_FencesAndRangeWords_off :
    (let off := fun (s : State) => grouped s fun g => { g with guard := some (0, false) }
     let go := fun (s : State) (i : Instr) (p : State → Issue → Member → Bool) => lgo (off s) i fun s is ms =>
       !ms.isEmpty && ms.all fun m => !m.on && p s is m
     go (stTh near) (.ld 0 2 0 0 2 4) (fun _ is _ => decide ((orderOf is.g (.ld 0 2 0 0 2 4)).1 = 0)) ∧
     ([true, false].all fun ok => go ((if ok then id else waitingAccess) (stTh near)) (.ld 0 2 2 1 2 4) fun s is m =>
       decide (orderOf is.g (.ld 0 2 2 1 2 4) = (1, 2)) && decide (fenceOk s is.blk (some m.tlin) 1 2 s.nextAcc = ok)) ∧
     ([true, false].all fun ok => let s := off ((if ok then id else waitingAccess) (stFront nearFront))
       (findFront s (.ld 0 2 2 1 2 4)).any fun is => (s.block is.blk).any fun b => decide (b.front.late = none) &&
         decide (decodeTrap true 64 is.g (.ld 0 2 2 1 2 4) is.q = none) && !guardOn is.g b.front.pred &&
         decide (fenceOk (closeGroup s) is.blk none 1 2 (closeGroup s).nextAcc = ok)) ∧
     lgo (stTh th0) (.drain 2) (fun s is ms => ms.any Member.on && !((s.core is.core).cmds.any fun c => c.path = 2)) ∧
     (fgo (stFront blk0.front) (.drain 2) fun s is b => !((s.core is.core).cmds.any fun c => c.path = 2) &&
       (takeRecord b fun q => q = 2).isNone) ∧
     (blk0.place).isSome) := by decide +kernel

/-- A prefetch whose line misses; a written-back COH 01 line alone in the L1; a range that ends at 2^57. -/
theorem test_witness_FencesAndRangeWords_ranges :
    (sgo (stTh near) (.pref 0 0 2 0) fun s is _ _ => (match coreTranslate s is.core 0 .read 0x30000 with
       | (_, .ok pa coh) => decide (pa = 0x30000 ∧ coh = 0)
       | _ => false) && filledAt s 0 0x30000 && decide ((s.core is.core).stores = [])) = true ∧
    ([Instr.wbr 3 2 4, .invr 3 2 4].all fun i =>
      sgo (cored (cohed 1 (stTh near)) fun c => { c with l1 := [(0x600, { line1 1 0 with dirty := 1 })] }) i fun s is _ th =>
        decide ((s.core is.core).l1 = [(0x600, { line1 1 0 with dirty := 1 })] ∧ (th.reg 4).toNat = 7) &&
        (match coreTranslate s is.core 0 .write 0x30000 with
         | (_, .ok pa coh) => decide (pa = 0x30000 ∧ coh = 1)
         | _ => false)) = true ∧
    ([Instr.wbr 3 2 4, .invr 3 2 4].all fun i => sgo (stTh (regs4 0 0 0x2000000 7)) i fun s is m th => decide (2 ^ 57 ≤ (th.pair 2).toNat) &&
      canTrap s is (soleTrap is m causeProtect (th.pair 2) 3)) = true := by decide +kernel

/-- The front words of a launch whose places are full, and whose mark it has set. -/
theorem test_witness_QueueLaunchAndEventWords_marks :
    (fgo (fronted 0x30000 fun b => { b with front := { b.front with mark := some 5 } }) (.launch 2) fun s is b =>
      released s is.blk (b.front.mark.getD s.nextAcc) && decide (heldLaunches s < 1024)) = true ∧
    (fgo (storing (fronted 0x30000)) (.launch 2) fun s is b => !released s is.blk (b.front.mark.getD s.nextAcc)) = true ∧
    (fgo (split (fronted 2)) (.fixup 2 5) fun s _ b => (tget s.launches b.launch).isSome) = true := by decide +kernel

/-- A write-back that reports what a head wrote; a slice that the line fits into; a dirty line that leaves its slice; a copy of
another device whose invalidation has come. -/
theorem test_witness_MemorySystemEvents_slices :
    (let s : State := { sent (.writeback 0 3 0xF 0x05060708 none [⟨0, 0, 0x180, 0xF, false⟩]) with launches := [(0, { record := placeRecord, next := 1 })] }
     canServe s 0 3 true = true) ∧
    (tget served.home 4 = none ∧ (sliceLines served (lineSlice served 4)).length < 16) ∧
    (let s : State := { served with home := [(3, { dirty := 1 })] }
     (tget (dropCopies s 3).home 3).any (fun h => decide (h.dirty ≠ 0)) = true ∧ region s (128 * 3) = .localHbm) ∧
    next (.invalidationAck 0) (sent (.devInv 1 3 0)) (fun t => decide (t.net = [])) = true ∧
    (let a := { accHost (.reduce 0 0) with scope := 5 }
     toHost served a = true ∧ next (.clusterAtomic 0) (sent (.clusterAtomic 0 a)) (fun t => decide (t.net = [.hostLine a.line (some (0, a))])) = true) ∧
    ((tget (taken (sent (.ownership 0 3)) 0 3).home 3).isSome = true ∧
     (let s : State := sent (.ownership 0 3) fun s => { s with home := [(3, { dir := .shared, dies := 2, devs := [1] })] }
      canServe s 0 3 true = true ∧ next (.ownershipRequest 0) s (fun t => decide (.proxyInv 1 3 0 ∈ t.net ∧ .devInv 1 3 0 ∈ t.net)) = true)) := by
  decide +kernel

/-- A fence whose member has an open access; a drain's command that has ended; a barrier that releases an open access; and two
mailboxes of one front thread. -/
theorem test_witness_WaitsEnd_order :
    (let s := { st { blk0 with tiles := [(3, sp0)] } with net := [.fetchw 0 3 0, .fetchw 0 3 16] }
     runs (.fetchwDelivery 1) s s = true ∧ s.net.take 1 = [.fetchw 0 3 0]) ∧
    (let s := waitingAccess (st { blk0 with threads := [(0, { th0 with status := .barred 2, arv := 4 })]
                                            bars := [(2, { waiters := [0], count := 1, path := 1, ids := [3], needs := some [] })] })
     next (.barrierComplete 0 2) s (fun t => decide ((t.block 0).map Block.syncs = some [⟨[3], s.nextAcc, 1⟩])) = true) ∧
    next (.drainAccept (.front 0 0)) (fr (.stalled (.drain 2 5 [9]))) (fun t => decide (frontStatus t = some .run)) = true ∧
    (let s := waitingAccess (fr (.stalled (.drain 2 5 [9])))
     runs (.drainAccept (.front 0 0)) s s = true) ∧
    drainDone { st blk0 with net := [.fill 0 5 1 7 false] } 0 1 = { st blk0 with net := [.readShared 0 5 1] } := by decide +kernel

/-- A round of a core to which a grant is on its way, and of one that holds a hank. -/
theorem test_witness_SkeinEvents_rounds :
    (let s := skeined { live := true, pool := 3, holders := [0] } [.skeinGrant 0 5 { takeOf 4 with core := 1 } (some 6)] [⟨0, 5, 2, false, false⟩]
     roundCores s 0 5 = [0, 1] ∧ granted s 0 5 1 = true ∧ granted s 0 5 0 = false ∧ .hank 0 0 5 2 true ∈ (beginRound s 0 5 true).net) ∧
    skeinHome served 3 255 = (3, 66) := by decide +kernel

/-- A fill whose dyer still writes; a definition behind another of its block, one that is removed, and one whose range
steeps. -/
theorem test_witness_ProceduralRangeEvents_order :
    (let a : Acc := { acc3 .prdef with dest := some ⟨9, 1, false⟩ }
     let d : Nat → Msg := fun v => .prdef 0 a (BitVec.ofNat 512 v)
     let s : State := { ranged { fill := .steeping } (stTh th0) with net := [d 0, d 3] }
     prdefFirst s 1 0 = false ∧ prdefFirst s 0 0 = true) ∧
    (let s : State := { ranged { fill := .steeping, ending := true } (st { blk0 with dyer := some ⟨0, 3, 0x100000, 1, 0, true, false⟩ }) with
       cores := [(0, { pend := [{ acc3 .store with va := 0x100000 }] })] }
     runs (.fillComplete 0 0x100000) s s = true ∧ writing s 0 = true) := by decide +kernel

/-- What a head wrote under COH 01 goes home first. -/
theorem test_witness_DeterministicHeadEvents_notes :
    (let s : State := { belayed (fun l => { l with retired := [0] }) [(0, { blk0 with b := 1 })] with
       cores := [(0, { l1 := [(3, { coh := 1, valid := 1, dirty := 1, notes := [⟨0, 0, 0x180, 1, false⟩] })] })] }
     notedLines s 0 = [(0, 3)] ∧ notedMessage s 0 = false ∧
     next (.newHead 0) s (fun t => decide (notedMessage t 0 = true ∧ notedLines t 0 = [])) = true) := by decide +kernel

/-- A command that has made some of its writes, one that waits for a peer, and a collective's report after its join. -/
theorem test_witness_EngineAndCollectiveEvents_parts :
    (([{ tceCmd 6 true with wrote := [0] }, tceCmd 6 true] : List Cmd).all fun c => let s := commanded [c]
      let p := tcePlan s 0 6 (BitVec.ofNat 512 (tceWitness 6)) 0x40000 c
      (s.block c.blk).isSome && !p.wait && p.stop.isNone) = true ∧
    (let c := { colCmd 5 true true with kind := .col 5 (BitVec.ofNat 512 (colWitness 5 + 2)) 0 }
     (colFind (two c) 0 9).isSome = true ∧
     next (.colJoin 0 9 [{ peer1 0 0 with sub := 5, count := 0, earlier := true }]) (two c) (fun t =>
       decide ((t.core 0).cmds.map (fun c => c.peers.map PeerCmd.earlier) = [[true]])) = true) := by decide +kernel

/-- A staging launch whose line is asked for; an aged block that reserves a core; blocks that leave. -/
theorem test_witness_DispatcherEvents_reserve :
    (let s := { waiting1 true with launches := [(0, { record := placeRecord, staging := true })], now := 20999 }
     (tget s.launches 0).any (fun l => l.staging && s.frecs.isEmpty && decide (s.now < l.accepted + 10 * cyclesPerUs)) = true) ∧
    (let s := { waiting1 true with now := 15 * 210000 }
     (ranked (checkReserve s)).all (fun w => w.aged s && decide (w.l.dyer = none)) = true) ∧
    (running (stTh th0)).length = 1 ∧ launchPortRead 2 = [0, 0] := by decide +kernel

/-- A walk whose access the L1 takes, and one that joins the aged queue; a log that is full; an earlier access of the context that an
invalidation waits for. -/
theorem test_witness_TranslationEvents_walks :
    (let w := fun (s : State) => (s.walks[0]?).any fun w => (s.block w.acc.blk).isSome
     w (walking 0x30000 .load) = true ∧
     (let s := (walking 0x30000 .load fun c => { c with hwl := 0 }).modQuad 0 0 fun q => { q with log := List.replicate 64 (acc3 .load) }
      runs (.walkResult 0) s s = true)) ∧
    (let s := waitingAccess { stTh th0 with dev := { State.reset.dev with tlbinv := 1 <<< 63, tlbFrom := 4 } }
     tlbWaits s = true ∧ runs .tlbInvalidateDone s s = true) := by decide +kernel

/-! ## Witnesses: the rings, exits, returns and fatal traps -/

/-- A pure floating-point word and a division; a pure word that reads the DQ; a word that is not pure; NOP16; a lane-group word. -/
theorem test_witness_PureWordsShiftTheRing_forms :
    ([(.fadd 2 1 0 3, regs4 0x3F800000 0x40000000 0 0), (.idiv 2 1 0 3, regs4 7 2 0 0), (.cvtF32I32 1 0 3, regs4 7 0 0 0)].all fun (i, t) =>
      lgo (stTh t) i fun s is ms => isPure i && !readsDq i is.g && ms.all fun m => m.on && (pureResult i (is.thread s m.tlin) is.g m.v).isSome) = true ∧
    (let s := st { blk0 with dq := 7 :: List.replicate 127 0, front := { blk0.front with wp := 1 } }
     lgo s (.iadd 0x84 1 0 3) fun _ is _ => isPure (.iadd 0x84 1 0 3) && readsDq (.iadd 0x84 1 0 3) is.g) = true ∧
    (lgo (stTh th0) (.csrr 8 2) fun _ _ _ => (encode (.csrr 8 2)).isSome && !isPrefix (.csrr 8 2) && !isPure (.csrr 8 2) &&
      (groupRule (.csrr 8 2)).isNone) = true ∧
    lgo (stTh th0) (.nop16 0 0) some_ = true ∧ lgo (stTh th0) (.ballot 0 0 1) some_ = true := by decide +kernel

/-- A live barrier whose count falls with the thread that leaves, one of explicit mode, and a knot. -/
theorem test_witness_ExitLeavesTheBlock_bars :
    (let s := st { blk0 with threads := [(0, { th0 with arv := 6 }), (1, { th0 with status := .ready, pc := 0, arv := 6 })]
                             bars := [(1, { count := 2 }), (2, { count := 2, mode := some 9 })], knots := [(3, { expected := [0, 1] })] }
     lgo s .exit (fun s is ms => (s.block is.blk).isSome && ms.all fun m => bit (is.thread s m.tlin).arv 1 && !(is.thread s m.tlin).aph.getLsbD 1) = true ∧
     next .exit s (fun t => decide ((t.block 0).map (fun b => b.bars.map fun x => (x.1, x.2.count)) = some [(1, 1), (2, 2)])) = true) := by
  decide +kernel

/-- A test of `Unhandled`, and one of `FrontUnhandled`. -/
def cannotTrap (s : State) (b : Block) (rs : List TrapReq) : Bool :=
  !rs.isEmpty && decide (b.dyer = none) && (tget s.ctxs b.ctx).isSome && decide (rs.Pairwise fun x y => x.tlin < y.tlin) &&
    (decide ((s.ctxOf b).tvec = 0) || rs.any fun r => (b.thread r.tlin).any fun th => bit th.trap.tstat 0)

theorem unhandled_of {s : State} {b : Block} {rs : List TrapReq} (h : cannotTrap s b rs = true) : Unhandled s b rs := by
  simp only [cannotTrap, Bool.and_eq_true, Bool.or_eq_true, decide_eq_true_eq, List.any_eq_true, Option.any_eq_true_iff_get,
    Bool.not_eq_true', List.isEmpty_eq_false_iff] at h
  refine ⟨h.1.1.1.1, h.1.1.1.2, h.1.1.2, h.1.2, h.2.imp id ?_⟩
  rintro ⟨r, m, ⟨e, t⟩⟩
  exact ⟨r, m, _, (Option.some_get e).symm, t⟩

def frontCannotTrap (s : State) (b : Block) : Bool :=
  decide (b.dyer = none) && (tget s.ctxs b.ctx).isSome && (decide ((s.ctxOf b).ftvec = 0) || bit b.front.trap.tstat 0)

theorem front_unhandled_of {s : State} {b : Block} (h : frontCannotTrap s b = true) : FrontUnhandled s b := by
  simp only [frontCannotTrap, Bool.and_eq_true, Bool.or_eq_true, decide_eq_true_eq] at h
  exact ⟨h.1.1, h.1.2, h.2⟩

/-- An odd target, in lanes and in front code. -/
theorem test_witness_ReturnFromTheHandler_odd :
    (let h : TrapRegs := { tstat := 1, tpc := 0x10101 }
     (sgo (stTh { th0 with trap := h }) .rett fun s is m th => bit th.trap.tstat 0 && bit th.trap.tpc 0 &&
       (s.block is.blk).any fun b => cannotTrap s b (soleTrap is m causeMisalign 0x10101 0)) = true ∧
     (fgo (stFront { blk0.front with trap := h }) .rett fun s _ b => bit b.front.trap.tpc 0 && frontCannotTrap s b) = true ∧
     next .rett (stTh { th0 with trap := h }) (fun t => decide (t.launches.map (fun l => l.2.done) = [3])) = true) := by decide +kernel

/-- Without handlers: a group of two GUARDs, BKPT, TRAP and a division by 0, in lanes and in front code. -/
theorem test_witness_FatalTrapStopsTheContext_causes :
    (let bare := fun (s : State) => { s with ctxs := [(0, placeCtx)] }
     let lane := grouped (bare (stTh th0)) fun g => { g with twice := true }
     let front := grouped (bare (stFront blk0.front)) fun g => { g with twice := true }
     ((findIssue lane (.iadd 2 1 0 3)).any fun is => ((gathered lane is).block is.blk).any fun b =>
       decide (decodeTrap false ((gathered lane is).launchOf (is.block (gathered lane is))).regsPer is.g (.iadd 2 1 0 3) is.q = some causeIllprefix) &&
       cannotTrap (gathered lane is) b (allTrap (gathered lane is) is causeIllprefix)) = true ∧
     ([Instr.bkpt, .trap 1, .idiv 2 1 0 3].all fun i => lgo (bare (stTh th0)) i fun s is ms => (s.block is.blk).any fun b =>
       cannotTrap s b (collected ms fun m => some ⟨m.tlin, causeBkpt, is.g.start, 0, 0, none⟩) && ms.all fun m => decide (m.v.b = 0)) = true ∧
     ((findFront front (.iadd 2 1 0 3)).any fun is => decide (decodeTrap true 64 is.g (.iadd 2 1 0 3) is.q = some causeIllprefix) &&
       (front.block is.blk).any fun b => decide (b.front.late = none) && frontCannotTrap front b) = true ∧
     ([Instr.bkpt, .trap 1, .idiv 2 1 0 3].all fun i => fgo (bare (stFront blk0.front)) i fun s is b =>
       frontCannotTrap s b && decide (is.v.b = 0)) = true) := by decide +kernel

/-- A step that stops: the word of a context without translations. -/
theorem test_witness_StepStopsOnlyOnADeadContext_runs : (let s : State := { opened 0x29534301 with ctxs := [] }
    (nextWord s).any (fun x => !ctxMapped s (((s.block x.1).map Block.ctx).getD 0)) = true) ∧
    Runs { opened 0x29534301 with ctxs := [] } { opened 0x29534301 with ctxs := [] } := ⟨by decide +kernel, .inside _ rfl⟩

/-! ## Witnesses: accesses of other forms -/

/-- b128 accesses; a COH 01 store that allocates its line, and one that releases beyond the block. Whether a b128 access is split
is a free value. -/
theorem test_witness_LoadsAndStoresInLanes_forms :
    (sgo (cached 0 (stTh near)) (.ld 0 4 0 0 2 4) fun s is _ _ => access .load 16 0 s is && hits s is.core 16 0 && entryFree (s.core is.core)) = true ∧
    (sgo (cached 0 (stTh near)) (.st 0 4 0 0 2 4) fun s is _ _ => access .store 16 0 s is && hits s is.core 16 0 && entryFree (s.core is.core)) = true ∧
    (sgo (cohed 1 (stTh near)) (.st 0 2 0 0 2 4) fun s is _ _ => access .store 4 1 s is && missing s is.core &&
      decide ((l1Set (s.core is.core) 0x600).length < 16)) = true ∧
    ([cached 1 (stTh near), cohed 1 (stTh near)].all fun s => sgo s (.st 0 2 3 2 2 4) fun s is _ _ => access .store 4 1 s is &&
      releasable s is.blk s.nextAcc && decide (scopeOf is.g 3 ≠ 0) && !hasEntry (s.core is.core) 0x600 && entryFree (s.core is.core)) = true ∧
    (sgo (paged 0x50003 (stTh near)) (.ld 0 4 0 0 2 4) fun s is _ _ =>
      decide (translateTlb s (s.core is.core).dtlb 0 .read 0x30000 = .miss ∧ translate s 0 .read 0x30000 = .ok 0x50000 0)) = true := by
  decide +kernel

/-- A store of the front thread that asks for ownership, one that travels, atomics that the L1 serves, and loads from afar. -/
theorem test_witness_AccessesInFrontCode_forms :
    ([(0, Instr.st 0 2 0 0 2 4), (2, .st 0 2 0 0 2 4)].all fun (c, i) => fgo (cohed c (stFront nearFront)) i fun s is b =>
      unhindered s is.core is.blk b && reaches s is.core b.ctx 0x30000 4 4 .store 0x30000 c && missing s is.core) = true ∧
    ([0, 1].all fun c => [Instr.atom 1 0 0 0 2 4, .red 1 0 0 0 2 4].all fun i => fgo (cached c (stFront nearFront)) i fun s is b =>
      unhindered s is.core is.blk b && reaches s is.core b.ctx 0x30000 4 4 (.atomic 0 1) 0x30000 c && hits s is.core 4 c &&
      decide (scopeOf is.g 0 = 0)) = true ∧
    ([(2, Instr.ld 0 2 0 0 2 4), (1, .ld 0 2 2 1 2 4)].all fun (c, i) => fgo (cohed c (stFront nearFront)) i fun s is b =>
      unhindered s is.core is.blk b && reaches s is.core b.ctx 0x30000 4 4 .load 0x30000 c && missing s is.core) = true := by decide +kernel

/-- PREF of level 1, its line in the slice and not; one of a line that is on its way, and one without a free entry. WBR and INVR over
two lines, in lanes and in front code, where the address may also lie at 2^57 or in a lashed range. -/
theorem test_witness_FencesAndRangeWords_levels :
    ([true, false].all fun r => sgo { stTh near with home := if r then [(0x600, {})] else [] } (.pref 0 0 2 1) fun s is _ _ =>
      (match coreTranslate s is.core 0 .read 0x30000 with
       | (u, .ok pa coh) => decide (pa = 0x30000 ∧ coh = 0 ∧ lineReady u 0x600 = r)
       | _ => false) && filledAt s 0 0x30000) = true ∧
    (sgo { stTh near with net := [.readShared 0 0x600 0] } (.pref 0 0 2 0) fun s is _ _ => s.net.any fun x => x.carries is.core 0x600) = true ∧
    (sgo (cored (stTh near) fun c => { c with entries := List.replicate 248 { line := 5 } }) (.pref 0 0 2 0) fun s is _ _ =>
      !entryFree (s.core is.core) && decide ((s.core is.core).stores = [])) = true ∧
    (let two := fun (s : State) => cored (cohed 1 s) fun c => { c with l1 := [(0x600, { line1 1 0 with dirty := 1 }), (0x601, { line1 1 0 with dirty := 2 })] }
     ([Instr.wbr 3 2 4, .invr 3 2 4].all fun i => (sgo (two (stTh (regs4 0 0x30000 0 200))) i fun s is _ th => unhindered s is.core is.blk (is.block s) &&
        decide ((th.reg 4).toNat = 200 ∧ ((s.core is.core).l1.map Prod.fst).Nodup ∧
          lashedBy (s.core is.core) (.global 0 0x30000 0x300C8) true = none) &&
        (match coreTranslate s is.core 0 .write 0x30000 with
         | (_, .ok pa _) => decide (pa = 0x30000)
         | _ => false)) &&
      (next i (two (stTh (regs4 0 0x30000 0 200))) fun t => decide (t.net.length = 2)) &&
      (fgo (two (stFront { nearFront with regs := [0, 0, 0x30000, 0, 200] ++ List.replicate 59 0 })) i fun s is b => unhindered s is.core is.blk b &&
        decide ((b.front.reg 4).toNat = 200)) &&
      (fgo (stFront { nearFront with regs := [0, 0, 0x200000000000000, 0, 200] ++ List.replicate 59 0 }) i fun s _ b => frontCanTrap s b) &&
      (fgo (lash0 (stFront nearFront)) i fun s is b => frontCanTrap s b &&
        (lashedBy (s.core is.core) (.global b.ctx 0x30000 0x30007) true).isSome)) = true) := by decide +kernel

/-- PRDONE of another address in a dyer's block. -/
theorem test_witness_ProceduralWordsInLanes_other :
    (sgo (dyeing ⟨0, 3, 0x100000, 1, 0, false, false⟩ 0x100040) (.prdone 2) fun s is _ th =>
      (is.block s).dyer.any fun x => decide ((th.pair 2).toNat ≠ x.base)) = true ∧
    next (.prdone 2) (dyeing ⟨0, 3, 0x100000, 1, 0, false, false⟩ 0x100040) (fun t => decide ((t.block 0).map Block.state = some .stopped)) = true := by
  decide +kernel

/-! ## Witnesses: events of other forms -/

/-- A die that can be powered down, and one whose cores are not gated; data that returns to HBM unasked, and a write; a layout move
with nothing in flight; the host's leave to own a line, held and not. -/
theorem test_witness_DeviceAndHostEvents_forms :
    (let off := (List.range 64).map fun k => (64 + k, ({ cmd := 0, vfs := if k < 40 then 0 else 7 } : Island))
     let s := dev0 fun d => { d with svcl := 2, islands := off, hostOwned := [2 ^ 44] }
     let up := dev0 fun d => { d with svcl := 2, islands := tset off 64 { cmd := 0, vfs := 2 } }
     dieIdle s 1 = true ∧ dieIdle up 1 = false ∧ runs (.islandGate 104) up up = true ∧
     next (.islandGate 104) s (fun t => t.dev.flushed && decide ((t.island 127).vfs = 0 ∧ (t.island 40).vfs = 7)) = true) ∧
    (let s := fun (h : HbmReq) => { served with hbm := [h] }
     runs (.hbmDataReturn 0 .clean) (s ⟨0, 3, 0, false, false, true⟩) (s ⟨0, 3, 0, false, false, true⟩) = true ∧
     runs (.hbmDataReturn 0 .clean) (s ⟨0, 3, 0, true, true, false⟩) served = true) ∧
    (let s : State := { served with dev := { served.dev with svcl := 1, moving := true } }
     domErr s = false ∧ quiet s = true ∧ next .hbmLayoutMove s (fun t => decide (t.dev.svcl = 2 ∧ t.home = [])) = true ∧
     quiet { s with net := [.ack 0 none 0 none] } = false) ∧
    ([2 ^ 44, 2 ^ 44 + 9].all fun l => next (.hostLineResponse 0 (.data (List.replicate 128 7))) (sent (.hostOwn l)) fun t =>
      decide (l ∈ t.dev.hostOwned ∧ t.net = [])) = true := by decide +kernel

/-- A request that finds no room for a proxy copy; one that an invalidation on its way makes stale; a line of another device, which the
slice keeps no longer; a line that is asked for through a port; an atomic on a poisoned line. -/
theorem test_witness_MemorySystemEvents_forms :
    (let s := sent (.readShared 41 3 0) fun s => { s with proxies := [(proxyKey 1 3, { data := 7 })], net := s.net ++ [.proxyInv 1 3 40] }
     canServe s 0 3 false = true ∧ staleProxy (taken s 0 3) 41 3 = true ∧ coreDie 41 = 1) ∧
    (proxyRoom (sent (.readShared 41 3 0)) 41 3 = true) ∧
    (let l := 2 ^ 32 + 3
     (match region served (128 * l) with
      | .localHbm => true
      | _ => false) = false) ∧
    (let s : State := { served with home := [(3, { dirty := 1 })], hbm := [⟨lineSlice served 3, 3, 0, false, false, true⟩] }
     (evictHome s 3).hbm.map (fun h => (h.read, h.write)) = [(true, true)] ∧ tget (evictHome s 3).home 3 = none) ∧
    ([true, false].all fun w => next (.loadDataReturn 0) (sent (.port 3 w)) fun t => decide (t.net = [])) = true ∧
    restOpen (sent (.rest 0 3 0xF 5 none [])) 3 = true := by decide +kernel

/-- A staged write that meets a procedural block in each state; a launch that is judged again; the staging lines that are asked for. -/
theorem test_witness_HeadAndDispatcherEvents_forms :
    ([Fill.filled, .poisoned 1 0, .unfilled, .steeping].all fun f =>
      let w : Staged := { seq := 0, die := 0, pa := 0x100000, va := 0x100000, op := .store [5] }
      let s := ranged { fill := f } (belayed (fun l => { l with retired := [0], kept := [(1, [w])] }) [])
      decide ((rangeOf s 0 w.va.toNat).isSome ∧ stageOf s 0 1 = [w]) &&
      next (.newHead 0) s fun t => f = .unfilled || decide (stageOf t 0 1 ≠ [] ↔ f = .steeping)) = true ∧
    (let s := fun (j : Bool) (es : Option (List (Nat × Nat))) (n : Nat) => { waiting1 true with
       launches := [(0, { record := placeRecord, staging := true, judged := j, stages := es })], now := n }
     (tget (s false none 5).launches 0).any (fun l => !l.judged && l.stages.isNone) = true ∧
     (next (.stagingTimeout 0) (s true (some [(0x40000, 128)]) 5) fun t => t.launches.any fun l => l.2.staging) = true ∧
     (next (.stagingTimeout 0) (s true (some [(0x40000, 128)]) 21000) fun t => t.launches.all fun l => !l.2.staging) = true) ∧
    (let s := walking 0x30000 .load fun c => { c with ending := true, live := false }
     (s.ctxs.any fun c => c.2.mapped && !c.2.live) = true) := by decide +kernel

/-- Takes that have waited for an earlier round are decided; a waiter of a filled block whose read now acquires. -/
theorem test_witness_SkeinAndRangeEvents_forms :
    (let s := skeined { live := true, pool := 3, queue := [{ takeOf 4 with waited := true }, { takeOf 2 with waited := true }] } []
     ((decideWaited 2 s 0 5).skein 0 5).queue = [] ∧ ((s.skein 0 5).queue.all fun r => r.waited) = true) ∧
    (let s := cored (stTh th0) fun c => { c with pend := [acc3 .load] }
     ((wakeWaiter s (.acc 0 (acc3 .load))).core 0).pend.map (fun a => (a.pass, a.acq, a.scope)) = [(true, true, 3)]) := by decide +kernel

/-- A block that has had its quantum and that a waiting one outranks, one that has not, and one that came in the turn; a block that goes
back to another core, to which an older copy of a COH 01 line is on its way. -/
theorem test_witness_DispatcherEvents_turns :
    (let w : Want := ⟨.fresh 1 0, 1, { record := placeRecord }, 0, 0, none⟩
     let s := fun (n : Nat) (t : Bool) => { leaves (fun b => { b with since := 7, turn := t }) with now := n }
     ([(210007, false), (210006, false), (210006, true)].all fun (n, t) =>
       (running (s n t)).all fun p => rankLt (w.rank (s n t)) (residentRank (s n t) p.2) && !exempt (s n t) p.2 w) = true ∧
     next (.sleepExpiry 0 none) (swapFor 0 0 (s 210007 false) w) (fun t => decide ((t.block 0).map Block.leaving = some true)) = true ∧
     next (.sleepExpiry 0 none) (swapFor 0 0 (s 210006 false) w) (fun t => decide ((t.block 0).map Block.leaving = some false)) = true ∧
     next (.sleepExpiry 0 none) (swapFor 0 0 (s 210006 true) w) (fun t => decide ((t.block 0).map Block.leaving = some true)) = true) ∧
    (let s : State := { leaves (fun b => { b with place := none, state := .swapped, lastCore := 0 }) with net := [.fill 1 3 1 7 false] }
     let w : Want := ⟨.again 0, 0, { record := placeRecord }, 0, 0, some 0⟩
     (placeWant s w (1, 0)).net = [.readShared 1 3 1] ∧ ((placeWant s w (1, 0)).block 0).map (fun b => b.place.map Place.core) = some (some 1)) := by
  decide +kernel
end Sys2Proof.Tests
end

/-! SUPPORT. Integer words (R117 to R140, R52): every arm of `exec` issues the word with its rule as the body, in lanes and in
front code, and the laws of an issue do the rest. Division (R127 to R129) has its own body, which traps on a divisor of 0. -/

namespace Sys2Proof.Machine

open Safety

/-! ## The meaning of an integer word is its rule -/

/-- In lane code word `i` gives each member whose guard is true the result that `f` computes. -/
def ComputesInLanes (i : Instr) (f : Thread → Group → Vals → Quad) : Prop :=
  ∃ front, ∀ s, exec i s = issue s i (eachMember (intMember fun th g v => some (f th g v))) front

/-- In front code word `i` gives its destination the result that `f` computes. -/
def ComputesInFront (i : Instr) (f : Front → Group → Vals → Quad) : Prop :=
  ∃ body, ∀ s, exec i s = issue s i body fun s is => (s, .done (f (is.front s) is.g is.v))

/-- An ISETP with condition code `c` computes the condition of R139. -/
theorem compareOp_eq_issue_holds (rd : Quad → Int) (c : BitVec 3) (i : Instr) (s : State) :
    compareOp rd c.toNat i s =
      issue s i (eachMember (intMember fun _ _ v => some (flag (holds c (rd v.a) (rd v.b)))))
        fun s is => (s, .done (flag (holds c (rd is.v.a) (rd is.v.b)))) := by
  simp only [compareOp, boolBit_flag, intCond_holds]

/-- PLOP computes the entry of its truth table (R140). -/
theorem plopOp_eq_issue_truth (t : BitVec 4) (x y : Nat) (xi yi : Bool) (i : Instr) (s : State) :
    plopOp t.toNat x xi y yi i s =
      issue s i (eachMember (intMember fun th _ _ => some (flag (truth t (th.pred x != xi) (th.pred y != yi)))))
        fun s is => (s, .done (flag (truth t ((is.front s).pred x != xi) ((is.front s).pred y != yi)))) := by
  simp only [plopOp, plop_truth]

/-- A predicate word's arm computes its condition or truth table; any other arm has the rule itself as its body, and a word without
a rule contradicts `h`. -/
theorem computesInLanes_of_laneRule {i : Instr} {f : Thread → Group → Vals → Quad} (h : laneRule i = some f) :
    ComputesInLanes i f := by
  cases i
  case isetpI32 | isetpN32 | isetpI64 | isetpN64 => cases h; exact ⟨_, compareOp_eq_issue_holds _ _ _⟩
  case plop => cases h; exact ⟨_, plopOp_eq_issue_truth _ _ _ _ _ _⟩
  all_goals simp only [laneRule, reduceCtorEq, Option.some.injEq] at h
  all_goals subst h
  all_goals exact ⟨_, fun _ => rfl⟩

theorem computesInFront_of_frontRule {i : Instr} {f : Front → Group → Vals → Quad} (h : frontRule i = some f) :
    ComputesInFront i f := by
  cases i
  case isetpI32 | isetpN32 | isetpI64 | isetpN64 => cases h; exact ⟨_, compareOp_eq_issue_holds _ _ _⟩
  case plop => cases h; exact ⟨_, plopOp_eq_issue_truth _ _ _ _ _ _⟩
  all_goals simp only [frontRule, reduceCtorEq, Option.some.injEq] at h
  all_goals subst h
  all_goals exact ⟨_, fun _ => rfl⟩

/-! ## Integer words under the checks of R71 -/

theorem ComputesInLanes.exec_goes {i : Instr} {f : Thread → Group → Vals → Quad} (hi : ComputesInLanes i f) {s s₁ : State}
    {is : Issue} {ms : List Member} (h : LaneReady s i s₁ is ms) :
    ∃ t, exec i s = .next t ∧ Goes s₁ t is ms fun m th => writeResult (shape i) th (f th is.g m.v) := by
  obtain ⟨front, hx⟩ := hi
  rw [hx]
  exact issue_int h _ f (fun _ _ => rfl) front

theorem ComputesInFront.exec_goes {i : Instr} {f : Front → Group → Vals → Quad} (hi : ComputesInFront i f) {s : State}
    {is : FrontIssue} {b : Block} (h : FrontReady s i is b) :
    ∃ t, exec i s = .next t ∧
      FrontGoes (closeGroup s) t is b (writeFront (shape i) b.front (f b.front is.g is.v)) is.next := by
  obtain ⟨body, hx⟩ := hi
  obtain ⟨-, hfront, -⟩ := front_block h
  rw [hx, ← front_q h]
  exact issue_frontDone h body _ _ (by rw [hfront])

theorem execNop16_goes {sc d : BitVec 5} {s s₁ : State} {is : Issue} {ms : List Member} (h : LaneReady s (.nop16 sc d) s₁ is ms) :
    ∃ t, exec (.nop16 sc d) s = .next t ∧ Goes s₁ t is ms fun _ th => th := by
  have hbody := eachMember_const s₁ is (fun s _ _ => (s, .next)) (fun _ => .next) ms fun _ _ _ => rfl
  simp only [ite_self] at hbody
  exact issue_next h _ _ hbody

theorem execImulx_frontGoes {y x : BitVec 8} {n : BitVec 1} {d : BitVec 6} {s : State} {is : FrontIssue} {b : Block}
    (h : FrontReady s (.imulx y x n d) is b) :
    ∃ t, exec (.imulx y x n d) s = .next t ∧
      let p := BitVec.ofInt 128 (is.v.a.toInt * is.v.b.toInt)
      let r := (shape (.imulx y x n d)).dst.1
      FrontGoes (closeGroup s) t is b ((b.front.setReg r (p.truncate 64)).setReg (r + 1) ((p >>> 64).truncate 64)) is.next := by
  refine ⟨_, run_front h rfl rfl, ?_⟩
  rw [← front_q h]
  exact finishFront_done2 (closeGroup s) is b _ _ h.block

/-- Settles O16: each word's arm computes its rule, and an issue writes what its body computes. -/
theorem integerResults : Obligations.IntegerResults := by
  refine ⟨⟨?lanes, ?nop⟩, ?front, ?imulx, ?frontNop⟩
  case lanes => exact fun i f s s₁ is ms hf h => (computesInLanes_of_laneRule hf).exec_goes h
  case nop => exact fun sc d s s₁ is ms h => execNop16_goes h
  case front => exact fun i f s is b hf h => (computesInFront_of_frontRule hf).exec_goes h
  case imulx => exact fun y x n d s is b h => execImulx_frontGoes h
  case frontNop => exact fun sc d s is b h => ⟨_, run_front h rfl rfl, finishFront_next (closeGroup s) is b h.block⟩

/-! SUPPORT. Division (R127 to R129, R337): the quotient and remainder of a division word are those of its rule, the corner
−2^(W−1) ÷ −1 among them, and a member whose divisor is 0 traps. -/

/-! ## Quotients and remainders -/

/-- The corner of R128 is no exception: the exact quotient 2^(W−1) wraps to −2^(W−1). -/
theorem ofInt_tdiv_toInt {w : Nat} (a b : BitVec w) : BitVec.ofInt w (a.toInt.tdiv b.toInt) = a.sdiv b :=
  BitVec.eq_of_toInt_eq (by rw [BitVec.toInt_ofInt, BitVec.toInt_sdiv])

theorem ofInt_tmod_toInt {w : Nat} (a b : BitVec w) : BitVec.ofInt w (a.toInt.tmod b.toInt) = a.srem b := by
  rw [← BitVec.toInt_srem, BitVec.ofInt_toInt]

theorem ofNat_div_toNat {w : Nat} (a b : BitVec w) : BitVec.ofNat w (a.toNat / b.toNat) = a.udiv b := by
  rw [← BitVec.toNat_udiv, BitVec.ofNat_toNat, BitVec.setWidth_eq]; rfl

theorem ofNat_mod_toNat {w : Nat} (a b : BitVec w) : BitVec.ofNat w (a.toNat % b.toNat) = a.umod b := by
  rw [← BitVec.toNat_umod, BitVec.ofNat_toNat, BitVec.setWidth_eq]; rfl

/-- Word `i` divides by `f`, at every width. -/
structure DividesBy (i : Instr) (f : {w : Nat} → BitVec w → BitVec w → BitVec w) : Prop where
  exec_eq : ∀ s, exec i s = divOp f i s
  divided_eq : ∀ {w : Nat} (a b : BitVec w), divided i a b = some (f a b)

theorem exists_dividesBy {i : Instr} (h : divided (w := 32) i 0 0 ≠ none) :
    ∃ f : {w : Nat} → BitVec w → BitVec w → BitVec w, DividesBy i f := by
  unfold divided at h
  split at h
  next => exact ⟨BitVec.sdiv, fun _ => rfl, fun a b => congrArg some (ofInt_tdiv_toInt a b)⟩
  next => exact ⟨BitVec.srem, fun _ => rfl, fun a b => congrArg some (ofInt_tmod_toInt a b)⟩
  next => exact ⟨BitVec.udiv, fun _ => rfl, fun a b => congrArg some (ofNat_div_toNat a b)⟩
  next => exact ⟨BitVec.umod, fun _ => rfl, fun a b => congrArg some (ofNat_mod_toNat a b)⟩
  next => exact absurd rfl h

theorem divide_zero {w : Nat} (f : BitVec w → BitVec w → BitVec w) (a : BitVec w) : divide f a 0 = none := if_pos rfl

theorem divide_ne_zero {w : Nat} (f : BitVec w → BitVec w → BitVec w) (a : BitVec w) {b : BitVec w} (hb : b ≠ 0) :
    divide f a b = some ((f a b).zeroExtend 64) := if_neg hb

/-! ## Division in lanes -/

/-- The fate that a division gives a member whose guard is true. -/
def divFate (f : Word → Word → Word) (m : Member) : Fate :=
  if (m.v.b.truncate 32 : Word) = 0 then .trap causeIdivz 0 0 none
  else .done ((f (m.v.a.truncate 32) (m.v.b.truncate 32)).zeroExtend 64)

theorem intMember_divide (f : Word → Word → Word) (s : State) (is : Issue) (m : Member) :
    intMember (fun _ _ v => divide f (v.a.truncate 32 : Word) (v.b.truncate 32)) s is m = (s, divFate f m) := by
  by_cases hb : (m.v.b.truncate 32 : Word) = 0
  · rw [intMember, divFate, if_pos hb, hb, divide_zero]
  · rw [intMember, divFate, if_neg hb, divide_ne_zero _ _ hb]

/-- The trap of a member whose divisor is 0 (R129). -/
def zeroDivisorTrap (is : Issue) (m : Member) : Option TrapReq :=
  if (m.v.b.truncate 32 : Word) = 0 then some ⟨m.tlin, causeIdivz, is.g.start, 0, 0, none⟩ else none

theorem DividesBy.exec_splits {i : Instr} {f : {w : Nat} → BitVec w → BitVec w → BitVec w} (hi : DividesBy i f) {s s₁ : State}
    {is : Issue} {ms : List Member} (h : LaneReady s i s₁ is ms)
    (hh : collected ms (zeroDivisorTrap is) ≠ [] → Handled s₁ is (collected ms (zeroDivisorTrap is))) :
    ∃ t, exec i s = .next t ∧ Splits s₁ t is ms (zeroDivisorTrap is) (fun _ th => th) fun m th =>
      writeResult (shape i) th (((divided i (m.v.a.truncate 32 : Word) (m.v.b.truncate 32)).getD 0).zeroExtend 64) := by
  refine ⟨_, (hi.exec_eq s).trans (issue_ready h _ _), ?_⟩
  rw [eachMember_const s₁ is _ (divFate f) ms fun m _ _ => intMember_divide f s₁ is m]
  refine finish_splits s₁ is ms (divFate f) (zeroDivisorTrap is) _ h.distinct (fun m _ _ => ?_) hh
  obtain ⟨-, -, hq⟩ := prepare_go h.passes
  by_cases hb : (m.v.b.truncate 32 : Word) = 0
  · rw [zeroDivisorTrap, divFate, if_pos hb, if_pos hb]
    exact ⟨rfl, rfl⟩
  · rw [zeroDivisorTrap, divFate, if_neg hb, if_neg hb]
    exact ⟨rfl, fun th => by rw [hq, hi.divided_eq]; rfl⟩

/-! ## Division in front code -/

theorem DividesBy.exec_frontGoes {i : Instr} {f : {w : Nat} → BitVec w → BitVec w → BitVec w} (hi : DividesBy i f) {s : State}
    {is : FrontIssue} {b : Block} (h : FrontReady s i is b) (hb : is.v.b ≠ 0) :
    ∃ t, exec i s = .next t ∧
      FrontGoes (closeGroup s) t is b (writeFront (shape i) b.front ((divided i is.v.a is.v.b).getD 0)) is.next := by
  rw [hi.exec_eq, hi.divided_eq, ← front_q h]
  refine issue_frontDone h _ _ _ ?_
  rw [divide_ne_zero f is.v.a hb]
  simp

theorem DividesBy.exec_frontTraps {i : Instr} {f : {w : Nat} → BitVec w → BitVec w → BitVec w} (hi : DividesBy i f) {s : State}
    {is : FrontIssue} {b : Block} (h : FrontReady s i is b) (hb : is.v.b = 0) (hh : FrontHandled s b) :
    ∃ t, exec i s = .next t ∧ FrontTraps (closeGroup s) t is b causeIdivz is.g.start 0 0 := by
  refine run_front_trap (tpc := none) h (hi.exec_eq s) ?_ h.block ⟨hh.dyer, hh.vec, hh.free⟩
  rw [hb, divide_zero]

/-- Settles O17: the four division words act through `divOp`, whose issue splits into members that trap and members that go on. -/
theorem division : Obligations.Division := by
  refine ⟨?lanes, ?front⟩
  case lanes =>
    intro i s s₁ is ms hi h trap hh
    obtain ⟨f, hf⟩ := exists_dividesBy hi
    exact hf.exec_splits h hh
  case front =>
    intro i s is b hi h
    obtain ⟨f, hf⟩ := exists_dividesBy hi
    exact ⟨hf.exec_frontGoes h, hf.exec_frontTraps h⟩

end Sys2Proof.Machine

/-! SUPPORT. Lane-group words (R193 to R198): each computes its rule from all the members of the issue, and an issue whose body sees
all members at once writes what that body computes. -/

namespace Sys2Proof.Machine

open Safety

/-! ## Folds over the members -/

/-- BALLOT and MATCH collect the lanes of the members that `p` picks. -/
theorem foldl_pow_lane_eq_laneBits (p : Member → Bool) (ms : List Member) :
    ms.foldl (fun d m => if p m then d + 2 ^ m.lane else d) 0 = laneBits ms p := by
  rw [laneBits, List.sum_eq_foldl, List.foldl_map]
  congr 1
  funext d m
  split <;> rfl

/-- An idempotent operation takes in a member of the list that it folds once only. -/
theorem op_foldl_of_mem {α : Type} (op : α → α → α) [Std.Associative op] [Std.Commutative op] [Std.IdempotentOp op] {a : α} :
    ∀ {l : List α} (b : α), a ∈ l → op a (l.foldl op b) = l.foldl op b
  | x :: l, b, h => by
    rcases List.mem_cons.1 h with rfl | h
    · calc op a (l.foldl op (op b a))
        _ = l.foldl op (op a (op b a)) := List.foldl_assoc.symm
        _ = l.foldl op (op b a) := by
          rw [Std.Commutative.comm (op := op) b a, ← Std.Associative.assoc (op := op), Std.IdempotentOp.idempotent (op := op)]
    · exact op_foldl_of_mem op (op b x) h

/-- So such a fold may begin with any member of the list. -/
theorem foldl_eq_of_mem {α : Type} (op : α → α → α) [Std.Associative op] [Std.Commutative op] [Std.IdempotentOp op] {a b : α}
    {l : List α} (ha : a ∈ l) (hb : b ∈ l) : l.foldl op a = l.foldl op b :=
  calc l.foldl op a
    _ = op b (l.foldl op a) := (op_foldl_of_mem op a hb).symm
    _ = l.foldl op (op b a) := List.foldl_assoc.symm
    _ = l.foldl op (op a b) := by rw [Std.Commutative.comm (op := op)]
    _ = op a (l.foldl op b) := List.foldl_assoc
    _ = l.foldl op b := op_foldl_of_mem op b ha

/-! ## REDUX (R197) -/

theorem reduxValue_toInt (m : Member) : (reduxValue m).toInt = reducedInt m := by
  unfold reduxValue reducedInt
  split <;> rfl

/-- The sum of the words is the exact sum, wrapped. -/
theorem foldl_add_reduxValue (ms : List Member) :
    ms.foldl (fun r x => r + reduxValue x) (0 : Word) = BitVec.ofInt 32 (ms.map reducedInt).sum := by
  rw [List.sum_eq_foldl, List.foldl_map]
  refine List.foldl_hom (BitVec.ofInt 32) (init := 0) fun r m => ?_
  rw [← reduxValue_toInt, BitVec.ofInt_add, BitVec.ofInt_toInt]

theorem toInt_ite_le_eq_min (x y : Word) : (if x.toInt ≤ y.toInt then x else y).toInt = min x.toInt y.toInt := by
  rw [min_def, apply_ite BitVec.toInt]

theorem toInt_ite_ge_eq_max (x y : Word) : (if y.toInt ≤ x.toInt then x else y).toInt = max x.toInt y.toInt := by
  rw [max_comm, max_def, apply_ite BitVec.toInt]

/-- A choice of words whose integers are chosen by `op`: its fold from a member is that of `op` from any other. -/
theorem foldl_choice_reduxValue {f : Word → Word → Word} (op : Int → Int → Int) [Std.Associative op] [Std.Commutative op]
    [Std.IdempotentOp op] (hf : ∀ x y, (f x y).toInt = op x.toInt y.toInt) {ms : List Member} {m k : Member} (hm : m ∈ ms)
    (hk : k ∈ ms) :
    ms.foldl (fun r x => f r (reduxValue x)) (reduxValue k) = BitVec.ofInt 32 ((ms.map reducedInt).foldl op (reducedInt m)) := by
  have hfold : (ms.map reducedInt).foldl op (reducedInt k) = (ms.foldl (fun r x => f r (reduxValue x)) (reduxValue k)).toInt := by
    rw [List.foldl_map, ← reduxValue_toInt]
    exact List.foldl_hom BitVec.toInt fun r x => by rw [hf, reduxValue_toInt]
  rw [foldl_eq_of_mem op (List.mem_map_of_mem hm) (List.mem_map_of_mem hk), hfold, BitVec.ofInt_toInt]

/-! ## The meaning of a lane-group word is its rule -/

/-- Word `i` gives each participant the result that `f` computes from the members and their predicates. -/
def ComputesInGroup (i : Instr) (f : (Member → Nat → Bool) → List Member → Member → Quad) : Prop :=
  ∃ g : State → Issue → List Member → Member → Quad,
    (∀ s, exec i s = issue s i (allMembers fun s is ms m => .done (g s is ms m)) noFront) ∧
    ∀ s is ms, ∀ m ∈ ms, g s is ms m = f (fun x p => (is.thread s x.tlin).pred p) ms m

theorem computesInGroup_of_reduxOp {f : Word → Word → Word} (op : Int → Int → Int) [Std.Associative op] [Std.Commutative op]
    [Std.IdempotentOp op] (hf : ∀ x y, (f x y).toInt = op x.toInt y.toInt) {i : Instr} (hi : ∀ s, exec i s = reduxOp f i s) :
    ComputesInGroup i fun _ ms m => (BitVec.ofInt 32 ((ms.map reducedInt).foldl op (reducedInt m))).zeroExtend 64 := by
  refine ⟨_, hi, fun s is ms m hm => ?_⟩
  cases ms with
  | nil => exact absurd hm List.not_mem_nil
  | cons x xs => exact congrArg (BitVec.zeroExtend 64) (foldl_choice_reduxValue op hf hm List.mem_cons_self)

/-- VOTE by a function of the values: `r` says the same of the members (R195). -/
theorem computesInGroup_of_voteOp (f : List Bool → Bool) (r : (Member → Bool) → List Member → Bool) {p : Nat} {inv : Bool}
    {i : Instr} (hi : ∀ s, exec i s = voteOp f p inv i s) (hr : ∀ v ms, f (ms.map v) = r v ms) :
    ComputesInGroup i fun pr ms _ => flag (r (fun m => m.on && (pr m p != inv)) ms) := by
  refine ⟨_, hi, fun s is ms m _ => ?_⟩
  rw [boolBit_flag]
  exact congrArg flag (hr _ ms)

/-- LXCH by its source lane (R196). -/
theorem computesInGroup_of_lxchOp {src : Nat → Nat → Option Nat} {i : Instr} (hi : ∀ s, exec i s = lxchOp src i s) :
    ComputesInGroup i fun _ ms m => exchanged src ms m :=
  ⟨_, hi, fun _ _ _ _ _ => rfl⟩

theorem lxchBack_source (i b : Nat) : (if i < b then none else some (i - b)) = if b ≤ i then some (i - b) else none := by
  simp only [← not_lt, ite_not]

theorem lxchFwd_source (i b : Nat) : (if 31 < i + b then none else some (i + b)) = if i + b ≤ 31 then some (i + b) else none := by
  simp only [← not_lt, ite_not]

theorem computesInGroup_of_groupRule {i : Instr} {f : (Member → Nat → Bool) → List Member → Member → Quad}
    (h : groupRule i = some f) : ComputesInGroup i f := by
  cases i
  case ballot n p d =>
    cases h
    exact ⟨_, fun _ => rfl, fun s is ms m _ => congrArg (BitVec.ofNat 64) (foldl_pow_lane_eq_laneBits _ ms)⟩
  case voteAny n p q =>
    cases h
    exact computesInGroup_of_voteOp (fun v => v.any id) (fun v ms => ms.any v) (fun _ => rfl) fun _ _ => List.any_map
  case voteAll n p q =>
    cases h
    exact computesInGroup_of_voteOp (fun v => v.all id) (fun v ms => ms.all v) (fun _ => rfl) fun _ _ => List.all_map
  case voteEq n p q =>
    cases h
    refine computesInGroup_of_voteOp (fun v => v.all id || !v.any id) (fun v ms => ms.all v || ms.all fun m => !v m)
      (fun _ => rfl) fun v ms => ?_
    rw [List.all_map, List.any_map, List.not_any_eq_all_not]
    rfl
  case lxchAt b a d => cases h; exact computesInGroup_of_lxchOp fun _ => rfl
  case lxchBack b a d => cases h; simp only [← lxchBack_source]; exact computesInGroup_of_lxchOp fun _ => rfl
  case lxchFwd b a d => cases h; simp only [← lxchFwd_source]; exact computesInGroup_of_lxchOp fun _ => rfl
  case lxchXor b a d => cases h; exact computesInGroup_of_lxchOp fun _ => rfl
  case reduxAdd a d =>
    cases h
    exact ⟨_, fun _ => rfl, fun s is ms m _ => congrArg (BitVec.zeroExtend 64) (foldl_add_reduxValue ms)⟩
  case reduxMin a d => cases h; exact computesInGroup_of_reduxOp min toInt_ite_le_eq_min fun _ => rfl
  case reduxMax a d => cases h; exact computesInGroup_of_reduxOp max toInt_ite_ge_eq_max fun _ => rfl
  case matchAny a d =>
    cases h
    exact ⟨_, fun _ => rfl, fun s is ms m _ => congrArg (BitVec.ofNat 64) (foldl_pow_lane_eq_laneBits _ ms)⟩
  all_goals exact absurd h nofun

/-! ## Lane-group words under the checks of R71 -/

theorem ComputesInGroup.exec_goes {i : Instr} {f : (Member → Nat → Bool) → List Member → Member → Quad} (hi : ComputesInGroup i f)
    {s s₁ : State} {is : Issue} {ms : List Member} (h : LaneReady s i s₁ is ms) :
    ∃ t, exec i s = .next t ∧ Goes s₁ t is ms fun m th =>
      writeResult (shape i) th (f (fun x p => (is.thread s₁ x.tlin).pred p) ms m) := by
  obtain ⟨g, hx, hg⟩ := hi
  rw [hx]
  refine issue_done h _ _ (f (fun x p => (is.thread s₁ x.tlin).pred p) ms) (congrArg (Prod.mk s₁) ?_)
  exact List.map_congr_left fun m hm => by rw [← hg s₁ is ms m hm]

/-- Settles O20: each word's arm computes its rule from the members, and an issue writes what its body computes. -/
theorem laneGroupResults : Obligations.LaneGroupResults := by
  intro i f s s₁ is ms hf h
  exact (computesInGroup_of_groupRule hf).exec_goes h

end Sys2Proof.Machine

/-! SUPPORT. Scheduler words of the front thread (R345 to R350): what each body answers, and the end of its issue. -/

namespace Sys2Proof.Machine

open Safety

/-! ## Ends of a front issue whose body has changed the state -/

section
variable {s u : State} {i : Instr} {is : FrontIssue} {b b' : Block} {body : Body}
  {front : State → FrontIssue → State × FrontFate}

theorem run_front_next (h : FrontReady s i is b) (hx : exec i s = issue s i body front)
    (hf : front (closeGroup s) is = (u, .next)) (hu : u.block is.blk = some b') :
    ∃ t, exec i s = .next t ∧ FrontGoes u t is b' b'.front is.next :=
  ⟨_, run_front h hx hf, finishFront_next u is b' hu⟩

theorem run_front_done {v : Quad} (h : FrontReady s i is b) (hx : exec i s = issue s i body front)
    (hf : front (closeGroup s) is = (u, .done v)) (hu : u.block is.blk = some b') :
    ∃ t, exec i s = .next t ∧ FrontGoes u t is b' (writeFront (shape i) b'.front v) is.next :=
  ⟨_, run_front h hx hf, front_q h ▸ finishFront_done u is b' v hu⟩

theorem run_front_done2 {v w : Quad} (h : FrontReady s i is b) (hx : exec i s = issue s i body front)
    (hf : front (closeGroup s) is = (u, .done2 v w)) (hu : u.block is.blk = some b') :
    ∃ t, exec i s = .next t ∧
      FrontGoes u t is b' ((b'.front.setReg (shape i).dst.1 v).setReg ((shape i).dst.1 + 1) w) is.next :=
  ⟨_, run_front h hx hf, front_q h ▸ finishFront_done2 u is b' v w hu⟩

theorem run_front_stall {w : Stall} (h : FrontReady s i is b) (hx : exec i s = issue s i body front)
    (hf : front (closeGroup s) is = (u, .stall w)) (hu : u.block is.blk = some b') :
    ∃ t, exec i s = .next t ∧ FrontGoes u t is b' { b'.front with status := .stalled w } is.next :=
  ⟨_, run_front h hx hf, finishFront_stall u is b' w hu⟩

/-- A trap at the group, from a body that has changed nothing. -/
theorem run_front_trap_start {c : BitVec 8} {a : Quad} {d : Nat} (h : FrontReady s i is b)
    (hx : exec i s = issue s i body front) (hf : front (closeGroup s) is = (closeGroup s, .trap c a d none))
    (hh : FrontHandled s b) :
    ∃ t, exec i s = .next t ∧ FrontTraps (closeGroup s) t is b c is.g.start a d :=
  run_front_trap (tpc := none) h hx hf h.block ⟨hh.dyer, hh.vec, hh.free⟩

end

/-! ## WRANGE (R346) -/

/-- Entry `k` of the division of a work-split launch into ranges; 0 in a launch of another mode. -/
def rangeStart (l : Launch) (k : Nat) : Quad := if l.mode = 1 then BitVec.ofNat 64 (k * l.wt / l.nblocks) else 0

theorem execWrange_goes {s : State} {is : FrontIssue} {b : Block} {d : BitVec 6} (h : FrontReady s (.wrange d) is b) :
    ∃ t, exec (.wrange d) s = .next t ∧
      let l := (closeGroup s).launchOf b
      FrontGoes (closeGroup s) t is b
        ((b.front.setReg d.toNat (rangeStart l b.b)).setReg (d.toNat + 1) (rangeStart l (b.b + 1))) is.next := by
  refine run_front_done2 h rfl ?_ h.block
  simp only [(front_block h).1, rangeStart, splitStart]
  split <;> rfl

/-! ## FIXUP (R347) -/

/-- The acquire part alone only asks again for lines on their way to the core. -/
theorem fenceDone_acquire_frame (s : State) (blk : Nat) (who : Option Nat) (scope : Nat) :
    fenceDone s blk who 1 scope = { s with net := (fenceDone s blk who 1 scope).net } := by
  unfold fenceDone
  cases (s.block blk).bind Block.place <;> rfl

theorem block_fenceDone_acquire (s : State) (blk : Nat) (who : Option Nat) (scope k : Nat) :
    (fenceDone s blk who 1 scope).block k = s.block k := by
  rw [fenceDone_acquire_frame]; rfl

theorem launches_fenceDone_acquire (s : State) (blk : Nat) (who : Option Nat) (scope : Nat) :
    (fenceDone s blk who 1 scope).launches = s.launches := by
  rw [fenceDone_acquire_frame]

theorem fixupTile_not_split {s : State} {k : Nat} {l : Launch} (t : Nat) (hl : tget s.launches k = some l) (hm : l.mode ≠ 1) :
    fixupTile s k t = (s, BitVec.ofNat 64 (2 ^ 32)) := by
  unfold fixupTile
  simp only [hl]
  exact if_pos hm

theorem fixupTile_split {s : State} {k : Nat} {l : Launch} (t : Nat) (hl : tget s.launches k = some l) (hm : l.mode = 1) :
    let n := (tget l.fixups t).getD 0
    fixupTile s k t =
      (s.modLaunch k fun l => { l with fixups := tset l.fixups t (n + 1) }, BitVec.ofNat 64 (contributors l t * 2 ^ 32 + n)) := by
  unfold fixupTile
  simp only [hl]
  exact if_neg (not_not.2 hm)

section
variable {s : State} {is : FrontIssue} {b : Block} {l : Launch} {a d : BitVec 6} {x : Nat}

theorem execFixup_traps (h : FrontReady s (.fixup a d) is b) (hl : (closeGroup s).launchOf b = l)
    (hx : (b.front.reg a.toNat).toNat = x) (hm : l.mode = 1) (ht : ceilDiv l.wt l.wipt ≤ x) (hh : FrontHandled s b) :
    ∃ t, exec (.fixup a d) s = .next t ∧ FrontTraps (closeGroup s) t is b causeIllopnd is.g.start 0 0 := by
  obtain ⟨hb, hf, -⟩ := front_block h
  refine run_front_trap_start h rfl ?_ hh
  simp [hb, hf, hl, hx, hm, ht]

theorem execFixup_stalls (h : FrontReady s (.fixup a d) is b) (hl : (closeGroup s).launchOf b = l)
    (hx : (b.front.reg a.toNat).toNat = x) (ht : l.mode = 1 → x < ceilDiv l.wt l.wipt) (hn : notHead (closeGroup s) b = false)
    (hr : released (closeGroup s) is.blk (closeGroup s).nextAcc = false) :
    ∃ t, exec (.fixup a d) s = .next t ∧ FrontGoes (closeGroup s) t is b
      { b.front with status := .stalled (.fixup d.toNat x (closeGroup s).nextAcc) } is.next := by
  obtain ⟨hb, hf, -⟩ := front_block h
  refine run_front_stall h rfl ?_ h.block
  simp only [hb, hf, hl, hx, hn, hr]
  rw [if_neg (by simpa using ht)]
  rfl

/-- A FIXUP whose release is complete takes what its tile's count gives (R347). -/
theorem execFixup_done {u : State} {v : Quad} (h : FrontReady s (.fixup a d) is b) (hl : (closeGroup s).launchOf b = l)
    (hx : (b.front.reg a.toNat).toNat = x) (ht : l.mode = 1 → x < ceilDiv l.wt l.wipt) (hn : notHead (closeGroup s) b = false)
    (hr : released (closeGroup s) is.blk (closeGroup s).nextAcc = true)
    (hv : fixupTile (fenceDone (closeGroup s) is.blk none 1 3) b.launch x = (u, v)) (hu : u.block is.blk = some b) :
    ∃ t, exec (.fixup a d) s = .next t ∧ FrontGoes u t is b (b.front.setReg d.toNat v) is.next := by
  obtain ⟨hb, hf, -⟩ := front_block h
  refine run_front_done h rfl ?_ hu
  simp only [hb, hf, hl, hx, hn, hr, hv]
  rw [if_neg (by simpa using ht)]
  rfl

end

/-! ## Checks of a scratchpad access (R237) -/

section
variable {s : State} {core blk h o size span : Nat} {k : TileAcc} {p : Spot}

theorem tileCheck_misaligned (ho : o % 2 ^ 20 % (if k = .setState then 4 else size) ≠ 0) :
    tileCheck s core blk h o size span k = .error (causeMisalign, 0) := if_pos ho

theorem tileCheck_no_tile (ho : o % 2 ^ 20 % (if k = .setState then 4 else size) = 0)
    (hs : spotOf s core blk h (o / 2 ^ 30 % 4) = none) : tileCheck s core blk h o size span k = .error (causeTile, 1) := by
  unfold tileCheck
  simp only [ho, hs, ne_eq, not_true_eq_false, if_false]

theorem tileCheck_of_reachesTile (r : ReachesTile s core blk h o size span k p) :
    tileCheck s core blk h o size span k = .ok p := by
  obtain ⟨⟨aligned, spot, inside, own, level, words⟩, free⟩ := r
  unfold tileCheck
  rw [if_neg (not_not.2 aligned)]
  simp only [spot, Bool.and_eq_true, Bool.or_eq_true, decide_eq_true_eq]
  rw [if_neg (by omega), if_neg ?peer, if_neg ?atomicLevel, if_neg ?fullEmptyPeer, if_neg ?fullEmptyLevel, if_neg ?fullEmptyWords]
  case peer => rintro ⟨hp, rfl | rfl⟩ <;> exact hp (own nofun)
  case atomicLevel => exact fun ⟨hk, ha⟩ => absurd ha (by simp [level (.inl hk)])
  case fullEmptyPeer => exact fun ⟨hk, hp⟩ => hp (own fun e => by simp [e, TileAcc.fullEmpty] at hk)
  case fullEmptyLevel => exact fun ⟨hk, ha⟩ => absurd ha (by simp [level (.inr hk)])
  case fullEmptyWords => exact fun ⟨hk, hs⟩ => words hk hs
  unfold tileLash at free
  split
  · rfl
  · next hs => rw [if_neg hs] at free; simp only [free]

end

theorem spotOf_own (s : State) (core blk h : Nat) : spotOf s core blk h 0 = (s.tile blk h).map fun t => ⟨core, blk, h, t⟩ :=
  if_pos rfl

/-! ## FETCHW (R348) -/

/-- A mailbox offset is 20 bits wide (R348), so as an offset source it names no peer. -/
theorem mailbox_offset_own (m : Quad) : field m 19 0 % 2 ^ 20 = field m 19 0 ∧ field m 19 0 / 2 ^ 30 % 4 = 0 := by
  have : field m 19 0 < 2 ^ 20 := Nat.mod_lt _ (by norm_num)
  omega

theorem block_modTile (s : State) (blk h : Nat) (f : Tile → Tile) {b : Block} (hb : s.block blk = some b) :
    (s.modTile blk h f).block blk = some { b with tiles := tmod b.tiles h f } := by
  rw [State.modTile, State.block_modBlock_self, hb]; rfl

/-- Marking words moves no front thread. -/
theorem block_markWords (s : State) (blk h : Nat) (full : Bool) (ws : List Nat) {b : Block} (hb : s.block blk = some b) :
    ∃ b', (markWords s blk h full ws).block blk = some b' ∧ b'.front = b.front := by
  unfold markWords
  split
  · exact ⟨b, hb, rfl⟩
  · rw [State.block_modBlock_self, block_modTile _ _ _ _ hb]
    exact ⟨_, rfl, rfl⟩

theorem block_writeMailbox (s : State) (blk h off : Nat) (ws : List Nat) {b : Block} (hb : s.block blk = some b) :
    ∃ b', (writeMailbox s blk h off ws).block blk = some b' ∧ b'.front = b.front := by
  unfold writeMailbox
  split
  · exact ⟨b, hb, rfl⟩
  · obtain ⟨b', hb', hfront⟩ := block_markWords _ blk h true (wordsFrom off 4) (block_modTile s blk h _ hb)
    exact ⟨b', hb', hfront⟩

theorem writeMailbox_zeros {s : State} {blk h off : Nat} {x : Tile} (hx : s.tile blk h = some x) :
    writeMailbox s blk h off [0, 0, 0, 0] =
      markWords (s.modTile blk h fun x => { x with bytes := x.bytes.setNum off 16 0 }) blk h true (wordsFrom off 4) := by
  unfold writeMailbox
  simp only [hx]
  rfl

section
variable {s : State} {is : FrontIssue} {b : Block} {a : BitVec 6} {m : Quad} {p : Spot}

theorem execFetchw_reserved_traps (h : FrontReady s (.fetchw a) is b) (hm : b.front.reg a.toNat = m) (hz : field m 63 26 ≠ 0)
    (hh : FrontHandled s b) :
    ∃ t, exec (.fetchw a) s = .next t ∧ FrontTraps (closeGroup s) t is b causeIllopnd is.g.start 0 0 := by
  obtain ⟨-, hf, -⟩ := front_block h
  refine run_front_trap_start h rfl ?_ hh
  simp only [hf, hm]
  exact if_pos hz

theorem execFetchw_check_traps {c : BitVec 8} {e : Nat} (h : FrontReady s (.fetchw a) is b) (hm : b.front.reg a.toNat = m)
    (hz : field m 63 26 = 0)
    (hc : tileCheck (closeGroup s) is.core is.blk (field m 25 20) (field m 19 0) 16 16 .storeAny = .error (c, e))
    (hh : FrontHandled s b) :
    ∃ t, exec (.fetchw a) s = .next t ∧ FrontTraps (closeGroup s) t is b c is.g.start (BitVec.ofNat 64 (field m 19 0)) e := by
  obtain ⟨-, hf, -⟩ := front_block h
  refine run_front_trap_start h rfl ?_ hh
  simp only [hf, hm, hc]
  exact if_neg (not_not.2 hz)

/-- In a FETCHW launch the mailbox goes to the Dispatcher. -/
theorem execFetchw_asks (h : FrontReady s (.fetchw a) is b) (hm : b.front.reg a.toNat = m) (hz : field m 63 26 = 0)
    (r : ReachesTile (closeGroup s) is.core is.blk (field m 25 20) (field m 19 0) 16 16 .storeAny p)
    (hl : ((closeGroup s).launchOf b).mode = 2) :
    ∃ t, exec (.fetchw a) s = .next t ∧
      FrontGoes { closeGroup s with net := (closeGroup s).net ++ [.fetchw is.blk (field m 25 20) (field m 19 0)] }
        t is b b.front is.next := by
  obtain ⟨hb, hf, -⟩ := front_block h
  refine run_front_next h rfl ?_ h.block
  simp only [hb, hf, hm, tileCheck_of_reachesTile r, hl]
  exact if_neg (not_not.2 hz)

theorem execFetchw_writes_zeros (h : FrontReady s (.fetchw a) is b) (hm : b.front.reg a.toNat = m) (hz : field m 63 26 = 0)
    (r : ReachesTile (closeGroup s) is.core is.blk (field m 25 20) (field m 19 0) 16 16 .storeAny p)
    (hl : ((closeGroup s).launchOf b).mode ≠ 2) :
    let u := writeMailbox (closeGroup s) is.blk (field m 25 20) (field m 19 0) [0, 0, 0, 0]
    ∃ t b', u.block is.blk = some b' ∧ exec (.fetchw a) s = .next t ∧ FrontGoes u t is b' b.front is.next := by
  obtain ⟨hb, hf, hk⟩ := front_block h
  obtain ⟨b', hu, hfront⟩ := block_writeMailbox (closeGroup s) is.blk (field m 25 20) (field m 19 0) [0, 0, 0, 0] hk
  obtain ⟨t, ht, hgo⟩ := run_front_next h rfl (by
    simp only [hb, hf, hm, tileCheck_of_reachesTile r, if_neg hl]
    exact if_neg (not_not.2 hz)) hu
  exact ⟨t, b', hu, ht, hfront ▸ hgo⟩

end

/-! ## SCRET and POWQ (R349, R350) -/

section
variable {s : State} {is : FrontIssue} {b : Block}

theorem execScret_traps {a : BitVec 6} (h : FrontReady s (.scret a) is b) (hv : field (b.front.reg a.toNat) 63 32 ≠ 0)
    (hh : FrontHandled s b) :
    ∃ t, exec (.scret a) s = .next t ∧ FrontTraps (closeGroup s) t is b causeIllopnd is.g.start 0 0 := by
  refine run_front_trap_start h rfl ?_ hh
  simp only [(front_block h).2.1]
  exact if_pos hv

theorem execScret_goes {a : BitVec 6} (h : FrontReady s (.scret a) is b) (hv : field (b.front.reg a.toNat) 63 32 = 0) :
    ∃ t, exec (.scret a) s = .next t ∧
      FrontGoes ((closeGroup s).modLaunch b.launch fun l => { l with ret := l.ret ||| (b.front.reg a.toNat).truncate 32 })
        t is b b.front is.next := by
  obtain ⟨hb, hf, -⟩ := front_block h
  refine run_front_next h rfl ?_ h.block
  simp only [hb, hf]
  exact if_neg (not_not.2 hv)

/-- The clocks of the states of an island, in MHz (R350). -/
theorem vfsMHz_eq_getD (v : BitVec 3) : vfsMHz v.toNat = [0, 700, 1050, 1400, 1600, 1800, 2000, 2100].getD v.toNat 0 := by
  revert v; decide

theorem boolBit_mul (p : Bool) (n : Nat) : boolBit p * n = if p then n else 0 := by
  cases p
  · exact Nat.zero_mul n
  · exact Nat.one_mul n

theorem powqWord_eq (s : State) (core : Nat) :
    let n := 64 * (core / 40) + core % 40
    let x := s.island n
    powqWord s core = [0, 700, 1050, 1400, 1600, 1800, 2000, 2100].getD x.vfs.toNat 0 * 2 ^ 32 + n * 2 ^ 16 +
      (if field x.cmd 47 32 = 0 then 16 else 0) + (if x.ovb then 8 else 0) + x.vfs.toNat := by
  simp only [powqWord, vfsMHz_eq_getD, boolBit_mul, decide_eq_true_eq]
  rfl

theorem execPowq_goes {d : BitVec 6} (h : FrontReady s (.powq d) is b) :
    ∃ t, exec (.powq d) s = .next t ∧
      FrontGoes (closeGroup s) t is b (b.front.setReg d.toNat (BitVec.ofNat 64 (powqWord (closeGroup s) is.core))) is.next :=
  run_front_done h rfl rfl h.block

end

/-- Settles O47, word by word: the body of each answers from the front thread's block, its launch and its tile. -/
theorem schedulerWords : Obligations.SchedulerWords := by
  intro s is b
  refine ⟨?wrange, ?fixup, ?fetchw, ?scret, ?powq⟩
  case wrange => exact fun d h => execWrange_goes h
  case fixup =>
    intro a d h hl
    have hblock := (block_fenceDone_acquire (closeGroup s) is.blk none 3 is.blk).trans h.block
    have hlaunch := (congrArg (tget · b.launch) (launches_fenceDone_acquire (closeGroup s) is.blk none 3)).trans hl
    exact ⟨fun hm ht hh => execFixup_traps h rfl rfl hm ht hh, fun ht hn =>
      ⟨fun hr => execFixup_stalls h rfl rfl ht hn hr,
        fun hr hm => execFixup_done h rfl rfl ht hn hr (fixupTile_not_split _ hlaunch hm) hblock,
        fun hr hm => execFixup_done h rfl rfl ht hn hr (fixupTile_split _ hlaunch hm) hblock⟩⟩
  case fetchw =>
    intro a h _ m _ off
    obtain ⟨hoff, hpeer⟩ := mailbox_offset_own m
    refine ⟨fun hz hh => execFetchw_reserved_traps h rfl hz hh, fun hz ho hh => ?misaligned, fun hz ho hn hh => ?noTile,
      fun hz p r => ⟨fun hl => execFetchw_asks h rfl hz r hl, fun hl => ?zeros⟩⟩
    case misaligned => exact execFetchw_check_traps h rfl hz (tileCheck_misaligned (by rwa [hoff])) hh
    case noTile =>
      exact execFetchw_check_traps h rfl hz (tileCheck_no_tile (by rwa [hoff]) (by rw [hpeer, spotOf_own, hn]; rfl)) hh
    case zeros =>
      obtain ⟨x, hx, -⟩ := Option.map_eq_some_iff.1 ((spotOf_own ..).symm.trans (hpeer ▸ r.spot))
      rw [← writeMailbox_zeros hx]
      exact execFetchw_writes_zeros h rfl hz r hl
  case scret => exact fun a h => ⟨fun hv hh => execScret_traps h hv hh, fun hv => execScret_goes h hv⟩
  case powq =>
    intro d h
    obtain ⟨t, ht, hgo⟩ := execPowq_goes h
    exact ⟨t, ht, powqWord_eq (closeGroup s) is.core ▸ hgo⟩

end Sys2Proof.Machine
